-- ==== Sys2Proof/Word.lean ====
section
/-!
DEFINITION. The byte and the byte sequence: the only stored word of this hardware (R11 `u8`, R40).
-/

namespace Sys2Proof

/-- A stored byte, `u8` of R11. -/
abbrev Byte := BitVec 8

/-- A byte sequence, indexed from 0 (R11, R34). -/
abbrev Bytes := List Byte

end Sys2Proof
end

