-- ==== Sys2Proof/Syntax.lean ====
section
/-!
DEFINITION. The instructions: one constructor per row of `spec/opcode_table.json`. The first seven are the opcodes of the
two stream formats, with the operands of R64; the other ten are the host commands of 45_host_interface.md.
-/

namespace Sys2Proof

/-- The optional progress callback of a compression command (R9, R132): what the host's code does when the engine calls
it at a notification (R133). -/
inductive Progress where
  /-- no callback was given (the default, R30) -/
  | absent
  /-- a callback that returns at once and issues nothing to the engine (R132, R154 duty 4) -/
  | returning
  /-- a callback that does, at each notification, what its host thread's coming actions say, until the one that returns
  from it: it may issue, launch and discard as any host code may (R133 "do anything not touching the command's input") -/
  | acting
  /-- a callback that never returns from the notification at position `pos` (R132 "Hang", I5) -/
  | hangsAt (pos : Nat)
  /-- a callback that raises or unwinds from the notification at position `pos` (D31, I6) -/
  | unwindsAt (pos : Nat)
deriving DecidableEq, Repr

/-- Every row of `spec/opcode_table.json`. -/
inductive Instr where
  /-- PRS `LIT v` (R101) -/
  | lit (v : Byte)
  /-- PRS `SCOPY off, cnt` (R102) -/
  | scopy (off : Int) (cnt : Nat)
  /-- PRS `LCOPY off, cnt` (R103) -/
  | lcopy (off : Int) (cnt : Nat)
  /-- PRS `ECOPY off, cnt` (R104) -/
  | ecopy (off : Int) (cnt : Nat)
  /-- PRS `STOP f`: `f` is `F[2:0]`, and since `F[15:3] = 0` it is all of `F` (R58, R105) -/
  | stop (f : BitVec 3)
  /-- BC0 `LIT`, written `BLIT v` (R120) -/
  | blit (v : Byte)
  /-- BC0 `REF`, written `BREF m, cnt`: `m` is an absolute memo index (R60, R121) -/
  | bref (m : BitVec 12) (cnt : Nat)
  /-- `prs_compress(bytes, level, progress?)` (R124) -/
  | prsCompress (bytes : Bytes) (level : Int) (progress : Progress)
  /-- `PRSC.NEW(level, progress)` (R80) -/
  | prscNew (level : Int) (progress : Progress)
  /-- `PRSC.ADD(bytes)` on the instance the host refers to by `h` (R81) -/
  | prscAdd (h : Nat) (bytes : Bytes)
  /-- `PRSC.CLOSE()` on the instance the host refers to by `h` (R82) -/
  | prscClose (h : Nat)
  /-- `bc0_compress(bytes, progress?)` (R126) -/
  | bc0Compress (bytes : Bytes) (progress : Progress)
  /-- `prs_decompress(bytes, max_output_size)` (R127) -/
  | prsDecompress (bytes : Bytes) (maxOut : Nat)
  /-- `prs_decompress_size(bytes, max_output_size)` (R128) -/
  | prsDecompressSize (bytes : Bytes) (maxOut : Nat)
  /-- `prs_disassemble(sink, bytes)`; the host names its sink by a number (R129) -/
  | prsDisassemble (sink : Nat) (bytes : Bytes)
  /-- `bc0_decompress(bytes)` (R130) -/
  | bc0Decompress (bytes : Bytes)
  /-- `bc0_disassemble(sink, bytes)` (R131) -/
  | bc0Disassemble (sink : Nat) (bytes : Bytes)
deriving DecidableEq, Repr

/-- One record of the PRS disassembler, `(in_off, bit_off, out_off, kind, params)` (R108). `op` is the kind and its
parameters together. -/
structure PrsRecord where
  inOff : Nat
  bitOff : Nat
  outOff : Nat
  op : Instr
deriving DecidableEq, Repr

/-- One record of the BC0 disassembler, `(in_off, out_off, kind, params)` (R122). -/
structure Bc0Record where
  inOff : Nat
  outOff : Nat
  op : Instr
deriving DecidableEq, Repr

/-- What a disassembler writes to its sink: a record, or at the end the final output count (R129, R131). -/
inductive SinkItem where
  | prs (r : PrsRecord)
  | bc0 (r : Bc0Record)
  | finalCount (n : Nat)
deriving DecidableEq, Repr

/-- One progress notification: which unit made it and its position when it did (R132). -/
inductive Note where
  /-- PRSC, at boundary `b` (R88) -/
  | prsc (b : Nat)
  /-- BC0C, at position `i` (R114) -/
  | bc0c (i : Nat)
deriving DecidableEq, Repr

end Sys2Proof
end

