-- ==== Sys2Proof/Config.lean ====
section
/-!
DEFINITION. The fixed constants of R8 and the two open parameters of R10. The parameters have no body: nothing can be
proved of their values, and no output byte, output length or error depends on them.
-/

namespace Sys2Proof.Config

/-- `PRS_MAX_COPY`: the largest length of any PRS copy (R8). -/
def prsMaxCopy : Nat := 256

/-- `PRS_WINDOW`: the largest distance PRSC references (R8, R85). -/
def prsWindow : Nat := 8191

/-- `PRS_SHORT_WINDOW`: the largest distance of a short copy (R8). -/
def prsShortWindow : Nat := 256

/-- `PROGRESS_INTERVAL`: bytes between progress notifications (R8, R132). -/
def progressInterval : Nat := 4096

/-- `BC0_N`: the BC0 window and memo size (R8). -/
def bc0N : Nat := 4096

/-- `BC0_F`: the longest BC0 match and the index key's length (R8). -/
def bc0F : Nat := 18

/-- `BC0_MIN`: the shortest BC0 match (R8). -/
def bc0Min : Nat := 3

/-- `BC0_CURSOR0`: the memo cursor's first value, `BC0_N - BC0_F` (R8). -/
def bc0Cursor0 : BitVec 12 := 0xFEE#12

/-- `TRACE_TEXT`: the text line of a trace record or of the final count (R10, D18, I10). -/
opaque traceText : SinkItem → String

/-- `PROGRESS_ARGS`: the values passed to one progress notification, copies only (R10, R132, D16, I9). -/
opaque progressArgs : Note → List Int

end Sys2Proof.Config
end

