-- ==== Sys2Proof/WellFormed.lean ====
section
/-!
DEFINITION. The operand ranges of R64 (stream opcodes) and R9 (host commands), as a check.
-/

namespace Sys2Proof

/-- Every operand lies in the range R64 gives its opcode; a `level` is a natural number (R9). -/
def wellFormed : Instr → Bool
  | .lit _ => true
  | .scopy off cnt => decide (-256 ≤ off ∧ off ≤ -1 ∧ 2 ≤ cnt ∧ cnt ≤ 5)
  | .lcopy off cnt => decide (-8191 ≤ off ∧ off ≤ -1 ∧ 3 ≤ cnt ∧ cnt ≤ 9)
  | .ecopy off cnt => decide (-8191 ≤ off ∧ off ≤ -1 ∧ 1 ≤ cnt ∧ cnt ≤ 256)
  | .stop _ => true
  | .blit _ => true
  | .bref _ cnt => decide (3 ≤ cnt ∧ cnt ≤ 18)
  | .prsCompress _ level _ => decide (0 ≤ level)
  | .prscNew level _ => decide (0 ≤ level)
  | .prscAdd _ _ => true
  | .prscClose _ => true
  | .bc0Compress _ _ => true
  | .prsDecompress _ _ => true
  | .prsDecompressSize _ _ => true
  | .prsDisassemble _ _ => true
  | .bc0Decompress _ => true
  | .bc0Disassemble _ _ => true

end Sys2Proof
end

