-- ==== Sys2Proof/Decode.lean ====
section
/-!
DEFINITION. The control-bit readers of both formats, the decode trees of R54 and R59, the encoder, the pseudo-instructions
of R65, and the opcode table's words. Decoding is total: a stream that ends inside an opcode is rejected by name.
-/

namespace Sys2Proof

/-! ## Field assembly (R36, R37, R56, R57, R59, R60) -/

/-- `F = byte0 | (byte1 << 8)` (R36); the two operands of `|` share no bit, so it is their sum. -/
def fieldF (b0 b1 : Byte) : Nat := b0.toNat + 256 * b1.toNat

/-- `F[15:3]`, the 13-bit offset field (R53). -/
def offsetField (f : Nat) : Nat := f / 8 % 8192

/-- `F[2:0]`, the 3-bit length field (R53). -/
def lengthField (f : Nat) : Nat := f % 8

/-- The short copy's count `((h << 1) | l) + 2` (R56). -/
def shortCount (h l : Bool) : Nat := 2 * h.toNat + l.toNat + 2

/-- The short copy's offset `O - 256` (R56, C1). -/
def shortOffset (o : Byte) : Int := (o.toNat : Int) - 256

/-- The long and extended copies' offset `F[15:3] - 8192` (R57, C1). -/
def longOffset (f : Nat) : Int := (offsetField f : Int) - 8192

/-- The long copy's count `F[2:0] + 2` (R57, C2). -/
def longCount (f : Nat) : Nat := lengthField f + 2

/-- The extended copy's count `N + 1` (R57). -/
def extCount (n : Byte) : Nat := n.toNat + 1

/-- The memo offset `m = b0 | (b1[7:4] << 8)` (R37, R59). -/
def memoOffset (b0 b1 : Byte) : BitVec 12 := BitVec.ofNat 12 (b0.toNat + 256 * (b1.toNat / 16))

/-- The BC0 count `b1[3:0] + 3` (R59). -/
def refCount (b1 : Byte) : Nat := b1.toNat % 16 + 3

/-! ## The reader (R74, R75, R78) -/

/-- A decoder's read position in its stream: `IN`, `in_pos`, `ctl`, `ctl_left` of R23 and R27, and the count of control
bits read so far, which R108 reports as `bit_off`. -/
structure Reader where
  input : Bytes
  pos : Nat
  ctl : Byte
  left : Nat
  bits : Nat
deriving DecidableEq, Repr

/-- A reader at the start of a command (R23, R27). -/
def Reader.start (input : Bytes) : Reader :=
  { input := input, pos := 0, ctl := 0#8, left := 0, bits := 0 }

/-- Why a stream gives no opcode. -/
inductive DecodeError where
  /-- a byte of the opcode is needed at `pos` and the input has ended (R74, R75) -/
  | truncated (pos : Nat)
deriving DecidableEq, Repr

/-- Take the next bit of a control byte already fetched (R74, R78: bit 0 first). -/
def Reader.shiftBit (r : Reader) : Bool × Reader :=
  (r.ctl.getLsbD 0, { r with ctl := r.ctl >>> 1, left := r.left - 1, bits := r.bits + 1 })

/-- `GetBit` (R74): a control byte is fetched only when a bit is needed and the previous 8 are used. -/
def Reader.getBit (r : Reader) : Except DecodeError (Bool × Reader) :=
  if r.left = 0 then
    match r.input[r.pos]? with
    | none => .error (.truncated r.pos)
    | some c => .ok (Reader.shiftBit { r with ctl := c, pos := r.pos + 1, left := 8 })
  else .ok r.shiftBit

/-- `GetByte` (R75). -/
def Reader.getByte (r : Reader) : Except DecodeError (Byte × Reader) :=
  match r.input[r.pos]? with
  | none => .error (.truncated r.pos)
  | some v => .ok (v, { r with pos := r.pos + 1 })

/-! ## The PRS decode tree (R54) -/

/-- The rest of a short copy after control bits `0 0`: bits `h`, `l`, then the offset byte (R102). -/
def decodeShort (r : Reader) : Except DecodeError (Instr × Reader) := do
  let (h, r) ← r.getBit
  let (l, r) ← r.getBit
  let (o, r) ← r.getByte
  return (.scopy (shortOffset o) (shortCount h l), r)

/-- The rest of a long-form opcode after control bits `0 1`: two bytes `F`, and for an extended copy the length byte;
`STOP` is told by `F[15:3] = 0` before anything else is looked at (R54, R58). -/
def decodeLong (r : Reader) : Except DecodeError (Instr × Reader) := do
  let (b0, r) ← r.getByte
  let (b1, r) ← r.getByte
  let f := fieldF b0 b1
  if offsetField f = 0 then
    return (.stop (BitVec.ofNat 3 (lengthField f)), r)
  else if lengthField f ≠ 0 then
    return (.lcopy (longOffset f) (longCount f), r)
  else
    let (n, r) ← r.getByte
    return (.ecopy (longOffset f) (extCount n), r)

/-- One PRS opcode (R54, R99). -/
def decodePrs (r : Reader) : Except DecodeError (Instr × Reader) := do
  let (a, r) ← r.getBit
  if a then
    let (v, r) ← r.getByte
    return (.lit v, r)
  else
    let (b, r) ← r.getBit
    if b then decodeLong r else decodeShort r

/-! ## The BC0 decode tree (R59, R119) -/

/-- What the BC0 loop meets at an opcode boundary: an opcode, or the end of the input (R119). -/
inductive Bc0Fetch where
  /-- a whole opcode and the reader after it -/
  | op (i : Instr) (r : Reader)
  /-- `END`: a control byte or a data byte is missing; the partial opcode is discarded (R78, R120, R121, D27) -/
  | ended (r : Reader)
deriving DecidableEq, Repr

/-- One BC0 opcode, or `END`. A discarded partial opcode has used its control bit and no data byte (R120, R121). -/
def decodeBc0 (r : Reader) : Bc0Fetch :=
  match r.getBit with
  | .error _ => .ended r
  | .ok (true, r) =>
    match r.input[r.pos]? with
    | some v => .op (.blit v) { r with pos := r.pos + 1 }
    | none => .ended r
  | .ok (false, r) =>
    match r.input[r.pos]?, r.input[r.pos + 1]? with
    | some b0, some b1 => .op (.bref (memoOffset b0 b1) (refCount b1)) { r with pos := r.pos + 2 }
    | _, _ => .ended r

/-! ## The encoder (R52, R53, R59, and the emission rules R89 to R93, R115, R116) -/

/-- An opcode word: its control bits in read order and its data bytes in stream order (R52). -/
structure Code where
  bits : List Bool
  data : Bytes
deriving DecidableEq, Repr

/-- The two bytes of a 16-bit field: `F mod 256`, then `F >> 8` (R57). -/
def fieldBytes (f : Nat) : Bytes := [BitVec.ofNat 8 f, BitVec.ofNat 8 (f / 256)]

/-- `LIT v` (R89). -/
def litCode (v : Byte) : Code := { bits := [true], data := [v] }

/-- `SCOPY` at distance `d`, length `len`: bits `0 0`, then `len - 2` high bit first, byte `256 - d` (R90). -/
def shortCode (d len : Nat) : Code :=
  { bits := [false, false, (len - 2) / 2 % 2 == 1, (len - 2) % 2 == 1], data := [BitVec.ofNat 8 (256 - d)] }

/-- `LCOPY` at distance `d`, length `len`: `F = ((8192 - d) << 3) | (len - 2)` (R91). -/
def longCode (d len : Nat) : Code :=
  { bits := [false, true], data := fieldBytes ((8192 - d) * 8 + (len - 2)) }

/-- `ECOPY` at distance `d`, length `len`: `F = (8192 - d) << 3`, then `len - 1` (R92). -/
def extCode (d len : Nat) : Code :=
  { bits := [false, true], data := fieldBytes ((8192 - d) * 8) ++ [BitVec.ofNat 8 (len - 1)] }

/-- `STOP f` (R58, R93). -/
def stopCode (f : BitVec 3) : Code := { bits := [false, true], data := fieldBytes f.toNat }

/-- BC0 `LIT v` (R115). -/
def blitCode (v : Byte) : Code := { bits := [true], data := [v] }

/-- BC0 `REF`: bytes `m mod 256` and `((m >> 8) << 4) | (len - 3)` (R116). -/
def brefCode (m : BitVec 12) (len : Nat) : Code :=
  { bits := [false], data := [BitVec.ofNat 8 m.toNat, BitVec.ofNat 8 (m.toNat / 256 * 16 + (len - 3))] }

/-- The opcode word of a stream opcode; a host command has no encoding. -/
def encode : Instr → Option Code
  | .lit v => some (litCode v)
  | .scopy off cnt => some (shortCode (-off).toNat cnt)
  | .lcopy off cnt => some (longCode (-off).toNat cnt)
  | .ecopy off cnt => some (extCode (-off).toNat cnt)
  | .stop f => some (stopCode f)
  | .blit v => some (blitCode v)
  | .bref m cnt => some (brefCode m cnt)
  | .prsCompress _ _ _ => none
  | .prscNew _ _ => none
  | .prscAdd _ _ => none
  | .prscClose _ => none
  | .bc0Compress _ _ => none
  | .prsDecompress _ _ => none
  | .prsDecompressSize _ _ => none
  | .prsDisassemble _ _ => none
  | .bc0Decompress _ => none
  | .bc0Disassemble _ _ => none

/-- The control byte of a group whose bits are `bs`, the first in bit 0 (R15, R38); unused high bits are 0 (R72, R77). -/
def controlByte : List Bool → Byte
  | [] => 0#8
  | b :: bs => BitVec.ofNat 8 (b.toNat + 2 * (controlByte bs).toNat)

/-- An opcode word laid out at the start of a stream: its control byte, then its data bytes (R73). -/
def Code.layout (c : Code) : Bytes := controlByte c.bits :: c.data

/-! ## Pseudo-instructions (R65) -/

/-- `COPY off, cnt` is the opcode PRSC's selection picks; a count of 2 beyond distance 256 is refused (R65). -/
def pseudoCopy (off : Int) (cnt : Nat) : Option Instr :=
  if off < -8191 ∨ -1 < off ∨ cnt < 2 ∨ 256 < cnt then none
  else if -256 ≤ off ∧ cnt ≤ 5 then some (.scopy off cnt)
  else if cnt < 3 then none
  else if cnt ≤ 9 then some (.lcopy off cnt)
  else some (.ecopy off cnt)

/-- `m = (q + 0x0FEE) mod 4096`, the memo offset of input position `q` (R60). -/
def memoOf (q : Nat) : BitVec 12 := BitVec.ofNat 12 q + Config.bc0Cursor0

/-- `BREFQ q, cnt` names a match at input position `q` (R65). -/
def pseudoBrefq (q cnt : Nat) : Instr := .bref (memoOf q) cnt

/-! ## The opcode table's words -/

/-- The bits `hi`, `hi - 1`, …, `0` of `w`, most significant first. -/
def bitsDown (w : Nat) : Nat → List Bool
  | 0 => []
  | n + 1 => w.testBit n :: bitsDown w n

/-- The low `8 * n` bits of `w` as `n` bytes, the most significant byte first. -/
def bytesDown (w : Nat) : Nat → Bytes
  | 0 => []
  | n + 1 => BitVec.ofNat 8 (w / 256 ^ n) :: bytesDown w n

/-- Which of the two stream formats an opcode word belongs to. -/
inductive Format where
  | prs
  | bc0
deriving DecidableEq, Repr

/-- A table word: control bits in read order, first-read bit most significant, then the data bytes in stream order
(`opcode_table.json`, "word"); laid out at the start of a stream and followed by one zero byte. -/
def tableLayout (nctl ndata w : Nat) : Bytes :=
  Code.layout { bits := bitsDown (w / 256 ^ ndata) nctl, data := bytesDown w ndata } ++ [0#8]

/-- The stream a table word of `nbits` bits stands for. The table's widths are 9, 12, 17, 18 and 26 bits; in whole bytes
9 and 12 both read 16, 17 and 18 both read 24, and 26 reads 32, so there the row is told by the word's own top bits, the
table's earlier row first. -/
def tableStream (nbits w : Nat) : Option (Format × Bytes) :=
  match nbits with
  | 9 => some (.prs, tableLayout 1 1 w)
  | 12 => some (.prs, tableLayout 4 1 w)
  | 17 => some (.bc0, tableLayout 1 2 w)
  | 18 => some (.prs, tableLayout 2 2 w)
  | 26 => some (.prs, tableLayout 2 3 w)
  | 16 =>
    if w / 256 = 1 then some (.prs, tableLayout 1 1 w)
    else if w < 1024 then some (.prs, tableLayout 4 1 w)
    else none
  | 24 =>
    if w < 65536 then some (.bc0, tableLayout 1 2 w)
    else if w < 131072 then some (.prs, tableLayout 2 2 w)
    else none
  | 32 => if w / 16777216 = 1 then some (.prs, tableLayout 2 3 w) else none
  | _ => none

/-- What the decoders read from an opcode table word. -/
def decodeTableWord (nbits w : Nat) : Option Instr :=
  match tableStream nbits w with
  | none => none
  | some (.prs, bytes) =>
    match decodePrs (Reader.start bytes) with
    | .ok (i, _) => some i
    | .error _ => none
  | some (.bc0, bytes) =>
    match decodeBc0 (Reader.start bytes) with
    | .op i _ => some i
    | .ended _ => none

end Sys2Proof
end

