-- ==== Sys2Proof/Machine/State.lean ====
section
/-!
DEFINITION. The state of the engine and of its host interface, as plain data: the unit records of R20, R23, R25 and R27,
the live PRSC instances, the host threads and what the host has received; the faults and refusals; the state at reset.
-/

namespace Sys2Proof.Machine

/-! ## Memory -/

/-- BC0D's memo as (address, byte) cells: addresses strictly rising, and no cell equal to the seed 00 that an unlisted
address reads as (R27). -/
abbrev Memory := List Host.Cell

/-! ## Errors and results -/

/-- The `info` of `INTERNAL_INVARIANT`: a match without an encoding, or a text (R134). -/
inductive InvariantInfo where
  | pair (d len : Nat)
  | text (t : String)
deriving DecidableEq, Repr

/-- The five error kinds with their `info` (R134). -/
inductive EngineError where
  | usage (info : String)
  | malformedBackref (outLen : Nat) (offset : Int)
  | malformedTruncated (inPos : Nat)
  | resourceLimit (len : Nat)
  | internalInvariant (info : InvariantInfo)
deriving DecidableEq, Repr

/-- The success result of a command: bytes, an integer, a new PRSC instance, or nothing (R14, 45_host_interface.md). -/
inductive Result where
  | bytes (b : Bytes)
  | int (n : Nat)
  | handle (h : Nat)
  | unit
deriving DecidableEq, Repr

/-- What a command returns to its caller: a result, or exactly one error (R134). -/
inductive Response where
  | ok (r : Result)
  | error (e : EngineError)
deriving DecidableEq, Repr

/-! ## Unit instances -/

/-- `mode` of a decoder (R23, R27); BC0D uses `bytes` and `trace`. -/
inductive Mode where
  | bytes
  | size
  | trace
deriving DecidableEq, Repr

/-- `end` of PRSD (R23). -/
inductive PrsdEnd where
  | running
  | stop
  | cleanEnd
deriving DecidableEq, Repr

/-- The PRS decompressor's record (R23); `rd` holds `IN`, `in_pos`, `ctl` and `ctl_left`. `markIn` and `markBit` are the
input position and control-bit count at the start of the opcode now executing, which R108 reports. `sink` is the number
of the host sink that TRACE mode writes to (R129). -/
structure Prsd where
  rd : Reader
  mode : Mode
  maxOut : Nat
  out : Bytes
  outLen : Nat
  trace : List PrsRecord
  fin : PrsdEnd
  markIn : Nat
  markBit : Nat
  sink : Nat
deriving DecidableEq, Repr

/-- The BC0 decompressor's record (R27). `markIn` is the input position at the start of the opcode now executing (R122),
`done` says that the loop of R119 has been left and `Result()` comes next. -/
structure Bc0d where
  rd : Reader
  memo : Memory
  cur : BitVec 12
  mode : Mode
  out : Bytes
  outLen : Nat
  trace : List Bc0Record
  markIn : Nat
  done : Bool
  sink : Nat
deriving DecidableEq, Repr

/-- The PBS writer's fields of R20: `out`, `ctl_off`, `pend`, `npend`. The byte at `ctlOff` is a placeholder and not
final until it is backfilled (R157). -/
structure PbsWriter where
  out : Bytes
  ctlOff : Nat
  pend : Byte
  npend : Nat
deriving DecidableEq, Repr

/-- The PRS compressor's record (R20). -/
structure Prsc where
  level : Nat
  progress : Progress
  data : Bytes
  b : Nat
  w : PbsWriter
  closed : Bool
  failed : Bool
  result : Bytes
deriving DecidableEq, Repr

/-- The BC0 compressor's record (R25) and its callback (R30). `x` is the set `X`; its order is the key order of R26,
which the search computes. -/
structure Bc0c where
  d : Bytes
  n : Nat
  i : Nat
  x : List Nat
  out : Bytes
  gctl : Option Nat
  gbits : Nat
  progress : Progress
deriving DecidableEq, Repr

/-- A PRSC instance as the host's reference finds it (R125, R133). -/
inductive PrscSlot where
  /-- alive, with no command in flight on it -/
  | live (p : Prsc)
  /-- an ADD or CLOSE is running on it, step by step; its record is with that command -/
  | inFlight
  /-- discarded by the host -/
  | discarded
deriving DecidableEq, Repr

/-- What a launched PRSC command still has to do. -/
inductive PrscJob where
  /-- the loop of ADD (R81), then return nothing -/
  | adding
  /-- the loop of CLOSE (R82), then `EmitStop`, `Finish` and return the stream -/
  | closing
  /-- `prs_compress` (R124): the loop of ADD, then CLOSE -/
  | oneShot
deriving DecidableEq, Repr

/-- The command in flight on a host thread: none, or one unit instance (R18). -/
inductive Flight where
  | idle
  | prsd (p : Prsd)
  | bc0d (d : Bc0d)
  | bc0c (c : Bc0c)
  /-- `slot` is the host's reference to the instance; `prs_compress` has none -/
  | prsc (slot : Option Nat) (p : Prsc) (job : PrscJob)
deriving DecidableEq, Repr

/-! ## The host -/

/-- What a host thread does next, in its own code or in a progress callback it runs (R18, R133). -/
inductive HostAction where
  /-- issue a command and have its return: one atomic step (D1, R42) -/
  | issue (i : Instr)
  /-- issue a command and leave its unit instance to take its own steps (R18) -/
  | launch (i : Instr)
  /-- discard a PRSC instance, at any time (R125, R133) -/
  | discard (h : Nat)
  /-- return from the progress callback the thread is in (R132) -/
  | callbackReturn
deriving DecidableEq, Repr

/-- One line of Advance (R87): what it has still to do where a notification interrupts it. -/
inductive PrscMove where
  /-- `EmitLit(data[b])` (R89) -/
  | lit
  /-- emit the opcode of a match (R90 to R92) -/
  | emit (c : Code)
  /-- `Commit(n)` (R88) -/
  | commit (n : Nat)
  /-- case 6 of R86: `failed <- true`, and raise the error -/
  | fail (e : EngineError)
deriving DecidableEq, Repr

/-- A progress callback that has not returned yet (R132): the command that called it, exactly as it is at the notification,
with what it has still to do before its own loop goes on. -/
inductive Call where
  /-- BC0C, with the index steps still to make (R111, R114) -/
  | bc0c (c : Bc0c) (left : Nat)
  /-- PRSC, with the rest of its Advance (R87, R88) -/
  | prsc (slot : Option Nat) (p : Prsc) (job : PrscJob) (left : List PrscMove)
deriving DecidableEq, Repr

/-- A host thread (R47, R148): its coming actions, the command in flight on it, the callbacks it is in (innermost first),
what it has been returned, and the progress notifications made on it (R132). -/
structure Thread where
  host : List HostAction
  active : Flight
  calls : List Call
  responses : List Response
  notes : List Note
deriving DecidableEq, Repr

/-- The machine. `host`, `active`, `calls`, `responses` and `notes` are the current thread's (see `Thread`); `parked` are the
other threads; each entry of `schedule` says which thread moves at a coming step (0: the current one; `k + 1`: `parked[k]`);
`prscs` are the PRSC instances, the host's reference being the position; `sink` is what has been written to the host's
trace sinks, each entry with its sink's number. -/
structure State where
  host : List HostAction
  active : Flight
  calls : List Call
  responses : List Response
  notes : List Note
  parked : List Thread
  schedule : List Nat
  prscs : List PrscSlot
  sink : List (Nat × SinkItem)
deriving DecidableEq, Repr

/-! ## Stops -/

/-- Why the machine stops with a fault. -/
inductive Fault where
  /-- A progress callback never returns from its notification at `pos`, so the command never returns (R132 "Hang", R158,
  I5 "stuck"). Raised by the compression commands. Safe: the hardware makes no step either. -/
  | callbackHangs (pos : Nat)
  /-- A copy reads `OUT` at an index outside it. Raised by PRSD's copies in states that no run reaches (R35). Safe. -/
  | outRead (index : Nat)
  /-- A decode has run for more steps than its input can give. Raised by the decompression commands; no run reaches it
  (R162). Safe. -/
  | outOfSteps
  /-- A decoder's own loop has met an instruction of the other format or a host command; the decoders yield none. Safe. -/
  | foreignOpcode
deriving DecidableEq, Repr

/-- Why an instruction has no meaning. -/
inductive Refusal where
  /-- No meaning yet. Raised by an arm of `exec`. Safe. -/
  | notModelled (mnemonic : String)
  /-- A negative `level` (R9, D11, I3). Raised by `prs_compress` and `PRSC.NEW`. Safe. -/
  | negativeLevel
  /-- The host refers to no PRSC instance (R154 duty 2; R125 after a discard). Raised by `PRSC.ADD`, `PRSC.CLOSE` and a
  discard. Safe. -/
  | noPrscInstance (h : Nat)
  /-- The host issues ADD or CLOSE on a PRSC instance that a command is running on: from a second thread (R47, D21, I2), or
  from that command's own callback, which may not change what the command works on (R132, R133). Raised by `PRSC.ADD` and
  `PRSC.CLOSE`. Safe. -/
  | sharedPrscInstance (h : Nat)
  /-- A progress callback raises or unwinds from its notification at `pos` (R142, D31, I6). Raised by the compression
  commands. Safe. -/
  | callbackUnwinds (pos : Nat)
  /-- A host thread issues a command while one is in flight on it; a command runs to completion on the host's thread
  (45_host_interface.md, R18, R144). Raised by every host command. Safe. -/
  | threadBusy
  /-- A PRS opcode with no running PRSD instance: an opcode exists only in a decoder's stream (R99). Safe. -/
  | noPrsDecoder
  /-- A BC0 opcode with no running BC0D instance (R119). Safe. -/
  | noBc0Decoder
  /-- A return from a callback on a host thread that is in none (R132). Raised by that host action. Safe. -/
  | noCallback
  /-- A stream opcode launched as if it were a host command. Safe. -/
  | notACommand
deriving DecidableEq, Repr

/-- The outcome of a step of this machine. -/
abbrev Out := Host.Outcome State Fault Refusal

/-- What the machine turns to at a step: an instruction with the state it executes in, or, where the step executes none
(an idle thread, a loop's exit, a compressor's iteration), the outcome itself. -/
inductive Fetched where
  | run (i : Instr) (s : State)
  | outcome (o : Out)

/-! ## Reset -/

/-- The engine has no power-on reset and holds nothing between commands (R151, R153): no command is in flight, no PRSC
instance is alive, the host has issued nothing and received nothing. Each unit's own reset is its creation. -/
def State.reset : State :=
  { host := [], active := .idle, calls := [], responses := [], notes := [], parked := [], schedule := [], prscs := [], sink := [] }

end Sys2Proof.Machine
end

