-- ==== Sys2Proof/Machine/Ops.lean ====
section
/-!
DEFINITION. The named operations: the memo, the instances at creation, the PBS and BBS writers, the host threads,
notification, taking an error, and returning from a command.
-/

namespace Sys2Proof.Machine

/-! ## The memo (R13, R27, R40) -/

/-- The canonical form: addresses strictly rising above `lo`, no listed 00. -/
def Memory.wfFrom : Nat → Memory → Bool
  | _, [] => true
  | lo, (a, v) :: m => decide (lo ≤ a) && (v != 0#8) && Memory.wfFrom (a + 1) m

/-- The memo's canonical form holds and every address is one of its 4096. -/
def Memory.wf (m : Memory) : Bool := Memory.wfFrom 0 m && m.all (fun c => decide (c.1 < Config.bc0N))

/-- `MemRead(MEMO, a, 1)`; an unlisted address reads the seed 00 (R27). -/
def Memory.read : Memory → Nat → Byte
  | [], _ => 0#8
  | (b, v) :: m, a => if a = b then v else if a < b then 0#8 else Memory.read m a

/-- The cell for `a` when it holds `v`: none for the seed. -/
def Memory.cell (a : Nat) (v : Byte) : Memory := if v = 0#8 then [] else [(a, v)]

/-- `MemWrite(MEMO, a, 1, v)`. -/
def Memory.write : Memory → Nat → Byte → Memory
  | [], a, v => Memory.cell a v
  | (b, u) :: m, a, v =>
    if a = b then Memory.cell a v ++ m
    else if a < b then Memory.cell a v ++ (b, u) :: m
    else (b, u) :: Memory.write m a v

/-! ## Instances at creation (R33, R151, R152) -/

/-- A PRSD instance at the start of its command (R23). -/
def Prsd.start (input : Bytes) (mode : Mode) (maxOut sink : Nat) : Prsd :=
  { rd := Reader.start input, mode := mode, maxOut := maxOut, out := [], outLen := 0, trace := [], fin := .running,
    markIn := 0, markBit := 0, sink := sink }

/-- A BC0D instance at the start of its command (R27). -/
def Bc0d.start (input : Bytes) (mode : Mode) (sink : Nat) : Bc0d :=
  { rd := Reader.start input, memo := [], cur := Config.bc0Cursor0, mode := mode, out := [], outLen := 0, trace := [],
    markIn := 0, done := false, sink := sink }

/-- The PBS writer when its instance is created: the first placeholder is reserved at once (R66). -/
def PbsWriter.start : PbsWriter := { out := [0#8], ctlOff := 0, pend := 0#8, npend := 0 }

/-- A PRSC instance after NEW (R20, R80). `result` is not readable before CLOSE (R152); its value here is the model's
own choice (DESIGN CHOICE, log entry 5). -/
def Prsc.start (level : Nat) (progress : Progress) : Prsc :=
  { level := level, progress := progress, data := [], b := 0, w := PbsWriter.start, closed := false, failed := false,
    result := [] }

/-- A BC0C instance at the start of its command (R25). -/
def Bc0c.start (input : Bytes) (progress : Progress) : Bc0c :=
  { d := input, n := input.length, i := 0, x := [], out := [], gctl := none, gbits := 8, progress := progress }

/-! ## The PBS writer (R67 to R72) -/

/-- Group rollover (R67). -/
def PbsWriter.rollover (w : PbsWriter) : PbsWriter :=
  { out := w.out.set w.ctlOff w.pend ++ [0#8], ctlOff := w.out.length, pend := 0#8, npend := 0 }

/-- `if npend = 8: Rollover()` (R68, R70). -/
def PbsWriter.rollIfFull (w : PbsWriter) : PbsWriter := if w.npend = 8 then w.rollover else w

/-- `PutBit(v)` (R68). -/
def PbsWriter.putBit (w : PbsWriter) (v : Bool) : PbsWriter :=
  let w := w.rollIfFull
  { w with pend := w.pend ||| (BitVec.ofNat 8 v.toNat <<< w.npend), npend := w.npend + 1 }

/-- `PutByte(v)` (R69). -/
def PbsWriter.putByte (w : PbsWriter) (v : Byte) : PbsWriter := { w with out := w.out ++ [v] }

/-- Emit one opcode: its control bits, its data bytes, then `EndOpcode` (R70, R71). -/
def PbsWriter.emit (w : PbsWriter) (c : Code) : PbsWriter :=
  (c.data.foldl PbsWriter.putByte (c.bits.foldl PbsWriter.putBit w)).rollIfFull

/-- `Finish` (R72): the stream, with its last control byte backfilled or its unused placeholder removed. -/
def PbsWriter.finish (w : PbsWriter) : PbsWriter :=
  if 0 < w.npend then { w with out := w.out.set w.ctlOff w.pend } else { w with out := w.out.dropLast }

/-! ## The BBS writer (R77) -/

/-- Open a group if the previous one holds 8 opcodes, or at the first opcode. -/
def Bc0c.openGroup (c : Bc0c) : Bc0c :=
  if c.gbits = 8 then { c with gctl := some c.out.length, out := c.out ++ [0#8], gbits := 0 } else c

/-- `MemWrite(OUT, gctl, 1, MemRead(OUT, gctl, 1) | (v << gbits))`; with no group open there is no byte to write. -/
def markControl (out : Bytes) (gctl : Option Nat) (v : Bool) (gbits : Nat) : Bytes :=
  match gctl with
  | none => out
  | some g => out.modify g (fun ctl => ctl ||| (BitVec.ofNat 8 v.toNat <<< gbits))

/-- `EmitBC0(v, d_1..d_k)` (R77). -/
def Bc0c.emit (c : Bc0c) (v : Bool) (data : Bytes) : Bc0c :=
  let c := c.openGroup
  { c with out := markControl c.out c.gctl v c.gbits ++ data, gbits := c.gbits + 1 }

/-! ## Host threads (R47, R148) -/

/-- The current thread, as it would stand among the parked ones. -/
def State.thread (s : State) : Thread :=
  { host := s.host, active := s.active, calls := s.calls, responses := s.responses, notes := s.notes }

/-- Make `t` the current thread and park the current one in place `k`. -/
def State.switchTo (s : State) (k : Nat) (t : Thread) : State :=
  { s with host := t.host, active := t.active, calls := t.calls, responses := t.responses, notes := t.notes,
           parked := s.parked.set k s.thread }

/-- Take the next entry of the schedule. With no entry, or one that names no thread, the current thread moves. -/
def State.reschedule (s : State) : State :=
  match s.schedule with
  | [] => s
  | 0 :: rest => { s with schedule := rest }
  | (k + 1) :: rest =>
    match s.parked[k]? with
    | none => { s with schedule := rest }
    | some t => State.switchTo { s with schedule := rest } k t

/-! ## PRSC instances -/

/-- Write the slot of the instance the host refers to by `h`. -/
def State.setSlot (s : State) (h : Nat) (x : PrscSlot) : State := { s with prscs := s.prscs.set h x }

/-- Do `f` with the live instance `h`, or refuse by name (R154, R47). -/
def withPrsc (s : State) (h : Nat) (f : Prsc → Out) : Out :=
  match s.prscs[h]? with
  | some (.live p) => f p
  | some .inFlight => .refused (.sharedPrscInstance h)
  | some .discarded => .refused (.noPrscInstance h)
  | none => .refused (.noPrscInstance h)

/-! ## Returning, and taking an error (R14, R141, R142, R153) -/

/-- The record of a PRSC instance goes back to its slot when the command running on it ends (R153). An instance discarded
meanwhile stays discarded (R125, R133). -/
def putBack (prscs : List PrscSlot) (h : Nat) (p : Prsc) : List PrscSlot :=
  match prscs[h]? with
  | some .inFlight => prscs.set h (.live p)
  | _ => prscs

/-- The command in flight ends: its instance is discarded, but a PRSC instance the host refers to goes back to its slot
(R125, R153). -/
def State.release (s : State) : State :=
  match s.active with
  | .prsc (some h) p _ => { s with active := .idle, prscs := putBack s.prscs h p }
  | _ => { s with active := .idle }

/-- Hand the current thread's caller one response. -/
def State.respond (s : State) (r : Response) : State := { s with responses := s.responses ++ [r] }

/-- `return r` (R14): the command in flight ends successfully. -/
def State.returnOk (s : State) (r : Result) : State := s.release.respond (.ok r)

/-- `raise E(info)` (R14, R141): the command ends at once; only `(E, info)` is saved, as its result. There is no vector,
mask or mode, and no operation returns from an error: the host goes on with its next command (R142). -/
def State.raise (s : State) (e : EngineError) : State := s.release.respond (.error e)

/-- The numeric code of an error kind (R134). -/
def EngineError.code : EngineError → Nat
  | .usage _ => 1
  | .malformedBackref _ _ => 2
  | .malformedTruncated _ => 3
  | .resourceLimit _ => 4
  | .internalInvariant _ => 5

/-- The `USAGE` error of ADD after CLOSE (R81, R134). -/
def addAfterClose : EngineError := .usage "add after close"

/-- The error of every command on a failed instance (R139, D22). -/
def failedInstance : EngineError := .internalInvariant (.text "instance failed")

/-- Write items to host sink `k`, in order (R129, R131). -/
def State.writeSink (s : State) (k : Nat) (items : List SinkItem) : State :=
  { s with sink := s.sink ++ items.map (fun x => (k, x)) }

/-- The text lines sink `k` holds, rendered by `TRACE_TEXT` (R10, R129). -/
def State.sinkText (s : State) (k : Nat) : List String :=
  (s.sink.filter (fun e => e.1 == k)).map (fun e => Config.traceText e.2)

/-! ## Progress notification (R22, R88, R114, R132) -/

/-- Is `n`, just reached by moving one byte, a point of notification (R88, R114)? -/
def atInterval (n : Nat) : Bool := n % Config.progressInterval == 0

/-- The positions at which a unit notifies while it moves from `b0` to `b1`, one byte at a time: the positive multiples
of 4096 it reaches. -/
def notifyPoints (b0 b1 : Nat) : List Nat :=
  (List.range' (b0 + 1) (b1 - b0)).filter atInterval

/-- Notify at each of `pts` a callback that does nothing to the engine. The callback's return carries nothing back (R132);
one that never returns sticks the command, one that unwinds is not modelled by the spec and is refused (I5, I6). An
acting callback is called by `State.callBack`, in the middle of the unit's step. -/
def notify (pr : Progress) (mk : Nat → Note) (pts : List Nat) (s : State) : Out :=
  match pr with
  | .absent => .next s
  | .returning => .next { s with notes := s.notes ++ pts.map mk }
  | .acting => .next { s with notes := s.notes ++ pts.map mk }
  | .hangsAt b => if b ∈ pts then .fault (.callbackHangs b) else .next { s with notes := s.notes ++ pts.map mk }
  | .unwindsAt b => if b ∈ pts then .refused (.callbackUnwinds b) else .next { s with notes := s.notes ++ pts.map mk }

/-- Go on from a next state; a stop stays the stop it is. -/
def andThen (o : Out) (f : State → Out) : Out :=
  match o with
  | .next s => f s
  | .fault r => .fault r
  | .refused r => .refused r

/-- Go on after the notifications: raise the error that is due, if any. -/
def State.settle (s : State) (err : Option EngineError) : State :=
  match err with
  | none => s
  | some e => s.raise e

/-- Call an acting callback at the notification `n` (R132, R133): the command waits as `call` says, and the thread's coming
actions are the callback's. -/
def State.callBack (s : State) (call : Call) (n : Note) : State :=
  { s with active := .idle, calls := call :: s.calls, notes := s.notes ++ [n] }

/-- A host command runs on a thread with no command in flight (R18: one host thread drives the instance it created, and
the command is synchronous). -/
def whenIdle (s : State) (o : Out) : Out :=
  match s.active with
  | .idle => o
  | _ => .refused .threadBusy

end Sys2Proof.Machine
end

