-- ==== Sys2Proof/Machine/Operands.lean ====
section
/-!
DEFINITION. The operand forms of the copies: where a PRS copy reads in `OUT` and a BC0 copy in `MEMO`, byte by byte, and
the match lengths the compressors measure. Register numbers and bit fields are Decode's.
-/

namespace Sys2Proof.Machine

/-- `s = out_len + offset`, the first byte a PRS copy reads (R100); it may lie before byte 0. -/
def copySource (outLen : Nat) (off : Int) : Int := (outLen : Int) + off

/-- `count` times `OutAppend(MemRead(OUT, s + j, 1))`, one byte at a time (R40, R44, R100). No value where a read lies
outside `OUT`. -/
def copyOut (src : Nat) : Nat → Bytes → Option Bytes
  | 0, out => some out
  | n + 1, out =>
    match out[src]? with
    | none => none
    | some v => copyOut (src + 1) n (out ++ [v])

/-- `MemRead(MEMO, m, 1)`; the 12-bit index wraps mod 4096 (R13, R45). -/
def memoRead (memo : Memory) (m : BitVec 12) : Byte := Memory.read memo m.toNat

/-- `MemWrite(MEMO, m, 1, v)` (R13, R120). -/
def memoWrite (memo : Memory) (m : BitVec 12) (v : Byte) : Memory := Memory.write memo m.toNat v

/-- Byte `i` of a byte sequence; the searches hold the sequence as an array, for speed only. -/
def byteAt (data : Array Byte) (i : Nat) : Option Byte := data[i]?

/-- How far the bytes from `p` and from `q` agree, at most `cap` (R83 `MatchLen`, R113 `BC0MatchLen`). -/
def matchLen (rd : Nat → Option Byte) : Nat → Nat → Nat → Nat
  | 0, _, _ => 0
  | cap + 1, p, q => if rd p = rd q then matchLen rd cap (p + 1) (q + 1) + 1 else 0

end Sys2Proof.Machine
end

