-- ==== Sys2Proof/Machine/Flags.lean ====
section
/-!
DEFINITION. The status computations. The engine has no arithmetic flags (R29): its status is PRSD's `end`, PRSC's `closed`
and `failed`, and the two checks that turn a copy or a literal into an error (R100, R106). No opcode writes a flag as a
side effect.
-/

namespace Sys2Proof.Machine

/-- The copy check of R100: the source starts before output byte 0, or at or past the output's end (C4). -/
def backrefBad (outLen : Nat) (off : Int) : Bool :=
  decide (copySource outLen off < 0) || decide ((outLen : Int) ≤ copySource outLen off)

/-- The output bound: `max_out != 0` and the opcode would make the output longer (R106, R138). -/
def overLimit (maxOut newLen : Nat) : Bool := decide (maxOut ≠ 0) && decide (maxOut < newLen)

/-- PRSD has left its loop (R23 `end`). -/
def Prsd.ended (p : Prsd) : Bool := decide (p.fin ≠ .running)

/-- `end <- e` (R99, R105). -/
def Prsd.setEnd (p : Prsd) (e : PrsdEnd) : Prsd := { p with fin := e }

/-- `failed <- true` (R87 case 6, R139). -/
def Prsc.fail (p : Prsc) : Prsc := { p with failed := true }

/-- `result <- out; closed <- true` (R82). -/
def Prsc.markClosed (p : Prsc) : Prsc := { p with result := p.w.out, closed := true }

/-- `result` is readable once `closed` (R20, I4). -/
def Prsc.readResult (p : Prsc) : Option Bytes := if p.closed then some p.result else none

end Sys2Proof.Machine
end

