-- ==== Sys2Proof/Machine/Bc0Compressor.lean ====
section
/-!
DEFINITION. The BC0 compressor (43_bc0_compressor.md) on a BC0C instance: the index order, the neighbour search, emission,
the index step, one iteration of R111, and `BC0Compress`.
-/

namespace Sys2Proof.Machine

/-! ## The index order (R26) -/

/-- Compare the byte strings from `p` and from `q`, at most `n` bytes, lexicographically; a string that ends first sorts
first (R26, D13). -/
def keyCompare (rd : Nat → Option Byte) : Nat → Nat → Nat → Ordering
  | 0, _, _ => .eq
  | n + 1, p, q =>
    match rd p, rd q with
    | none, none => .eq
    | none, some _ => .lt
    | some _, none => .gt
    | some x, some y =>
      if x < y then .lt else if y < x then .gt else keyCompare rd n (p + 1) (q + 1)

/-- `key(p) < key(q)`: by the first 18 bytes, then by the offset (R26). -/
def keyLt (rd : Nat → Option Byte) (p q : Nat) : Bool :=
  match keyCompare rd Config.bc0F p q with
  | .lt => true
  | .gt => false
  | .eq => decide (p < q)

/-! ## The search (R112, R113) -/

/-- The largest element of the set with key below `key(i)`, the predecessor (R112). -/
def predecessor (rd : Nat → Option Byte) (i : Nat) (x : List Nat) : Option Nat :=
  x.foldl (fun best q =>
    if keyLt rd q i then
      match best with
      | none => some q
      | some p => if keyLt rd p q then some q else some p
    else best) none

/-- The smallest element of the set with key above `key(i)`, the successor (R112). -/
def successor (rd : Nat → Option Byte) (i : Nat) (x : List Nat) : Option Nat :=
  x.foldl (fun best q =>
    if keyLt rd i q then
      match best with
      | none => some q
      | some p => if keyLt rd q p then some q else some p
    else best) none

/-- Try one neighbour; only a strictly longer match replaces the best so far (R112, D14). -/
def tryNeighbour (rd : Nat → Option Byte) (cap i : Nat) (best : Option (Nat × Nat)) : Option Nat → Option (Nat × Nat)
  | none => best
  | some q =>
    let len := matchLen rd cap q i
    match best with
    | none => if 0 < len then some (q, len) else none
    | some (p, l) => if l < len then some (q, len) else some (p, l)

/-- `BC0Search(i)` (R112): the predecessor first, then the successor; no value stands for the spec's `(none, 0)`. -/
def bc0Search (d : Bytes) (i : Nat) (x : List Nat) : Option (Nat × Nat) :=
  let rd := byteAt d.toArray
  let cap := min Config.bc0F (d.length - i)
  tryNeighbour rd cap i (tryNeighbour rd cap i none (predecessor rd i x)) (successor rd i x)

/-! ## Emission and the index step (R114 to R116) -/

/-- `EmitLit(v)` (R115). -/
def Bc0c.emitLit (c : Bc0c) (v : Byte) : Bc0c := c.emit true (blitCode v).data

/-- `EmitRef(q, L)`: `m = (q + 0x0FEE) mod 4096` (R116, C8). -/
def Bc0c.emitRef (c : Bc0c) (q len : Nat) : Bc0c := c.emit false (brefCode (memoOf q) len).data

/-- `IndexStep()` (R114): insert `i`, evict `i - 4096`, advance. The notifications are `notifyPoints` of the position
before and after. -/
def Bc0c.indexStep (c : Bc0c) : Bc0c :=
  let x := if c.i ∈ c.x then c.x else c.x ++ [c.i]
  { c with x := if Config.bc0N ≤ c.i then x.filter (fun q => q != c.i - Config.bc0N) else x, i := c.i + 1 }

/-- `repeat adv times: IndexStep()` (R111). -/
def Bc0c.indexSteps : Nat → Bc0c → Bc0c
  | 0, c => c
  | n + 1, c => Bc0c.indexSteps n c.indexStep

/-- `repeat n times: IndexStep()` up to the first notification (R114), with the count of steps still to make then. -/
def Bc0c.indexStepsTo : Nat → Bc0c → Bc0c × Option Nat
  | 0, c => (c, none)
  | n + 1, c => if atInterval c.indexStep.i then (c.indexStep, some n) else Bc0c.indexStepsTo n c.indexStep

/-- The search and the emission of one iteration of R111, at a position `i < n`, with the index steps that follow; past the
end there is nothing to do. -/
def bc0cEmit (c : Bc0c) : Option (Bc0c × Nat) :=
  match c.d[c.i]? with
  | none => none
  | some v =>
    match bc0Search c.d c.i c.x with
    | some (q, len) => if Config.bc0Min ≤ len then some (c.emitRef q len, len) else some (c.emitLit v, 1)
    | none => some (c.emitLit v, 1)

/-- One iteration of R111, with a callback that does nothing to the engine. -/
def bc0cIter (c : Bc0c) : Bc0c :=
  match bc0cEmit c with
  | none => c
  | some (c', n) => c'.indexSteps n

/-- `i < n`, the loop condition of R111. -/
def Bc0c.more (c : Bc0c) : Bool := decide (c.i < c.n)

/-- R111's loop for at most `n` iterations; every iteration moves `i`. -/
def bc0cRun : Nat → Bc0c → Bc0c
  | 0, c => c
  | n + 1, c => if c.more then bc0cRun n (bc0cIter c) else c

/-- `BC0Compress(D)` (R111), as the instance at its end: `out` is the stream. -/
def bc0Compress (input : Bytes) (progress : Progress) : Bc0c := bc0cRun input.length (Bc0c.start input progress)

/-- The notifications of a step of an instance that moves its position (R114, R132). -/
def bc0cNotify (c c' : Bc0c) (s : State) : Out := notify c.progress .bc0c (notifyPoints c.i c'.i) s

end Sys2Proof.Machine
end

