-- ==== Sys2Proof/Machine/Bc0Decoder.lean ====
section
/-!
DEFINITION. The BC0 decompressor (44_bc0_decompressor.md): the two opcodes on a BC0D instance, their meanings on the
machine, and the decode loop with the two functions of R123. BC0D raises no error.
-/

namespace Sys2Proof.Machine

/-! ## The opcodes on an instance -/

/-- In TRACE mode, append the opcode's record before its effect (R122). -/
def Bc0d.record (d : Bc0d) (i : Instr) : Bc0d :=
  if d.mode = .trace then { d with trace := d.trace ++ [{ inOff := d.markIn, outOff := d.outLen, op := i }] } else d

/-- `Put(c)` (R120): in BYTES mode the byte goes to `OUT` and to the memo at the cursor; TRACE mode only counts and keeps
no memo (R28); the cursor advances mod 4096 in both. -/
def Bc0d.put (d : Bc0d) (c : Byte) : Bc0d :=
  if d.mode = .trace then { d with outLen := d.outLen + 1, cur := d.cur + 1#12 }
  else { d with out := d.out ++ [c], outLen := d.outLen + 1, memo := memoWrite d.memo d.cur c, cur := d.cur + 1#12 }

/-- The byte-serial copy of R121: read `MEMO[(m + j) mod 4096]`, put it, for `cnt` bytes (R45). TRACE mode's byte is
unknown and `put` ignores it. -/
def bc0dCopy : Nat → BitVec 12 → Bc0d → Bc0d
  | 0, _, d => d
  | n + 1, m, d => bc0dCopy n (m + 1#12) (d.put (memoRead d.memo m))

/-- `BLit()` once its byte is read (R120). -/
def bc0dLit (v : Byte) (d : Bc0d) : Bc0d := (d.record (.blit v)).put v

/-- `BRef()` once its bytes are read (R121). -/
def bc0dRef (m : BitVec 12) (cnt : Nat) (d : Bc0d) : Bc0d := bc0dCopy cnt m (d.record (.bref m cnt))

/-! ## The opcodes on the machine -/

/-- The records an opcode has added to the trace, as sink items. -/
def bc0NewItems (d d' : Bc0d) : List SinkItem := (d'.trace.drop d.trace.length).map .bc0

/-- Run `f` on the BC0D instance in flight; its new trace records go to the host's sink (R131). -/
def onBc0d (f : Bc0d → Bc0d) (s : State) : Out :=
  match s.active with
  | .bc0d d =>
    if d.done then .refused .noBc0Decoder
    else .next { s.writeSink d.sink (bc0NewItems d (f d)) with active := .bc0d (f d) }
  | _ => .refused .noBc0Decoder

/-- `BLIT v` (R120). -/
def execBlit (v : Byte) (s : State) : Out := onBc0d (bc0dLit v) s

/-- `BREF m, cnt` (R121). -/
def execBref (m : BitVec 12) (cnt : Nat) (s : State) : Out := onBc0d (bc0dRef m cnt) s

/-! ## The decode loop (R119, R123) -/

/-- The instance once an opcode has been read: the reader past it, and where it started (R122). -/
def Bc0d.fetched (d : Bc0d) (r : Reader) : Bc0d := { d with rd := r, markIn := d.rd.pos }

/-- The loop is left: `END` was met, with the partial opcode discarded (R119). -/
def Bc0d.leave (d : Bc0d) (r : Reader) : Bc0d := { d with rd := r, done := true }

/-- A BC0 opcode on an instance; the BC0 decode yields no other instruction. -/
def bc0dOp (i : Instr) (d : Bc0d) : Option Bc0d :=
  match i with
  | .blit v => some (bc0dLit v d)
  | .bref m cnt => some (bc0dRef m cnt d)
  | _ => none

/-- One iteration of `BC0Decode()` (R119). -/
def bc0dIter (d : Bc0d) : Option Bc0d :=
  match decodeBc0 d.rd with
  | .ended r => some (d.leave r)
  | .op i r => bc0dOp i (d.fetched r)

/-- `BC0Decode()` for at most `n` iterations (R119); no value where the loop has not been left by then. -/
def bc0dRun : Nat → Bc0d → Option Bc0d
  | 0, d => if d.done then some d else none
  | n + 1, d => if d.done then some d else (bc0dIter d).bind (bc0dRun n)

/-- The whole decode of a command: at most `len(IN)` opcodes and the end (R162). -/
def bc0dDecode (d : Bc0d) : Option Bc0d := bc0dRun (d.rd.input.length + 1) d

/-- `Result()` of R119, as the command returns it (R130, R131). -/
def Bc0d.returned (d : Bc0d) : Result := if d.mode = .trace then .unit else .bytes d.out

/-- The final count TRACE mode reports (R122, R131). -/
def Bc0d.finalItems (d : Bc0d) : List SinkItem := if d.mode = .trace then [.finalCount d.outLen] else []

/-- Leave the loop: report the final count and return (R119, R131). -/
def bc0dReturn (d : Bc0d) (s : State) : State := (s.writeSink d.sink d.finalItems).returnOk d.returned

/-- What a whole decode hands back to the host, and writes to its sink on the way. -/
def bc0dDeliver (o : Option Bc0d) (s : State) : Out :=
  match o with
  | some d => .next (bc0dReturn d (s.writeSink d.sink (d.trace.map .bc0)))
  | none => .fault .outOfSteps

/-- `BC0Decompress(IN)` (R123). -/
def bc0Decompress (input : Bytes) : Option Bc0d := bc0dDecode (Bc0d.start input .bytes 0)

/-- `BC0Disassemble(IN)` into sink `k` (R122, R123). -/
def bc0Disassemble (k : Nat) (input : Bytes) : Option Bc0d := bc0dDecode (Bc0d.start input .trace k)

end Sys2Proof.Machine
end

