-- ==== Sys2Proof/Machine/PrsCompressor.lean ====
section
/-!
DEFINITION. The PRS compressor (41_prs_compressor.md) on a PRSC instance: the match search, the selection, one Advance,
the loops of ADD and CLOSE, and `PRSCompress` of R96. The host commands that use them are in HostCommands.lean.
-/

namespace Sys2Proof.Machine

/-! ## Match search (R83 to R85) -/

/-- A search result `(k, d, L)`: literal-prefix length, distance, match length (R84). -/
structure Match where
  k : Nat
  d : Nat
  len : Nat
deriving DecidableEq, Repr

/-- Keep the better of the best so far and a new candidate (R84, D8): a candidate of length below 2 is skipped, a longer
match wins, an equally long one only if it is closer. -/
def betterMatch (best : Option Match) (c : Match) : Option Match :=
  if c.len < 2 then best
  else match best with
    | none => some c
    | some m => if m.len < c.len ∨ (c.len = m.len ∧ c.d < m.d) then some c else some m

/-- The candidates `bb - d`, `bb - (d + 1)`, … for `n` distances, closest first (R84). A candidate whose first byte
differs has match length 0, so the byte-value index of R21 needs no test of its own. -/
def searchBack (rd : Nat → Option Byte) (bb cap k : Nat) : Nat → Nat → Option Match → Option Match
  | 0, _, best => best
  | n + 1, d, best =>
    searchBack rd bb cap k n (d + 1)
      (betterMatch best { k := k, d := d, len := matchLen rd cap (bb - d) bb })

/-- The candidates for literal-prefix length `k`: distances `1 .. min(bb, 8191)` from `bb = b + k` (R84, R85). -/
def searchAt (rd : Nat → Option Byte) (dataLen b k : Nat) (best : Option Match) : Option Match :=
  searchBack rd (b + k) (min Config.prsMaxCopy (dataLen - (b + k))) k (min (b + k) Config.prsWindow) 1 best

/-- The loop `k = k0, k0 + 1, …` for `n` values, left at the first `bb >= len(data)` (R84, D12). -/
def searchLoop (rd : Nat → Option Byte) (dataLen b : Nat) : Nat → Nat → Option Match → Option Match
  | 0, _, best => best
  | n + 1, k, best =>
    if dataLen ≤ b + k then best else searchLoop rd dataLen b n (k + 1) (searchAt rd dataLen b k best)

/-- `Search(b)` (R84), a pure function of `data`, `b` and `level` (R156). -/
def search (data : Bytes) (b level : Nat) : Option Match :=
  searchLoop (byteAt data.toArray) data.length b level 0 none

/-! ## Emission and commit (R86 to R93) -/

/-- Move one byte into the reverse region: `b <- b + 1` (R88). -/
def Prsc.commitByte (p : Prsc) : Prsc := { p with b := p.b + 1 }

/-- `Commit(c)` (R88), one byte at a time, with a callback that does nothing to the engine. The notifications it makes are
`notifyPoints` of the boundary before and after. -/
def Prsc.commit (p : Prsc) : Nat → Prsc
  | 0 => p
  | c + 1 => Prsc.commit p.commitByte c

/-- `Commit(c)` (R88) up to its first notification, with the count of bytes still to move then. -/
def Prsc.commitTo (p : Prsc) : Nat → Prsc × Option Nat
  | 0 => (p, none)
  | c + 1 => if atInterval p.commitByte.b then (p.commitByte, some c) else Prsc.commitTo p.commitByte c

/-- Emit one opcode through the PBS writer (R71). -/
def Prsc.emit (p : Prsc) (c : Code) : Prsc := { p with w := p.w.emit c }

/-- `EmitLit(data[b])` (R87, R89). Advance runs only with `b < len(data)`; at the end of the data there is no byte. -/
def Prsc.emitNext (p : Prsc) : Prsc :=
  match p.data[p.b]? with
  | some v => p.emit (litCode v)
  | none => p

/-- The opcode of a match at distance `d` with length `len`: the ordered cases 2 to 5 of R86. Case 3 gives `none` inside:
a literal. Case 6 has no encoding and gives no value. -/
def selectCode (d len : Nat) : Option (Option Code) :=
  if d ≤ Config.prsShortWindow ∧ 2 ≤ len ∧ len ≤ 5 then some (some (shortCode d len))
  else if len < 3 then some none
  else if d ≤ Config.prsWindow ∧ 3 ≤ len ∧ len ≤ 9 then some (some (longCode d len))
  else if d ≤ Config.prsWindow ∧ 10 ≤ len ∧ len ≤ Config.prsMaxCopy then some (some (extCode d len))
  else none

/-- `repeat k times: EmitLit(data[b]); Commit(1)` (R87). -/
def litMoves : Nat → List PrscMove
  | 0 => []
  | k + 1 => .lit :: .commit 1 :: litMoves k

/-- What `Advance()` does after its search, line by line (R86, R87). -/
def advancePlan (p : Prsc) : List PrscMove :=
  match search p.data p.b p.level with
  | none => litMoves 1
  | some m =>
    litMoves m.k ++
      match selectCode m.d m.len with
      | some (some c) => [.emit c, .commit m.len]
      | some none => litMoves 1
      | none => [.fail (.internalInvariant (.pair m.d m.len))]

/-- Perform moves to their end, with a callback that does nothing to the engine; and the error met, if any (R139). -/
def Prsc.perform (p : Prsc) : List PrscMove → Prsc × Option EngineError
  | [] => (p, none)
  | .lit :: ms => p.emitNext.perform ms
  | .emit c :: ms => (p.emit c).perform ms
  | .commit n :: ms => (p.commit n).perform ms
  | .fail e :: _ => (p.fail, some e)

/-- Where moves end, or are interrupted by a notification with the rest of them still to do. -/
inductive PrscRun where
  | done (p : Prsc)
  | raised (p : Prsc) (e : EngineError)
  | notified (p : Prsc) (left : List PrscMove)
deriving DecidableEq, Repr

/-- Perform moves up to the first notification (R88). -/
def Prsc.performTo (p : Prsc) : List PrscMove → PrscRun
  | [] => .done p
  | .lit :: ms => p.emitNext.performTo ms
  | .emit c :: ms => (p.emit c).performTo ms
  | .commit n :: ms =>
    match p.commitTo n with
    | (p', none) => p'.performTo ms
    | (p', some left) => .notified p' (.commit left :: ms)
  | .fail e :: _ => .raised p.fail e

/-- `Advance()` (R87): one compression step, and the error of case 6 if it is met (R86, R139; R94 says never). -/
def advance (p : Prsc) : Prsc × Option EngineError := p.perform (advancePlan p)

/-! ## The loops of ADD and CLOSE (R81, R82) -/

/-- ADD's loop condition: `len(data) - b >= 256 + level` (R81, D10). -/
def Prsc.enough (p : Prsc) : Bool := decide (Config.prsMaxCopy + p.level ≤ p.data.length - p.b)

/-- CLOSE's loop condition: `b < len(data)` (R82). -/
def Prsc.more (p : Prsc) : Bool := decide (p.b < p.data.length)

/-- Advance while `go` holds, at most `n` times, or to the first error. Every Advance moves `b`, so `len(data) - b` times
is enough (R162). -/
def advanceWhile (go : Prsc → Bool) : Nat → Prsc → Prsc × Option EngineError
  | 0, p => (p, none)
  | n + 1, p =>
    if go p then
      match advance p with
      | (p', none) => advanceWhile go n p'
      | (p', some e) => (p', some e)
    else (p, none)

/-- `data <- data ++ s` (R81). -/
def Prsc.append (p : Prsc) (s : Bytes) : Prsc := { p with data := p.data ++ s }

/-- ADD's loop to its end (R81). -/
def addLoop (p : Prsc) : Prsc × Option EngineError := advanceWhile Prsc.enough (p.data.length - p.b) p

/-- CLOSE's loop to its end (R82). -/
def closeLoop (p : Prsc) : Prsc × Option EngineError := advanceWhile Prsc.more (p.data.length - p.b) p

/-- `EmitStop(); Finish(); result <- out; closed <- true` (R72, R82, R93). -/
def Prsc.terminate (p : Prsc) : Prsc :=
  let p := p.emit (stopCode 0#3)
  Prsc.markClosed { p with w := p.w.finish }

/-- Why a command on this instance is refused its work before it starts: ADD after CLOSE, then a failed instance (R81,
R140). -/
def addError (p : Prsc) : Option EngineError :=
  if p.closed then some addAfterClose else if p.failed then some failedInstance else none

/-- `ADD(s)` on an instance (R81): the instance after it, and the error it raises. -/
def prscAdd (s : Bytes) (p : Prsc) : Prsc × Option EngineError :=
  match addError p with
  | some e => (p, some e)
  | none => addLoop (p.append s)

/-- `CLOSE()` on an instance (R82): the instance after it, and the error it raises; without one, its `result` is what
CLOSE returns. -/
def prscClose (p : Prsc) : Prsc × Option EngineError :=
  if p.closed then (p, none)
  else if p.failed then (p, some failedInstance)
  else match closeLoop p with
    | (p', none) => (p'.terminate, none)
    | (p', some e) => (p', some e)

/-- `NEW(level, progress); ADD(s); CLOSE()` (R96, R124): the instance at the end, and the error met on the way. -/
def prsCompress (s : Bytes) (level : Nat) (progress : Progress) : Prsc × Option EngineError :=
  match prscAdd s (Prsc.start level progress) with
  | (p, none) => prscClose p
  | (p, some e) => (p, some e)

/-- What a PRSC command returns: the error, or its result (R81, R82). -/
def prscResponse (r : Result) : Option EngineError → Response
  | none => .ok r
  | some e => .error e

/-- The notifications of a step of an instance that moves its boundary (R88, R132). -/
def prscNotify (p p' : Prsc) (s : State) : Out := notify p.progress .prsc (notifyPoints p.b p'.b) s

end Sys2Proof.Machine
end

