-- ==== Sys2Proof/Machine/PrsDecoder.lean ====
section
/-!
DEFINITION. The PRS decompressor (42_prs_decompressor.md): the five opcodes on a PRSD instance, their meanings on the
machine, and the decode loop with the three functions of R109.
-/

namespace Sys2Proof.Machine

/-- What an opcode makes of a PRSD instance: it goes on, or it raises an error (with the records already traced), or it
meets a state in which it has no read (`Fault`). -/
inductive PrsdOut where
  | ok (p : Prsd)
  | raised (p : Prsd) (e : EngineError)
  | fault (f : Fault)
deriving DecidableEq, Repr

/-! ## The opcodes on an instance -/

/-- In TRACE mode, append the opcode's record before its effect (R108). -/
def Prsd.record (p : Prsd) (i : Instr) : Prsd :=
  if p.mode = .trace then
    { p with trace := p.trace ++ [{ inOff := p.markIn, bitOff := p.markBit, outOff := p.outLen, op := i }] }
  else p

/-- The copy primitive (R100): the backreference check, then the output bound, then the byte-serial copy. -/
def prsdCopy (off : Int) (cnt : Nat) (p : Prsd) : PrsdOut :=
  if backrefBad p.outLen off then .raised p (.malformedBackref p.outLen off)
  else if overLimit p.maxOut (p.outLen + cnt) then .raised p (.resourceLimit (p.outLen + cnt))
  else if p.mode = .bytes then
    match copyOut (copySource p.outLen off).toNat cnt p.out with
    | some out => .ok { p with out := out, outLen := p.outLen + cnt }
    | none => .fault (.outRead (copySource p.outLen off).toNat)
  else .ok { p with outLen := p.outLen + cnt }

/-- `Lit()` once its byte is read (R101). -/
def prsdLit (v : Byte) (p : Prsd) : PrsdOut :=
  let p := p.record (.lit v)
  if overLimit p.maxOut (p.outLen + 1) then .raised p (.resourceLimit (p.outLen + 1))
  else if p.mode = .bytes then .ok { p with out := p.out ++ [v], outLen := p.outLen + 1 }
  else .ok { p with outLen := p.outLen + 1 }

/-- `ShortCopy()` once its fields are read (R102). -/
def prsdScopy (off : Int) (cnt : Nat) (p : Prsd) : PrsdOut := prsdCopy off cnt (p.record (.scopy off cnt))

/-- `LongCopy(F)` (R103). -/
def prsdLcopy (off : Int) (cnt : Nat) (p : Prsd) : PrsdOut := prsdCopy off cnt (p.record (.lcopy off cnt))

/-- `ExtCopy(F)` once its length byte is read (R104). -/
def prsdEcopy (off : Int) (cnt : Nat) (p : Prsd) : PrsdOut := prsdCopy off cnt (p.record (.ecopy off cnt))

/-- `Stop(F)`: `end <- STOP`; `F[2:0]` is ignored (R105). -/
def prsdStop (f : BitVec 3) (p : Prsd) : PrsdOut := .ok ((p.record (.stop f)).setEnd .stop)

/-! ## The opcodes on the machine -/

/-- The records an opcode has added to the trace, as sink items. -/
def prsNewItems (p p' : Prsd) : List SinkItem := (p'.trace.drop p.trace.length).map .prs

/-- Run `f` on the PRSD instance in flight. Its new trace records go to the host's sink as they are made, and stay there
if `f` raises (R129, D17); an error ends the command (R141). -/
def onPrsd (f : Prsd → PrsdOut) (s : State) : Out :=
  match s.active with
  | .prsd p =>
    if p.ended then .refused .noPrsDecoder
    else match f p with
      | .ok p' => .next { s.writeSink p'.sink (prsNewItems p p') with active := .prsd p' }
      | .raised p' e => .next ((s.writeSink p'.sink (prsNewItems p p')).raise e)
      | .fault r => .fault r
  | _ => .refused .noPrsDecoder

/-- `LIT v` (R101). -/
def execLit (v : Byte) (s : State) : Out := onPrsd (prsdLit v) s

/-- `SCOPY off, cnt` (R102). -/
def execScopy (off : Int) (cnt : Nat) (s : State) : Out := onPrsd (prsdScopy off cnt) s

/-- `LCOPY off, cnt` (R103). -/
def execLcopy (off : Int) (cnt : Nat) (s : State) : Out := onPrsd (prsdLcopy off cnt) s

/-- `ECOPY off, cnt` (R104). -/
def execEcopy (off : Int) (cnt : Nat) (s : State) : Out := onPrsd (prsdEcopy off cnt) s

/-- `STOP f` (R105). The result is returned at the next step, by `Result()` of R99. -/
def execStop (f : BitVec 3) (s : State) : Out := onPrsd (prsdStop f) s

/-! ## The decode loop (R99, R109) -/

/-- The instance once an opcode has been read: the reader past it, and where it started (R108). -/
def Prsd.fetched (p : Prsd) (r : Reader) : Prsd := { p with rd := r, markIn := p.rd.pos, markBit := p.rd.bits }

/-- The input is exhausted at an opcode boundary, the clean end's condition (R99, D4). -/
def Prsd.atEnd (p : Prsd) : Bool := p.rd.pos == p.rd.input.length

/-- A PRS opcode on an instance; the decode tree yields no other instruction. -/
def prsdOp (i : Instr) (p : Prsd) : PrsdOut :=
  match i with
  | .lit v => prsdLit v p
  | .scopy off cnt => prsdScopy off cnt p
  | .lcopy off cnt => prsdLcopy off cnt p
  | .ecopy off cnt => prsdEcopy off cnt p
  | .stop f => prsdStop f p
  | _ => .fault .foreignOpcode

/-- One iteration of `Decode()` (R99). -/
def prsdIter (p : Prsd) : PrsdOut :=
  if p.atEnd then .ok (p.setEnd .cleanEnd)
  else match decodePrs p.rd with
    | .error (.truncated k) => .raised p (.malformedTruncated k)
    | .ok (i, r) => prsdOp i (p.fetched r)

/-- `Decode()` for at most `n` iterations (R99). -/
def prsdRun : Nat → Prsd → PrsdOut
  | 0, p => if p.ended then .ok p else .fault .outOfSteps
  | n + 1, p =>
    if p.ended then .ok p
    else match prsdIter p with
      | .ok p' => prsdRun n p'
      | .raised p' e => .raised p' e
      | .fault r => .fault r

/-- The whole decode of a command: at most `len(IN)` opcodes and the clean end (R162). -/
def prsdDecode (p : Prsd) : PrsdOut := prsdRun (p.rd.input.length + 1) p

/-- `Result()` of R99, as the command returns it: TRACE mode's records and count go to the sink (R129). -/
def Prsd.returned (p : Prsd) : Result :=
  match p.mode with
  | .bytes => .bytes p.out
  | .size => .int p.outLen
  | .trace => .unit

/-- The final count TRACE mode reports on an end without error (R108). -/
def Prsd.finalItems (p : Prsd) : List SinkItem := if p.mode = .trace then [.finalCount p.outLen] else []

/-- Leave the loop: report the final count and return (R99, R129). -/
def prsdReturn (p : Prsd) (s : State) : State := (s.writeSink p.sink p.finalItems).returnOk p.returned

/-- What a whole decode hands back to the host, and writes to its sink on the way. -/
def prsdDeliver (o : PrsdOut) (s : State) : Out :=
  match o with
  | .ok p => .next (prsdReturn p (s.writeSink p.sink (p.trace.map .prs)))
  | .raised p e => .next ((s.writeSink p.sink (p.trace.map .prs)).raise e)
  | .fault r => .fault r

/-- `PRSDecompress(IN, max_out)` (R109). -/
def prsDecompress (input : Bytes) (maxOut : Nat) : PrsdOut := prsdDecode (Prsd.start input .bytes maxOut 0)

/-- `PRSDecompressSize(IN, max_out)` (R107, R109). -/
def prsDecompressSize (input : Bytes) (maxOut : Nat) : PrsdOut := prsdDecode (Prsd.start input .size maxOut 0)

/-- `PRSDisassemble(IN)` into sink `k`: `max_out = 0` (R108, R109). -/
def prsDisassemble (k : Nat) (input : Bytes) : PrsdOut := prsdDecode (Prsd.start input .trace 0 k)

end Sys2Proof.Machine
end

