-- ==== Sys2Proof/Machine/HostCommands.lean ====
section
/-!
DEFINITION. The ten host commands (45_host_interface.md), each one atomic step with its operands and its result (D1,
R42); and their launch, which creates the unit instance and leaves it to take its own steps (R18). A compression command
whose callback acts is not atomic: what the callback does comes between its notifications, so it is always launched.
-/

namespace Sys2Proof.Machine

/-- The state once a PRSC command on `h` is over: the instance back in its slot, and its response. -/
def prscDone (h : Nat) (p : Prsc) (r : Response) (s : State) : State := (s.setSlot h (.live p)).respond r

/-- `level` is a natural number; a negative one is refused at the host boundary (R9, D11). -/
def withLevel (level : Int) (f : Nat → Out) : Out :=
  match level with
  | .ofNat n => f n
  | .negSucc _ => .refused .negativeLevel

/-- Run a compression command: step by step if its callback acts, else in one step (R42, R48, R133). -/
def unlessActing (pr : Progress) (launched atomic : Out) : Out := if pr = .acting then launched else atomic

/-! ## Launched compression commands (R18, R151) -/

/-- Launch `prs_compress`: NEW and the first line of ADD are done, the loop of ADD comes next (R124). -/
def launchPrsCompress (bytes : Bytes) (level : Nat) (progress : Progress) (s : State) : Out :=
  .next { s with active := .prsc none ((Prsc.start level progress).append bytes) .oneShot }

/-- Launch ADD: its checks are made at once; then the instance is in flight with the bytes appended (R81). -/
def launchAdd (h : Nat) (bytes : Bytes) (p : Prsc) (s : State) : Out :=
  match addError p with
  | some e => .next (s.raise e)
  | none => .next { s.setSlot h .inFlight with active := .prsc (some h) (p.append bytes) .adding }

/-- Launch CLOSE: a closed instance returns its result at once, a failed one its error (R82). -/
def launchClose (h : Nat) (p : Prsc) (s : State) : Out :=
  if p.closed then .next (s.returnOk (.bytes p.result))
  else if p.failed then .next (s.raise failedInstance)
  else .next { s.setSlot h .inFlight with active := .prsc (some h) p .closing }

/-- Launch `bc0_compress` (R126). -/
def launchBc0Compress (bytes : Bytes) (progress : Progress) (s : State) : Out :=
  .next { s with active := .bc0c (Bc0c.start bytes progress) }

/-! ## Commands -/

/-- `prs_compress(bytes, level, progress?)` (R124). -/
def execPrsCompress (bytes : Bytes) (level : Int) (progress : Progress) (s : State) : Out :=
  whenIdle s (withLevel level (fun lv => unlessActing progress (launchPrsCompress bytes lv progress s) (
    match prsCompress bytes lv progress with
    | (p, e) =>
      andThen (prscNotify (Prsc.start lv progress) p s) (fun s => .next (s.respond (prscResponse (.bytes p.result) e))))))

/-- `PRSC.NEW(level, progress)` (R80): a new live instance, which the host refers to by its slot. -/
def execPrscNew (level : Int) (progress : Progress) (s : State) : Out :=
  whenIdle s (withLevel level (fun lv =>
    .next (State.respond { s with prscs := s.prscs ++ [.live (Prsc.start lv progress)] } (.ok (.handle s.prscs.length)))))

/-- `PRSC.ADD(bytes)` (R81). -/
def execPrscAdd (h : Nat) (bytes : Bytes) (s : State) : Out :=
  whenIdle s (withPrsc s h (fun p => unlessActing p.progress (launchAdd h bytes p s) (
    match prscAdd bytes p with
    | (p', e) => andThen (prscNotify p p' s) (fun s => .next (prscDone h p' (prscResponse .unit e) s)))))

/-- `PRSC.CLOSE()` (R82). -/
def execPrscClose (h : Nat) (s : State) : Out :=
  whenIdle s (withPrsc s h (fun p => unlessActing p.progress (launchClose h p s) (
    match prscClose p with
    | (p', e) => andThen (prscNotify p p' s) (fun s => .next (prscDone h p' (prscResponse (.bytes p'.result) e) s)))))

/-- `bc0_compress(bytes, progress?)` (R126). -/
def execBc0Compress (bytes : Bytes) (progress : Progress) (s : State) : Out :=
  whenIdle s (unlessActing progress (launchBc0Compress bytes progress s) (
    andThen (bc0cNotify (Bc0c.start bytes progress) (bc0Compress bytes progress) s) (fun s =>
      .next (s.respond (.ok (.bytes (bc0Compress bytes progress).out))))))

/-- `prs_decompress(bytes, max_output_size)` (R127). -/
def execPrsDecompress (bytes : Bytes) (maxOut : Nat) (s : State) : Out :=
  whenIdle s (prsdDeliver (prsDecompress bytes maxOut) s)

/-- `prs_decompress_size(bytes, max_output_size)` (R128). -/
def execPrsDecompressSize (bytes : Bytes) (maxOut : Nat) (s : State) : Out :=
  whenIdle s (prsdDeliver (prsDecompressSize bytes maxOut) s)

/-- `prs_disassemble(sink, bytes)` (R129). -/
def execPrsDisassemble (sink : Nat) (bytes : Bytes) (s : State) : Out :=
  whenIdle s (prsdDeliver (prsDisassemble sink bytes) s)

/-- `bc0_decompress(bytes)` (R130). -/
def execBc0Decompress (bytes : Bytes) (s : State) : Out := whenIdle s (bc0dDeliver (bc0Decompress bytes) s)

/-- `bc0_disassemble(sink, bytes)` (R131). -/
def execBc0Disassemble (sink : Nat) (bytes : Bytes) (s : State) : Out :=
  whenIdle s (bc0dDeliver (bc0Disassemble sink bytes) s)

/-! ## Launching and discarding -/

/-- Issue a command and leave its unit instance to take its own steps. NEW has no steps of its own. -/
def launch (i : Instr) (s : State) : Out :=
  whenIdle s (match i with
    | .prsCompress bytes level progress => withLevel level (fun lv => launchPrsCompress bytes lv progress s)
    | .prscNew level progress => execPrscNew level progress s
    | .prscAdd h bytes => withPrsc s h (fun p => launchAdd h bytes p s)
    | .prscClose h => withPrsc s h (fun p => launchClose h p s)
    | .bc0Compress bytes progress => launchBc0Compress bytes progress s
    | .prsDecompress bytes maxOut => .next { s with active := .prsd (Prsd.start bytes .bytes maxOut 0) }
    | .prsDecompressSize bytes maxOut => .next { s with active := .prsd (Prsd.start bytes .size maxOut 0) }
    | .prsDisassemble sink bytes => .next { s with active := .prsd (Prsd.start bytes .trace 0 sink) }
    | .bc0Decompress bytes => .next { s with active := .bc0d (Bc0d.start bytes .bytes 0) }
    | .bc0Disassemble sink bytes => .next { s with active := .bc0d (Bc0d.start bytes .trace sink) }
    | .lit _ => .refused .notACommand
    | .scopy _ _ => .refused .notACommand
    | .lcopy _ _ => .refused .notACommand
    | .ecopy _ _ => .refused .notACommand
    | .stop _ => .refused .notACommand
    | .blit _ => .refused .notACommand
    | .bref _ _ => .refused .notACommand)

/-- Discard a PRSC instance, at any time: nothing comes back, and nothing of it is produced (R125, R133). A command that is
running on it still ends by its own rules and returns (R159, R132); its instance is then gone. -/
def discard (h : Nat) (s : State) : Out :=
  match s.prscs[h]? with
  | some (.live _) => .next (s.setSlot h .discarded)
  | some .inFlight => .next (s.setSlot h .discarded)
  | some .discarded => .refused (.noPrscInstance h)
  | none => .refused (.noPrscInstance h)

end Sys2Proof.Machine
end

