-- ==== Sys2Proof/Machine/Dispatch.lean ====
section
/-!
DEFINITION. `exec`: one arm per constructor of `Instr`, each one direct call of the instruction's meaning.
-/

namespace Sys2Proof.Machine

def exec (i : Instr) (s : State) : Host.Outcome State Fault Refusal :=
  match i with
  | .lit v => Sys2Proof.Machine.execLit v s
  | .scopy off cnt => Sys2Proof.Machine.execScopy off cnt s
  | .lcopy off cnt => Sys2Proof.Machine.execLcopy off cnt s
  | .ecopy off cnt => Sys2Proof.Machine.execEcopy off cnt s
  | .stop f => Sys2Proof.Machine.execStop f s
  | .blit v => Sys2Proof.Machine.execBlit v s
  | .bref m cnt => Sys2Proof.Machine.execBref m cnt s
  | .prsCompress bytes level progress => Sys2Proof.Machine.execPrsCompress bytes level progress s
  | .prscNew level progress => Sys2Proof.Machine.execPrscNew level progress s
  | .prscAdd h bytes => Sys2Proof.Machine.execPrscAdd h bytes s
  | .prscClose h => Sys2Proof.Machine.execPrscClose h s
  | .bc0Compress bytes progress => Sys2Proof.Machine.execBc0Compress bytes progress s
  | .prsDecompress bytes maxOut => Sys2Proof.Machine.execPrsDecompress bytes maxOut s
  | .prsDecompressSize bytes maxOut => Sys2Proof.Machine.execPrsDecompressSize bytes maxOut s
  | .prsDisassemble sink bytes => Sys2Proof.Machine.execPrsDisassemble sink bytes s
  | .bc0Decompress bytes => Sys2Proof.Machine.execBc0Decompress bytes s
  | .bc0Disassemble sink bytes => Sys2Proof.Machine.execBc0Disassemble sink bytes s

end Sys2Proof.Machine
end

