-- ==== Sys2Proof/Machine/Fetch.lean ====
section
/-!
DEFINITION. What the machine turns to at a step: the current thread's next host action, the next opcode of a decoder in
flight, or a compressor's next iteration.
-/

namespace Sys2Proof.Machine

/-- BC0C goes on with `n` index steps of its iteration: up to the first notification, where its acting callback is called,
or to their end (R114, R132). -/
def resumeBc0c (c : Bc0c) (n : Nat) (s : State) : State :=
  match c.indexStepsTo n with
  | (c', none) => { s with active := .bc0c c' }
  | (c', some left) => s.callBack (.bc0c c' left) (.bc0c c'.i)

/-- PRSC goes on with the moves `ms` of its Advance: up to the first notification, where its acting callback is called, or to
their end (R87, R88, R132). -/
def resumePrsc (slot : Option Nat) (p : Prsc) (job : PrscJob) (ms : List PrscMove) (s : State) : State :=
  match p.performTo ms with
  | .done p' => { s with active := .prsc slot p' job }
  | .raised p' e => State.raise { s with active := .prsc slot p' job } e
  | .notified p' left => s.callBack (.prsc slot p' job left) (.prsc p'.b)

/-- Return from the callback (R132): the command that waits goes on where it was interrupted. -/
def returnCallback (s : State) : Out :=
  match s.calls with
  | [] => .refused .noCallback
  | .bc0c c left :: cs => .next (resumeBc0c c left { s with calls := cs })
  | .prsc slot p job left :: cs => .next (resumePrsc slot p job left { s with calls := cs })

/-- The next host action of a thread with no command in flight, be it in its own code or in a callback; with none left the
thread does nothing. -/
def fetchHost (s : State) : Fetched :=
  match s.host with
  | [] => .outcome (.next s)
  | .issue i :: rest => .run i { s with host := rest }
  | .launch i :: rest => .outcome (launch i { s with host := rest })
  | .discard h :: rest => .outcome (discard h { s with host := rest })
  | .callbackReturn :: rest => .outcome (returnCallback { s with host := rest })

/-- PRSD's loop at an opcode boundary (R99): the return after the loop, the clean end, the next opcode, or the error of
an input that ends inside one. -/
def fetchPrsd (p : Prsd) (s : State) : Fetched :=
  if p.ended then .outcome (.next (prsdReturn p s))
  else if p.atEnd then .outcome (.next { s with active := .prsd (p.setEnd .cleanEnd) })
  else match decodePrs p.rd with
    | .error (.truncated k) => .outcome (.next (s.raise (.malformedTruncated k)))
    | .ok (i, r) => .run i { s with active := .prsd (p.fetched r) }

/-- BC0D's loop (R119): the return after the loop, the next opcode, or the end. -/
def fetchBc0d (d : Bc0d) (s : State) : Fetched :=
  if d.done then .outcome (.next (bc0dReturn d s))
  else match decodeBc0 d.rd with
    | .ended r => .outcome (.next { s with active := .bc0d (d.leave r) })
    | .op i r => .run i { s with active := .bc0d (d.fetched r) }

/-- BC0C: one iteration of R111, interrupted where its callback acts, or the return of its stream (R126). -/
def bc0cStep (c : Bc0c) (s : State) : Out :=
  if c.more then
    if c.progress = .acting then
      match bc0cEmit c with
      | none => .next s
      | some (c', n) => .next (resumeBc0c c' n s)
    else andThen (bc0cNotify c (bc0cIter c) s) (fun s => .next { s with active := .bc0c (bc0cIter c) })
  else .next (s.returnOk (.bytes c.out))

/-- One Advance of a PRSC command in flight, with its notifications, interrupted where its callback acts; the error of R86
case 6 ends the command. -/
def prscAdvance (slot : Option Nat) (p : Prsc) (job : PrscJob) (s : State) : Out :=
  if p.progress = .acting then .next (resumePrsc slot p job (advancePlan p) s)
  else match advance p with
    | (p', e) =>
      andThen (prscNotify p p' s) (fun s => .next (State.settle { s with active := .prsc slot p' job } e))

/-- PRSC: one Advance while the command's loop goes on; then ADD returns nothing, CLOSE terminates the stream and returns
it, and `prs_compress` goes over from ADD to CLOSE (R81, R82, R124). -/
def prscStep (slot : Option Nat) (p : Prsc) (job : PrscJob) (s : State) : Out :=
  match job with
  | .adding =>
    if p.enough then prscAdvance slot p .adding s else .next (s.returnOk .unit)
  | .closing =>
    if p.more then prscAdvance slot p .closing s
    else .next (State.returnOk { s with active := .prsc slot p.terminate .closing } (.bytes p.terminate.result))
  | .oneShot =>
    if p.enough then prscAdvance slot p .oneShot s else .next { s with active := .prsc slot p .closing }

/-- What the current thread turns to. -/
def fetchCurrent (s : State) : Fetched :=
  match s.active with
  | .idle => fetchHost s
  | .prsd p => fetchPrsd p s
  | .bc0d d => fetchBc0d d s
  | .bc0c c => .outcome (bc0cStep c s)
  | .prsc slot p job => .outcome (prscStep slot p job s)

/-- What the machine turns to: the schedule says which thread moves (R148). -/
def fetch (s : State) : Fetched := fetchCurrent s.reschedule

/-- The stream of an opcode table word as the input of a fresh decoder in BYTES mode. -/
def flightOf : Format × Bytes → Flight
  | (.prs, bytes) => .prsd (Prsd.start bytes .bytes 0 0)
  | (.bc0, bytes) => .bc0d (Bc0d.start bytes .bytes 0)

end Sys2Proof.Machine
end

