-- ==== Sys2Proof/Machine/Step.lean ====
section
/-!
DEFINITION. The step, and the placing of an opcode table word where the step fetches its next instruction.
-/

namespace Sys2Proof.Machine

/-- One step: what `fetch` gives, executed. -/
def step (s : State) : Host.Outcome State Fault Refusal :=
  match fetch s with
  | .run i t => exec i t
  | .outcome o => o

/-- `s` with the stream of a table word as the input of a fresh decoder, in BYTES mode and without a bound, about to read
its first opcode on the thread that moves next; `s` itself where the word is no stream opcode's. -/
def State.withFetchWord (s : State) (nbits w : Nat) : State :=
  match tableStream nbits w with
  | none => s
  | some st => { s with active := flightOf st, schedule := [] }

end Sys2Proof.Machine
end

