-- ==== Sys2Proof/Safety.lean ====
section
/-!
DEFINITION. What a good state is: the invariants the spec's tables state for each unit, and for the machine. Every step
from a state that has them gives a state that has them; `State.reset` has them.
-/

namespace Sys2Proof.Machine

/-- A reader inside its input: `in_pos` is at most `len(IN)` (R24), at most 8 bits are unread, and `ctl` holds only unread
bits (R23, R27). -/
structure ReaderInv (r : Reader) : Prop where
  pos_le : r.pos ≤ r.input.length
  left_le : r.left ≤ 8
  ctl_lt : r.ctl.toNat < 2 ^ r.left

/-- PRSD (R23): BYTES mode keeps `out_len = len(OUT)`, the other modes keep no bytes; only TRACE traces, without a bound;
a bound is never passed (R106). -/
structure Prsd.Inv (p : Prsd) : Prop where
  rd : ReaderInv p.rd
  bytes_len : p.mode = .bytes → p.out.length = p.outLen
  other_out : p.mode ≠ .bytes → p.out = []
  trace_nil : p.mode ≠ .trace → p.trace = []
  trace_max : p.mode = .trace → p.maxOut = 0
  bounded : p.maxOut ≠ 0 → p.outLen ≤ p.maxOut

/-- BC0D (R27, R28): the memo is in canonical form, the cursor is `(0x0FEE + out_len) mod 4096`, BYTES mode keeps
`out_len = len(OUT)` and traces nothing, TRACE mode keeps neither bytes nor memo. -/
structure Bc0d.Inv (d : Bc0d) : Prop where
  rd : ReaderInv d.rd
  memo_wf : Memory.wf d.memo = true
  cur_eq : d.cur.toNat = (0xFEE + d.outLen) % 4096
  bytes_len : d.mode ≠ .trace → d.out.length = d.outLen ∧ d.trace = []
  trace_none : d.mode = .trace → d.out = [] ∧ d.memo = []

/-- The PBS writer between opcodes (R66 to R72): the group is not full, its placeholder is a byte of `out`, `pend` holds
only written bits, and with no bit written the placeholder is the last byte of `out` (R72). -/
structure PbsWriter.Inv (w : PbsWriter) : Prop where
  npend_lt : w.npend < 8
  ctl_lt : w.ctlOff < w.out.length
  pend_lt : w.pend.toNat < 2 ^ w.npend
  last : w.npend = 0 → w.ctlOff + 1 = w.out.length

/-- PRSC (R20): `b <= len(data)`; no conforming instance has failed (R94); until CLOSE the writer is between opcodes;
after it everything is committed and `result` is the stream (R82). -/
structure Prsc.Inv (p : Prsc) : Prop where
  b_le : p.b ≤ p.data.length
  not_failed : p.failed = false
  open_writer : p.closed = false → PbsWriter.Inv p.w
  closed_result : p.closed = true → p.b = p.data.length ∧ p.result = p.w.out

/-- BC0C (R25): `X = { q : max(0, i - 4096) <= q < i }`, held in ascending order; an open group's control byte is a byte
of `out`. -/
structure Bc0c.Inv (c : Bc0c) : Prop where
  n_eq : c.n = c.d.length
  i_le : c.i ≤ c.n
  x_eq : c.x = List.range' (c.i - 4096) (min c.i 4096)
  gbits_le : c.gbits ≤ 8
  group : c.gbits < 8 → ∃ g, c.gctl = some g ∧ g < c.out.length

/-- The command in flight is in order. -/
def Flight.Inv : Flight → Prop
  | .idle => True
  | .prsd p => Prsd.Inv p
  | .bc0d d => Bc0d.Inv d
  | .bc0c c => Bc0c.Inv c
  | .prsc _ p _ => Prsc.Inv p ∧ p.closed = false

/-- How many bytes moves have still to commit. -/
def movesBytes : List PrscMove → Nat
  | [] => 0
  | .lit :: ms => movesBytes ms
  | .emit _ :: ms => movesBytes ms
  | .commit n :: ms => n + movesBytes ms
  | .fail _ :: ms => movesBytes ms

/-- A move that a conforming Advance makes: every opcode has a control bit, and nothing fails (R55, R94). -/
def PrscMove.Inv : PrscMove → Prop
  | .lit => True
  | .emit c => c.bits ≠ []
  | .commit _ => True
  | .fail _ => False

/-- Moves interrupted where a byte brings the boundary to `b` (R88): `p'` is the instance right after that byte, `left` is
what is still to do. -/
def PrscAt (p : Prsc) (moves : List PrscMove) (b : Nat) (p' : Prsc) (left : List PrscMove) : Prop :=
  ∃ before n₁ n₂ after, moves = before ++ .commit (n₁ + n₂) :: after ∧ 0 < n₁ ∧
    p' = (p.perform (before ++ [.commit n₁])).1 ∧ p'.b = b ∧ left = .commit n₂ :: after

/-- A waiting command is in order, and what it has still to do stays inside its input (R88, R114). -/
def Call.Inv : Call → Prop
  | .bc0c c left => Bc0c.Inv c ∧ c.i + left ≤ c.n
  | .prsc _ p _ left => Prsc.Inv p ∧ p.closed = false ∧ p.b + movesBytes left ≤ p.data.length ∧
      ∀ m ∈ left, PrscMove.Inv m

/-- A PRSC slot is in order. -/
def PrscSlot.Inv : PrscSlot → Prop
  | .live p => Prsc.Inv p
  | .inFlight => True
  | .discarded => True

/-- The machine is in order: every instance it holds is, also those of commands that wait for a callback. -/
structure State.Inv (s : State) : Prop where
  active : Flight.Inv s.active
  calls : ∀ c ∈ s.calls, Call.Inv c
  parked : ∀ t ∈ s.parked, Flight.Inv t.active ∧ ∀ c ∈ t.calls, Call.Inv c
  slots : ∀ x ∈ s.prscs, PrscSlot.Inv x

/-- What memo slot `a` holds once `out` has been decoded: the last byte `OUT[j]` with `(0x0FEE + j) mod 4096 = a`, else
the seed 00 (R27). -/
def mirrorByte (out : Bytes) (a : Nat) : Byte :=
  match (List.range out.length).reverse.find? (fun j => (0xFEE + j) % 4096 == a) with
  | some j => out.getD j 0#8
  | none => 0#8

/-- R27's invariant: in BYTES mode the memo mirrors the last 4096 bytes of `OUT`, and every other byte is 00. -/
def Bc0d.Mirror (d : Bc0d) : Prop :=
  d.mode ≠ .trace → ∀ a, a < 4096 → Memory.read d.memo a = mirrorByte d.out a

/-- Every BC0D instance the machine holds mirrors its output. -/
def Flight.Mirror : Flight → Prop
  | .bc0d d => Bc0d.Mirror d
  | _ => True

/-- The mirror invariant of the whole machine. -/
def State.Mirror (s : State) : Prop :=
  Flight.Mirror s.active ∧ ∀ t ∈ s.parked, Flight.Mirror t.active

/-- A run is safe while every step gives a next state. -/
def safeFor : Nat → State → Prop
  | 0, _ => True
  | n + 1, s => ∃ t, step s = .next t ∧ safeFor n t

/-- The callback, if there is one, always returns (R154 duty 4), and does nothing to the engine before it does. -/
def callbackPassive (pr : Progress) : Bool :=
  match pr with
  | .absent => true
  | .returning => true
  | .acting => false
  | .hangsAt _ => false
  | .unwindsAt _ => false

/-- The seven stream opcodes split by format; the rest are host commands. -/
def isPrsOp : Instr → Bool
  | .lit _ => true
  | .scopy _ _ => true
  | .lcopy _ _ => true
  | .ecopy _ _ => true
  | .stop _ => true
  | _ => false

/-- The two BC0 opcodes. -/
def isBc0Op : Instr → Bool
  | .blit _ => true
  | .bref _ _ => true
  | _ => false

/-! ## Words the statements use -/

/-- A PRSD instance is in flight on the current thread and in its loop. -/
def RunningPrsd (s : State) (p : Prsd) : Prop := s.active = .prsd p ∧ p.fin = .running

/-- A BC0D instance is in flight on the current thread and in its loop. -/
def RunningBc0d (s : State) (d : Bc0d) : Prop := s.active = .bc0d d ∧ d.done = false

/-- `i` is one of the three PRS copies with these operands. -/
def IsPrsCopy (i : Instr) (off : Int) (cnt : Nat) : Prop :=
  i = .scopy off cnt ∨ i = .lcopy off cnt ∨ i = .ecopy off cnt

/-- The output bound lets the output grow to `n` bytes (R106). -/
def WithinBound (p : Prsd) (n : Nat) : Prop := p.maxOut = 0 ∨ n ≤ p.maxOut

/-- The record TRACE mode adds for an opcode, and none in the other modes (R108). -/
def prsTraced (p : Prsd) (i : Instr) : List PrsRecord :=
  if p.mode = .trace then [{ inOff := p.markIn, bitOff := p.markBit, outOff := p.outLen, op := i }] else []

/-- The same for BC0 (R122). -/
def bc0Traced (d : Bc0d) (i : Instr) : List Bc0Record :=
  if d.mode = .trace then [{ inOff := d.markIn, outOff := d.outLen, op := i }] else []

/-- The bytes of a PRS copy from `src` (R44): byte `j` is `OUT[src + (j mod d)]` as it stood before the copy, where
`d = out_len - src` is the distance. -/
def repeated (out : Bytes) (src cnt : Nat) : Bytes :=
  (List.range cnt).map (fun j => out.getD (src + j % (out.length - src)) 0#8)

/-- The bytes of a BC0 copy from memo slot `m` with the cursor at `cur` (R45), as the memo stood before the copy: the
period is the distance from `m` to `cur` round the memo, and with `m = cur` every slot is read before it is written. -/
def memoRepeated (memo : Memory) (cur m : BitVec 12) (cnt : Nat) : Bytes :=
  (List.range cnt).map (fun j =>
    memoRead memo (m + BitVec.ofNat 12 (if m = cur then j else j % (cur - m).toNat)))

/-- How many control bits an opcode has (R55, R63). -/
def ctlBits : Instr → Nat
  | .lit _ => 1
  | .scopy _ _ => 4
  | .lcopy _ _ => 2
  | .ecopy _ _ => 2
  | .stop _ => 2
  | .blit _ => 1
  | .bref _ _ => 1
  | _ => 0

/-- How many data bytes an opcode has (R55, R63). -/
def dataBytes : Instr → Nat
  | .lit _ => 1
  | .scopy _ _ => 1
  | .lcopy _ _ => 2
  | .ecopy _ _ => 3
  | .stop _ => 2
  | .blit _ => 1
  | .bref _ _ => 2
  | _ => 0

/-- SIZE mode's answer where BYTES mode answers `r` (R107). -/
def sizeResponse : Response → Response
  | .ok (.bytes z) => .ok (.int z.length)
  | r => r

/-- TRACE mode's answer where BYTES mode answers `r` (R108, R129): nothing, or the same error. -/
def traceResponse : Response → Response
  | .ok _ => .ok .unit
  | r => r

/-- The final count TRACE mode reports where BYTES mode answers `r`: none on an error (R108). -/
def finalCountOf : Response → List SinkItem
  | .ok (.bytes z) => [.finalCount z.length]
  | _ => []

/-- The notifications of a unit that moves over `n` bytes: one at each positive multiple of 4096, if there is a callback
(R132). -/
def progressNotes (pr : Progress) (mk : Nat → Note) (n : Nat) : List Note :=
  if pr = .absent then [] else (List.range (n / 4096)).map (fun j => mk (4096 * (j + 1)))

/-- The notifications of a move from `a` to `b`. -/
def notesBetween (pr : Progress) (a b : Nat) : List Note :=
  if pr = .absent then [] else (notifyPoints a b).map .prsc

/-- A candidate of R84's search at boundary `b`: a literal-prefix length and a distance. -/
def Candidate (data : Bytes) (b level k d : Nat) : Prop :=
  k < level ∧ b + k < data.length ∧ 1 ≤ d ∧ d ≤ b + k ∧ d ≤ 8191

/-- The length of a candidate's match (R83). -/
def candidateLen (data : Bytes) (b k d : Nat) : Nat :=
  matchLen (fun i => data[i]?) (min 256 (data.length - (b + k))) (b + k - d) (b + k)

/-- A token of a PRS stream in write order: a control bit or a data byte. -/
inductive Token where
  | bit (b : Bool)
  | byte (v : Byte)
deriving DecidableEq, Repr

/-- An opcode's tokens: its control bits, then its data bytes (R71). -/
def codeTokens (c : Code) : List Token := c.bits.map .bit ++ c.data.map .byte

/-- The control bits among some tokens, in write order. -/
def tokenBits : List Token → List Bool
  | [] => []
  | .bit b :: ts => b :: tokenBits ts
  | .byte _ :: ts => tokenBits ts

/-- The canonical layout (R73): `n` bits of the current group are written; a group's control byte, with all its bits,
stands where its first bit is written. -/
def canonical : Nat → List Token → Bytes
  | _, [] => []
  | n, .bit b :: ts =>
    if n % 8 = 0 then controlByte ((b :: tokenBits ts).take 8) :: canonical (n + 1) ts else canonical (n + 1) ts
  | n, .byte v :: ts => v :: canonical n ts

/-- How many output bytes a stream opcode gives (R101 to R105, R120, R121). -/
def outBytes : Instr → Nat
  | .lit _ => 1
  | .scopy _ cnt => cnt
  | .lcopy _ cnt => cnt
  | .ecopy _ cnt => cnt
  | .blit _ => 1
  | .bref _ cnt => cnt
  | _ => 0

/-- `PrsRun r n recs o`: from the reader `r` with `n` bytes of output so far, an unbounded PRS decode executes exactly the
opcodes of `recs`, each recorded at its start before its effect (R99, R100, R108), and ends with `o`: the output count, or
the error. -/
inductive PrsRun : Reader → Nat → List PrsRecord → Except EngineError Nat → Prop where
  /-- the clean end: the input is exhausted at an opcode boundary -/
  | cleanEnd (r : Reader) (n : Nat) : r.pos = r.input.length → PrsRun r n [] (.ok n)
  /-- an opcode that cannot be read whole -/
  | truncated (r : Reader) (n k : Nat) : r.pos ≠ r.input.length → decodePrs r = .error (.truncated k) →
      PrsRun r n [] (.error (.malformedTruncated k))
  /-- `STOP` -/
  | stop (r r' : Reader) (n : Nat) (f : BitVec 3) : r.pos ≠ r.input.length → decodePrs r = .ok (.stop f, r') →
      PrsRun r n [{ inOff := r.pos, bitOff := r.bits, outOff := n, op := .stop f }] (.ok n)
  /-- a copy from outside the output: recorded, then the error -/
  | badCopy (r r' : Reader) (n : Nat) (i : Instr) (off : Int) (cnt : Nat) : r.pos ≠ r.input.length →
      decodePrs r = .ok (i, r') → IsPrsCopy i off cnt → ((n : Int) + off < 0 ∨ (n : Int) ≤ (n : Int) + off) →
      PrsRun r n [{ inOff := r.pos, bitOff := r.bits, outOff := n, op := i }] (.error (.malformedBackref n off))
  /-- a literal, or a copy from inside the output; the decode goes on after it -/
  | op (r r' : Reader) (n : Nat) (i : Instr) (recs : List PrsRecord) (o : Except EngineError Nat) :
      r.pos ≠ r.input.length → decodePrs r = .ok (i, r') →
      ((∃ v, i = .lit v) ∨ ∃ off cnt, IsPrsCopy i off cnt ∧ off < 0 ∧ 0 ≤ (n : Int) + off) →
      PrsRun r' (n + outBytes i) recs o →
      PrsRun r n ({ inOff := r.pos, bitOff := r.bits, outOff := n, op := i } :: recs) o

/-- `Bc0Run r n recs m`: from the reader `r` with `n` bytes of output so far, a BC0 decode executes exactly the opcodes of
`recs`, each recorded at its start (R119, R122), and ends with `m` bytes of output. -/
inductive Bc0Run : Reader → Nat → List Bc0Record → Nat → Prop where
  /-- no whole opcode is left -/
  | ended (r r' : Reader) (n : Nat) : decodeBc0 r = .ended r' → Bc0Run r n [] n
  /-- an opcode; the decode goes on after it -/
  | op (r r' : Reader) (n m : Nat) (i : Instr) (recs : List Bc0Record) : decodeBc0 r = .op i r' →
      Bc0Run r' (n + outBytes i) recs m → Bc0Run r n ({ inOff := r.pos, outOff := n, op := i } :: recs) m

/-- How BYTES mode's answer to a command is the outcome of its run: the bytes counted, or the error. -/
def runOutcome : Response → Except EngineError Nat
  | .ok (.bytes z) => .ok z.length
  | .ok _ => .ok 0
  | .error e => .error e

/-- The ten host commands. -/
def isCommand (i : Instr) : Bool := !isPrsOp i && !isBc0Op i

end Sys2Proof.Machine
end

