-- ==== Sys2Proof/Certificates/Slice0/Obligations.lean ====
section
/-!
DEFINITION. The statements for the provers, one `Obligations.<Name>` each; OBLIGATIONS.json lists them. A state named by
a hypothesis that no run need reach is meant: the statements hold in every state that meets their hypotheses.
-/

open Sys2Proof Sys2Proof.Machine

/-- Decoding an encoded PRS opcode gives it back, at every operand value (R53, R54, R56, R57, R58). -/
def Obligations.PrsDecodeOfEncode : Prop :=
  ∀ (i : Instr) (c : Code) (tail : Bytes), isPrsOp i = true → wellFormed i = true → encode i = some c →
    ∃ r, decodePrs (Reader.start (c.layout ++ tail)) = .ok (i, r) ∧ r.pos = c.layout.length ∧
      r.left = 8 - c.bits.length ∧ r.input = c.layout ++ tail

/-- Decoding an encoded BC0 opcode gives it back, at every operand value (R59, R60, R37). -/
def Obligations.Bc0DecodeOfEncode : Prop :=
  ∀ (i : Instr) (c : Code) (tail : Bytes), isBc0Op i = true → wellFormed i = true → encode i = some c →
    ∃ r, decodeBc0 (Reader.start (c.layout ++ tail)) = .op i r ∧ r.pos = c.layout.length ∧ r.left = 7 ∧
      r.input = c.layout ++ tail

/-- Seven opcode words written out from the spec decode to their opcodes (R53, R59). -/
def Obligations.SpecWordsDecode : Prop :=
  decodeTableWord 9 0b101000001 = some (.lit 0x41#8) ∧
    decodeTableWord 12 0b001011111011 = some (.scopy (-5) 4) ∧
    decodeTableWord 18 0b011111110111111111 = some (.lcopy (-1) 7) ∧
    decodeTableWord 26 0b01111110001111111111111111 = some (.ecopy (-1) 256) ∧
    decodeTableWord 18 0b010000010100000000 = some (.stop 5#3) ∧
    decodeTableWord 17 0b01110111011110011 = some (.bref 0xFEE#12 6) ∧
    decodeBc0 (Reader.start [0b00000001#8, 0b01000001#8]) =
      .op (.blit 0x41#8) { Reader.start [0b00000001#8, 0b01000001#8] with pos := 2, left := 7, bits := 1 }

/-- Each decoder yields only well-formed opcodes of its own format (R54, R56, R57, R59). -/
def Obligations.DecodersYieldWellFormedOpcodes : Prop :=
  (∀ (r : Reader) (i : Instr) (r' : Reader), decodePrs r = .ok (i, r') → isPrsOp i = true ∧ wellFormed i = true) ∧
    (∀ (r : Reader) (i : Instr) (r' : Reader), decodeBc0 r = .op i r' → isBc0Op i = true ∧ wellFormed i = true)

/-- A PRS opcode moves in_pos by its data bytes and the control byte it fetches, never past the input (R24, R55, R74). -/
def Obligations.PrsOpcodeAdvancesReader : Prop :=
  ∀ (r r' : Reader) (i : Instr), r.left ≤ 8 → decodePrs r = .ok (i, r') →
    r'.input = r.input ∧ r'.pos ≤ r.input.length ∧ r'.bits = r.bits + ctlBits i ∧
      r'.pos = r.pos + dataBytes i + (if r.left < ctlBits i then 1 else 0) ∧
      r'.left + ctlBits i = r.left + (if r.left < ctlBits i then 8 else 0)

/-- After control bits 0 1, the opcode is STOP exactly when F[15:3] is 0, and no third byte is read (R54, R58, R61). -/
def Obligations.StopIsToldByTheOffsetFieldAlone : Prop :=
  ∀ (r r₁ r₂ : Reader) (b0 b1 : Byte), r.getBit = .ok (false, r₁) → r₁.getBit = .ok (true, r₂) →
    r₂.input[r₂.pos]? = some b0 → r₂.input[r₂.pos + 1]? = some b1 →
    ((∃ f r', decodePrs r = .ok (.stop f, r')) ↔ (b1 = 0#8 ∧ b0.toNat < 8)) ∧
    (∀ f r', decodePrs r = .ok (.stop f, r') → f.toNat = b0.toNat ∧ r' = { r₂ with pos := r₂.pos + 2 })

/-- The first control bit of a group is bit 0 of its control byte, for both writers and both readers (R38). -/
def Obligations.ControlBitsAreLeastSignificantFirst : Prop :=
  (∀ (bs : List Bool), bs.length ≤ 8 → ∀ j, j < 8 → (controlByte bs).getLsbD j = bs.getD j false) ∧
    (∀ (r : Reader), 0 < r.left →
      ∃ r', r.getBit = .ok (r.ctl.getLsbD 0, r') ∧ ∀ j, r'.ctl.getLsbD j = r.ctl.getLsbD (j + 1)) ∧
    (∀ (r : Reader) (c : Byte), r.left = 0 → r.input[r.pos]? = some c →
      ∃ r', r.getBit = .ok (c.getLsbD 0, r') ∧ r'.left = 7 ∧ ∀ j, r'.ctl.getLsbD j = c.getLsbD (j + 1)) ∧
    (∀ (w : PbsWriter) (v : Bool), w.npend < 8 → w.pend.toNat < 2 ^ w.npend →
      ∀ j, j < 8 → (w.putBit v).pend.getLsbD j = if j = w.npend then v else w.pend.getLsbD j) ∧
    (∀ (c : Bc0c) (v : Bool) (data : Bytes) (g : Nat) (old : Byte), c.gbits < 8 → c.gctl = some g →
      c.out[g]? = some old → ∃ new, (c.emit v data).out[g]? = some new ∧
        ∀ j, j < 8 → new.getLsbD j = if j = c.gbits then (old.getLsbD j || v) else old.getLsbD j) ∧
    (∀ (w : PbsWriter) (v : Bool), w.npend = 8 → w.ctlOff < w.out.length →
      (w.putBit v).npend = 1 ∧ (∀ j, (w.putBit v).pend.getLsbD j = (decide (j = 0) && v)) ∧
        (w.putBit v).out[w.ctlOff]? = some w.pend ∧ (w.putBit v).ctlOff = w.out.length) ∧
    (∀ (c : Bc0c) (v : Bool) (data : Bytes), c.gbits = 8 →
      (c.emit v data).gbits = 1 ∧ (c.emit v data).gctl = some c.out.length ∧
        (∃ new, (c.emit v data).out[c.out.length]? = some new ∧ ∀ j, new.getLsbD j = (decide (j = 0) && v)) ∧
        ∀ k, k < c.out.length → (c.emit v data).out[k]? = c.out[k]?)

/-- COPY expands to the opcode the compressor's selection emits for that distance and length (R65, R86, R90, R91, R92). -/
def Obligations.PseudoCopyIsTheSelectedOpcode : Prop :=
  (∀ (d len : Nat), 1 ≤ d → d ≤ 8191 → 2 ≤ len → len ≤ 256 →
      ∃ sel, selectCode d len = some sel ∧ (pseudoCopy (-(d : Int)) len).bind encode = sel ∧
        (sel = none ↔ len = 2 ∧ 256 < d)) ∧
    (∀ (q cnt : Nat), ∃ m, pseudoBrefq q cnt = .bref m cnt ∧ m.toNat = (q + 0x0FEE) % 4096)

/-- LIT appends its byte (BYTES) or counts it (SIZE, TRACE) and changes nothing else (R101, R106, R107, R108). -/
def Obligations.LitAppendsOneByte : Prop :=
  ∀ (s : State) (p : Prsd) (v : Byte), RunningPrsd s p → WithinBound p (p.outLen + 1) →
    exec (.lit v) s = .next { s with
      active := .prsd { p with
        out := if p.mode = .bytes then p.out ++ [v] else p.out
        outLen := p.outLen + 1
        trace := p.trace ++ prsTraced p (.lit v) }
      sink := s.sink ++ (prsTraced p (.lit v)).map (fun r => (p.sink, .prs r)) }

/-- A PRS copy appends byte j = OUT[s + (j mod d)] as it stood before the copy, and changes nothing else (R44). -/
def Obligations.PrsCopyRepeatsEarlierOutput : Prop :=
  ∀ (s : State) (p : Prsd) (i : Instr) (off : Int) (cnt : Nat), RunningPrsd s p → IsPrsCopy i off cnt →
    (p.mode = .bytes → p.out.length = p.outLen) → off < 0 → 0 ≤ (p.outLen : Int) + off →
    WithinBound p (p.outLen + cnt) →
    exec i s = .next { s with
      active := .prsd { p with
        out := if p.mode = .bytes then p.out ++ repeated p.out ((p.outLen : Int) + off).toNat cnt else p.out
        outLen := p.outLen + cnt
        trace := p.trace ++ prsTraced p i }
      sink := s.sink ++ (prsTraced p i).map (fun r => (p.sink, .prs r)) }

/-- A PRS copy whose source starts outside the output ends the command with MALFORMED_BACKREF, whatever the bound (R100,
R136, R140, R141). -/
def Obligations.PrsCopyOutsideOutputRaisesBackref : Prop :=
  ∀ (s : State) (p : Prsd) (i : Instr) (off : Int) (cnt : Nat), RunningPrsd s p → IsPrsCopy i off cnt →
    ((p.outLen : Int) + off < 0 ∨ (p.outLen : Int) ≤ (p.outLen : Int) + off) →
    exec i s = .next { s with
      active := .idle
      responses := s.responses ++ [.error (.malformedBackref p.outLen off)]
      sink := s.sink ++ (prsTraced p i).map (fun r => (p.sink, .prs r)) }

/-- A PRS opcode that would pass max_out ends the command with RESOURCE_LIMIT and appends nothing (R138). -/
def Obligations.OutputBoundRaisesResourceLimit : Prop :=
  ∀ (s : State) (p : Prsd) (i : Instr) (n : Nat), RunningPrsd s p →
    ((∃ v, i = .lit v ∧ n = p.outLen + 1) ∨
      (∃ off cnt, IsPrsCopy i off cnt ∧ off < 0 ∧ 0 ≤ (p.outLen : Int) + off ∧ n = p.outLen + cnt)) →
    p.maxOut ≠ 0 → p.maxOut < n →
    exec i s = .next { s with
      active := .idle
      responses := s.responses ++ [.error (.resourceLimit n)]
      sink := s.sink ++ (prsTraced p i).map (fun r => (p.sink, .prs r)) }

/-- STOP ends the decode for every value of F[2:0], and the next step returns the result (R58, R99, R105). That the
result is returned by a step of its own is the model's choice (log entry 1). -/
def Obligations.StopEndsTheDecode : Prop :=
  ∀ (s : State) (p : Prsd) (f : BitVec 3), RunningPrsd s p → s.schedule = [] →
    ∃ t, exec (.stop f) s = .next t ∧
      t = { s with
        active := .prsd { p with fin := .stop, trace := p.trace ++ prsTraced p (.stop f) }
        sink := s.sink ++ (prsTraced p (.stop f)).map (fun r => (p.sink, .prs r)) } ∧
      step t = .next { t with
        active := .idle
        responses := t.responses ++ [.ok (match p.mode with
          | .bytes => .bytes p.out
          | .size => .int p.outLen
          | .trace => .unit)]
        sink := t.sink ++ (if p.mode = .trace then [(p.sink, .finalCount p.outLen)] else []) }

/-- An input exhausted at an opcode boundary ends the decode cleanly, whatever control bits are left (R99). That the
result is returned by a step of its own is the model's choice (log entry 1). That control bits may be left is R99's
word, which the row V-PD21 of the vectors contradicts (log entry 7). -/
def Obligations.CleanEndBetweenOpcodes : Prop :=
  ∀ (s : State) (p : Prsd), RunningPrsd s p → s.schedule = [] → p.rd.pos = p.rd.input.length →
    ∃ t, step s = .next t ∧ t = { s with active := .prsd { p with fin := .cleanEnd } } ∧
      ∃ u, step t = .next u ∧ u.active = .idle ∧
        u.responses = s.responses ++ [.ok (match p.mode with
          | .bytes => .bytes p.out
          | .size => .int p.outLen
          | .trace => .unit)]

/-- An input that ends inside a PRS opcode ends the command with MALFORMED_TRUNCATED(len(IN)) (R74, R75, R137, R110). -/
def Obligations.TruncationInsideAnOpcode : Prop :=
  ∀ (s : State) (p : Prsd) (e : DecodeError), RunningPrsd s p → s.schedule = [] → p.rd.pos < p.rd.input.length →
    decodePrs p.rd = .error e →
    e = .truncated p.rd.input.length ∧
      step s = .next { s with
        active := .idle
        responses := s.responses ++ [.error (.malformedTruncated p.rd.input.length)] } ∧
      ∃ a r, p.rd.getBit = .ok (a, r) ∧ (a = false →
        ∃ b r', r.getBit = .ok (b, r') ∧ (b = false →
          ∃ h r₁ l r₂, r'.getBit = .ok (h, r₁) ∧ r₁.getBit = .ok (l, r₂)))

/-- A step is exec of the instruction fetched, on the state the fetch leaves (R99, R119, R148). -/
def Obligations.StepRunsTheDecodedInstruction : Prop :=
  ∀ (s t : State), s.reschedule = t →
    (∀ (p : Prsd) (i : Instr) (r : Reader), RunningPrsd t p → p.rd.pos ≠ p.rd.input.length →
      decodePrs p.rd = .ok (i, r) →
      step s = exec i { t with active := .prsd { p with rd := r, markIn := p.rd.pos, markBit := p.rd.bits } }) ∧
    (∀ (d : Bc0d) (i : Instr) (r : Reader), RunningBc0d t d → decodeBc0 d.rd = .op i r →
      step s = exec i { t with active := .bc0d { d with rd := r, markIn := d.rd.pos } }) ∧
    (∀ (i : Instr) (rest : List HostAction), t.active = .idle → t.host = .issue i :: rest →
      step s = exec i { t with host := rest })

/-- BLIT appends its byte to OUT and MEMO[cur] and advances the cursor; TRACE mode only counts (R120, R28, R122). -/
def Obligations.BlitMirrorsIntoTheMemo : Prop :=
  ∀ (s : State) (d : Bc0d) (v : Byte), RunningBc0d s d →
    exec (.blit v) s = .next { s with
      active := .bc0d { d with
        out := if d.mode = .trace then d.out else d.out ++ [v]
        memo := if d.mode = .trace then d.memo else memoWrite d.memo d.cur v
        outLen := d.outLen + 1
        cur := d.cur + 1#12
        trace := d.trace ++ bc0Traced d (.blit v) }
      sink := s.sink ++ (bc0Traced d (.blit v)).map (fun r => (d.sink, .bc0 r)) }

/-- BREF copies byte by byte through the circular memo, also across the cursor, and changes nothing else (R45, R121,
R122, R155). -/
def Obligations.BrefCopiesThroughTheMemo : Prop :=
  ∀ (s : State) (d : Bc0d) (m : BitVec 12) (cnt : Nat), RunningBc0d s d → Memory.wf d.memo = true → cnt ≤ 4096 →
    ∃ d', exec (.bref m cnt) s = .next { s with
        active := .bc0d d'
        sink := s.sink ++ (bc0Traced d (.bref m cnt)).map (fun r => (d.sink, .bc0 r)) } ∧
      d' = { d with
        out := d'.out
        memo := d'.memo
        outLen := d.outLen + cnt
        cur := d.cur + BitVec.ofNat 12 cnt
        trace := d.trace ++ bc0Traced d (.bref m cnt) } ∧
      (d.mode = .trace → d'.out = d.out ∧ d'.memo = d.memo) ∧
      (d.mode ≠ .trace → d'.out = d.out ++ memoRepeated d.memo d.cur m cnt ∧ Memory.wf d'.memo = true ∧
        ∀ a : BitVec 12, memoRead d'.memo a =
          if (a - d.cur).toNat < cnt then (memoRepeated d.memo d.cur m cnt).getD (a - d.cur).toNat 0#8
          else memoRead d.memo a)

/-- A BC0 stream that ends inside an opcode, or before one, ends the decode with what was decoded so far (R78, R119,
R120, R121). The field `done` and the return by a step of its own are the model's choice (log entry 1). -/
def Obligations.Bc0EndDiscardsThePartialOpcode : Prop :=
  ∀ (s : State) (d : Bc0d) (r : Reader), RunningBc0d s d → s.schedule = [] → decodeBc0 d.rd = .ended r →
    ∃ t, step s = .next t ∧ t = { s with active := .bc0d { d with rd := r, done := true } } ∧
      ∃ u, step t = .next u ∧ u.active = .idle ∧
        u.responses = s.responses ++ [.ok (if d.mode = .trace then .unit else .bytes d.out)]

/-- prs_decompress completes on every input with the bytes, within the bound, or one malformed-input or resource error
(R109, R127, R134, R141, R162). -/
def Obligations.PrsDecompressAnswers : Prop :=
  ∀ (s : State) (bytes : Bytes) (maxOut : Nat), s.active = .idle →
    ∃ r, exec (.prsDecompress bytes maxOut) s = .next { s with responses := s.responses ++ [r] } ∧
      ((∃ z, r = .ok (.bytes z) ∧ (maxOut = 0 ∨ z.length ≤ maxOut)) ∨
       (∃ n off, r = .error (.malformedBackref n off) ∧ (n : Int) + off < 0) ∨
       r = .error (.malformedTruncated bytes.length) ∨
       (∃ n, r = .error (.resourceLimit n) ∧ maxOut ≠ 0 ∧ maxOut < n))

/-- prs_decompress_size answers len(OUT) exactly where prs_decompress answers OUT, and the same error otherwise (R107). -/
def Obligations.SizeModeAgreesWithBytesMode : Prop :=
  ∀ (s : State) (bytes : Bytes) (maxOut : Nat), s.active = .idle →
    ∃ r, exec (.prsDecompress bytes maxOut) s = .next { s with responses := s.responses ++ [r] } ∧
      exec (.prsDecompressSize bytes maxOut) s = .next { s with responses := s.responses ++ [sizeResponse r] } ∧
      ((∃ z, r = .ok (.bytes z)) ∨ (∃ e, r = .error e))

/-- prs_disassemble writes one record for each opcode of the decode, in order, then the true length or the error (R108,
R129, R149). -/
def Obligations.PrsDisassemblerReportsTheDecode : Prop :=
  ∀ (s : State) (k : Nat) (bytes : Bytes), s.active = .idle →
    ∃ (r : Response) (recs : List PrsRecord),
      exec (.prsDecompress bytes 0) s = .next { s with responses := s.responses ++ [r] } ∧
      PrsRun (Reader.start bytes) 0 recs (runOutcome r) ∧
      exec (.prsDisassemble k bytes) s = .next { s with
        responses := s.responses ++ [traceResponse r]
        sink := s.sink ++ (recs.map (fun x => (k, SinkItem.prs x)) ++ (finalCountOf r).map (fun x => (k, x))) }

/-- bc0_decompress completes on every input with bytes, at most 144 for each started group of 17 input bytes (R119,
R123, R130). -/
def Obligations.Bc0DecompressNeverFails : Prop :=
  ∀ (s : State) (bytes : Bytes), s.active = .idle →
    ∃ z, exec (.bc0Decompress bytes) s = .next { s with responses := s.responses ++ [.ok (.bytes z)] } ∧
      z.length ≤ 18 * 8 * ((bytes.length + 16) / 17)

/-- bc0_disassemble writes one record for each opcode of the decode, in order, then the true decompressed length (R122,
R123, R131, R149). -/
def Obligations.Bc0DisassemblerReportsTheDecode : Prop :=
  ∀ (s : State) (k : Nat) (bytes : Bytes), s.active = .idle →
    ∃ (z : Bytes) (recs : List Bc0Record),
      exec (.bc0Decompress bytes) s = .next { s with responses := s.responses ++ [.ok (.bytes z)] } ∧
      Bc0Run (Reader.start bytes) 0 recs z.length ∧
      exec (.bc0Disassemble k bytes) s = .next { s with
        responses := s.responses ++ [.ok .unit]
        sink := s.sink ++ (recs.map (fun x => (k, SinkItem.bc0 x)) ++ [(k, .finalCount z.length)]) }

/-- A BC0 stream cut at any byte decodes without error to a prefix of its full output (R119, R160). -/
def Obligations.Bc0TruncationGivesAPrefix : Prop :=
  ∀ (s : State) (bytes : Bytes) (k : Nat), s.active = .idle →
    ∃ z z', exec (.bc0Decompress bytes) s = .next { s with responses := s.responses ++ [.ok (.bytes z)] } ∧
      exec (.bc0Decompress (bytes.take k)) s = .next { s with responses := s.responses ++ [.ok (.bytes z')] } ∧
      z' <+: z

/-- A PRS decode that ends by STOP gives the same answer with any bytes after it (R105, R161). -/
def Obligations.BytesAfterStopAreIgnored : Prop :=
  ∀ (s : State) (bytes tail : Bytes) (maxOut : Nat) (p : Prsd), s.active = .idle →
    prsDecompress bytes maxOut = .ok p → p.fin = .stop →
    exec (.prsDecompress (bytes ++ tail) maxOut) s = exec (.prsDecompress bytes maxOut) s

/-- prs_compress completes on every input and level, with the same bytes whether or not a callback is present (R82, R94,
R124, R132). -/
def Obligations.PrsCompressCompletes : Prop :=
  ∀ (s : State) (bytes : Bytes) (level : Nat), s.active = .idle →
    ∃ z, ∀ pr, callbackPassive pr = true →
      exec (.prsCompress bytes level pr) s = .next { s with
        responses := s.responses ++ [.ok (.bytes z)]
        notes := s.notes ++ progressNotes pr .prsc bytes.length }

/-- bc0_compress completes on every input, with the same bytes whether or not a callback is present (R111, R114, R126,
R132). -/
def Obligations.Bc0CompressCompletes : Prop :=
  ∀ (s : State) (bytes : Bytes), s.active = .idle →
    ∃ z, (bytes = [] → z = []) ∧ ∀ pr, callbackPassive pr = true →
      exec (.bc0Compress bytes pr) s = .next { s with
        responses := s.responses ++ [.ok (.bytes z)]
        notes := s.notes ++ progressNotes pr .bc0c bytes.length }

/-- PRS round trip: decompressing what prs_compress returns gives the input back, for every input and level (R97). -/
def Obligations.PrsRoundTrip : Prop :=
  ∀ (s : State) (bytes : Bytes) (level : Nat), s.active = .idle →
    ∃ z p, exec (.prsCompress bytes level .absent) s =
        .next { s with responses := s.responses ++ [.ok (.bytes z)] } ∧
      exec (.prsDecompress z 0) s = .next { s with responses := s.responses ++ [.ok (.bytes bytes)] } ∧
      exec (.prsDecompressSize z 0) s = .next { s with responses := s.responses ++ [.ok (.int bytes.length)] } ∧
      prsDecompress z 0 = .ok p ∧ p.fin = .stop ∧ p.rd.pos = z.length

/-- BC0 round trip: decompressing what bc0_compress returns gives the input back, for every input (R117). -/
def Obligations.Bc0RoundTrip : Prop :=
  ∀ (s : State) (bytes : Bytes), s.active = .idle →
    ∃ z, exec (.bc0Compress bytes .absent) s = .next { s with responses := s.responses ++ [.ok (.bytes z)] } ∧
      exec (.bc0Decompress z) s = .next { s with responses := s.responses ++ [.ok (.bytes bytes)] }

/-- The stream CLOSE returns depends on the concatenated input and the level alone, not on how it was split into ADDs
(R95, R96). -/
def Obligations.PrsStreamIndependentOfChunking : Prop :=
  ∀ (level : Nat) (chunks : List Bytes),
    (prscClose (chunks.foldl (fun p c => (prscAdd c p).1) (Prsc.start level .absent))).1.result =
        (prsCompress chunks.flatten level .absent).1.result ∧
      (prscClose (chunks.foldl (fun p c => (prscAdd c p).1) (Prsc.start level .absent))).2 = none ∧
      ∀ before c, before ++ [c] <+: chunks →
        (prscAdd c (before.foldl (fun p c => (prscAdd c p).1) (Prsc.start level .absent))).2 = none

/-- Compressing 4096 zero bytes at level 1 gives 56 bytes (R98). -/
def Obligations.ZerosCompressTo56Bytes : Prop :=
  ∀ (s : State), s.active = .idle →
    ∃ z, exec (.prsCompress (List.replicate 4096 0#8) 1 .absent) s =
        .next { s with responses := s.responses ++ [.ok (.bytes z)] } ∧
      z.length = 56 ∧ [0x55#8, 0x00#8, 0xF8#8, 0xFF#8, 0xFF#8] <+: z ∧
      [0x05#8, 0xF8#8, 0xFF#8, 0xFE#8, 0x00#8, 0x00#8] <:+ z

/-- A callback that never returns from a notification sticks the command; one that unwinds is refused (R132, R158,
R142). With a callback that unwinds from the notification at b, each is refused by name (the model's choice, log
entry 4, since the spec does not model it). -/
def Obligations.CallbackThatNeverReturnsStalls : Prop :=
  ∀ (s : State) (bytes : Bytes) (level j : Nat), s.active = .idle → 0 < j →
    (4096 * j ≤ bytes.length →
      exec (.prsCompress bytes level (.hangsAt (4096 * j))) s = .fault (.callbackHangs (4096 * j)) ∧
        exec (.bc0Compress bytes (.hangsAt (4096 * j))) s = .fault (.callbackHangs (4096 * j)) ∧
        exec (.prsCompress bytes level (.unwindsAt (4096 * j))) s = .refused (.callbackUnwinds (4096 * j)) ∧
        exec (.bc0Compress bytes (.unwindsAt (4096 * j))) s = .refused (.callbackUnwinds (4096 * j))) ∧
    (∀ (h : Nat) (p : Prsc), s.prscs[h]? = some (.live p) → p.closed = false → Prsc.Inv p → p.b < 4096 * j →
      (4096 * j ≤ p.data.length →
        (p.progress = .hangsAt (4096 * j) → exec (.prscClose h) s = .fault (.callbackHangs (4096 * j))) ∧
        (p.progress = .unwindsAt (4096 * j) → exec (.prscClose h) s = .refused (.callbackUnwinds (4096 * j)))) ∧
      (4096 * j + 256 + p.level ≤ (p.data ++ bytes).length →
        (p.progress = .hangsAt (4096 * j) → exec (.prscAdd h bytes) s = .fault (.callbackHangs (4096 * j))) ∧
        (p.progress = .unwindsAt (4096 * j) → exec (.prscAdd h bytes) s = .refused (.callbackUnwinds (4096 * j)))))

/-- PRSC.NEW creates an instance with the values of the state table and refuses a negative level (R20, R66, R80, R9). -/
def Obligations.NewCreatesAnInstanceAtItsTableValues : Prop :=
  ∀ (s : State) (pr : Progress), s.active = .idle →
    (∀ level : Nat, ∃ p, exec (.prscNew level pr) s = .next { s with
        prscs := s.prscs ++ [.live p]
        responses := s.responses ++ [.ok (.handle s.prscs.length)] } ∧
      p.level = level ∧ p.progress = pr ∧ p.data = [] ∧ p.b = 0 ∧ p.closed = false ∧ p.failed = false ∧
      p.w = { out := [0x00#8], ctlOff := 0, pend := 0x00#8, npend := 0 }) ∧
    (∀ level : Int, level < 0 → exec (.prscNew level pr) s = .refused .negativeLevel)

/-- prs_compress refuses a negative level (R9). -/
def Obligations.NegativeLevelIsRefused : Prop :=
  ∀ (s : State) (bytes : Bytes) (level : Int) (pr : Progress), s.active = .idle → level < 0 →
    exec (.prsCompress bytes level pr) s = .refused .negativeLevel

/-- PRSC.ADD appends its bytes and advances until fewer than 256 + level bytes are ahead (R81, R88, R132). -/
def Obligations.AddCompletes : Prop :=
  ∀ (s : State) (h : Nat) (p : Prsc) (bytes : Bytes), s.active = .idle → s.prscs[h]? = some (.live p) →
    p.closed = false → Prsc.Inv p → callbackPassive p.progress = true →
    ∃ p', exec (.prscAdd h bytes) s = .next { s with
        prscs := s.prscs.set h (.live p')
        responses := s.responses ++ [.ok .unit]
        notes := s.notes ++ notesBetween p.progress p.b p'.b } ∧
      p'.data = p.data ++ bytes ∧ p.b ≤ p'.b ∧ p'.data.length - p'.b < 256 + p.level ∧ Prsc.Inv p' ∧
      p'.level = p.level ∧ p'.progress = p.progress ∧ p'.closed = false ∧
      ((p.data ++ bytes).length - p.b < 256 + p.level → p' = { p with data := p.data ++ bytes })

/-- ADD after CLOSE raises USAGE and leaves the instance unchanged; CLOSE after CLOSE returns the same result (R135). -/
def Obligations.ClosedInstanceRefusesAddAndKeepsItsResult : Prop :=
  ∀ (s : State) (h : Nat) (p : Prsc) (bytes : Bytes), s.active = .idle → s.prscs[h]? = some (.live p) →
    p.closed = true →
    exec (.prscAdd h bytes) s =
        .next { s with responses := s.responses ++ [.error (.usage "add after close")] } ∧
      exec (.prscClose h) s = .next { s with responses := s.responses ++ [.ok (.bytes p.result)] }

/-- PRSC.CLOSE drains the input, returns the stream, and a second CLOSE returns the same bytes (R82, R72). -/
def Obligations.CloseCompletesAndIsIdempotent : Prop :=
  ∀ (s : State) (h : Nat) (p : Prsc), s.active = .idle → s.prscs[h]? = some (.live p) → p.closed = false →
    Prsc.Inv p → callbackPassive p.progress = true →
    ∃ p' t, exec (.prscClose h) s = .next t ∧
      t = { s with
        prscs := s.prscs.set h (.live p')
        responses := s.responses ++ [.ok (.bytes p'.result)]
        notes := s.notes ++ notesBetween p.progress p.b p'.b } ∧
      p'.closed = true ∧ p'.b = p'.data.length ∧ p'.data = p.data ∧ p'.result = p'.w.out ∧
      exec (.prscClose h) t = .next { t with responses := t.responses ++ [.ok (.bytes p'.result)] }

/-- ADD and CLOSE on a failed, open instance raise INTERNAL_INVARIANT("instance failed") and change nothing else (R81,
R82, R139, R140). -/
def Obligations.FailedInstanceAlwaysRaises : Prop :=
  ∀ (s : State) (h : Nat) (p : Prsc) (bytes : Bytes), s.active = .idle → s.prscs[h]? = some (.live p) →
    p.closed = false → p.failed = true →
    exec (.prscAdd h bytes) s = .next { s with
        responses := s.responses ++ [.error (.internalInvariant (.text "instance failed"))] } ∧
      exec (.prscClose h) s = .next { s with
        responses := s.responses ++ [.error (.internalInvariant (.text "instance failed"))] }

/-- Search returns only lengths 2..256 and distances 1..8191, each has an encoding, so Advance never fails (R94). -/
def Obligations.SearchResultsAlwaysHaveAnEncoding : Prop :=
  (∀ (data : Bytes) (b level : Nat) (m : Match), search data b level = some m →
      2 ≤ m.len ∧ m.len ≤ 256 ∧ 1 ≤ m.d ∧ m.d ≤ 8191 ∧
        selectCode m.d m.len =
          if m.d ≤ 256 ∧ m.len ≤ 5 then some (some (shortCode m.d m.len))
          else if m.len = 2 then some none
          else if m.len ≤ 9 then some (some (longCode m.d m.len))
          else some (some (extCode m.d m.len))) ∧
    (∀ p : Prsc, (advance p).2 = none ∧ (advance p).1.failed = p.failed)

/-- MatchLen is the longest agreement up to its cap, and equals the comparison with a cyclic repetition (R83, R113). -/
def Obligations.MatchLengthIsTheCyclicComparison : Prop :=
  ∀ (data : Bytes) (cap p bb L : Nat), p < bb → L = matchLen (fun i => data[i]?) cap p bb →
    L ≤ cap ∧
      (∀ j, j < L → data[bb + j]? = data[p + j]? ∧ data[bb + j]? = data[p + j % (bb - p)]?) ∧
      (L < cap → data[bb + L]? ≠ data[p + L]? ∧ data[bb + L]? ≠ data[p + L % (bb - p)]?)

/-- Search returns the longest match, then the closest, then the one with the shortest literal prefix (R84, R85). -/
def Obligations.SearchFindsTheBestCandidate : Prop :=
  ∀ (data : Bytes) (b level : Nat),
    match search data b level with
    | none => ∀ k d, Candidate data b level k d → candidateLen data b k d < 2
    | some m => Candidate data b level m.k m.d ∧ m.len = candidateLen data b m.k m.d ∧ 2 ≤ m.len ∧
        ∀ k d, Candidate data b level k d →
          candidateLen data b k d < m.len ∨
            (candidateLen data b k d = m.len ∧ (m.d < d ∨ (m.d = d ∧ m.k ≤ k)))

/-- BC0Search takes the better of the two neighbours of the current key, and a tie keeps the predecessor (R26, R112). -/
def Obligations.Bc0SearchTriesBothNeighbours : Prop :=
  ∀ (d : Bytes) (i : Nat) (x : List Nat),
    (∀ p q, keyLt (fun j => d[j]?) p q = true ↔
      ((d.drop p).take 18 < (d.drop q).take 18 ∨ ((d.drop p).take 18 = (d.drop q).take 18 ∧ p < q))) ∧
    (match predecessor (fun j => d[j]?) i x with
      | none => ∀ q ∈ x, keyLt (fun j => d[j]?) q i = false
      | some p => p ∈ x ∧ keyLt (fun j => d[j]?) p i = true ∧
          ∀ q ∈ x, keyLt (fun j => d[j]?) q i = true → q = p ∨ keyLt (fun j => d[j]?) q p = true) ∧
    (match successor (fun j => d[j]?) i x with
      | none => ∀ q ∈ x, keyLt (fun j => d[j]?) i q = false
      | some p => p ∈ x ∧ keyLt (fun j => d[j]?) i p = true ∧
          ∀ q ∈ x, keyLt (fun j => d[j]?) i q = true → q = p ∨ keyLt (fun j => d[j]?) p q = true) ∧
    (match bc0Search d i x with
      | none => ∀ q, predecessor (fun j => d[j]?) i x = some q ∨ successor (fun j => d[j]?) i x = some q →
          matchLen (fun j => d[j]?) (min 18 (d.length - i)) q i = 0
      | some (q, len) => len = matchLen (fun j => d[j]?) (min 18 (d.length - i)) q i ∧ 0 < len ∧
          ((predecessor (fun j => d[j]?) i x = some q ∧
              ∀ q', successor (fun j => d[j]?) i x = some q' →
                matchLen (fun j => d[j]?) (min 18 (d.length - i)) q' i ≤ len) ∨
           (successor (fun j => d[j]?) i x = some q ∧
              ∀ q', predecessor (fun j => d[j]?) i x = some q' →
                matchLen (fun j => d[j]?) (min 18 (d.length - i)) q' i < len)))

/-- The placeholder-and-backfill writer produces exactly the canonical layout of the control bits and data bytes (R73). -/
def Obligations.WriterProducesTheCanonicalLayout : Prop :=
  ∀ (codes : List Code), (∀ c ∈ codes, c.bits ≠ []) →
    (codes.foldl PbsWriter.emit PbsWriter.start).finish.out = canonical 0 (codes.flatMap codeTokens)

/-- At reset the machine holds no instance and is in order, and a step of it changes nothing (R33, R151, R153). That a
thread with nothing to do stays as it is is the model's choice (log entries 1 and 9). -/
def Obligations.ResetIsInOrder : Prop :=
  State.Inv State.reset ∧ State.Mirror State.reset ∧ step State.reset = .next State.reset

/-- Every step keeps the invariants of every unit the machine holds (R20, R23, R25, R27, R94). -/
def Obligations.StepKeepsTheMachineInOrder : Prop :=
  ∀ (s t : State), State.Inv s → step s = .next t → State.Inv t

/-- In BYTES mode every step keeps MEMO the mirror of the last 4096 output bytes, with 00 elsewhere (R27). -/
def Obligations.MemoMirrorsTheOutput : Prop :=
  ∀ (s t : State), State.Inv s → State.Mirror s → step s = .next t → State.Mirror t

/-- Launching a decoder or bc0_compress creates its instance with the values of the state tables (R23, R25, R27, R30,
R33, R151). That a command can be launched is the model's choice (log entry 1). -/
def Obligations.InstancesStartAtTheirTableValues : Prop :=
  ∀ (s : State) (rest : List HostAction) (bytes : Bytes) (maxOut k : Nat) (pr : Progress),
    s.schedule = [] → s.active = .idle →
    (∀ i mode bound sink,
      ((i = .prsDecompress bytes maxOut ∧ mode = .bytes ∧ bound = maxOut ∧ sink = 0) ∨
        (i = .prsDecompressSize bytes maxOut ∧ mode = .size ∧ bound = maxOut ∧ sink = 0) ∨
        (i = .prsDisassemble k bytes ∧ mode = .trace ∧ bound = 0 ∧ sink = k)) →
      step { s with host := .launch i :: rest } = .next { s with
        host := rest
        active := .prsd {
          rd := { input := bytes, pos := 0, ctl := 0#8, left := 0, bits := 0 }
          mode := mode, maxOut := bound, out := [], outLen := 0, trace := [], fin := .running
          markIn := 0, markBit := 0, sink := sink } }) ∧
    (∀ i mode sink,
      ((i = .bc0Decompress bytes ∧ mode = .bytes ∧ sink = 0) ∨ (i = .bc0Disassemble k bytes ∧ mode = .trace ∧ sink = k)) →
      ∃ d, step { s with host := .launch i :: rest } = .next { s with host := rest, active := .bc0d d } ∧
        d.rd = { input := bytes, pos := 0, ctl := 0#8, left := 0, bits := 0 } ∧
        (∀ a, Memory.read d.memo a = 0#8) ∧ d.cur = 0x0FEE#12 ∧ d.mode = mode ∧ d.out = [] ∧ d.outLen = 0 ∧
        d.trace = [] ∧ d.markIn = 0 ∧ d.done = false ∧ d.sink = sink) ∧
    step { s with host := .launch (.bc0Compress bytes pr) :: rest } = .next { s with
        host := rest
        active := .bc0c {
          d := bytes, n := bytes.length, i := 0, x := [], out := [], gctl := none, gbits := 8
          progress := pr } }

/-- A command left to its unit's own steps ends exactly as the same command done in one step (R42, R18, R99, R111, R119,
R96). That a command can be launched is the model's choice (log entry 1). A compression command whose callback acts
is launched in any case (log entry 4). -/
def Obligations.LaunchedCommandsAgreeWithAtomicOnes : Prop :=
  ∀ (s : State) (i : Instr) (rest : List HostAction), s.schedule = [] → s.active = .idle → isCommand i = true →
    ∃ n, Host.Core.run Sys2Proof.core n { s with host := .launch i :: rest } = exec i { s with host := rest }

/-- A command other than PRSC's own leaves no state behind, and its answer depends on its operands alone (R153, R47,
R148). -/
def Obligations.CommandsNeverInfluenceEachOther : Prop :=
  ∀ (i : Instr),
    ((∃ bytes, ∃ level : Nat, ∃ pr, i = .prsCompress bytes level pr ∧ callbackPassive pr = true) ∨
      (∃ bytes pr, i = .bc0Compress bytes pr ∧ callbackPassive pr = true) ∨
      (∃ bytes maxOut, i = .prsDecompress bytes maxOut) ∨ (∃ bytes maxOut, i = .prsDecompressSize bytes maxOut) ∨
      (∃ k bytes, i = .prsDisassemble k bytes) ∨ (∃ bytes, i = .bc0Decompress bytes) ∨
      (∃ k bytes, i = .bc0Disassemble k bytes)) →
    ∃ r items ns, ∀ s : State, s.active = .idle →
      exec i s = .next { s with
        responses := s.responses ++ [r]
        sink := s.sink ++ items
        notes := s.notes ++ ns }

/-- A step moves one host thread and leaves every other thread's command, results and notifications unchanged (R47,
R148). How the schedule is held is the model's choice (log entry 2). -/
def Obligations.ThreadsDoNotTouchEachOther : Prop :=
  ∀ (s t : State), step s = .next t →
    (s.schedule = [] → t.parked = s.parked ∧ t.schedule = []) ∧
    (∀ rest, s.schedule = 0 :: rest → t.parked = s.parked ∧ t.schedule = rest) ∧
    (∀ k rest, s.schedule = (k + 1) :: rest → s.parked[k]? = none → t.parked = s.parked ∧ t.schedule = rest) ∧
    (∀ k rest th, s.schedule = (k + 1) :: rest → s.parked[k]? = some th →
      t.schedule = rest ∧
        t.parked = s.parked.set k {
          host := s.host, active := s.active, calls := s.calls, responses := s.responses, notes := s.notes })

/-- ADD and CLOSE change, beside their own instance, only a response and notifications; or, the model's choice, go in
flight for an acting callback (R148, R125, R132). This second case, the command of an acting callback put in flight
with no response yet, is the model's choice (log entries 1 and 4). -/
def Obligations.PrscCommandsTouchTheirOwnInstanceOnly : Prop :=
  ∀ (s t : State) (h : Nat) (bytes : Bytes),
    (exec (.prscAdd h bytes) s = .next t ∨ exec (.prscClose h) s = .next t) →
    (∀ k, k ≠ h → t.prscs[k]? = s.prscs[k]?) ∧ t.prscs.length = s.prscs.length ∧ t.host = s.host ∧
      t.calls = s.calls ∧ t.sink = s.sink ∧ t.schedule = s.schedule ∧ t.parked = s.parked ∧
      ((t.active = s.active ∧ (∃ r, t.responses = s.responses ++ [r]) ∧ ∃ ns, t.notes = s.notes ++ ns) ∨
        (∃ p job, t.active = .prsc (some h) p job ∧ p.progress = .acting ∧ t.responses = s.responses ∧
          t.notes = s.notes))

/-- A stream opcode outside a running decoder of its format is refused by name (R99, R119, R52). The model's own choice
(log entry 8): a PRS opcode executed with no running PRSD instance, and a BC0 opcode with no running BC0D instance,
is refused. -/
def Obligations.OpcodesNeedTheirDecoder : Prop :=
  ∀ (s : State) (i : Instr),
    (isPrsOp i = true → (∀ p, ¬ RunningPrsd s p) → exec i s = .refused .noPrsDecoder) ∧
    (isBc0Op i = true → (∀ d, ¬ RunningBc0d s d) → exec i s = .refused .noBc0Decoder)

/-- A host command on a thread with a command in flight is refused by name (R18, R48, R144). The model's own choice (log
entry 8): commands are synchronous, so a host command executed while one is in flight on the current thread is
refused, whatever its operands. -/
def Obligations.BusyThreadIssuesNothing : Prop :=
  ∀ (s : State) (i : Instr), isCommand i = true → s.active ≠ .idle → exec i s = .refused .threadBusy

/-- ADD and CLOSE need a live, free instance; a discard is possible at any time, and the instance stays discarded when
its command ends (R125, R133, R154, R47, R159). The model's own choice of refusals (log entry 3): on an idle thread,
ADD and CLOSE on a reference that was never given out or whose instance is discarded are refused by name, and on an
instance that a command is running on by another name. When an ADD running on an instance ends (fewer than 256 +
level bytes ahead), or a CLOSE does (no byte ahead), its instance goes back to its slot, a CLOSE's closed with the
stream as its result, but a discarded one stays discarded; the command returns its response, nothing or the stream,
in either case (the model's choice for a discarded one, log entry 3). -/
def Obligations.MissingInstanceIsRefused : Prop :=
  ∀ (s : State) (h : Nat) (bytes : Bytes),
    (s.active = .idle →
      ((s.prscs[h]? = none ∨ s.prscs[h]? = some .discarded) →
        exec (.prscAdd h bytes) s = .refused (.noPrscInstance h) ∧
          exec (.prscClose h) s = .refused (.noPrscInstance h)) ∧
      (s.prscs[h]? = some .inFlight →
        exec (.prscAdd h bytes) s = .refused (.sharedPrscInstance h) ∧
          exec (.prscClose h) s = .refused (.sharedPrscInstance h)) ∧
      (∀ rest, s.schedule = [] → ((∃ p, s.prscs[h]? = some (.live p)) ∨ s.prscs[h]? = some .inFlight) →
        s.host = .discard h :: rest →
        step s = .next { s with host := rest, prscs := s.prscs.set h .discarded })) ∧
    (∀ p, s.schedule = [] → s.active = .prsc (some h) p .adding → p.data.length - p.b < 256 + p.level →
      (s.prscs[h]? = some .inFlight →
        step s = .next { s with
          active := .idle
          prscs := s.prscs.set h (.live p)
          responses := s.responses ++ [.ok .unit] }) ∧
      (s.prscs[h]? = some .discarded →
        step s = .next { s with active := .idle, responses := s.responses ++ [.ok .unit] })) ∧
    (∀ p w, s.schedule = [] → s.active = .prsc (some h) p .closing → p.data.length ≤ p.b →
      w = (p.w.emit (stopCode 0#3)).finish →
      (s.prscs[h]? = some .inFlight →
        step s = .next { s with
          active := .idle
          prscs := s.prscs.set h (.live { p with w := w, closed := true, result := w.out })
          responses := s.responses ++ [.ok (.bytes w.out)] }) ∧
      (s.prscs[h]? = some .discarded →
        step s = .next { s with active := .idle, responses := s.responses ++ [.ok (.bytes w.out)] }))

/-- A command whose callback acts runs step by step, waits exactly at the byte it notifies for, and goes on when it
returns (R132, R133, R18, R88, R114, R48). That an acting callback's doings are the thread's coming host actions,
and that its command then takes its unit's own steps, is the model's choice (log entries 1 and 4). -/
def Obligations.ActingCallbackRunsInsideItsCommand : Prop :=
  (∀ (s : State) (bytes : Bytes) (level : Nat), s.active = .idle →
      exec (.prsCompress bytes level .acting) s =
        .next { s with active := .prsc none ((Prsc.start level .acting).append bytes) .oneShot } ∧
      exec (.bc0Compress bytes .acting) s = .next { s with active := .bc0c (Bc0c.start bytes .acting) } ∧
      ∀ h p, s.prscs[h]? = some (.live p) → p.progress = .acting → p.closed = false → p.failed = false →
        exec (.prscAdd h bytes) s = .next { s with
          prscs := s.prscs.set h .inFlight
          active := .prsc (some h) { p with data := p.data ++ bytes } .adding } ∧
        exec (.prscClose h) s = .next { s with
          prscs := s.prscs.set h .inFlight
          active := .prsc (some h) p .closing }) ∧
    (∀ (s : State) (c : Bc0c), s.schedule = [] → s.active = .bc0c c → c.progress = .acting → c.i < c.n →
      match notifyPoints c.i (bc0cIter c).i with
      | [] => step s = .next { s with active := .bc0c (bc0cIter c) }
      | b :: _ => ∃ c₀ n, bc0cEmit c = some (c₀, n) ∧ c₀.i = c.i ∧ c₀.x = c.x ∧ c.i < b ∧ b ≤ c.i + n ∧
          (c₀.indexSteps (b - c.i)).i = b ∧ (c₀.indexSteps (b - c.i)).out = (bc0cIter c).out ∧
          (c₀.indexSteps (b - c.i)).indexSteps (c.i + n - b) = bc0cIter c ∧
          step s = .next { s with
            active := .idle
            calls := .bc0c (c₀.indexSteps (b - c.i)) (c.i + n - b) :: s.calls
            notes := s.notes ++ [.bc0c b] }) ∧
    (∀ (s : State) (slot : Option Nat) (p : Prsc) (job : PrscJob), s.schedule = [] → s.active = .prsc slot p job →
      p.progress = .acting → (job = .closing → p.b < p.data.length) →
      (job ≠ .closing → 256 + p.level ≤ p.data.length - p.b) →
      match notifyPoints p.b (advance p).1.b with
      | [] => step s = .next { s with active := .prsc slot (advance p).1 job }
      | b :: _ => ∃ p' left, PrscAt p (advancePlan p) b p' left ∧ p'.perform left = advance p ∧
          p' = { p with
            b := b
            w := match search p.data p.b p.level with
              | none => (advance p).1.w
              | some m =>
                if b ≤ p.b + m.k then (((p.data.drop p.b).take (b - p.b)).map litCode).foldl PbsWriter.emit p.w
                else (advance p).1.w } ∧
          step s = .next { s with
            active := .idle
            calls := .prsc slot p' job left :: s.calls
            notes := s.notes ++ [.prsc b] }) ∧
    (∀ (s : State) (cs : List Call) (rest : List HostAction), s.schedule = [] → s.active = .idle →
      s.host = .callbackReturn :: rest →
      (∀ c left, s.calls = .bc0c c left :: cs →
        match notifyPoints c.i (c.i + left) with
        | [] => step s = .next { s with host := rest, calls := cs, active := .bc0c (c.indexSteps left) }
        | b :: _ => step s = .next { s with
            host := rest
            calls := .bc0c (c.indexSteps (b - c.i)) (c.i + left - b) :: cs
            notes := s.notes ++ [.bc0c b] }) ∧
      (∀ slot p job left, s.calls = .prsc slot p job left :: cs → (∀ m ∈ left, PrscMove.Inv m) →
        match notifyPoints p.b (p.perform left).1.b with
        | [] => step s = .next { s with host := rest, calls := cs, active := .prsc slot (p.perform left).1 job }
        | b :: _ => ∃ p' left', PrscAt p left b p' left' ∧ p'.perform left' = p.perform left ∧
            step s = .next { s with
              host := rest
              calls := .prsc slot p' job left' :: cs
              notes := s.notes ++ [.prsc b] }))

/-- Whatever is done inside a callback, the command that waits for it goes on exactly as it was when it called (R132,
R133, R144). That a callback's doings and its return are host actions of the thread, and that the command waits in a
list of the thread with the rest of its unit's step, is the model's choice (log entry 4). -/
def Obligations.CallbacksLeaveTheWaitingCommandAlone : Prop :=
  ∀ (s t : State), s.schedule = [] → step s = .next t →
    t.calls = s.calls ∨
    (s.active ≠ .idle ∧ t.active = .idle ∧ ∃ c, t.calls = c :: s.calls) ∨
    (s.active = .idle ∧ ∃ call cs rest, s.calls = call :: cs ∧ s.host = .callbackReturn :: rest ∧
      match call with
      | .bc0c c left =>
        t = { s with host := rest, calls := cs, active := .bc0c (c.indexSteps left) } ∨
          (∃ c' left', c.i < c'.i ∧ c'.out = c.out ∧ c'.indexSteps left' = c.indexSteps left ∧
            t = { s with host := rest, calls := .bc0c c' left' :: cs, notes := s.notes ++ [.bc0c c'.i] })
      | .prsc slot p job left =>
        ((p.perform left).2 = none ∧
            t = { s with host := rest, calls := cs, active := .prsc slot (p.perform left).1 job }) ∨
          (∃ p' left', p.b < p'.b ∧ p'.perform left' = p.perform left ∧
            t = { s with host := rest, calls := .prsc slot p' job left' :: cs, notes := s.notes ++ [.prsc p'.b] }) ∨
          (∃ e, (p.perform left).2 = some e ∧ t.calls = cs ∧ t.active = .idle ∧
            t.responses = s.responses ++ [.error e]))

/-- A compression command whose callback acts, and only returns, ends as with a callback that returns at once (R132,
R88, R114, R124, R126). That a command can be launched is the model's choice (log entry 1), and so is that an acting
callback is answered from the host's action list (log entry 4). -/
def Obligations.CallbacksChangeNoResult : Prop :=
  ∀ (s : State) (rest : List HostAction) (bytes : Bytes), s.schedule = [] → s.active = .idle →
    (∀ level : Nat, ∃ n, Host.Core.run Sys2Proof.core n { s with
        host := .launch (.prsCompress bytes level .acting) ::
          (List.replicate (bytes.length / 4096) .callbackReturn ++ rest) } =
      exec (.prsCompress bytes level .returning) { s with host := rest }) ∧
    (∃ n, Host.Core.run Sys2Proof.core n { s with
        host := .launch (.bc0Compress bytes .acting) ::
          (List.replicate (bytes.length / 4096) .callbackReturn ++ rest) } =
      exec (.bc0Compress bytes .returning) { s with host := rest }) ∧
    (∀ (h : Nat) (p : Prsc) (i : Instr), s.prscs[h]? = some (.live p) → p.progress = .acting → p.closed = false →
      Prsc.Inv p → (i = .prscAdd h bytes ∨ i = .prscClose h) →
      ∃ (p' : Prsc) (r : Response) (ns : List Note),
        exec i { s with prscs := s.prscs.set h (.live { p with progress := .returning }) } = .next { s with
          prscs := s.prscs.set h (.live { p' with progress := .returning })
          responses := s.responses ++ [r]
          notes := s.notes ++ ns } ∧
        ∃ n, Host.Core.run Sys2Proof.core n { s with
            host := .issue i :: (List.replicate ns.length .callbackReturn ++ rest) } =
          .next { s with
            host := rest
            prscs := s.prscs.set h (.live { p' with progress := .acting })
            responses := s.responses ++ [r]
            notes := s.notes ++ ns })

/-- One Advance emits the prefix literals and the selected opcode, and moves the boundary over exactly the bytes they
cover (R86, R87, R88, R89). -/
def Obligations.AdvanceCommitsTheSelectedMatch : Prop :=
  ∀ p : Prsc, p.b < p.data.length →
    match search p.data p.b p.level with
    | none => ∃ v, p.data[p.b]? = some v ∧ advance p = ({ p with w := p.w.emit (litCode v), b := p.b + 1 }, none)
    | some m => p.b + m.k + m.len ≤ p.data.length ∧
        (m.len = 2 ∧ 256 < m.d →
          advance p = ({ p with
            w := (((p.data.drop p.b).take (m.k + 1)).map litCode).foldl PbsWriter.emit p.w
            b := p.b + m.k + 1 }, none)) ∧
        (¬ (m.len = 2 ∧ 256 < m.d) →
          ∃ i c, pseudoCopy (-(m.d : Int)) m.len = some i ∧ wellFormed i = true ∧ encode i = some c ∧
            advance p = ({ p with
              w := ((((p.data.drop p.b).take m.k).map litCode).foldl PbsWriter.emit p.w).emit c
              b := p.b + m.k + m.len }, none))

/-- One iteration of bc0_compress emits a BREF where the search gives at least 3 bytes, else a BLIT, and indexes what it
covers (R77, R111, R114, R115, R116). -/
def Obligations.Bc0IterationEmitsOneOpcode : Prop :=
  ∀ (c : Bc0c) (v : Byte), Bc0c.Inv c → c.d[c.i]? = some v →
    ∃ (i : Instr) (code : Code) (n : Nat) (bit : Bool),
      ((∃ q len, bc0Search c.d c.i c.x = some (q, len) ∧ 3 ≤ len ∧ i = pseudoBrefq q len ∧ n = len ∧ bit = false) ∨
        ((∀ q len, bc0Search c.d c.i c.x = some (q, len) → len < 3) ∧ i = .blit v ∧ n = 1 ∧ bit = true)) ∧
      wellFormed i = true ∧ encode i = some code ∧ code.bits = [bit] ∧
      (bc0cIter c).i = c.i + n ∧ c.i + n ≤ c.n ∧
      (bc0cIter c).x = List.range' (c.i + n - 4096) (min (c.i + n) 4096) ∧
      (bc0cIter c).d = c.d ∧ (bc0cIter c).n = c.n ∧ (bc0cIter c).progress = c.progress ∧
      (c.gbits = 8 →
        (bc0cIter c).out = c.out ++ [if bit then 1#8 else 0#8] ++ code.data ∧
          (bc0cIter c).gctl = some c.out.length ∧ (bc0cIter c).gbits = 1) ∧
      (c.gbits < 8 → ∃ g old, c.gctl = some g ∧ c.out[g]? = some old ∧
        (bc0cIter c).out = c.out.set g (if bit then old ||| 1#8 <<< c.gbits else old) ++ code.data ∧
          (bc0cIter c).gctl = some g ∧ (bc0cIter c).gbits = c.gbits + 1)
end

