-- ==== Sys2Proof/Laws/Decode.lean ====
section
/-!
SUPPORT. The readers of both formats: what reading a bit or a byte can do, and that every read and every decode keeps the
reader inside its input.
-/

namespace Sys2Proof.Machine

/-! ## One bit (R74, R78) -/

/-- With unread bits, `GetBit` gives bit 0 of `ctl`. -/
theorem getBit_of_left {r : Reader} (h : r.left ≠ 0) : r.getBit = .ok r.shiftBit := by simp [Reader.getBit, h]

/-- With none, it first fetches the control byte at `in_pos`. -/
theorem getBit_fetch {r : Reader} {c : Byte} (h : r.left = 0) (hc : r.input[r.pos]? = some c) :
    r.getBit = .ok (Reader.shiftBit { r with ctl := c, pos := r.pos + 1, left := 8 }) := by
  simp [Reader.getBit, h, hc]

/-- With none, and none to fetch, the input has ended. -/
theorem getBit_end {r : Reader} (h : r.left = 0) (hc : r.input[r.pos]? = none) :
    r.getBit = .error (.truncated r.pos) := by
  simp [Reader.getBit, h, hc]

/-- Everything a successful `GetBit` does. -/
theorem getBit_ok {r r' : Reader} {b : Bool} (h : r.getBit = .ok (b, r')) :
    r'.input = r.input ∧ r'.bits = r.bits + 1 ∧
      ((r.left ≠ 0 ∧ b = r.ctl.getLsbD 0 ∧ r'.ctl = r.ctl >>> 1 ∧ r'.pos = r.pos ∧ r'.left = r.left - 1) ∨
       (r.left = 0 ∧ ∃ c, r.input[r.pos]? = some c ∧ b = c.getLsbD 0 ∧ r'.ctl = c >>> 1 ∧ r'.pos = r.pos + 1 ∧
          r'.left = 7)) := by
  unfold Reader.getBit at h
  split at h
  · next h0 =>
    split at h
    · cases h
    · next c hc => cases h; exact ⟨rfl, rfl, .inr ⟨h0, c, hc, rfl, rfl, rfl, rfl⟩⟩
  · next h0 => cases h; exact ⟨rfl, rfl, .inl ⟨h0, rfl, rfl, rfl, rfl⟩⟩

/-- `GetBit` fails only where a control byte is needed and the input has ended. -/
theorem getBit_error {r : Reader} {e : DecodeError} (h : r.getBit = .error e) :
    r.left = 0 ∧ r.input[r.pos]? = none ∧ e = .truncated r.pos := by
  unfold Reader.getBit at h
  split at h
  · next h0 =>
    split at h
    · next hc => cases h; exact ⟨h0, hc, rfl⟩
    · cases h
  · cases h

/-! ## One byte (R75) -/

/-- Everything a successful `GetByte` does. -/
theorem getByte_ok {r r' : Reader} {v : Byte} (h : r.getByte = .ok (v, r')) :
    r.input[r.pos]? = some v ∧ r' = { r with pos := r.pos + 1 } := by
  unfold Reader.getByte at h
  split at h
  · cases h
  · next u hu => cases h; exact ⟨hu, rfl⟩

/-- `GetByte` fails only at the end of the input. -/
theorem getByte_error {r : Reader} {e : DecodeError} (h : r.getByte = .error e) :
    r.input[r.pos]? = none ∧ e = .truncated r.pos := by
  unfold Reader.getByte at h
  split at h
  · next hc => cases h; exact ⟨hc, rfl⟩
  · cases h

/-! ## The reader's invariant -/

theorem start_readerInv (input : Bytes) : ReaderInv (Reader.start input) :=
  ⟨Nat.zero_le _, Nat.zero_le 8, Nat.zero_lt_one⟩

/-- A byte at a position means the position is inside. -/
theorem pos_lt_of_get {l : Bytes} {k : Nat} {v : Byte} (h : l[k]? = some v) : k < l.length :=
  (List.getElem?_eq_some_iff.mp h).1

theorem getBit_readerInv {r r' : Reader} {b : Bool} (hr : ReaderInv r) (h : r.getBit = .ok (b, r')) : ReaderInv r' := by
  obtain ⟨h1, h2, h3⟩ := hr
  obtain ⟨hi, -, ⟨h0, -, hc, hp, hl⟩ | ⟨h0, c, hg, -, hc, hp, hl⟩⟩ := getBit_ok h
  · refine ⟨by rw [hi, hp]; exact h1, by omega, ?_⟩
    rw [hc, hl, BitVec.toNat_ushiftRight, Nat.shiftRight_eq_div_pow, Nat.pow_one]
    have : 2 ^ r.left = 2 * 2 ^ (r.left - 1) := by
      rw [← Nat.pow_succ', show (r.left - 1).succ = r.left by omega]
    omega
  · have := pos_lt_of_get hg
    refine ⟨by rw [hi, hp]; omega, by omega, ?_⟩
    rw [hc, hl, BitVec.toNat_ushiftRight, Nat.shiftRight_eq_div_pow, Nat.pow_one]
    have := c.isLt
    omega

theorem getByte_readerInv {r r' : Reader} {v : Byte} (hr : ReaderInv r) (h : r.getByte = .ok (v, r')) : ReaderInv r' := by
  obtain ⟨hg, rfl⟩ := getByte_ok h
  exact ⟨pos_lt_of_get hg, hr.left_le, hr.ctl_lt⟩

/-! ## The decode trees as cases (R54, R59) -/

/-- A successful first step of a read, and what follows it. -/
theorem bind_ok {α β : Type} {x : Except DecodeError α} {f : α → Except DecodeError β} {y : β} (h : (x >>= f) = .ok y) :
    ∃ a, x = .ok a ∧ f a = .ok y := by
  cases x with
  | error e => cases h
  | ok a => exact ⟨a, rfl, h⟩

/-- Everything a successful short-copy read does. -/
theorem decodeShort_ok {r r' : Reader} {i : Instr} (h : decodeShort r = .ok (i, r')) :
    ∃ hb r1 lb r2 o, r.getBit = .ok (hb, r1) ∧ r1.getBit = .ok (lb, r2) ∧ r2.getByte = .ok (o, r') ∧
      i = .scopy (shortOffset o) (shortCount hb lb) := by
  obtain ⟨⟨hb, r1⟩, h1, h⟩ := bind_ok h
  obtain ⟨⟨lb, r2⟩, h2, h⟩ := bind_ok h
  obtain ⟨⟨o, r3⟩, h3, h⟩ := bind_ok h
  cases h
  exact ⟨hb, r1, lb, r2, o, h1, h2, h3, rfl⟩

/-- Everything a successful long-form read does: the three opcodes, told by `F` (R54). -/
theorem decodeLong_ok {r r' : Reader} {i : Instr} (h : decodeLong r = .ok (i, r')) :
    ∃ b0 r1 b1 r2, r.getByte = .ok (b0, r1) ∧ r1.getByte = .ok (b1, r2) ∧
      ((offsetField (fieldF b0 b1) = 0 ∧ r' = r2 ∧ i = .stop (BitVec.ofNat 3 (lengthField (fieldF b0 b1)))) ∨
       (offsetField (fieldF b0 b1) ≠ 0 ∧ lengthField (fieldF b0 b1) ≠ 0 ∧ r' = r2 ∧
          i = .lcopy (longOffset (fieldF b0 b1)) (longCount (fieldF b0 b1))) ∨
       (offsetField (fieldF b0 b1) ≠ 0 ∧ lengthField (fieldF b0 b1) = 0 ∧ ∃ n, r2.getByte = .ok (n, r') ∧
          i = .ecopy (longOffset (fieldF b0 b1)) (extCount n))) := by
  obtain ⟨⟨b0, r1⟩, h1, h⟩ := bind_ok h
  obtain ⟨⟨b1, r2⟩, h2, h⟩ := bind_ok h
  refine ⟨b0, r1, b1, r2, h1, h2, ?_⟩
  by_cases ho : offsetField (fieldF b0 b1) = 0
  · simp only [ho, if_true] at h
    cases h
    exact .inl ⟨ho, rfl, rfl⟩
  · by_cases hl : lengthField (fieldF b0 b1) = 0
    · simp only [ho, hl, if_false, ne_eq, not_true_eq_false] at h
      obtain ⟨⟨n, r3⟩, h3, h⟩ := bind_ok h
      cases h
      exact .inr (.inr ⟨ho, hl, n, h3, rfl⟩)
    · simp only [ho, hl, if_false, ne_eq, not_false_eq_true, if_true] at h
      cases h
      exact .inr (.inl ⟨ho, hl, rfl, rfl⟩)

/-- Everything a successful PRS decode does: its three branches (R54). -/
theorem decodePrs_ok {r r' : Reader} {i : Instr} (h : decodePrs r = .ok (i, r')) :
    (∃ r1 v, r.getBit = .ok (true, r1) ∧ r1.getByte = .ok (v, r') ∧ i = .lit v) ∨
      (∃ r1 r2, r.getBit = .ok (false, r1) ∧ r1.getBit = .ok (true, r2) ∧ decodeLong r2 = .ok (i, r')) ∨
      (∃ r1 r2, r.getBit = .ok (false, r1) ∧ r1.getBit = .ok (false, r2) ∧ decodeShort r2 = .ok (i, r')) := by
  obtain ⟨⟨a, r1⟩, h1, h⟩ := bind_ok h
  cases a with
  | true =>
    obtain ⟨⟨v, r2⟩, h2, h⟩ := bind_ok h
    cases h
    exact .inl ⟨r1, v, h1, h2, rfl⟩
  | false =>
    obtain ⟨⟨b, r2⟩, h2, h⟩ := bind_ok h
    cases b with
    | true => exact .inr (.inl ⟨r1, r2, h1, h2, h⟩)
    | false => exact .inr (.inr ⟨r1, r2, h1, h2, h⟩)

/-- A PRS decode keeps the reader in order. -/
theorem decodePrs_readerInv {r r' : Reader} {i : Instr} (hr : ReaderInv r) (h : decodePrs r = .ok (i, r')) :
    ReaderInv r' := by
  obtain ⟨r1, v, h1, h2, -⟩ | ⟨r1, r2, h1, h2, h3⟩ | ⟨r1, r2, h1, h2, h3⟩ := decodePrs_ok h
  · exact getByte_readerInv (getBit_readerInv hr h1) h2
  · have hr2 := getBit_readerInv (getBit_readerInv hr h1) h2
    obtain ⟨b0, r3, b1, r4, h4, h5, ⟨-, rfl, -⟩ | ⟨-, -, rfl, -⟩ | ⟨-, -, n, h6, -⟩⟩ := decodeLong_ok h3
    · exact getByte_readerInv (getByte_readerInv hr2 h4) h5
    · exact getByte_readerInv (getByte_readerInv hr2 h4) h5
    · exact getByte_readerInv (getByte_readerInv (getByte_readerInv hr2 h4) h5) h6
  · have hr2 := getBit_readerInv (getBit_readerInv hr h1) h2
    obtain ⟨hb, r3, lb, r4, o, h4, h5, h6, -⟩ := decodeShort_ok h3
    exact getByte_readerInv (getBit_readerInv (getBit_readerInv hr2 h4) h5) h6

/-- Everything a BC0 decode that gives an opcode does (R59). -/
theorem decodeBc0_op {r r' : Reader} {i : Instr} (h : decodeBc0 r = .op i r') :
    (∃ r1 v, r.getBit = .ok (true, r1) ∧ r1.input[r1.pos]? = some v ∧ r' = { r1 with pos := r1.pos + 1 } ∧ i = .blit v) ∨
      (∃ r1 b0 b1, r.getBit = .ok (false, r1) ∧ r1.input[r1.pos]? = some b0 ∧ r1.input[r1.pos + 1]? = some b1 ∧
        r' = { r1 with pos := r1.pos + 2 } ∧ i = .bref (memoOffset b0 b1) (refCount b1)) := by
  unfold decodeBc0 at h
  split at h
  · cases h
  · next r1 h1 =>
    split at h
    · next v hv => cases h; exact .inl ⟨r1, v, h1, hv, rfl, rfl⟩
    · cases h
  · next r1 h1 =>
    split at h
    · next b0 b1 h2 h3 => cases h; exact .inr ⟨r1, b0, b1, h1, h2, h3, rfl, rfl⟩
    · cases h

/-- Everything a BC0 decode that ends does: no data byte of the partial opcode is used (R119 to R121). -/
theorem decodeBc0_ended {r r' : Reader} (h : decodeBc0 r = .ended r') :
    (r' = r ∧ ∃ e, r.getBit = .error e) ∨ ∃ b, r.getBit = .ok (b, r') := by
  unfold decodeBc0 at h
  split at h
  · next e he => cases h; exact .inl ⟨rfl, e, he⟩
  · next r1 h1 =>
    split at h
    · cases h
    · cases h; exact .inr ⟨true, h1⟩
  · next r1 h1 =>
    split at h
    · cases h
    · cases h; exact .inr ⟨false, h1⟩

/-- A BC0 decode keeps the reader in order, at an opcode and at the end. -/
theorem decodeBc0_readerInv {r r' : Reader} (hr : ReaderInv r)
    (h : decodeBc0 r = .ended r' ∨ ∃ i, decodeBc0 r = .op i r') : ReaderInv r' := by
  rcases h with h | ⟨i, h⟩
  · obtain ⟨rfl, -⟩ | ⟨b, hb⟩ := decodeBc0_ended h
    · exact hr
    · exact getBit_readerInv hr hb
  · obtain ⟨r1, v, h1, h2, rfl, -⟩ | ⟨r1, b0, b1, h1, -, h3, rfl, -⟩ := decodeBc0_op h
    · have := getBit_readerInv hr h1
      exact ⟨pos_lt_of_get h2, this.left_le, this.ctl_lt⟩
    · have := getBit_readerInv hr h1
      have hp := pos_lt_of_get h3
      exact ⟨hp, this.left_le, this.ctl_lt⟩

end Sys2Proof.Machine
end

