-- ==== Sys2Proof/Laws/Memory.lean ====
section
/-!
SUPPORT. The laws of BC0D's memo: every operation keeps the canonical form; a read after a write gives the value written,
and every other slot reads as before; the memo of a new instance is canonical.
-/

namespace Sys2Proof.Machine

theorem Memory.wfFrom_cons {lo a : Nat} {v : Byte} {m : Memory} :
    Memory.wfFrom lo ((a, v) :: m) = true ↔ lo ≤ a ∧ v ≠ 0#8 ∧ Memory.wfFrom (a + 1) m = true := by
  simp [Memory.wfFrom, and_assoc]

theorem Memory.wfFrom_of_le {lo lo' : Nat} {m : Memory} (h : Memory.wfFrom lo m = true) (hl : lo' ≤ lo) :
    Memory.wfFrom lo' m = true := by
  cases m with
  | nil => rfl
  | cons c m =>
    obtain ⟨h1, h2, h3⟩ := Memory.wfFrom_cons.mp h
    exact Memory.wfFrom_cons.mpr ⟨by omega, h2, h3⟩

/-- Below the first address a canonical list may hold, it reads the seed. -/
theorem Memory.read_of_lt {lo : Nat} {m : Memory} (h : Memory.wfFrom lo m = true) {a : Nat} (ha : a < lo) :
    Memory.read m a = 0#8 := by
  cases m with
  | nil => rfl
  | cons c m =>
    obtain ⟨h1, -, -⟩ := Memory.wfFrom_cons.mp h
    simp only [Memory.read]
    rw [if_neg (by omega), if_pos (by omega)]

theorem Memory.wfFrom_cell {lo a : Nat} {v : Byte} {m : Memory} (hl : lo ≤ a) (h : Memory.wfFrom (a + 1) m = true) :
    Memory.wfFrom lo (Memory.cell a v ++ m) = true := by
  unfold Memory.cell
  split
  · exact Memory.wfFrom_of_le h (by omega)
  · exact Memory.wfFrom_cons.mpr ⟨hl, by assumption, h⟩

theorem Memory.read_cell {a : Nat} {v : Byte} {m : Memory} (h : Memory.wfFrom (a + 1) m = true) (x : Nat) :
    Memory.read (Memory.cell a v ++ m) x = if x = a then v else if x < a then 0#8 else Memory.read m x := by
  unfold Memory.cell
  split
  · by_cases hx : x ≤ a
    · rw [List.nil_append, Memory.read_of_lt h (by omega)]
      split <;> simp_all
    · rw [List.nil_append, if_neg (by omega), if_neg (by omega)]
  · simp [Memory.read]

/-- A write keeps the canonical form. -/
theorem Memory.wfFrom_write {lo : Nat} {m : Memory} (h : Memory.wfFrom lo m = true) {a : Nat} (ha : lo ≤ a) (v : Byte) :
    Memory.wfFrom lo (Memory.write m a v) = true := by
  induction m generalizing lo with
  | nil => simpa [Memory.write] using Memory.wfFrom_cell (m := []) ha rfl
  | cons c m ih =>
    obtain ⟨b, u⟩ := c
    obtain ⟨h1, h2, h3⟩ := Memory.wfFrom_cons.mp h
    simp only [Memory.write]
    split
    · subst_vars; exact Memory.wfFrom_cell ha h3
    · split
      · exact Memory.wfFrom_cell ha (Memory.wfFrom_cons.mpr ⟨by omega, h2, h3⟩)
      · exact Memory.wfFrom_cons.mpr ⟨h1, h2, ih h3 (by omega)⟩

/-- A read after a write: the written slot reads the value, every other slot reads as before. -/
theorem Memory.read_write {lo : Nat} {m : Memory} (h : Memory.wfFrom lo m = true) (a x : Nat) (v : Byte) :
    Memory.read (Memory.write m a v) x = if x = a then v else Memory.read m x := by
  induction m generalizing lo with
  | nil =>
    have := Memory.read_cell (a := a) (v := v) (m := []) rfl x
    simp only [List.append_nil] at this
    simp [Memory.write, this, Memory.read]
  | cons c m ih =>
    obtain ⟨b, u⟩ := c
    obtain ⟨h1, h2, h3⟩ := Memory.wfFrom_cons.mp h
    simp only [Memory.write]
    split
    · subst_vars
      rw [Memory.read_cell h3]
      simp only [Memory.read]
      split <;> rfl
    · split
      · rw [Memory.read_cell (Memory.wfFrom_cons.mpr ⟨by omega, h2, h3⟩)]
        by_cases hx : x < a
        · rw [if_neg (by omega), if_pos hx, if_neg (by omega)]
          simp only [Memory.read]
          rw [if_neg (by omega), if_pos (by omega)]
        · simp [hx]
      · simp only [Memory.read]
        rw [ih h3]
        by_cases hb : x = b
        · subst hb; simp; intro hxa; omega
        · simp only [if_neg hb]
          by_cases hx : x < b
          · simp only [if_pos hx]; rw [if_neg (by omega)]
          · simp only [if_neg hx]

theorem Memory.wf_iff {m : Memory} :
    Memory.wf m = true ↔ Memory.wfFrom 0 m = true ∧ ∀ c ∈ m, c.1 < Config.bc0N := by
  simp [Memory.wf, List.all_eq_true]

theorem Memory.mem_write {m : Memory} {a : Nat} {v : Byte} {c : Host.Cell} (h : c ∈ Memory.write m a v) :
    c ∈ m ∨ c = (a, v) := by
  induction m with
  | nil =>
    simp only [Memory.write, Memory.cell] at h
    split at h <;> simp_all
  | cons d m ih =>
    obtain ⟨b, u⟩ := d
    simp only [Memory.write, Memory.cell] at h
    split at h
    · split at h
      · exact .inl (List.mem_cons_of_mem _ (by simpa using h))
      · rcases List.mem_append.mp h with h | h
        · exact .inr (by simpa using h)
        · exact .inl (List.mem_cons_of_mem _ h)
    · split at h
      · split at h
        · exact .inl (by simpa using h)
        · rcases List.mem_append.mp h with h | h
          · exact .inr (by simpa using h)
          · exact .inl h
      · rcases List.mem_cons.mp h with h | h
        · exact .inl (by simp [h])
        · rcases ih h with h | h
          · exact .inl (List.mem_cons_of_mem _ h)
          · exact .inr h

/-- The memo's whole invariant is kept by a write inside its 4096 slots. -/
theorem Memory.wf_write {m : Memory} (h : Memory.wf m = true) {a : Nat} (ha : a < Config.bc0N) (v : Byte) :
    Memory.wf (Memory.write m a v) = true := by
  obtain ⟨h1, h2⟩ := Memory.wf_iff.mp h
  refine Memory.wf_iff.mpr ⟨Memory.wfFrom_write h1 (by omega) v, fun c hc => ?_⟩
  rcases Memory.mem_write hc with hc | hc
  · exact h2 c hc
  · subst hc; exact ha

theorem memoWrite_wf {m : Memory} (h : Memory.wf m = true) (a : BitVec 12) (v : Byte) :
    Memory.wf (memoWrite m a v) = true :=
  Memory.wf_write h a.isLt v

theorem memoRead_memoWrite {m : Memory} (h : Memory.wf m = true) (a x : BitVec 12) (v : Byte) :
    memoRead (memoWrite m a v) x = if x = a then v else memoRead m x := by
  unfold memoRead memoWrite
  rw [Memory.read_write (Memory.wf_iff.mp h).1]
  simp [BitVec.toNat_inj]

/-- The memo of a new instance is canonical, and every slot reads 00 (R27). -/
theorem Memory.wf_nil : Memory.wf ([] : Memory) = true := rfl

theorem Memory.read_nil (a : Nat) : Memory.read ([] : Memory) a = 0#8 := rfl

/-- The machine at reset holds no memo. -/
theorem reset_holds_no_instance : State.reset.active = .idle ∧ State.reset.parked = [] ∧ State.reset.prscs = [] :=
  ⟨rfl, rfl, rfl⟩

end Sys2Proof.Machine
end

