-- ==== Sys2Proof/Laws/State.lean ====
section
/-!
SUPPORT. The small lemmas of the state and of every record update: one per field, so that no proof unfolds an update.
-/

namespace Sys2Proof.Machine

/-! ## State -/

@[simp] theorem State.setSlot_host (s : State) (h : Nat) (x : PrscSlot) :
    (State.setSlot s h x).host = s.host := rfl

@[simp] theorem State.setSlot_calls (s : State) (h : Nat) (x : PrscSlot) :
    (State.setSlot s h x).calls = s.calls := rfl

@[simp] theorem State.setSlot_active (s : State) (h : Nat) (x : PrscSlot) :
    (State.setSlot s h x).active = s.active := rfl

@[simp] theorem State.setSlot_responses (s : State) (h : Nat) (x : PrscSlot) :
    (State.setSlot s h x).responses = s.responses := rfl

@[simp] theorem State.setSlot_notes (s : State) (h : Nat) (x : PrscSlot) :
    (State.setSlot s h x).notes = s.notes := rfl

@[simp] theorem State.setSlot_parked (s : State) (h : Nat) (x : PrscSlot) :
    (State.setSlot s h x).parked = s.parked := rfl

@[simp] theorem State.setSlot_schedule (s : State) (h : Nat) (x : PrscSlot) :
    (State.setSlot s h x).schedule = s.schedule := rfl

@[simp] theorem State.setSlot_prscs (s : State) (h : Nat) (x : PrscSlot) :
    (State.setSlot s h x).prscs = s.prscs.set h x := rfl

@[simp] theorem State.setSlot_sink (s : State) (h : Nat) (x : PrscSlot) :
    (State.setSlot s h x).sink = s.sink := rfl

@[simp] theorem State.respond_host (s : State) (r : Response) :
    (State.respond s r).host = s.host := rfl

@[simp] theorem State.respond_calls (s : State) (r : Response) :
    (State.respond s r).calls = s.calls := rfl

@[simp] theorem State.respond_active (s : State) (r : Response) :
    (State.respond s r).active = s.active := rfl

@[simp] theorem State.respond_responses (s : State) (r : Response) :
    (State.respond s r).responses = s.responses ++ [r] := rfl

@[simp] theorem State.respond_notes (s : State) (r : Response) :
    (State.respond s r).notes = s.notes := rfl

@[simp] theorem State.respond_parked (s : State) (r : Response) :
    (State.respond s r).parked = s.parked := rfl

@[simp] theorem State.respond_schedule (s : State) (r : Response) :
    (State.respond s r).schedule = s.schedule := rfl

@[simp] theorem State.respond_prscs (s : State) (r : Response) :
    (State.respond s r).prscs = s.prscs := rfl

@[simp] theorem State.respond_sink (s : State) (r : Response) :
    (State.respond s r).sink = s.sink := rfl

@[simp] theorem State.writeSink_host (s : State) (k : Nat) (l : List SinkItem) :
    (State.writeSink s k l).host = s.host := rfl

@[simp] theorem State.writeSink_calls (s : State) (k : Nat) (l : List SinkItem) :
    (State.writeSink s k l).calls = s.calls := rfl

@[simp] theorem State.writeSink_active (s : State) (k : Nat) (l : List SinkItem) :
    (State.writeSink s k l).active = s.active := rfl

@[simp] theorem State.writeSink_responses (s : State) (k : Nat) (l : List SinkItem) :
    (State.writeSink s k l).responses = s.responses := rfl

@[simp] theorem State.writeSink_notes (s : State) (k : Nat) (l : List SinkItem) :
    (State.writeSink s k l).notes = s.notes := rfl

@[simp] theorem State.writeSink_parked (s : State) (k : Nat) (l : List SinkItem) :
    (State.writeSink s k l).parked = s.parked := rfl

@[simp] theorem State.writeSink_schedule (s : State) (k : Nat) (l : List SinkItem) :
    (State.writeSink s k l).schedule = s.schedule := rfl

@[simp] theorem State.writeSink_prscs (s : State) (k : Nat) (l : List SinkItem) :
    (State.writeSink s k l).prscs = s.prscs := rfl

@[simp] theorem State.writeSink_sink (s : State) (k : Nat) (l : List SinkItem) :
    (State.writeSink s k l).sink = s.sink ++ l.map (fun x => (k, x)) := rfl

@[simp] theorem State.switchTo_host (s : State) (k : Nat) (t : Thread) :
    (State.switchTo s k t).host = t.host := rfl

@[simp] theorem State.switchTo_calls (s : State) (k : Nat) (t : Thread) :
    (State.switchTo s k t).calls = t.calls := rfl

@[simp] theorem State.switchTo_active (s : State) (k : Nat) (t : Thread) :
    (State.switchTo s k t).active = t.active := rfl

@[simp] theorem State.switchTo_responses (s : State) (k : Nat) (t : Thread) :
    (State.switchTo s k t).responses = t.responses := rfl

@[simp] theorem State.switchTo_notes (s : State) (k : Nat) (t : Thread) :
    (State.switchTo s k t).notes = t.notes := rfl

@[simp] theorem State.switchTo_parked (s : State) (k : Nat) (t : Thread) :
    (State.switchTo s k t).parked = s.parked.set k s.thread := rfl

@[simp] theorem State.switchTo_schedule (s : State) (k : Nat) (t : Thread) :
    (State.switchTo s k t).schedule = s.schedule := rfl

@[simp] theorem State.switchTo_prscs (s : State) (k : Nat) (t : Thread) :
    (State.switchTo s k t).prscs = s.prscs := rfl

@[simp] theorem State.switchTo_sink (s : State) (k : Nat) (t : Thread) :
    (State.switchTo s k t).sink = s.sink := rfl

@[simp] theorem State.thread_host (s : State) :
    (State.thread s).host = s.host := rfl

@[simp] theorem State.thread_calls (s : State) :
    (State.thread s).calls = s.calls := rfl

@[simp] theorem State.thread_active (s : State) :
    (State.thread s).active = s.active := rfl

@[simp] theorem State.thread_responses (s : State) :
    (State.thread s).responses = s.responses := rfl

@[simp] theorem State.thread_notes (s : State) :
    (State.thread s).notes = s.notes := rfl

@[simp] theorem State.reset_host : State.reset.host = [] := rfl

@[simp] theorem State.reset_calls : State.reset.calls = [] := rfl

@[simp] theorem State.reset_active : State.reset.active = .idle := rfl

@[simp] theorem State.reset_responses : State.reset.responses = [] := rfl

@[simp] theorem State.reset_notes : State.reset.notes = [] := rfl

@[simp] theorem State.reset_parked : State.reset.parked = [] := rfl

@[simp] theorem State.reset_schedule : State.reset.schedule = [] := rfl

@[simp] theorem State.reset_prscs : State.reset.prscs = [] := rfl

@[simp] theorem State.reset_sink : State.reset.sink = [] := rfl

@[simp] theorem State.release_active (s : State) : s.release.active = .idle := by
  unfold State.release; split <;> rfl

@[simp] theorem State.release_host (s : State) : s.release.host = s.host := by
  unfold State.release; split <;> rfl

@[simp] theorem State.release_calls (s : State) : s.release.calls = s.calls := by
  unfold State.release; split <;> rfl

@[simp] theorem State.release_responses (s : State) : s.release.responses = s.responses := by
  unfold State.release; split <;> rfl

@[simp] theorem State.release_notes (s : State) : s.release.notes = s.notes := by
  unfold State.release; split <;> rfl

@[simp] theorem State.release_parked (s : State) : s.release.parked = s.parked := by
  unfold State.release; split <;> rfl

@[simp] theorem State.release_schedule (s : State) : s.release.schedule = s.schedule := by
  unfold State.release; split <;> rfl

@[simp] theorem State.release_sink (s : State) : s.release.sink = s.sink := by
  unfold State.release; split <;> rfl

/-- Only a PRSC command of the host's own instance gives anything back when it ends. -/
theorem State.release_prscs (s : State) :
    s.release.prscs =
      match s.active with
      | .prsc (some h) p _ => putBack s.prscs h p
      | _ => s.prscs := by
  obtain ⟨_, act, _, _, _, _, _, _, _⟩ := s
  cases act with
  | prsc slot _ _ => cases slot <;> rfl
  | _ => rfl

@[simp] theorem putBack_inFlight {l : List PrscSlot} {h : Nat} (p : Prsc) (hl : l[h]? = some .inFlight) :
    putBack l h p = l.set h (.live p) := by
  simp [putBack, hl]

@[simp] theorem putBack_discarded {l : List PrscSlot} {h : Nat} (p : Prsc) (hl : l[h]? = some .discarded) :
    putBack l h p = l := by
  simp [putBack, hl]

/-- What `putBack` can do: one slot in flight becomes live, or nothing changes. -/
theorem putBack_cases (l : List PrscSlot) (h : Nat) (p : Prsc) :
    (l[h]? = some .inFlight ∧ putBack l h p = l.set h (.live p)) ∨ (l[h]? ≠ some .inFlight ∧ putBack l h p = l) := by
  unfold putBack
  split
  · exact .inl ⟨by assumption, rfl⟩
  · exact .inr ⟨by assumption, rfl⟩

@[simp] theorem putBack_length (l : List PrscSlot) (h : Nat) (p : Prsc) : (putBack l h p).length = l.length := by
  obtain ⟨-, e⟩ | ⟨-, e⟩ := putBack_cases l h p <;> simp [e]

/-- An idle thread releases nothing. -/
@[simp] theorem State.release_of_idle (s : State) (h : s.active = .idle) : s.release = s := by
  cases s; simp_all [State.release]

@[simp] theorem State.returnOk_host (s : State) (r : Result) : (s.returnOk r).host = s.host := by
  simp [State.returnOk]

@[simp] theorem State.returnOk_calls (s : State) (r : Result) : (s.returnOk r).calls = s.calls := by
  simp [State.returnOk]

@[simp] theorem State.returnOk_active (s : State) (r : Result) : (s.returnOk r).active = .idle := by
  simp [State.returnOk]

@[simp] theorem State.returnOk_responses (s : State) (r : Result) : (s.returnOk r).responses = s.responses ++ [.ok r] := by
  simp [State.returnOk]

@[simp] theorem State.returnOk_notes (s : State) (r : Result) : (s.returnOk r).notes = s.notes := by
  simp [State.returnOk]

@[simp] theorem State.returnOk_parked (s : State) (r : Result) : (s.returnOk r).parked = s.parked := by
  simp [State.returnOk]

@[simp] theorem State.returnOk_schedule (s : State) (r : Result) : (s.returnOk r).schedule = s.schedule := by
  simp [State.returnOk]

@[simp] theorem State.returnOk_prscs (s : State) (r : Result) : (s.returnOk r).prscs = s.release.prscs := by
  simp [State.returnOk]

@[simp] theorem State.returnOk_sink (s : State) (r : Result) : (s.returnOk r).sink = s.sink := by
  simp [State.returnOk]

@[simp] theorem State.raise_host (s : State) (e : EngineError) : (s.raise e).host = s.host := by
  simp [State.raise]

@[simp] theorem State.raise_calls (s : State) (e : EngineError) : (s.raise e).calls = s.calls := by
  simp [State.raise]

@[simp] theorem State.raise_active (s : State) (e : EngineError) : (s.raise e).active = .idle := by
  simp [State.raise]

@[simp] theorem State.raise_responses (s : State) (e : EngineError) : (s.raise e).responses = s.responses ++ [.error e] := by
  simp [State.raise]

@[simp] theorem State.raise_notes (s : State) (e : EngineError) : (s.raise e).notes = s.notes := by
  simp [State.raise]

@[simp] theorem State.raise_parked (s : State) (e : EngineError) : (s.raise e).parked = s.parked := by
  simp [State.raise]

@[simp] theorem State.raise_schedule (s : State) (e : EngineError) : (s.raise e).schedule = s.schedule := by
  simp [State.raise]

@[simp] theorem State.raise_prscs (s : State) (e : EngineError) : (s.raise e).prscs = s.release.prscs := by
  simp [State.raise]

@[simp] theorem State.raise_sink (s : State) (e : EngineError) : (s.raise e).sink = s.sink := by
  simp [State.raise]


/-! ## Callbacks (R132, R133) -/

@[simp] theorem State.callBack_host (s : State) (call : Call) (n : Note) :
    (s.callBack call n).host = s.host := rfl

@[simp] theorem State.callBack_active (s : State) (call : Call) (n : Note) :
    (s.callBack call n).active = .idle := rfl

@[simp] theorem State.callBack_calls (s : State) (call : Call) (n : Note) :
    (s.callBack call n).calls = call :: s.calls := rfl

@[simp] theorem State.callBack_responses (s : State) (call : Call) (n : Note) :
    (s.callBack call n).responses = s.responses := rfl

@[simp] theorem State.callBack_notes (s : State) (call : Call) (n : Note) :
    (s.callBack call n).notes = s.notes ++ [n] := rfl

@[simp] theorem State.callBack_parked (s : State) (call : Call) (n : Note) :
    (s.callBack call n).parked = s.parked := rfl

@[simp] theorem State.callBack_schedule (s : State) (call : Call) (n : Note) :
    (s.callBack call n).schedule = s.schedule := rfl

@[simp] theorem State.callBack_prscs (s : State) (call : Call) (n : Note) :
    (s.callBack call n).prscs = s.prscs := rfl

@[simp] theorem State.callBack_sink (s : State) (call : Call) (n : Note) :
    (s.callBack call n).sink = s.sink := rfl

@[simp] theorem State.settle_none (s : State) : s.settle none = s := rfl

@[simp] theorem State.settle_some (s : State) (e : EngineError) : s.settle (some e) = s.raise e := rfl

/-! ## Readers -/

@[simp] theorem Reader.start_input (input : Bytes) :
    (Reader.start input).input = input := rfl

@[simp] theorem Reader.start_pos (input : Bytes) :
    (Reader.start input).pos = 0 := rfl

@[simp] theorem Reader.start_ctl (input : Bytes) :
    (Reader.start input).ctl = 0#8 := rfl

@[simp] theorem Reader.start_left (input : Bytes) :
    (Reader.start input).left = 0 := rfl

@[simp] theorem Reader.start_bits (input : Bytes) :
    (Reader.start input).bits = 0 := rfl


/-! ## PRSD -/

@[simp] theorem Prsd.start_rd (input : Bytes) (mode : Mode) (maxOut sink : Nat) :
    (Prsd.start input mode maxOut sink).rd = Reader.start input := rfl

@[simp] theorem Prsd.start_mode (input : Bytes) (mode : Mode) (maxOut sink : Nat) :
    (Prsd.start input mode maxOut sink).mode = mode := rfl

@[simp] theorem Prsd.start_maxOut (input : Bytes) (mode : Mode) (maxOut sink : Nat) :
    (Prsd.start input mode maxOut sink).maxOut = maxOut := rfl

@[simp] theorem Prsd.start_out (input : Bytes) (mode : Mode) (maxOut sink : Nat) :
    (Prsd.start input mode maxOut sink).out = [] := rfl

@[simp] theorem Prsd.start_outLen (input : Bytes) (mode : Mode) (maxOut sink : Nat) :
    (Prsd.start input mode maxOut sink).outLen = 0 := rfl

@[simp] theorem Prsd.start_trace (input : Bytes) (mode : Mode) (maxOut sink : Nat) :
    (Prsd.start input mode maxOut sink).trace = [] := rfl

@[simp] theorem Prsd.start_fin (input : Bytes) (mode : Mode) (maxOut sink : Nat) :
    (Prsd.start input mode maxOut sink).fin = .running := rfl

@[simp] theorem Prsd.start_markIn (input : Bytes) (mode : Mode) (maxOut sink : Nat) :
    (Prsd.start input mode maxOut sink).markIn = 0 := rfl

@[simp] theorem Prsd.start_markBit (input : Bytes) (mode : Mode) (maxOut sink : Nat) :
    (Prsd.start input mode maxOut sink).markBit = 0 := rfl

@[simp] theorem Prsd.start_sink (input : Bytes) (mode : Mode) (maxOut sink : Nat) :
    (Prsd.start input mode maxOut sink).sink = sink := rfl

@[simp] theorem Prsd.setEnd_rd (p : Prsd) (e : PrsdEnd) :
    (Prsd.setEnd p e).rd = p.rd := rfl

@[simp] theorem Prsd.setEnd_mode (p : Prsd) (e : PrsdEnd) :
    (Prsd.setEnd p e).mode = p.mode := rfl

@[simp] theorem Prsd.setEnd_maxOut (p : Prsd) (e : PrsdEnd) :
    (Prsd.setEnd p e).maxOut = p.maxOut := rfl

@[simp] theorem Prsd.setEnd_out (p : Prsd) (e : PrsdEnd) :
    (Prsd.setEnd p e).out = p.out := rfl

@[simp] theorem Prsd.setEnd_outLen (p : Prsd) (e : PrsdEnd) :
    (Prsd.setEnd p e).outLen = p.outLen := rfl

@[simp] theorem Prsd.setEnd_trace (p : Prsd) (e : PrsdEnd) :
    (Prsd.setEnd p e).trace = p.trace := rfl

@[simp] theorem Prsd.setEnd_fin (p : Prsd) (e : PrsdEnd) :
    (Prsd.setEnd p e).fin = e := rfl

@[simp] theorem Prsd.setEnd_markIn (p : Prsd) (e : PrsdEnd) :
    (Prsd.setEnd p e).markIn = p.markIn := rfl

@[simp] theorem Prsd.setEnd_markBit (p : Prsd) (e : PrsdEnd) :
    (Prsd.setEnd p e).markBit = p.markBit := rfl

@[simp] theorem Prsd.setEnd_sink (p : Prsd) (e : PrsdEnd) :
    (Prsd.setEnd p e).sink = p.sink := rfl

@[simp] theorem Prsd.fetched_rd (p : Prsd) (r : Reader) :
    (Prsd.fetched p r).rd = r := rfl

@[simp] theorem Prsd.fetched_mode (p : Prsd) (r : Reader) :
    (Prsd.fetched p r).mode = p.mode := rfl

@[simp] theorem Prsd.fetched_maxOut (p : Prsd) (r : Reader) :
    (Prsd.fetched p r).maxOut = p.maxOut := rfl

@[simp] theorem Prsd.fetched_out (p : Prsd) (r : Reader) :
    (Prsd.fetched p r).out = p.out := rfl

@[simp] theorem Prsd.fetched_outLen (p : Prsd) (r : Reader) :
    (Prsd.fetched p r).outLen = p.outLen := rfl

@[simp] theorem Prsd.fetched_trace (p : Prsd) (r : Reader) :
    (Prsd.fetched p r).trace = p.trace := rfl

@[simp] theorem Prsd.fetched_fin (p : Prsd) (r : Reader) :
    (Prsd.fetched p r).fin = p.fin := rfl

@[simp] theorem Prsd.fetched_markIn (p : Prsd) (r : Reader) :
    (Prsd.fetched p r).markIn = p.rd.pos := rfl

@[simp] theorem Prsd.fetched_markBit (p : Prsd) (r : Reader) :
    (Prsd.fetched p r).markBit = p.rd.bits := rfl

@[simp] theorem Prsd.fetched_sink (p : Prsd) (r : Reader) :
    (Prsd.fetched p r).sink = p.sink := rfl

@[simp] theorem Prsd.record_rd (p : Prsd) (i : Instr) : (p.record i).rd = p.rd := by
  unfold Prsd.record; split <;> rfl

@[simp] theorem Prsd.record_mode (p : Prsd) (i : Instr) : (p.record i).mode = p.mode := by
  unfold Prsd.record; split <;> rfl

@[simp] theorem Prsd.record_maxOut (p : Prsd) (i : Instr) : (p.record i).maxOut = p.maxOut := by
  unfold Prsd.record; split <;> rfl

@[simp] theorem Prsd.record_out (p : Prsd) (i : Instr) : (p.record i).out = p.out := by
  unfold Prsd.record; split <;> rfl

@[simp] theorem Prsd.record_outLen (p : Prsd) (i : Instr) : (p.record i).outLen = p.outLen := by
  unfold Prsd.record; split <;> rfl

@[simp] theorem Prsd.record_fin (p : Prsd) (i : Instr) : (p.record i).fin = p.fin := by
  unfold Prsd.record; split <;> rfl

@[simp] theorem Prsd.record_markIn (p : Prsd) (i : Instr) : (p.record i).markIn = p.markIn := by
  unfold Prsd.record; split <;> rfl

@[simp] theorem Prsd.record_markBit (p : Prsd) (i : Instr) : (p.record i).markBit = p.markBit := by
  unfold Prsd.record; split <;> rfl

@[simp] theorem Prsd.record_sink (p : Prsd) (i : Instr) : (p.record i).sink = p.sink := by
  unfold Prsd.record; split <;> rfl

@[simp] theorem Prsd.record_of_not_trace (p : Prsd) (i : Instr) (h : p.mode ≠ .trace) : p.record i = p := by
  simp [Prsd.record, h]

/-- TRACE mode adds one record, whose fields are R108's. -/
theorem Prsd.record_trace (p : Prsd) (i : Instr) (h : p.mode = .trace) :
    (p.record i).trace =
      p.trace ++ [{ inOff := p.markIn, bitOff := p.markBit, outOff := p.outLen, op := i }] := by
  simp [Prsd.record, h]


/-! ## BC0D -/

@[simp] theorem Bc0d.start_rd (input : Bytes) (mode : Mode) (sink : Nat) :
    (Bc0d.start input mode sink).rd = Reader.start input := rfl

@[simp] theorem Bc0d.start_memo (input : Bytes) (mode : Mode) (sink : Nat) :
    (Bc0d.start input mode sink).memo = [] := rfl

@[simp] theorem Bc0d.start_cur (input : Bytes) (mode : Mode) (sink : Nat) :
    (Bc0d.start input mode sink).cur = Config.bc0Cursor0 := rfl

@[simp] theorem Bc0d.start_mode (input : Bytes) (mode : Mode) (sink : Nat) :
    (Bc0d.start input mode sink).mode = mode := rfl

@[simp] theorem Bc0d.start_out (input : Bytes) (mode : Mode) (sink : Nat) :
    (Bc0d.start input mode sink).out = [] := rfl

@[simp] theorem Bc0d.start_outLen (input : Bytes) (mode : Mode) (sink : Nat) :
    (Bc0d.start input mode sink).outLen = 0 := rfl

@[simp] theorem Bc0d.start_trace (input : Bytes) (mode : Mode) (sink : Nat) :
    (Bc0d.start input mode sink).trace = [] := rfl

@[simp] theorem Bc0d.start_markIn (input : Bytes) (mode : Mode) (sink : Nat) :
    (Bc0d.start input mode sink).markIn = 0 := rfl

@[simp] theorem Bc0d.start_done (input : Bytes) (mode : Mode) (sink : Nat) :
    (Bc0d.start input mode sink).done = false := rfl

@[simp] theorem Bc0d.start_sink (input : Bytes) (mode : Mode) (sink : Nat) :
    (Bc0d.start input mode sink).sink = sink := rfl

@[simp] theorem Bc0d.fetched_rd (d : Bc0d) (r : Reader) :
    (Bc0d.fetched d r).rd = r := rfl

@[simp] theorem Bc0d.fetched_memo (d : Bc0d) (r : Reader) :
    (Bc0d.fetched d r).memo = d.memo := rfl

@[simp] theorem Bc0d.fetched_cur (d : Bc0d) (r : Reader) :
    (Bc0d.fetched d r).cur = d.cur := rfl

@[simp] theorem Bc0d.fetched_mode (d : Bc0d) (r : Reader) :
    (Bc0d.fetched d r).mode = d.mode := rfl

@[simp] theorem Bc0d.fetched_out (d : Bc0d) (r : Reader) :
    (Bc0d.fetched d r).out = d.out := rfl

@[simp] theorem Bc0d.fetched_outLen (d : Bc0d) (r : Reader) :
    (Bc0d.fetched d r).outLen = d.outLen := rfl

@[simp] theorem Bc0d.fetched_trace (d : Bc0d) (r : Reader) :
    (Bc0d.fetched d r).trace = d.trace := rfl

@[simp] theorem Bc0d.fetched_markIn (d : Bc0d) (r : Reader) :
    (Bc0d.fetched d r).markIn = d.rd.pos := rfl

@[simp] theorem Bc0d.fetched_done (d : Bc0d) (r : Reader) :
    (Bc0d.fetched d r).done = d.done := rfl

@[simp] theorem Bc0d.fetched_sink (d : Bc0d) (r : Reader) :
    (Bc0d.fetched d r).sink = d.sink := rfl

@[simp] theorem Bc0d.leave_rd (d : Bc0d) (r : Reader) :
    (Bc0d.leave d r).rd = r := rfl

@[simp] theorem Bc0d.leave_memo (d : Bc0d) (r : Reader) :
    (Bc0d.leave d r).memo = d.memo := rfl

@[simp] theorem Bc0d.leave_cur (d : Bc0d) (r : Reader) :
    (Bc0d.leave d r).cur = d.cur := rfl

@[simp] theorem Bc0d.leave_mode (d : Bc0d) (r : Reader) :
    (Bc0d.leave d r).mode = d.mode := rfl

@[simp] theorem Bc0d.leave_out (d : Bc0d) (r : Reader) :
    (Bc0d.leave d r).out = d.out := rfl

@[simp] theorem Bc0d.leave_outLen (d : Bc0d) (r : Reader) :
    (Bc0d.leave d r).outLen = d.outLen := rfl

@[simp] theorem Bc0d.leave_trace (d : Bc0d) (r : Reader) :
    (Bc0d.leave d r).trace = d.trace := rfl

@[simp] theorem Bc0d.leave_markIn (d : Bc0d) (r : Reader) :
    (Bc0d.leave d r).markIn = d.markIn := rfl

@[simp] theorem Bc0d.leave_done (d : Bc0d) (r : Reader) :
    (Bc0d.leave d r).done = true := rfl

@[simp] theorem Bc0d.leave_sink (d : Bc0d) (r : Reader) :
    (Bc0d.leave d r).sink = d.sink := rfl

@[simp] theorem Bc0d.record_rd (d : Bc0d) (i : Instr) : (d.record i).rd = d.rd := by
  unfold Bc0d.record; split <;> rfl

@[simp] theorem Bc0d.record_memo (d : Bc0d) (i : Instr) : (d.record i).memo = d.memo := by
  unfold Bc0d.record; split <;> rfl

@[simp] theorem Bc0d.record_cur (d : Bc0d) (i : Instr) : (d.record i).cur = d.cur := by
  unfold Bc0d.record; split <;> rfl

@[simp] theorem Bc0d.record_mode (d : Bc0d) (i : Instr) : (d.record i).mode = d.mode := by
  unfold Bc0d.record; split <;> rfl

@[simp] theorem Bc0d.record_out (d : Bc0d) (i : Instr) : (d.record i).out = d.out := by
  unfold Bc0d.record; split <;> rfl

@[simp] theorem Bc0d.record_outLen (d : Bc0d) (i : Instr) : (d.record i).outLen = d.outLen := by
  unfold Bc0d.record; split <;> rfl

@[simp] theorem Bc0d.record_markIn (d : Bc0d) (i : Instr) : (d.record i).markIn = d.markIn := by
  unfold Bc0d.record; split <;> rfl

@[simp] theorem Bc0d.record_done (d : Bc0d) (i : Instr) : (d.record i).done = d.done := by
  unfold Bc0d.record; split <;> rfl

@[simp] theorem Bc0d.record_sink (d : Bc0d) (i : Instr) : (d.record i).sink = d.sink := by
  unfold Bc0d.record; split <;> rfl

@[simp] theorem Bc0d.record_of_not_trace (d : Bc0d) (i : Instr) (h : d.mode ≠ .trace) : d.record i = d := by
  simp [Bc0d.record, h]

/-- TRACE mode adds one record, whose fields are R122's. -/
theorem Bc0d.record_trace (d : Bc0d) (i : Instr) (h : d.mode = .trace) :
    (d.record i).trace = d.trace ++ [{ inOff := d.markIn, outOff := d.outLen, op := i }] := by
  simp [Bc0d.record, h]

@[simp] theorem Bc0d.put_rd (d : Bc0d) (c : Byte) : (d.put c).rd = d.rd := by
  unfold Bc0d.put; split <;> rfl

@[simp] theorem Bc0d.put_mode (d : Bc0d) (c : Byte) : (d.put c).mode = d.mode := by
  unfold Bc0d.put; split <;> rfl

@[simp] theorem Bc0d.put_trace (d : Bc0d) (c : Byte) : (d.put c).trace = d.trace := by
  unfold Bc0d.put; split <;> rfl

@[simp] theorem Bc0d.put_markIn (d : Bc0d) (c : Byte) : (d.put c).markIn = d.markIn := by
  unfold Bc0d.put; split <;> rfl

@[simp] theorem Bc0d.put_done (d : Bc0d) (c : Byte) : (d.put c).done = d.done := by
  unfold Bc0d.put; split <;> rfl

@[simp] theorem Bc0d.put_sink (d : Bc0d) (c : Byte) : (d.put c).sink = d.sink := by
  unfold Bc0d.put; split <;> rfl

@[simp] theorem Bc0d.put_outLen (d : Bc0d) (c : Byte) : (d.put c).outLen = d.outLen + 1 := by
  unfold Bc0d.put; split <;> rfl

@[simp] theorem Bc0d.put_cur (d : Bc0d) (c : Byte) : (d.put c).cur = d.cur + 1#12 := by
  unfold Bc0d.put; split <;> rfl

theorem Bc0d.put_out (d : Bc0d) (c : Byte) (h : d.mode ≠ .trace) : (d.put c).out = d.out ++ [c] := by
  simp [Bc0d.put, h]

theorem Bc0d.put_memo (d : Bc0d) (c : Byte) (h : d.mode ≠ .trace) :
    (d.put c).memo = memoWrite d.memo d.cur c := by
  simp [Bc0d.put, h]

theorem Bc0d.put_trace_mode (d : Bc0d) (c : Byte) (h : d.mode = .trace) :
    d.put c = { d with outLen := d.outLen + 1, cur := d.cur + 1#12 } := by
  simp [Bc0d.put, h]


/-! ## PRSC -/

@[simp] theorem Prsc.start_level (level : Nat) (progress : Progress) :
    (Prsc.start level progress).level = level := rfl

@[simp] theorem Prsc.start_progress (level : Nat) (progress : Progress) :
    (Prsc.start level progress).progress = progress := rfl

@[simp] theorem Prsc.start_data (level : Nat) (progress : Progress) :
    (Prsc.start level progress).data = [] := rfl

@[simp] theorem Prsc.start_b (level : Nat) (progress : Progress) :
    (Prsc.start level progress).b = 0 := rfl

@[simp] theorem Prsc.start_w (level : Nat) (progress : Progress) :
    (Prsc.start level progress).w = PbsWriter.start := rfl

@[simp] theorem Prsc.start_closed (level : Nat) (progress : Progress) :
    (Prsc.start level progress).closed = false := rfl

@[simp] theorem Prsc.start_failed (level : Nat) (progress : Progress) :
    (Prsc.start level progress).failed = false := rfl

@[simp] theorem Prsc.start_result (level : Nat) (progress : Progress) :
    (Prsc.start level progress).result = [] := rfl

@[simp] theorem Prsc.commitByte_level (p : Prsc) : p.commitByte.level = p.level := rfl

@[simp] theorem Prsc.commitByte_progress (p : Prsc) : p.commitByte.progress = p.progress := rfl

@[simp] theorem Prsc.commitByte_data (p : Prsc) : p.commitByte.data = p.data := rfl

@[simp] theorem Prsc.commitByte_b (p : Prsc) : p.commitByte.b = p.b + 1 := rfl

@[simp] theorem Prsc.commitByte_w (p : Prsc) : p.commitByte.w = p.w := rfl

@[simp] theorem Prsc.commitByte_closed (p : Prsc) : p.commitByte.closed = p.closed := rfl

@[simp] theorem Prsc.commitByte_failed (p : Prsc) : p.commitByte.failed = p.failed := rfl

@[simp] theorem Prsc.commitByte_result (p : Prsc) : p.commitByte.result = p.result := rfl

/-- A commit moves the boundary by its count, and nothing else (R88). -/
theorem Prsc.commit_eq (p : Prsc) (c : Nat) : p.commit c = { p with b := p.b + c } := by
  induction c generalizing p with
  | zero => rfl
  | succ c ih =>
    simp only [Prsc.commit, ih, Prsc.commitByte]
    congr 1
    omega

@[simp] theorem Prsc.commit_level (p : Prsc) (c : Nat) :
    (Prsc.commit p c).level = p.level := by simp [Prsc.commit_eq]

@[simp] theorem Prsc.commit_progress (p : Prsc) (c : Nat) :
    (Prsc.commit p c).progress = p.progress := by simp [Prsc.commit_eq]

@[simp] theorem Prsc.commit_data (p : Prsc) (c : Nat) :
    (Prsc.commit p c).data = p.data := by simp [Prsc.commit_eq]

@[simp] theorem Prsc.commit_b (p : Prsc) (c : Nat) :
    (Prsc.commit p c).b = p.b + c := by simp [Prsc.commit_eq]

@[simp] theorem Prsc.commit_w (p : Prsc) (c : Nat) :
    (Prsc.commit p c).w = p.w := by simp [Prsc.commit_eq]

@[simp] theorem Prsc.commit_closed (p : Prsc) (c : Nat) :
    (Prsc.commit p c).closed = p.closed := by simp [Prsc.commit_eq]

@[simp] theorem Prsc.commit_failed (p : Prsc) (c : Nat) :
    (Prsc.commit p c).failed = p.failed := by simp [Prsc.commit_eq]

@[simp] theorem Prsc.commit_result (p : Prsc) (c : Nat) :
    (Prsc.commit p c).result = p.result := by simp [Prsc.commit_eq]

@[simp] theorem Prsc.emitNext_level (p : Prsc) : p.emitNext.level = p.level := by
  unfold Prsc.emitNext; split <;> rfl

@[simp] theorem Prsc.emitNext_progress (p : Prsc) : p.emitNext.progress = p.progress := by
  unfold Prsc.emitNext; split <;> rfl

@[simp] theorem Prsc.emitNext_data (p : Prsc) : p.emitNext.data = p.data := by
  unfold Prsc.emitNext; split <;> rfl

@[simp] theorem Prsc.emitNext_b (p : Prsc) : p.emitNext.b = p.b := by
  unfold Prsc.emitNext; split <;> rfl

@[simp] theorem Prsc.emitNext_closed (p : Prsc) : p.emitNext.closed = p.closed := by
  unfold Prsc.emitNext; split <;> rfl

@[simp] theorem Prsc.emitNext_failed (p : Prsc) : p.emitNext.failed = p.failed := by
  unfold Prsc.emitNext; split <;> rfl

@[simp] theorem Prsc.emitNext_result (p : Prsc) : p.emitNext.result = p.result := by
  unfold Prsc.emitNext; split <;> rfl

@[simp] theorem Prsc.emit_level (p : Prsc) (c : Code) :
    (Prsc.emit p c).level = p.level := rfl

@[simp] theorem Prsc.emit_progress (p : Prsc) (c : Code) :
    (Prsc.emit p c).progress = p.progress := rfl

@[simp] theorem Prsc.emit_data (p : Prsc) (c : Code) :
    (Prsc.emit p c).data = p.data := rfl

@[simp] theorem Prsc.emit_b (p : Prsc) (c : Code) :
    (Prsc.emit p c).b = p.b := rfl

@[simp] theorem Prsc.emit_w (p : Prsc) (c : Code) :
    (Prsc.emit p c).w = p.w.emit c := rfl

@[simp] theorem Prsc.emit_closed (p : Prsc) (c : Code) :
    (Prsc.emit p c).closed = p.closed := rfl

@[simp] theorem Prsc.emit_failed (p : Prsc) (c : Code) :
    (Prsc.emit p c).failed = p.failed := rfl

@[simp] theorem Prsc.emit_result (p : Prsc) (c : Code) :
    (Prsc.emit p c).result = p.result := rfl

@[simp] theorem Prsc.append_level (p : Prsc) (l : Bytes) :
    (Prsc.append p l).level = p.level := rfl

@[simp] theorem Prsc.append_progress (p : Prsc) (l : Bytes) :
    (Prsc.append p l).progress = p.progress := rfl

@[simp] theorem Prsc.append_data (p : Prsc) (l : Bytes) :
    (Prsc.append p l).data = p.data ++ l := rfl

@[simp] theorem Prsc.append_b (p : Prsc) (l : Bytes) :
    (Prsc.append p l).b = p.b := rfl

@[simp] theorem Prsc.append_w (p : Prsc) (l : Bytes) :
    (Prsc.append p l).w = p.w := rfl

@[simp] theorem Prsc.append_closed (p : Prsc) (l : Bytes) :
    (Prsc.append p l).closed = p.closed := rfl

@[simp] theorem Prsc.append_failed (p : Prsc) (l : Bytes) :
    (Prsc.append p l).failed = p.failed := rfl

@[simp] theorem Prsc.append_result (p : Prsc) (l : Bytes) :
    (Prsc.append p l).result = p.result := rfl

@[simp] theorem Prsc.fail_level (p : Prsc) :
    (Prsc.fail p).level = p.level := rfl

@[simp] theorem Prsc.fail_progress (p : Prsc) :
    (Prsc.fail p).progress = p.progress := rfl

@[simp] theorem Prsc.fail_data (p : Prsc) :
    (Prsc.fail p).data = p.data := rfl

@[simp] theorem Prsc.fail_b (p : Prsc) :
    (Prsc.fail p).b = p.b := rfl

@[simp] theorem Prsc.fail_w (p : Prsc) :
    (Prsc.fail p).w = p.w := rfl

@[simp] theorem Prsc.fail_closed (p : Prsc) :
    (Prsc.fail p).closed = p.closed := rfl

@[simp] theorem Prsc.fail_failed (p : Prsc) :
    (Prsc.fail p).failed = true := rfl

@[simp] theorem Prsc.fail_result (p : Prsc) :
    (Prsc.fail p).result = p.result := rfl

@[simp] theorem Prsc.markClosed_level (p : Prsc) :
    (Prsc.markClosed p).level = p.level := rfl

@[simp] theorem Prsc.markClosed_progress (p : Prsc) :
    (Prsc.markClosed p).progress = p.progress := rfl

@[simp] theorem Prsc.markClosed_data (p : Prsc) :
    (Prsc.markClosed p).data = p.data := rfl

@[simp] theorem Prsc.markClosed_b (p : Prsc) :
    (Prsc.markClosed p).b = p.b := rfl

@[simp] theorem Prsc.markClosed_w (p : Prsc) :
    (Prsc.markClosed p).w = p.w := rfl

@[simp] theorem Prsc.markClosed_closed (p : Prsc) :
    (Prsc.markClosed p).closed = true := rfl

@[simp] theorem Prsc.markClosed_failed (p : Prsc) :
    (Prsc.markClosed p).failed = p.failed := rfl

@[simp] theorem Prsc.markClosed_result (p : Prsc) :
    (Prsc.markClosed p).result = p.w.out := rfl

@[simp] theorem Prsc.terminate_level (p : Prsc) :
    (Prsc.terminate p).level = p.level := rfl

@[simp] theorem Prsc.terminate_progress (p : Prsc) :
    (Prsc.terminate p).progress = p.progress := rfl

@[simp] theorem Prsc.terminate_data (p : Prsc) :
    (Prsc.terminate p).data = p.data := rfl

@[simp] theorem Prsc.terminate_b (p : Prsc) :
    (Prsc.terminate p).b = p.b := rfl

@[simp] theorem Prsc.terminate_w (p : Prsc) :
    (Prsc.terminate p).w = (p.w.emit (stopCode 0#3)).finish := rfl

@[simp] theorem Prsc.terminate_closed (p : Prsc) :
    (Prsc.terminate p).closed = true := rfl

@[simp] theorem Prsc.terminate_failed (p : Prsc) :
    (Prsc.terminate p).failed = p.failed := rfl

@[simp] theorem Prsc.terminate_result (p : Prsc) :
    (Prsc.terminate p).result = (p.w.emit (stopCode 0#3)).finish.out := rfl


/-! ## The PBS writer -/

@[simp] theorem PbsWriter.rollover_out (w : PbsWriter) :
    (PbsWriter.rollover w).out = w.out.set w.ctlOff w.pend ++ [0#8] := rfl

@[simp] theorem PbsWriter.rollover_ctlOff (w : PbsWriter) :
    (PbsWriter.rollover w).ctlOff = w.out.length := rfl

@[simp] theorem PbsWriter.rollover_pend (w : PbsWriter) :
    (PbsWriter.rollover w).pend = 0#8 := rfl

@[simp] theorem PbsWriter.rollover_npend (w : PbsWriter) :
    (PbsWriter.rollover w).npend = 0 := rfl

@[simp] theorem PbsWriter.putByte_out (w : PbsWriter) (v : Byte) :
    (PbsWriter.putByte w v).out = w.out ++ [v] := rfl

@[simp] theorem PbsWriter.putByte_ctlOff (w : PbsWriter) (v : Byte) :
    (PbsWriter.putByte w v).ctlOff = w.ctlOff := rfl

@[simp] theorem PbsWriter.putByte_pend (w : PbsWriter) (v : Byte) :
    (PbsWriter.putByte w v).pend = w.pend := rfl

@[simp] theorem PbsWriter.putByte_npend (w : PbsWriter) (v : Byte) :
    (PbsWriter.putByte w v).npend = w.npend := rfl

@[simp] theorem PbsWriter.start_out : PbsWriter.start.out = [0#8] := rfl

@[simp] theorem PbsWriter.start_ctlOff : PbsWriter.start.ctlOff = 0 := rfl

@[simp] theorem PbsWriter.start_pend : PbsWriter.start.pend = 0#8 := rfl

@[simp] theorem PbsWriter.start_npend : PbsWriter.start.npend = 0 := rfl


/-! ## BC0C -/

@[simp] theorem Bc0c.start_d (input : Bytes) (progress : Progress) :
    (Bc0c.start input progress).d = input := rfl

@[simp] theorem Bc0c.start_n (input : Bytes) (progress : Progress) :
    (Bc0c.start input progress).n = input.length := rfl

@[simp] theorem Bc0c.start_i (input : Bytes) (progress : Progress) :
    (Bc0c.start input progress).i = 0 := rfl

@[simp] theorem Bc0c.start_x (input : Bytes) (progress : Progress) :
    (Bc0c.start input progress).x = [] := rfl

@[simp] theorem Bc0c.start_out (input : Bytes) (progress : Progress) :
    (Bc0c.start input progress).out = [] := rfl

@[simp] theorem Bc0c.start_gctl (input : Bytes) (progress : Progress) :
    (Bc0c.start input progress).gctl = none := rfl

@[simp] theorem Bc0c.start_gbits (input : Bytes) (progress : Progress) :
    (Bc0c.start input progress).gbits = 8 := rfl

@[simp] theorem Bc0c.start_progress (input : Bytes) (progress : Progress) :
    (Bc0c.start input progress).progress = progress := rfl

@[simp] theorem Bc0c.indexStep_d (c : Bc0c) : c.indexStep.d = c.d := rfl

@[simp] theorem Bc0c.indexStep_n (c : Bc0c) : c.indexStep.n = c.n := rfl

@[simp] theorem Bc0c.indexStep_out (c : Bc0c) : c.indexStep.out = c.out := rfl

@[simp] theorem Bc0c.indexStep_gctl (c : Bc0c) : c.indexStep.gctl = c.gctl := rfl

@[simp] theorem Bc0c.indexStep_gbits (c : Bc0c) : c.indexStep.gbits = c.gbits := rfl

@[simp] theorem Bc0c.indexStep_progress (c : Bc0c) : c.indexStep.progress = c.progress := rfl

@[simp] theorem Bc0c.indexStep_i (c : Bc0c) : c.indexStep.i = c.i + 1 := rfl

@[simp] theorem Bc0c.openGroup_d (c : Bc0c) : c.openGroup.d = c.d := by
  unfold Bc0c.openGroup; split <;> rfl

@[simp] theorem Bc0c.emit_d (c : Bc0c) (v : Bool) (l : Bytes) : (c.emit v l).d = c.d := by
  simp [Bc0c.emit]

@[simp] theorem Bc0c.emitLit_d (c : Bc0c) (v : Byte) : (c.emitLit v).d = c.d := by
  simp [Bc0c.emitLit]

@[simp] theorem Bc0c.emitRef_d (c : Bc0c) (q l : Nat) : (c.emitRef q l).d = c.d := by
  simp [Bc0c.emitRef]

@[simp] theorem Bc0c.openGroup_n (c : Bc0c) : c.openGroup.n = c.n := by
  unfold Bc0c.openGroup; split <;> rfl

@[simp] theorem Bc0c.emit_n (c : Bc0c) (v : Bool) (l : Bytes) : (c.emit v l).n = c.n := by
  simp [Bc0c.emit]

@[simp] theorem Bc0c.emitLit_n (c : Bc0c) (v : Byte) : (c.emitLit v).n = c.n := by
  simp [Bc0c.emitLit]

@[simp] theorem Bc0c.emitRef_n (c : Bc0c) (q l : Nat) : (c.emitRef q l).n = c.n := by
  simp [Bc0c.emitRef]

@[simp] theorem Bc0c.openGroup_i (c : Bc0c) : c.openGroup.i = c.i := by
  unfold Bc0c.openGroup; split <;> rfl

@[simp] theorem Bc0c.emit_i (c : Bc0c) (v : Bool) (l : Bytes) : (c.emit v l).i = c.i := by
  simp [Bc0c.emit]

@[simp] theorem Bc0c.emitLit_i (c : Bc0c) (v : Byte) : (c.emitLit v).i = c.i := by
  simp [Bc0c.emitLit]

@[simp] theorem Bc0c.emitRef_i (c : Bc0c) (q l : Nat) : (c.emitRef q l).i = c.i := by
  simp [Bc0c.emitRef]

@[simp] theorem Bc0c.openGroup_x (c : Bc0c) : c.openGroup.x = c.x := by
  unfold Bc0c.openGroup; split <;> rfl

@[simp] theorem Bc0c.emit_x (c : Bc0c) (v : Bool) (l : Bytes) : (c.emit v l).x = c.x := by
  simp [Bc0c.emit]

@[simp] theorem Bc0c.emitLit_x (c : Bc0c) (v : Byte) : (c.emitLit v).x = c.x := by
  simp [Bc0c.emitLit]

@[simp] theorem Bc0c.emitRef_x (c : Bc0c) (q l : Nat) : (c.emitRef q l).x = c.x := by
  simp [Bc0c.emitRef]

@[simp] theorem Bc0c.openGroup_progress (c : Bc0c) : c.openGroup.progress = c.progress := by
  unfold Bc0c.openGroup; split <;> rfl

@[simp] theorem Bc0c.emit_progress (c : Bc0c) (v : Bool) (l : Bytes) : (c.emit v l).progress = c.progress := by
  simp [Bc0c.emit]

@[simp] theorem Bc0c.emitLit_progress (c : Bc0c) (v : Byte) : (c.emitLit v).progress = c.progress := by
  simp [Bc0c.emitLit]

@[simp] theorem Bc0c.emitRef_progress (c : Bc0c) (q l : Nat) : (c.emitRef q l).progress = c.progress := by
  simp [Bc0c.emitRef]

end Sys2Proof.Machine
end

