-- ==== Sys2Proof/Laws/Ops.lean ====
section
/-!
SUPPORT. One lemma for each shared operation, saying once everything it can do.
-/

namespace Sys2Proof.Machine

/-! ## Guards -/

@[simp] theorem whenIdle_of_idle (s : State) (o : Out) (h : s.active = .idle) : whenIdle s o = o := by
  simp [whenIdle, h]

/-- A busy thread issues nothing. -/
theorem whenIdle_of_busy (s : State) (o : Out) (h : s.active ≠ .idle) : whenIdle s o = .refused .threadBusy := by
  unfold whenIdle; split <;> simp_all

/-- A guarded command gives a next state only on an idle thread. -/
theorem whenIdle_next {s t : State} {o : Out} (h : whenIdle s o = .next t) : s.active = .idle ∧ o = .next t := by
  unfold whenIdle at h; split at h
  · exact ⟨by assumption, h⟩
  · cases h

@[simp] theorem andThen_next (s : State) (f : State → Out) : andThen (.next s) f = f s := rfl

/-- What `andThen` can do: nothing that either part does not. -/
theorem andThen_next_iff {o : Out} {f : State → Out} {t : State} :
    andThen o f = .next t ↔ ∃ s, o = .next s ∧ f s = .next t := by
  cases o <;> simp [andThen]

@[simp] theorem withPrsc_live {s : State} {h : Nat} {p : Prsc} {f : Prsc → Out} (hs : s.prscs[h]? = some (.live p)) :
    withPrsc s h f = f p := by
  simp [withPrsc, hs]

/-- A command on an instance gives a next state only when the instance is alive and free. -/
theorem withPrsc_next {s t : State} {h : Nat} {f : Prsc → Out} (hn : withPrsc s h f = .next t) :
    ∃ p, s.prscs[h]? = some (.live p) ∧ f p = .next t := by
  unfold withPrsc at hn
  split at hn
  · exact ⟨_, by assumption, hn⟩
  all_goals cases hn

@[simp] theorem withLevel_nat (n : Nat) (f : Nat → Out) : withLevel (n : Int) f = f n := rfl

/-- A negative level is refused (R9). -/
theorem withLevel_neg {level : Int} (h : level < 0) (f : Nat → Out) : withLevel level f = .refused .negativeLevel := by
  cases level with
  | ofNat n => simp at h; omega
  | negSucc n => rfl

theorem withLevel_next {level : Int} {f : Nat → Out} {t : State} (h : withLevel level f = .next t) :
    ∃ n : Nat, level = n ∧ f n = .next t := by
  cases level with
  | ofNat n => exact ⟨n, rfl, h⟩
  | negSucc n => cases h

/-! ## Notification (R132) -/

/-- A callback that returns only leaves its notifications behind. -/
theorem notify_returns {pr : Progress} (h : callbackPassive pr = true) (mk : Nat → Note) (pts : List Nat) (s : State) :
    notify pr mk pts s = .next { s with notes := s.notes ++ if pr = .absent then [] else pts.map mk } := by
  cases pr <;> simp_all [notify, callbackPassive]

/-- Whatever the callback does, a next state differs only in the notifications. -/
theorem notify_next {pr : Progress} {mk : Nat → Note} {pts : List Nat} {s t : State} (h : notify pr mk pts s = .next t) :
    ∃ ns, t = { s with notes := s.notes ++ ns } := by
  cases pr <;> simp only [notify] at h
  · exact ⟨[], by cases h; simp⟩
  · exact ⟨_, by cases h; rfl⟩
  · exact ⟨_, by cases h; rfl⟩
  · split at h
    · cases h
    · exact ⟨_, by cases h; rfl⟩
  · split at h
    · cases h
    · exact ⟨_, by cases h; rfl⟩

@[simp] theorem unlessActing_acting (a b : Out) : unlessActing .acting a b = a := rfl

@[simp] theorem unlessActing_of_ne {pr : Progress} (h : pr ≠ .acting) (a b : Out) : unlessActing pr a b = b := by
  simp [unlessActing, h]

/-- A passive callback lets its command run in one step. -/
theorem unlessActing_passive {pr : Progress} (h : callbackPassive pr = true) (a b : Out) : unlessActing pr a b = b := by
  cases pr <;> simp_all [unlessActing, callbackPassive]

/-- A discard gives a next state only where there is an instance, and marks its slot. -/
theorem discard_next {s t : State} {h : Nat} (hn : discard h s = .next t) :
    ((∃ p, s.prscs[h]? = some (.live p)) ∨ s.prscs[h]? = some .inFlight) ∧ t = s.setSlot h .discarded := by
  unfold discard at hn
  split at hn
  · next p hp => cases hn; exact ⟨.inl ⟨p, hp⟩, rfl⟩
  · next hp => cases hn; exact ⟨.inr hp, rfl⟩
  · cases hn
  · cases hn

/-- The notification points of two moves are those of the whole move. -/
theorem notifyPoints_append {a b c : Nat} (h1 : a ≤ b) (h2 : b ≤ c) :
    notifyPoints a c = notifyPoints a b ++ notifyPoints b c := by
  unfold notifyPoints
  rw [← List.filter_append]
  congr 1
  rw [show c - a = (b - a) + (c - b) by omega, ← List.range'_append_1]
  rw [show a + 1 + (b - a) = b + 1 by omega]

@[simp] theorem notifyPoints_self (a : Nat) : notifyPoints a a = [] := by simp [notifyPoints]

/-- A point of notification is a multiple of 4096. -/
theorem atInterval_eq_true {n : Nat} : atInterval n = true ↔ n % 4096 = 0 := by
  simp [atInterval, Config.progressInterval]

/-- One byte further, the next point is the new position itself, if it is one (R88, R114). -/
theorem notifyPoints_succ {a b : Nat} (h : a < b) :
    notifyPoints a b = (if atInterval (a + 1) then [a + 1] else []) ++ notifyPoints (a + 1) b := by
  rw [notifyPoints_append (Nat.le_succ a) h]
  congr 1
  simp only [notifyPoints, Nat.succ_eq_add_one, Nat.add_sub_cancel_left, List.range'_one, List.filter_cons,
    List.filter_nil]

/-- A position is notified when it is a multiple of 4096 passed by the move. -/
theorem mem_notifyPoints {a b x : Nat} : x ∈ notifyPoints a b ↔ a < x ∧ x ≤ b ∧ x % 4096 = 0 := by
  simp only [notifyPoints, atInterval, Config.progressInterval, List.mem_filter, List.mem_range'_1, beq_iff_eq]
  omega

/-! ## Running an opcode on the decoder in flight -/

/-- On a running PRSD instance, `onPrsd` is its function and the sink. -/
theorem onPrsd_running {s : State} {p : Prsd} (ha : s.active = .prsd p) (hr : p.fin = .running) (f : Prsd → PrsdOut) :
    onPrsd f s =
      match f p with
      | .ok p' => .next { s.writeSink p'.sink (prsNewItems p p') with active := .prsd p' }
      | .raised p' e => .next ((s.writeSink p'.sink (prsNewItems p p')).raise e)
      | .fault r => .fault r := by
  simp only [onPrsd, ha, Prsd.ended, hr]
  cases f p <;> rfl

/-- A PRS opcode gives a next state only on a running PRSD instance, and then in two ways. -/
theorem onPrsd_next {s t : State} {f : Prsd → PrsdOut} (h : onPrsd f s = .next t) :
    ∃ p, s.active = .prsd p ∧ p.fin = .running ∧
      ((∃ p', f p = .ok p' ∧ t = { s.writeSink p'.sink (prsNewItems p p') with active := .prsd p' }) ∨
       (∃ p' e, f p = .raised p' e ∧ t = (s.writeSink p'.sink (prsNewItems p p')).raise e)) := by
  unfold onPrsd at h
  split at h
  next p ha =>
    split at h
    · cases h
    · next he =>
      refine ⟨p, ha, by simpa [Prsd.ended] using he, ?_⟩
      split at h
      · next p' hf => exact .inl ⟨p', hf, by cases h; rfl⟩
      · next p' e hf => exact .inr ⟨p', e, hf, by cases h; rfl⟩
      · cases h
  · cases h

/-- On a running BC0D instance, `onBc0d` is its function and the sink. -/
theorem onBc0d_running {s : State} {d : Bc0d} (ha : s.active = .bc0d d) (hr : d.done = false) (f : Bc0d → Bc0d) :
    onBc0d f s = .next { s.writeSink d.sink (bc0NewItems d (f d)) with active := .bc0d (f d) } := by
  simp [onBc0d, ha, hr]

/-- A BC0 opcode gives a next state only on a running BC0D instance. -/
theorem onBc0d_next {s t : State} {f : Bc0d → Bc0d} (h : onBc0d f s = .next t) :
    ∃ d, s.active = .bc0d d ∧ d.done = false ∧
      t = { s.writeSink d.sink (bc0NewItems d (f d)) with active := .bc0d (f d) } := by
  unfold onBc0d at h
  split at h
  next d ha =>
    split at h
    · cases h
    · next hd => exact ⟨d, ha, by simpa using hd, by cases h; rfl⟩
  · cases h

/-- No new record means nothing for the sink. -/
@[simp] theorem prsNewItems_of_trace_eq {p p' : Prsd} (h : p'.trace = p.trace) : prsNewItems p p' = [] := by
  simp [prsNewItems, h]

@[simp] theorem bc0NewItems_of_trace_eq {d d' : Bc0d} (h : d'.trace = d.trace) : bc0NewItems d d' = [] := by
  simp [bc0NewItems, h]

@[simp] theorem writeSink_nil (s : State) (k : Nat) : s.writeSink k [] = s := by simp [State.writeSink]

theorem writeSink_append (s : State) (k : Nat) (a b : List SinkItem) :
    (s.writeSink k a).writeSink k b = s.writeSink k (a ++ b) := by simp [State.writeSink]

/-! ## The schedule and the step (R148) -/

@[simp] theorem reschedule_nil (s : State) (h : s.schedule = []) : s.reschedule = s := by simp [State.reschedule, h]

/-- What rescheduling can do: the schedule's head goes, and the current thread may change places with a parked one. -/
theorem reschedule_cases (s : State) :
    s.reschedule = s ∨ s.reschedule = { s with schedule := s.schedule.tail } ∨
      ∃ k t, s.parked[k]? = some t ∧ s.reschedule = State.switchTo { s with schedule := s.schedule.tail } k t := by
  unfold State.reschedule
  split
  · exact .inl rfl
  · next h => exact .inr (.inl (by rw [h]; rfl))
  · next k rest h =>
    rw [h]
    split
    · exact .inr (.inl rfl)
    · next t ht => exact .inr (.inr ⟨k, t, ht, rfl⟩)

/-- With nothing scheduled, the step is the current thread's. -/
theorem step_of_schedule_nil {s : State} (h : s.schedule = []) :
    step s = match fetchCurrent s with
      | .run i t => exec i t
      | .outcome o => o := by
  have hf : fetch s = fetchCurrent s := by rw [fetch, reschedule_nil _ h]
  cases hc : fetchCurrent s <;> simp only [step, hf, hc]

end Sys2Proof.Machine
end

