-- ==== Sys2Proof/Laws/Operands.lean ====
section
/-!
SUPPORT. The byte-serial copies and the match lengths.
-/

namespace Sys2Proof.Machine

/-- A copy that starts inside `OUT` always completes: it appends `n` bytes and keeps the earlier ones. -/
theorem copyOut_some {src : Nat} {out : Bytes} (h : src < out.length) (n : Nat) :
    ∃ ext, copyOut src n out = some (out ++ ext) ∧ ext.length = n := by
  induction n generalizing src out with
  | zero => exact ⟨[], by simp [copyOut]⟩
  | succ n ih =>
    obtain ⟨ext, h1, h2⟩ := ih (src := src + 1) (out := out ++ [out[src]]) (by simp; omega)
    refine ⟨out[src] :: ext, ?_, by simp [h2]⟩
    simp [copyOut, List.getElem?_eq_getElem h, h1]

/-- A copy that completes has appended exactly `n` bytes. -/
theorem copyOut_length {src n : Nat} {out out' : Bytes} (h : copyOut src n out = some out') :
    out'.length = out.length + n := by
  induction n generalizing src out with
  | zero => simp_all [copyOut]
  | succ n ih =>
    simp only [copyOut] at h
    split at h
    · cases h
    · have := ih h
      simp at this
      omega

theorem matchLen_le (rd : Nat → Option Byte) (cap p q : Nat) : matchLen rd cap p q ≤ cap := by
  induction cap generalizing p q with
  | zero => simp [matchLen]
  | succ n ih =>
    simp only [matchLen]
    split
    · have := ih (p + 1) (q + 1); omega
    · omega

/-- Every byte inside the match agrees. -/
theorem matchLen_agree (rd : Nat → Option Byte) {cap p q j : Nat} (h : j < matchLen rd cap p q) :
    rd (p + j) = rd (q + j) := by
  induction cap generalizing p q j with
  | zero => simp [matchLen] at h
  | succ n ih =>
    simp only [matchLen] at h
    split at h
    · next he =>
      cases j with
      | zero => simpa using he
      | succ j =>
        have := ih (p := p + 1) (q := q + 1) (j := j) (by omega)
        rw [show p + (j + 1) = p + 1 + j by omega, show q + (j + 1) = q + 1 + j by omega]
        exact this
    · omega

/-- A match shorter than the cap ends at a byte that differs. -/
theorem matchLen_stop (rd : Nat → Option Byte) {cap p q : Nat} (h : matchLen rd cap p q < cap) :
    rd (p + matchLen rd cap p q) ≠ rd (q + matchLen rd cap p q) := by
  induction cap generalizing p q with
  | zero => omega
  | succ n ih =>
    simp only [matchLen] at h ⊢
    split at h
    · next he =>
      rw [if_pos he]
      have := ih (p := p + 1) (q := q + 1) (by omega)
      rw [show p + (matchLen rd n (p + 1) (q + 1) + 1) = p + 1 + matchLen rd n (p + 1) (q + 1) by omega,
        show q + (matchLen rd n (p + 1) (q + 1) + 1) = q + 1 + matchLen rd n (p + 1) (q + 1) by omega]
      exact this
    · next he => simp [he]

@[simp] theorem byteAt_toArray (l : Bytes) (i : Nat) : byteAt l.toArray i = l[i]? := by simp [byteAt]

/-- A BC0 copy of `n` bytes counts `n` and moves the cursor by `n`, in both modes. -/
theorem bc0dCopy_outLen (n : Nat) (m : BitVec 12) (d : Bc0d) : (bc0dCopy n m d).outLen = d.outLen + n := by
  induction n generalizing m d with
  | zero => rfl
  | succ n ih => simp [bc0dCopy, ih]; omega

theorem bc0dCopy_cur (n : Nat) (m : BitVec 12) (d : Bc0d) : (bc0dCopy n m d).cur = d.cur + BitVec.ofNat 12 n := by
  induction n generalizing m d with
  | zero => simp [bc0dCopy]
  | succ n ih =>
    simp only [bc0dCopy, ih, Bc0d.put_cur]
    rw [BitVec.add_assoc, ← BitVec.ofNat_add, Nat.add_comm n 1]

/-- A BC0 copy changes only `OUT`, `out_len`, the memo and the cursor. -/
theorem bc0dCopy_frame (n : Nat) (m : BitVec 12) (d : Bc0d) :
    (bc0dCopy n m d).rd = d.rd ∧ (bc0dCopy n m d).mode = d.mode ∧ (bc0dCopy n m d).trace = d.trace ∧
      (bc0dCopy n m d).markIn = d.markIn ∧ (bc0dCopy n m d).done = d.done ∧ (bc0dCopy n m d).sink = d.sink := by
  induction n generalizing m d with
  | zero => exact ⟨rfl, rfl, rfl, rfl, rfl, rfl⟩
  | succ n ih => simp [bc0dCopy, ih]

theorem bc0dCopy_memo_wf (n : Nat) (m : BitVec 12) {d : Bc0d} (h : Memory.wf d.memo = true) :
    Memory.wf (bc0dCopy n m d).memo = true := by
  induction n generalizing m d with
  | zero => exact h
  | succ n ih =>
    refine ih _ ?_
    unfold Bc0d.put
    split
    · exact h
    · exact memoWrite_wf h _ _

end Sys2Proof.Machine
end

