-- ==== Sys2Proof/Laws/PerInstr.lean ====
section
/-!
SUPPORT. The per-instruction family `CodeShape`: an instruction's opcode word has as many control bits and data bytes as
the length tables of R55 and R63 give it; a host command has no opcode word.
-/

namespace Sys2Proof.Laws.CodeShape

open Sys2Proof.Machine

/-- The shape of an instruction's opcode word (R55, R63): a stream opcode has one, of its table lengths; a host command
has none. -/
def Statement (i : Instr) : Prop :=
  (encode i = none ↔ isCommand i = true) ∧
    ∀ c, encode i = some c → c.bits.length = ctlBits i ∧ c.data.length = dataBytes i

theorem lit (v : Byte) : Statement (.lit v) := by
  refine ⟨by simp [encode, isCommand, isPrsOp, isBc0Op], ?_⟩
  rintro c ⟨⟩; exact ⟨rfl, rfl⟩

theorem scopy (off : Int) (cnt : Nat) : Statement (.scopy off cnt) := by
  refine ⟨by simp [encode, isCommand, isPrsOp, isBc0Op], ?_⟩
  rintro c ⟨⟩; exact ⟨rfl, rfl⟩

theorem lcopy (off : Int) (cnt : Nat) : Statement (.lcopy off cnt) := by
  refine ⟨by simp [encode, isCommand, isPrsOp, isBc0Op], ?_⟩
  rintro c ⟨⟩; exact ⟨rfl, rfl⟩

theorem ecopy (off : Int) (cnt : Nat) : Statement (.ecopy off cnt) := by
  refine ⟨by simp [encode, isCommand, isPrsOp, isBc0Op], ?_⟩
  rintro c ⟨⟩; exact ⟨rfl, rfl⟩

theorem stop (f : BitVec 3) : Statement (.stop f) := by
  refine ⟨by simp [encode, isCommand, isPrsOp, isBc0Op], ?_⟩
  rintro c ⟨⟩; exact ⟨rfl, rfl⟩

theorem blit (v : Byte) : Statement (.blit v) := by
  refine ⟨by simp [encode, isCommand, isPrsOp, isBc0Op], ?_⟩
  rintro c ⟨⟩; exact ⟨rfl, rfl⟩

theorem bref (m : BitVec 12) (cnt : Nat) : Statement (.bref m cnt) := by
  refine ⟨by simp [encode, isCommand, isPrsOp, isBc0Op], ?_⟩
  rintro c ⟨⟩; exact ⟨rfl, rfl⟩

/-- A command's opcode word does not exist. -/
theorem of_command {i : Instr} (h : encode i = none) (hc : isCommand i = true) : Statement i :=
  ⟨by simp [h, hc], by intro c hs; rw [h] at hs; cases hs⟩

theorem prsCompress (bytes : Bytes) (level : Int) (progress : Progress) :
    Statement (.prsCompress bytes level progress) := of_command rfl rfl

theorem prscNew (level : Int) (progress : Progress) : Statement (.prscNew level progress) := of_command rfl rfl

theorem prscAdd (h : Nat) (bytes : Bytes) : Statement (.prscAdd h bytes) := of_command rfl rfl

theorem prscClose (h : Nat) : Statement (.prscClose h) := of_command rfl rfl

theorem bc0Compress (bytes : Bytes) (progress : Progress) : Statement (.bc0Compress bytes progress) := of_command rfl rfl

theorem prsDecompress (bytes : Bytes) (maxOut : Nat) : Statement (.prsDecompress bytes maxOut) := of_command rfl rfl

theorem prsDecompressSize (bytes : Bytes) (maxOut : Nat) : Statement (.prsDecompressSize bytes maxOut) :=
  of_command rfl rfl

theorem prsDisassemble (sink : Nat) (bytes : Bytes) : Statement (.prsDisassemble sink bytes) := of_command rfl rfl

theorem bc0Decompress (bytes : Bytes) : Statement (.bc0Decompress bytes) := of_command rfl rfl

theorem bc0Disassemble (sink : Nat) (bytes : Bytes) : Statement (.bc0Disassemble sink bytes) := of_command rfl rfl

end Sys2Proof.Laws.CodeShape
end

