-- ==== Sys2Proof/Laws/Units.lean ====
section
/-!
SUPPORT. What one opcode can do to a decoder's instance, and one Advance or iteration to a compressor's.
-/

namespace Sys2Proof.Machine

/-! ## PRSD -/

/-- Everything the copy primitive can do (R100). -/
theorem prsdCopy_cases (off : Int) (cnt : Nat) (p : Prsd) :
    (backrefBad p.outLen off = true ∧ prsdCopy off cnt p = .raised p (.malformedBackref p.outLen off)) ∨
      (backrefBad p.outLen off = false ∧ overLimit p.maxOut (p.outLen + cnt) = true ∧
        prsdCopy off cnt p = .raised p (.resourceLimit (p.outLen + cnt))) ∨
      (backrefBad p.outLen off = false ∧ overLimit p.maxOut (p.outLen + cnt) = false ∧ p.mode ≠ .bytes ∧
        prsdCopy off cnt p = .ok { p with outLen := p.outLen + cnt }) ∨
      (backrefBad p.outLen off = false ∧ overLimit p.maxOut (p.outLen + cnt) = false ∧ p.mode = .bytes ∧
        ((∃ out, copyOut (copySource p.outLen off).toNat cnt p.out = some out ∧
            prsdCopy off cnt p = .ok { p with out := out, outLen := p.outLen + cnt }) ∨
          (copyOut (copySource p.outLen off).toNat cnt p.out = none ∧
            prsdCopy off cnt p = .fault (.outRead (copySource p.outLen off).toNat)))) := by
  unfold prsdCopy
  cases h1 : backrefBad p.outLen off
  · cases h2 : overLimit p.maxOut (p.outLen + cnt)
    · by_cases h3 : p.mode = .bytes
      · refine .inr (.inr (.inr ⟨rfl, rfl, h3, ?_⟩))
        cases h4 : copyOut (copySource p.outLen off).toNat cnt p.out with
        | none => exact .inr ⟨rfl, by simp [h3]⟩
        | some out => exact .inl ⟨out, rfl, by simp [h3]⟩
      · exact .inr (.inr (.inl ⟨rfl, rfl, h3, by simp [h3]⟩))
    · exact .inr (.inl ⟨rfl, rfl, by simp⟩)
  · exact .inl ⟨rfl, by simp⟩

/-- A source inside the output passes the check, and its reads are inside `OUT` (R35, R100). -/
theorem backrefBad_false {outLen : Nat} {off : Int} (h : backrefBad outLen off = false) :
    off < 0 ∧ 0 ≤ copySource outLen off ∧ (copySource outLen off).toNat < outLen := by
  simp only [backrefBad, Bool.or_eq_false_iff, decide_eq_false_iff_not] at h
  unfold copySource at h ⊢
  omega

/-- The bound check, as its two cases (R106). -/
theorem overLimit_eq_false {maxOut n : Nat} : overLimit maxOut n = false ↔ maxOut = 0 ∨ n ≤ maxOut := by
  simp only [overLimit, Bool.and_eq_false_iff, decide_eq_false_iff_not]
  omega

/-- In BYTES mode with `out_len = len(OUT)`, a copy never reads outside `OUT`. -/
theorem prsdCopy_ne_fault {off : Int} {cnt : Nat} {p : Prsd} (h : p.mode = .bytes → p.out.length = p.outLen) (f : Fault) :
    prsdCopy off cnt p ≠ .fault f := by
  obtain ⟨-, hc⟩ | ⟨-, -, hc⟩ | ⟨-, -, -, hc⟩ | ⟨hb, -, hm, ⟨out, -, hc⟩ | ⟨hn, -⟩⟩ := prsdCopy_cases off cnt p
  · simp [hc]
  · simp [hc]
  · simp [hc]
  · simp [hc]
  · have hs := backrefBad_false hb
    obtain ⟨ext, he, -⟩ := copyOut_some (src := (copySource p.outLen off).toNat) (out := p.out) (by rw [h hm]; omega) cnt
    rw [he] at hn
    cases hn

/-- A PRS opcode that goes on changes only the output, its length, the trace and `end`. -/
theorem prsdOp_frame {i : Instr} {p p' : Prsd} (h : prsdOp i p = .ok p') :
    p'.rd = p.rd ∧ p'.mode = p.mode ∧ p'.maxOut = p.maxOut ∧ p'.markIn = p.markIn ∧ p'.markBit = p.markBit ∧
      p'.sink = p.sink ∧ p.outLen ≤ p'.outLen := by
  have copy : ∀ (off : Int) (cnt : Nat) (q : Prsd), prsdCopy off cnt q = .ok p' →
      p'.rd = q.rd ∧ p'.mode = q.mode ∧ p'.maxOut = q.maxOut ∧ p'.markIn = q.markIn ∧ p'.markBit = q.markBit ∧
        p'.sink = q.sink ∧ q.outLen ≤ p'.outLen := by
    intro off cnt q hq
    obtain ⟨-, hc⟩ | ⟨-, -, hc⟩ | ⟨-, -, -, hc⟩ | ⟨-, -, -, ⟨out, -, hc⟩ | ⟨-, hc⟩⟩ := prsdCopy_cases off cnt q <;>
      rw [hc] at hq <;> cases hq <;> simp
  cases i <;> simp only [prsdOp] at h
  case lit v =>
    unfold prsdLit at h
    simp only [Prsd.record_maxOut, Prsd.record_outLen, Prsd.record_mode] at h
    split at h
    · cases h
    · split at h <;> cases h <;> simp
  case scopy off cnt => simpa using copy off cnt _ h
  case lcopy off cnt => simpa using copy off cnt _ h
  case ecopy off cnt => simpa using copy off cnt _ h
  case stop f => unfold prsdStop at h; cases h; simp
  all_goals cases h

/-! ## PRSC -/

@[simp] theorem perform_nil (p : Prsc) : p.perform [] = (p, none) := rfl

@[simp] theorem perform_lit (p : Prsc) (ms : List PrscMove) : p.perform (.lit :: ms) = p.emitNext.perform ms := rfl

@[simp] theorem perform_emit (p : Prsc) (c : Code) (ms : List PrscMove) :
    p.perform (.emit c :: ms) = (p.emit c).perform ms := rfl

@[simp] theorem perform_commit (p : Prsc) (n : Nat) (ms : List PrscMove) :
    p.perform (.commit n :: ms) = (p.commit n).perform ms := rfl

@[simp] theorem perform_fail (p : Prsc) (e : EngineError) (ms : List PrscMove) :
    p.perform (.fail e :: ms) = (p.fail, some e) := rfl

/-- Performing moves changes only the writer and the boundary, which never goes back; and `failed` where a move fails. -/
theorem perform_frame (ms : List PrscMove) (p : Prsc) :
    (p.perform ms).1.data = p.data ∧ (p.perform ms).1.level = p.level ∧ (p.perform ms).1.progress = p.progress ∧
      (p.perform ms).1.closed = p.closed ∧ (p.perform ms).1.result = p.result ∧ p.b ≤ (p.perform ms).1.b := by
  induction ms generalizing p with
  | nil => exact ⟨rfl, rfl, rfl, rfl, rfl, Nat.le_refl _⟩
  | cons m ms ih =>
    cases m with
    | lit => simpa using ih p.emitNext
    | emit c => simpa using ih (p.emit c)
    | commit n =>
      have h := ih (p.commit n)
      simp only [Prsc.commit_data, Prsc.commit_level, Prsc.commit_progress, Prsc.commit_closed, Prsc.commit_result,
        Prsc.commit_b] at h
      obtain ⟨h1, h2, h3, h4, h5, h6⟩ := h
      exact ⟨h1, h2, h3, h4, h5, by rw [perform_commit]; omega⟩
    | fail e => simp

/-- One Advance changes only the writer and the boundary, which never goes back; and `failed` in case 6 (R86, R87). -/
theorem advance_frame (p : Prsc) :
    (advance p).1.data = p.data ∧ (advance p).1.level = p.level ∧ (advance p).1.progress = p.progress ∧
      (advance p).1.closed = p.closed ∧ (advance p).1.result = p.result ∧ p.b ≤ (advance p).1.b :=
  perform_frame (advancePlan p) p

/-- Committing in two parts is committing the whole (R88). -/
theorem commit_add (p : Prsc) (n m : Nat) : (p.commit n).commit m = p.commit (n + m) := by
  simp only [Prsc.commit_eq, Nat.add_assoc]

/-- Performing a list in two parts, where the first part meets no error. -/
theorem perform_append {p q : Prsc} {ms : List PrscMove} (h : p.perform ms = (q, none)) (ms' : List PrscMove) :
    p.perform (ms ++ ms') = q.perform ms' := by
  induction ms generalizing p with
  | nil => cases h; rfl
  | cons m ms ih =>
    cases m with
    | lit => exact ih h
    | emit c => exact ih h
    | commit n => exact ih h
    | fail e => cases h

/-- Everything a commit up to its first notification can do (R88): pass no point and be whole, or stop right at the first
one, with the rest still to move. -/
theorem commitTo_cases (p : Prsc) (c : Nat) :
    (p.commitTo c = (p.commit c, none) ∧ notifyPoints p.b (p.b + c) = []) ∨
      ∃ n left, c = n + left ∧ 0 < n ∧ p.commitTo c = (p.commit n, some left) ∧
        notifyPoints p.b (p.b + c) = (p.b + n) :: notifyPoints (p.b + n) (p.b + c) := by
  induction c generalizing p with
  | zero => exact .inl ⟨rfl, by simp⟩
  | succ c ih =>
    have hs := notifyPoints_succ (show p.b < p.b + (c + 1) by omega)
    by_cases ha : atInterval (p.b + 1) = true
    · refine .inr ⟨1, c, by omega, by omega, ?_, ?_⟩
      · simp [Prsc.commitTo, Prsc.commit, ha]
      · simpa [ha] using hs
    · have hc : p.commitTo (c + 1) = p.commitByte.commitTo c := by simp [Prsc.commitTo, ha]
      have hb : p.commitByte.b + c = p.b + (c + 1) := by simp only [Prsc.commitByte_b]; omega
      simp only [ha, Bool.false_eq_true, if_false, List.nil_append] at hs
      obtain ⟨h1, h2⟩ | ⟨n, left, h1, h2, h3, h4⟩ := ih p.commitByte
      · rw [hb] at h2
        exact .inl ⟨by rw [hc, h1]; rfl, by rw [hs]; exact h2⟩
      · have hn : p.commitByte.b + n = p.b + (n + 1) := by simp only [Prsc.commitByte_b]; omega
        rw [hb, hn] at h4
        exact .inr ⟨n + 1, left, by omega, by omega, by rw [hc, h3]; rfl, by rw [hs]; exact h4⟩

/-- Everything that performing moves up to the first notification can do (R88): pass no point and be whole, with or without
an error, or stop right at the first point, with the rest still to do. -/
theorem performTo_cases (ms : List PrscMove) (p : Prsc) :
    (∃ q, p.performTo ms = .done q ∧ p.perform ms = (q, none) ∧ notifyPoints p.b q.b = []) ∨
      (∃ q e, p.performTo ms = .raised q e ∧ p.perform ms = (q, some e) ∧ notifyPoints p.b q.b = []) ∨
      ∃ q left, p.performTo ms = .notified q left ∧ PrscAt p ms q.b q left ∧ q.perform left = p.perform ms ∧
        p.b < q.b ∧
        notifyPoints p.b (p.perform ms).1.b = q.b :: notifyPoints q.b (p.perform ms).1.b := by
  induction ms generalizing p with
  | nil => exact .inl ⟨p, rfl, rfl, notifyPoints_self _⟩
  | cons m ms ih =>
    cases m with
    | lit =>
      obtain ⟨q, h1, h2, h3⟩ | ⟨q, e, h1, h2, h3⟩ | ⟨q, left, h1, ⟨bf, n₁, n₂, af, g1, g2, g3, -, g5⟩, h3, h4, h5⟩ :=
        ih p.emitNext <;> simp only [Prsc.emitNext_b] at *
      · exact .inl ⟨q, h1, h2, h3⟩
      · exact .inr (.inl ⟨q, e, h1, h2, h3⟩)
      · exact .inr (.inr ⟨q, left, h1, ⟨.lit :: bf, n₁, n₂, af, by rw [g1]; rfl, g2, g3, rfl, g5⟩, h3, h4, h5⟩)
    | emit c =>
      obtain ⟨q, h1, h2, h3⟩ | ⟨q, e, h1, h2, h3⟩ | ⟨q, left, h1, ⟨bf, n₁, n₂, af, g1, g2, g3, -, g5⟩, h3, h4, h5⟩ :=
        ih (p.emit c) <;> simp only [Prsc.emit_b] at *
      · exact .inl ⟨q, h1, h2, h3⟩
      · exact .inr (.inl ⟨q, e, h1, h2, h3⟩)
      · exact .inr (.inr ⟨q, left, h1, ⟨.emit c :: bf, n₁, n₂, af, by rw [g1]; rfl, g2, g3, rfl, g5⟩, h3, h4, h5⟩)
    | commit n =>
      have hmono := (perform_frame ms (p.commit n)).2.2.2.2.2
      simp only [Prsc.commit_b] at hmono
      obtain ⟨hc, hp⟩ | ⟨n₁, n₂, hn, hpos, hc, hp⟩ := commitTo_cases p n
      · have hto : p.performTo (.commit n :: ms) = (p.commit n).performTo ms := by simp [Prsc.performTo, hc]
        obtain ⟨q, h1, h2, h3⟩ | ⟨q, e, h1, h2, h3⟩ | ⟨q, left, h1, ⟨bf, n₁, n₂, af, g1, g2, g3, -, g5⟩, h3, h4, h5⟩ :=
          ih (p.commit n) <;> simp only [Prsc.commit_b] at *
        · rw [h2] at hmono
          exact .inl ⟨q, hto.trans h1, h2, by
            rw [notifyPoints_append (Nat.le_add_right p.b n) hmono, hp, h3]; rfl⟩
        · rw [h2] at hmono
          exact .inr (.inl ⟨q, e, hto.trans h1, h2, by
            rw [notifyPoints_append (Nat.le_add_right p.b n) hmono, hp, h3]; rfl⟩)
        · refine .inr (.inr ⟨q, left, hto.trans h1, ⟨.commit n :: bf, n₁, n₂, af, by rw [g1]; rfl, g2, g3, rfl, g5⟩, h3,
            by omega, ?_⟩)
          rw [perform_commit, notifyPoints_append (Nat.le_add_right p.b n) hmono, hp, List.nil_append]
          exact h5
      · subst hn
        have hrest : (p.commit n₁).perform (.commit n₂ :: ms) = p.perform (.commit (n₁ + n₂) :: ms) := by
          simp only [perform_commit, commit_add]
        refine .inr (.inr ⟨p.commit n₁, .commit n₂ :: ms, by simp [Prsc.performTo, hc],
          ⟨[], n₁, n₂, ms, rfl, hpos, rfl, rfl, rfl⟩, hrest, by simp only [Prsc.commit_b]; omega, ?_⟩)
        simp only [Prsc.commit_b, perform_commit] at *
        rw [notifyPoints_append (Nat.le_add_right p.b (n₁ + n₂)) hmono, hp, List.cons_append,
          ← notifyPoints_append (by omega) hmono]
    | fail e => exact .inr (.inl ⟨p.fail, e, rfl, rfl, by simp⟩)

/-- Everything that PRSC can do when it goes on with moves (R87, R88, R132): call its callback at the first point, or be
done. -/
theorem resumePrsc_cases (slot : Option Nat) (p : Prsc) (job : PrscJob) (ms : List PrscMove) (s : State) :
    (∃ q, resumePrsc slot p job ms s = { s with active := .prsc slot q job } ∧ p.perform ms = (q, none) ∧
        notifyPoints p.b q.b = []) ∨
      (∃ q e, resumePrsc slot p job ms s = State.raise { s with active := .prsc slot q job } e ∧
        p.perform ms = (q, some e) ∧ notifyPoints p.b q.b = []) ∨
      ∃ q left, resumePrsc slot p job ms s = s.callBack (.prsc slot q job left) (.prsc q.b) ∧
        PrscAt p ms q.b q left ∧ q.perform left = p.perform ms ∧ p.b < q.b ∧
        notifyPoints p.b (p.perform ms).1.b = q.b :: notifyPoints q.b (p.perform ms).1.b := by
  unfold resumePrsc
  obtain ⟨q, h1, h2⟩ | ⟨q, e, h1, h2⟩ | ⟨q, left, h1, h2⟩ := performTo_cases ms p
  · exact .inl ⟨q, by rw [h1], h2⟩
  · exact .inr (.inl ⟨q, e, by rw [h1], h2⟩)
  · exact .inr (.inr ⟨q, left, by rw [h1], h2⟩)

/-- The loops of ADD and CLOSE, whatever their condition, change no more than Advance does. -/
theorem advanceWhile_frame (go : Prsc → Bool) (n : Nat) (p : Prsc) :
    (advanceWhile go n p).1.data = p.data ∧ (advanceWhile go n p).1.level = p.level ∧
      (advanceWhile go n p).1.progress = p.progress ∧ (advanceWhile go n p).1.closed = p.closed ∧
      (advanceWhile go n p).1.result = p.result ∧ p.b ≤ (advanceWhile go n p).1.b := by
  induction n generalizing p with
  | zero => exact ⟨rfl, rfl, rfl, rfl, rfl, Nat.le_refl _⟩
  | succ n ih =>
    unfold advanceWhile
    split
    · obtain ⟨h1, h2, h3, h4, h5, h6⟩ := advance_frame p
      split
      · next q hq =>
        rw [hq] at h1 h2 h3 h4 h5 h6
        obtain ⟨g1, g2, g3, g4, g5, g6⟩ := ih q
        exact ⟨g1.trans h1, g2.trans h2, g3.trans h3, g4.trans h4, g5.trans h5, h6.trans g6⟩
      · next q e hq =>
        rw [hq] at h1 h2 h3 h4 h5 h6
        exact ⟨h1, h2, h3, h4, h5, h6⟩
    · exact ⟨rfl, rfl, rfl, rfl, rfl, Nat.le_refl _⟩

/-! ## BC0C -/

/-- Index steps move the position and change no output (R114). -/
theorem indexSteps_frame (n : Nat) (c : Bc0c) :
    (c.indexSteps n).d = c.d ∧ (c.indexSteps n).n = c.n ∧ (c.indexSteps n).i = c.i + n ∧
      (c.indexSteps n).out = c.out ∧ (c.indexSteps n).gctl = c.gctl ∧ (c.indexSteps n).gbits = c.gbits ∧
      (c.indexSteps n).progress = c.progress := by
  induction n generalizing c with
  | zero => exact ⟨rfl, rfl, rfl, rfl, rfl, rfl, rfl⟩
  | succ n ih =>
    obtain ⟨h1, h2, h3, h4, h5, h6, h7⟩ := ih c.indexStep
    refine ⟨h1, h2, ?_, h4, h5, h6, h7⟩
    simp only [Bc0c.indexSteps, h3, Bc0c.indexStep_i]
    omega

/-- Index steps in two parts (R114). -/
theorem indexSteps_add (n m : Nat) (c : Bc0c) : (c.indexSteps n).indexSteps m = c.indexSteps (n + m) := by
  induction n generalizing c with
  | zero => rw [Nat.zero_add]; rfl
  | succ n ih => rw [Nat.add_right_comm]; exact ih c.indexStep

/-- Everything that index steps up to the first notification can do (R114): pass no point and be whole, or stop right at
the first one, with the rest still to make. -/
theorem indexStepsTo_cases (n : Nat) (c : Bc0c) :
    (c.indexStepsTo n = (c.indexSteps n, none) ∧ notifyPoints c.i (c.i + n) = []) ∨
      ∃ k left, n = k + left ∧ 0 < k ∧ c.indexStepsTo n = (c.indexSteps k, some left) ∧
        notifyPoints c.i (c.i + n) = (c.i + k) :: notifyPoints (c.i + k) (c.i + n) := by
  induction n generalizing c with
  | zero => exact .inl ⟨rfl, by simp⟩
  | succ n ih =>
    have hs := notifyPoints_succ (show c.i < c.i + (n + 1) by omega)
    by_cases ha : atInterval (c.i + 1) = true
    · refine .inr ⟨1, n, by omega, by omega, ?_, ?_⟩
      · simp [Bc0c.indexStepsTo, Bc0c.indexSteps, ha]
      · simpa [ha] using hs
    · have hc : c.indexStepsTo (n + 1) = c.indexStep.indexStepsTo n := by simp [Bc0c.indexStepsTo, ha]
      have hb : c.indexStep.i + n = c.i + (n + 1) := by simp only [Bc0c.indexStep_i]; omega
      simp only [ha, Bool.false_eq_true, if_false, List.nil_append] at hs
      obtain ⟨h1, h2⟩ | ⟨k, left, h1, h2, h3, h4⟩ := ih c.indexStep
      · rw [hb] at h2
        exact .inl ⟨by rw [hc, h1]; rfl, by rw [hs]; exact h2⟩
      · have hk : c.indexStep.i + k = c.i + (k + 1) := by simp only [Bc0c.indexStep_i]; omega
        rw [hb, hk] at h4
        exact .inr ⟨k + 1, left, by omega, by omega, by rw [hc, h3]; rfl, by rw [hs]; exact h4⟩

/-- Everything that BC0C can do when it goes on with index steps (R114, R132): call its callback at the first point, or be
done. -/
theorem resumeBc0c_cases (c : Bc0c) (n : Nat) (s : State) :
    (resumeBc0c c n s = { s with active := .bc0c (c.indexSteps n) } ∧ notifyPoints c.i (c.i + n) = []) ∨
      ∃ k left, n = k + left ∧ 0 < k ∧
        resumeBc0c c n s = s.callBack (.bc0c (c.indexSteps k) left) (.bc0c (c.i + k)) ∧
        notifyPoints c.i (c.i + n) = (c.i + k) :: notifyPoints (c.i + k) (c.i + n) := by
  unfold resumeBc0c
  obtain ⟨h1, h2⟩ | ⟨k, left, h1, h2, h3, h4⟩ := indexStepsTo_cases n c
  · exact .inl ⟨by rw [h1], h2⟩
  · exact .inr ⟨k, left, h1, h2, by rw [h3]; simp only [(indexSteps_frame k c).2.2.1], h4⟩

/-- Everything a return from a callback can do (R132). -/
theorem returnCallback_cases (s : State) :
    (s.calls = [] ∧ returnCallback s = .refused .noCallback) ∨
      (∃ c left cs, s.calls = .bc0c c left :: cs ∧
        returnCallback s = .next (resumeBc0c c left { s with calls := cs })) ∨
      ∃ slot p job left cs, s.calls = .prsc slot p job left :: cs ∧
        returnCallback s = .next (resumePrsc slot p job left { s with calls := cs }) := by
  unfold returnCallback
  split
  · next h => exact .inl ⟨h, rfl⟩
  · next c left cs h => exact .inr (.inl ⟨c, left, cs, h, rfl⟩)
  · next slot p job left cs h => exact .inr (.inr ⟨slot, p, job, left, cs, h, rfl⟩)

/-- What one iteration emits before its index steps (R111): a BREF of a match of at least 3 bytes, or a BLIT. -/
theorem bc0cEmit_cases (c : Bc0c) :
    (c.d[c.i]? = none ∧ bc0cEmit c = none) ∨
      ∃ v, c.d[c.i]? = some v ∧
        ((∃ q len, bc0Search c.d c.i c.x = some (q, len) ∧ 3 ≤ len ∧ bc0cEmit c = some (c.emitRef q len, len)) ∨
          ((∀ q len, bc0Search c.d c.i c.x = some (q, len) → len < 3) ∧ bc0cEmit c = some (c.emitLit v, 1))) := by
  unfold bc0cEmit
  split
  · next h => exact .inl ⟨h, rfl⟩
  · next v hv =>
    refine .inr ⟨v, hv, ?_⟩
    split
    · next q len hs =>
      by_cases hl : 3 ≤ len
      · exact .inl ⟨q, len, hs, hl, by simp [Config.bc0Min, hl]⟩
      · exact .inr ⟨fun q' len' h => by rw [hs] at h; cases h; omega, by simp [Config.bc0Min, hl]⟩
    · next hs => exact .inr ⟨fun q len h => by rw [hs] at h; (cases h), rfl⟩

/-- One iteration of R111 keeps the input and the callback, and inside the input it moves the position. -/
theorem bc0cIter_frame (c : Bc0c) :
    (bc0cIter c).d = c.d ∧ (bc0cIter c).n = c.n ∧ (bc0cIter c).progress = c.progress ∧ c.i ≤ (bc0cIter c).i ∧
      (c.i < c.d.length → c.i < (bc0cIter c).i) := by
  unfold bc0cIter
  obtain ⟨h, he⟩ | ⟨v, -, ⟨q, len, -, hl, he⟩ | ⟨-, he⟩⟩ := bc0cEmit_cases c <;> rw [he]
  · refine ⟨rfl, rfl, rfl, Nat.le_refl _, fun hl => ?_⟩
    rw [List.getElem?_eq_getElem hl] at h
    cases h
  · obtain ⟨h1, h2, h3, -, -, -, h7⟩ := indexSteps_frame len (c.emitRef q len)
    simp only [h1, h2, h3, h7, Bc0c.emitRef_d, Bc0c.emitRef_n, Bc0c.emitRef_i, Bc0c.emitRef_progress, true_and]
    omega
  · simp [Bc0c.indexSteps]

end Sys2Proof.Machine
end

