-- ==== Sys2Proof/Tests/Slice0.lean ====
section
/-!
SUPPORT. The model's own tests: ill-formed terms that WellFormed refuses, opcode words written out from the encoding tables
of spec/30_encoding.md, single steps whose results are taken from spec/95_test_vectors.md, and for every obligation with
hypotheses a concrete state and operands that meet them.
-/

namespace Sys2Proof.Tests

open Sys2Proof Sys2Proof.Machine

/-! ## WellFormed (R64, R9) -/

theorem test_wf_scopy_offset : wellFormed (.scopy (-257) 2) = false := by decide
theorem test_wf_scopy_count : wellFormed (.scopy (-1) 6) = false := by decide
theorem test_wf_lcopy_offset : wellFormed (.lcopy (-8192) 3) = false := by decide
theorem test_wf_lcopy_count : wellFormed (.lcopy (-1) 2) = false := by decide
theorem test_wf_ecopy_offset : wellFormed (.ecopy 0 1) = false := by decide
theorem test_wf_ecopy_count : wellFormed (.ecopy (-1) 257) = false := by decide
theorem test_wf_bref_count : wellFormed (.bref 0#12 2) = false := by decide
theorem test_wf_prsCompress_level : wellFormed (.prsCompress [] (-1) .absent) = false := by decide
theorem test_wf_prscNew_level : wellFormed (.prscNew (-1) .absent) = false := by decide

/-! ## Decoding: words written out from the encodings (R53, R59; the fields' values from 95_test_vectors.md 2.1) -/

/-- What the PRS decoder reads from a stream that starts with `bytes`. -/
def prsRead (bytes : Bytes) : Option Instr :=
  match decodePrs (Reader.start bytes) with
  | .ok (i, _) => some i
  | .error _ => none

/-- What the BC0 decoder reads from a stream that starts with `bytes`. -/
def bc0Read (bytes : Bytes) : Option Instr :=
  match decodeBc0 (Reader.start bytes) with
  | .op i _ => some i
  | .ended _ => none

/-- `1|VVVVVVVV`: control bit 1 in bit 0 of the control byte, then 41. -/
theorem test_decode_lit : prsRead [0b00000001#8, 0b01000001#8] = some (.lit 0x41#8) := by decide

/-- `00hl|OOOOOOOO` with h l = 1 0 (V-F3): bits 0, 0, 1, 0 from bit 0 up, then FB. -/
theorem test_decode_scopy : prsRead [0b00000100#8, 0b11111011#8] = some (.scopy (-5) 4) := by decide

/-- V-F2: h l = 1 1, offset byte 00. -/
theorem test_decode_scopy_far : prsRead [0b00001100#8, 0b00000000#8] = some (.scopy (-256) 5) := by decide

/-- `01|FFFFFCCC GGGGGGGG` (V-F5): F = 0xFFF9. -/
theorem test_decode_lcopy : prsRead [0b00000010#8, 0b11111001#8, 0b11111111#8] = some (.lcopy (-1) 3) := by decide

/-- V-F7: F = 0x0009. -/
theorem test_decode_lcopy_far : prsRead [0b00000010#8, 0b00001001#8, 0b00000000#8] = some (.lcopy (-8191) 3) := by decide

/-- `01|FFFFF000 GGGGGGGG NNNNNNNN` (V-F10). -/
theorem test_decode_ecopy :
    prsRead [0b00000010#8, 0b11111000#8, 0b11111111#8, 0b11111111#8] = some (.ecopy (-1) 256) := by decide

/-- V-F14: `08 00` is no STOP. -/
theorem test_decode_ecopy_not_stop :
    prsRead [0b00000010#8, 0b00001000#8, 0b00000000#8, 0b00001001#8] = some (.ecopy (-8191) 10) := by decide

/-- `01|00000CCC 00000000` (V-F13): F = 7, and no length byte. -/
theorem test_decode_stop : prsRead [0b00000010#8, 0b00000111#8, 0b00000000#8] = some (.stop 7#3) := by decide

/-- `1|VVVVVVVV` of BC0. -/
theorem test_decode_blit : bc0Read [0b00000001#8, 0b01000001#8] = some (.blit 0x41#8) := by decide

/-- `0|MMMMMMMM HHHHLLLL` (V-F15). -/
theorem test_decode_bref : bc0Read [0b00000000#8, 0b11101110#8, 0b11110011#8] = some (.bref 0xFEE#12 6) := by decide

/-- V-F18: the high nibble of the second byte is the top of the memo offset, the low one the count. -/
theorem test_decode_bref_zero : bc0Read [0b00000000#8, 0b00000000#8, 0b00001111#8] = some (.bref 0x000#12 18) := by
  decide

/-- The encoder's examples of 95_test_vectors.md 2.1. -/
theorem test_encode_scopy : encode (.scopy (-1) 5) = some ⟨[false, false, true, true], [0xFF#8]⟩ := by decide
theorem test_encode_lcopy : encode (.lcopy (-1) 7) = some ⟨[false, true], [0xFD#8, 0xFF#8]⟩ := by decide
theorem test_encode_ecopy : encode (.ecopy (-8191) 10) = some ⟨[false, true], [0x08#8, 0x00#8, 0x09#8]⟩ := by decide
theorem test_encode_bref : encode (.bref (memoOf 4096) 6) = some ⟨[false], [0xEE#8, 0xF3#8]⟩ := by decide

/-! ## One step each (95_test_vectors.md) -/

/-- What a thread has been returned after an outcome; none after a stop. -/
def responsesOf : Out → Option (List Response)
  | .next s => some s.responses
  | .fault _ => none
  | .refused _ => none

/-- The response that a command gives when the machine at reset executes it. -/
def answers (i : Instr) (r : Response) : Bool := decide (responsesOf (exec i State.reset) = some [r])

/-- The sink after the machine at reset executes `i`. -/
def sinkAfter (i : Instr) : List (Nat × SinkItem) :=
  match exec i State.reset with
  | .next s => s.sink
  | .fault _ => []
  | .refused _ => []

/-- A decoder with `out` already decoded, in BYTES mode under bound `maxOut`. -/
def prsdWith (out : Bytes) (maxOut : Nat) : Prsd :=
  { Prsd.start [] .bytes maxOut 0 with out := out, outLen := out.length }

def prsState (p : Prsd) : State := { State.reset with active := .prsd p }

/-- `OUT` after an opcode executes on a decoder with `out` decoded. -/
def prsOut (i : Instr) (out : Bytes) : Option Bytes :=
  match exec i (prsState (prsdWith out 0)) with
  | .next { active := .prsd p, .. } => some p.out
  | _ => none

/-- A BC0 decoder after the bytes `bs` have been put, in BYTES mode. -/
def bc0dWith (bs : Bytes) : Bc0d := bs.foldl Bc0d.put (Bc0d.start [] .bytes 0)

def bc0State (d : Bc0d) : State := { State.reset with active := .bc0d d }

/-- `OUT`, `cur` and one memo slot after an opcode executes on such a decoder. -/
def bc0Out (i : Instr) (bs : Bytes) (a : BitVec 12) : Option (Bytes × BitVec 12 × Byte) :=
  match exec i (bc0State (bc0dWith bs)) with
  | .next { active := .bc0d d, .. } => some (d.out, d.cur, memoRead d.memo a)
  | _ => none

/-- P1: LIT. -/
theorem test_lit : prsOut (.lit 0x42#8) [0x41#8] = some [0x41#8, 0x42#8] := by decide

/-- V-PD16: the second LIT would reach 2 > 1. -/
theorem test_lit_limit :
    responsesOf (exec (.lit 0x42#8) (prsState (prsdWith [0x41#8] 1))) = some [.error (.resourceLimit 2)] := by decide

/-- P2: SCOPY -5, 4 after five literals. -/
theorem test_scopy :
    prsOut (.scopy (-5) 4) [0x61#8, 0x62#8, 0x63#8, 0x64#8, 0x58#8] =
      some [0x61#8, 0x62#8, 0x63#8, 0x64#8, 0x58#8, 0x61#8, 0x62#8, 0x63#8, 0x64#8] := by decide

/-- P1: LCOPY -2, 8 overlaps its own output. -/
theorem test_lcopy :
    prsOut (.lcopy (-2) 8) [0x41#8, 0x42#8] =
      some [0x41#8, 0x42#8, 0x41#8, 0x42#8, 0x41#8, 0x42#8, 0x41#8, 0x42#8, 0x41#8, 0x42#8] := by decide

/-- V-PD19a: a non-canonical ECOPY count. -/
theorem test_ecopy : prsOut (.ecopy (-1) 1) [0x41#8] = some [0x41#8, 0x41#8] := by decide

/-- P5: ECOPY -2, 3 at out_len 1. -/
theorem test_ecopy_backref :
    responsesOf (exec (.ecopy (-2) 3) (prsState (prsdWith [0x41#8] 0))) = some [.error (.malformedBackref 1 (-2))] := by
  decide

/-- V-PD18: STOP 5 stops, and the next step returns what was decoded. -/
theorem test_stop :
    (match exec (.stop 5#3) (prsState (prsdWith [0x41#8] 0)) with
      | .next s => responsesOf (step s)
      | _ => none) = some [.ok (.bytes [0x41#8])] := by decide

/-- V-BD2. -/
theorem test_blit : bc0Out (.blit 0x41#8) [] 0xFEE#12 = some ([0x41#8], 0xFEF#12, 0x41#8) := by decide

/-- V-BD5: the copy reads a slot it has written. -/
theorem test_bref_overlap :
    bc0Out (.bref 0xFEE#12 5) [0x41#8] 0xFF3#12 = some (List.replicate 6 0x41#8, 0xFF4#12, 0x41#8) := by decide

/-- V-BD6: the memo offset wraps, and unwritten slots read 00. -/
theorem test_bref_wrap : bc0Out (.bref 0xFFF#12 8) [] 0xFF5#12 = some (List.replicate 8 0x00#8, 0xFF6#12, 0x00#8) := by
  decide

/-- V-PC4. -/
theorem test_prsCompress :
    answers (.prsCompress (List.replicate 8 0x41#8) 1 .absent)
      (.ok (.bytes [0x15#8, 0x41#8, 0xFD#8, 0xFF#8, 0x00#8, 0x00#8])) = true := by decide +kernel

/-- V-PC14: a literal prefix of length 1 at level 2. -/
theorem test_prsCompress_prefix_literal :
    answers (.prsCompress [0x61#8, 0x62#8, 0x61#8, 0x61#8, 0x61#8, 0x61#8, 0x62#8, 0x61#8, 0x61#8, 0x62#8] 2 .absent)
      (.ok (.bytes [0xC7#8, 0x61#8, 0x62#8, 0x61#8, 0xFF#8, 0x62#8, 0x28#8, 0xFD#8, 0x00#8, 0x00#8])) = true := by
  decide +kernel

/-- The machine with one PRSC instance of level 1, as NEW leaves it. -/
def prscState (p : Prsc) : State := { State.reset with prscs := [.live p] }

/-- P7, NEW(1): the reference is the first slot. -/
theorem test_prscNew : answers (.prscNew 1 .absent) (.ok (.handle 0)) = true := by decide

/-- P7, ADD of four bytes: `data` has 4 bytes, `b` is 0, `out` is 00. -/
theorem test_prscAdd :
    (match exec (.prscAdd 0 [0x41#8, 0x42#8, 0x41#8, 0x42#8]) (prscState (Prsc.start 1 .absent)) with
      | .next s => some s.prscs
      | _ => none) =
      some [.live { Prsc.start 1 .absent with data := [0x41#8, 0x42#8, 0x41#8, 0x42#8] }] := by decide +kernel

/-- P7, ADD after CLOSE. -/
theorem test_prscAdd_closed :
    responsesOf (exec (.prscAdd 0 [0x41#8]) (prscState { Prsc.start 1 .absent with closed := true })) =
      some [.error (.usage "add after close")] := by decide

/-- P7, CLOSE of ten bytes. -/
theorem test_prscClose :
    responsesOf (exec (.prscClose 0) (prscState { Prsc.start 1 .absent with
      data := [0x41#8, 0x42#8, 0x41#8, 0x42#8, 0x41#8, 0x42#8, 0x41#8, 0x42#8, 0x41#8, 0x42#8] })) =
      some [.ok (.bytes [0x2B#8, 0x41#8, 0x42#8, 0xF6#8, 0xFF#8, 0x00#8, 0x00#8])] := by decide +kernel

/-- V-BC3. -/
theorem test_bc0Compress :
    answers (.bc0Compress [0x41#8, 0x42#8, 0x41#8, 0x42#8, 0x41#8, 0x42#8, 0x41#8, 0x42#8] .absent)
      (.ok (.bytes [0x03#8, 0x41#8, 0x42#8, 0xEE#8, 0xF3#8])) = true := by decide +kernel

/-- V-BC9: the neighbour tie keeps the predecessor. -/
theorem test_bc0Compress_tie :
    answers (.bc0Compress [0x61#8, 0x62#8, 0x63#8, 0x58#8, 0x61#8, 0x62#8, 0x63#8, 0x5A#8, 0x61#8, 0x62#8, 0x63#8, 0x59#8]
        .absent)
      (.ok (.bytes [0xAF#8, 0x61#8, 0x62#8, 0x63#8, 0x58#8, 0xEE#8, 0xF0#8, 0x5A#8, 0xEE#8, 0xF0#8, 0x59#8])) = true := by
  decide +kernel

/-- P2's stream: control bits across two control bytes. -/
theorem test_prsDecompress :
    answers (.prsDecompress [0x9F#8, 0x61#8, 0x62#8, 0x63#8, 0x64#8, 0x58#8, 0x04#8, 0xFB#8, 0x00#8, 0x00#8] 0)
      (.ok (.bytes [0x61#8, 0x62#8, 0x63#8, 0x64#8, 0x58#8, 0x61#8, 0x62#8, 0x63#8, 0x64#8])) = true := by decide +kernel

/-- V-PD12: truncation comes before the backreference check. -/
theorem test_prsDecompress_truncated :
    answers (.prsDecompress [0x05#8, 0x41#8, 0xF0#8, 0xFF#8] 0) (.error (.malformedTruncated 4)) = true := by
  decide +kernel

/-- V-PS1. -/
theorem test_prsDecompressSize :
    answers (.prsDecompressSize [0x15#8, 0x41#8, 0xFD#8, 0xFF#8, 0x00#8, 0x00#8] 0) (.ok (.int 8)) = true := by
  decide +kernel

/-- V-PS6. -/
theorem test_prsDecompressSize_limit :
    answers (.prsDecompressSize [0x15#8, 0x41#8, 0xFD#8, 0xFF#8, 0x00#8, 0x00#8] 5) (.error (.resourceLimit 8)) = true := by
  decide +kernel

/-- V-PT1. -/
theorem test_prsDisassemble :
    sinkAfter (.prsDisassemble 7 [0x15#8, 0x41#8, 0xFD#8, 0xFF#8, 0x00#8, 0x00#8]) =
      [(7, .prs ⟨0, 0, 0, .lit 0x41#8⟩), (7, .prs ⟨2, 1, 1, .lcopy (-1) 7⟩), (7, .prs ⟨4, 3, 8, .stop 0#3⟩),
        (7, .finalCount 8)] := by decide +kernel

/-- V-PT5: the records made before the error stay in the sink, without a final count. -/
theorem test_prsDisassemble_error :
    sinkAfter (.prsDisassemble 7 [0x05#8, 0x41#8, 0xF0#8, 0xFF#8, 0x02#8]) =
      [(7, .prs ⟨0, 0, 0, .lit 0x41#8⟩), (7, .prs ⟨2, 1, 1, .ecopy (-2) 3⟩)] := by decide +kernel

/-- V-BD12, P6: the cursor wraps. -/
theorem test_bc0Decompress :
    answers (.bc0Decompress [0x19#8, 0x41#8, 0xEE#8, 0xFF#8, 0x00#8, 0x0F#8, 0x41#8, 0x41#8])
      (.ok (.bytes (List.replicate 39 0x41#8))) = true := by decide +kernel

/-- V-BD4: a reference cut after one byte ends the decode without an error. -/
theorem test_bc0Decompress_cut : answers (.bc0Decompress [0x02#8, 0x41#8]) (.ok (.bytes [])) = true := by
  decide +kernel

/-- V-BT1. -/
theorem test_bc0Disassemble :
    sinkAfter (.bc0Disassemble 7 [0x03#8, 0x41#8, 0x42#8, 0xEE#8, 0xF3#8]) =
      [(7, .bc0 ⟨0, 0, .blit 0x41#8⟩), (7, .bc0 ⟨2, 1, .blit 0x42#8⟩), (7, .bc0 ⟨3, 2, .bref 0xFEE#12 6⟩),
        (7, .finalCount 8)] := by decide +kernel

/-- V-BT3: a discarded partial opcode leaves no record. -/
theorem test_bc0Disassemble_cut : sinkAfter (.bc0Disassemble 7 [0x02#8, 0x41#8]) = [(7, .finalCount 0)] := by
  decide +kernel

/-- A table word runs as the first instruction after reset: LIT 0x41. -/
theorem test_withFetchWord :
    (match step (State.reset.withFetchWord 16 0x141) with
      | .next { active := .prsd p, .. } => some p.out
      | _ => none) = some [0x41#8] := by decide

/-! ## Witnesses: for every obligation with hypotheses, values that meet all of them together -/

/-- A running PRS decoder: one byte decoded, in the given mode and under bound `maxOut`. -/
def midPrsd (mode : Mode) (maxOut : Nat) : Prsd := { prsdWith [0x41#8] maxOut with mode := mode }

theorem witness_PrsDecodeOfEncode :
    ∀ i ∈ [Instr.lit 0xFF#8, .scopy (-256) 5, .scopy (-1) 2, .lcopy (-8191) 9, .lcopy (-1) 3, .ecopy (-8191) 256,
        .ecopy (-1) 1, .stop 7#3, .stop 0#3],
      isPrsOp i = true ∧ wellFormed i = true ∧ (encode i).isSome = true := by decide

theorem witness_Bc0DecodeOfEncode :
    ∀ i ∈ [Instr.blit 0xFF#8, .bref 0xFFF#12 18, .bref 0x000#12 3],
      isBc0Op i = true ∧ wellFormed i = true ∧ (encode i).isSome = true := by decide

theorem witness_DecodersYieldWellFormedOpcodes :
    (∃ r', decodePrs (Reader.start [0x02#8, 0x08#8, 0x00#8, 0xFF#8]) = .ok (.ecopy (-8191) 256, r')) ∧
      (∃ r', decodeBc0 (Reader.start [0x00#8, 0x00#8, 0x0F#8]) = .op (.bref 0#12 18) r') := ⟨⟨_, rfl⟩, ⟨_, rfl⟩⟩

/-- V-RD3: a short copy with three bits left fetches a control byte; with eight left it does not. -/
theorem witness_PrsOpcodeAdvancesReader :
    (∃ r', (3 ≤ 8) ∧ decodePrs { input := [0x04#8, 0xFB#8], pos := 0, ctl := 0x04#8, left := 3, bits := 5 } =
        .ok (.scopy (-5) 4, r')) ∧
      (∃ r', (8 ≤ 8) ∧ decodePrs { input := [0xFB#8], pos := 0, ctl := 0x04#8, left := 8, bits := 0 } =
        .ok (.scopy (-5) 4, r')) := ⟨⟨_, by decide, rfl⟩, ⟨_, by decide, rfl⟩⟩

/-- With the two control bits in the last two places of a control byte, at the boundary of both clauses: b0 = 7. -/
theorem witness_StopIsToldByTheOffsetFieldAlone :
    ∃ r₁ r₂, ({ Reader.start [0x07#8, 0x00#8] with ctl := 2#8, left := 2 } : Reader).getBit = .ok (false, r₁) ∧
      r₁.getBit = .ok (true, r₂) ∧ r₂.input[r₂.pos]? = some 0x07#8 ∧ r₂.input[r₂.pos + 1]? = some 0x00#8 ∧
      ∃ f r', decodePrs { Reader.start [0x07#8, 0x00#8] with ctl := 2#8, left := 2 } = .ok (.stop f, r') :=
  ⟨_, _, rfl, rfl, rfl, rfl, _, _, rfl⟩

/-- And b0 = 8, which is no STOP. -/
theorem witness_StopIsToldByTheOffsetFieldAlone_not :
    ∃ r₁ r₂, (Reader.start [0x02#8, 0x08#8, 0x00#8, 0x00#8]).getBit = .ok (false, r₁) ∧
      r₁.getBit = .ok (true, r₂) ∧ r₂.input[r₂.pos]? = some 0x08#8 ∧ r₂.input[r₂.pos + 1]? = some 0x00#8 :=
  ⟨_, _, rfl, rfl, rfl, rfl⟩

theorem witness_ControlBitsAreLeastSignificantFirst_bits : (List.replicate 8 true).length ≤ 8 ∧ 7 < 8 := by decide

theorem witness_ControlBitsAreLeastSignificantFirst_reader :
    0 < ({ Reader.start [] with ctl := 1#8, left := 1 } : Reader).left ∧
      (Reader.start [0x80#8]).left = 0 ∧ (Reader.start [0x80#8]).input[(Reader.start [0x80#8]).pos]? = some 0x80#8 := by
  decide

theorem witness_ControlBitsAreLeastSignificantFirst_writers :
    (let w : PbsWriter := { PbsWriter.start with pend := 0x7F#8, npend := 7 }; w.npend < 8 ∧ w.pend.toNat < 2 ^ w.npend) ∧
      (let c : Bc0c := { Bc0c.start [] .absent with out := [0x7F#8], gctl := some 0, gbits := 7 };
        c.gbits < 8 ∧ c.gctl = some 0 ∧ c.out[0]? = some 0x7F#8) := by decide

theorem witness_ControlBitsAreLeastSignificantFirst_full :
    (let w : PbsWriter := { PbsWriter.start with pend := 0xFF#8, npend := 8 }; w.npend = 8 ∧ w.ctlOff < w.out.length) ∧
      (Bc0c.start [] .absent).gbits = 8 ∧
      (let c : Bc0c := { Bc0c.start [] .absent with out := [0xFF#8], gctl := some 0 }; c.gbits = 8 ∧ 0 < c.out.length) := by
  decide

theorem witness_PseudoCopyIsTheSelectedOpcode :
    ∀ x ∈ [(1, 2), (256, 5), (257, 2), (8191, 256)], 1 ≤ x.1 ∧ x.1 ≤ 8191 ∧ 2 ≤ x.2 ∧ x.2 ≤ 256 := by decide

/-- At the bound: one byte decoded, one more allowed. -/
theorem witness_LitAppendsOneByte :
    RunningPrsd (prsState (midPrsd .bytes 2)) (midPrsd .bytes 2) ∧ WithinBound (midPrsd .bytes 2) 2 ∧
      RunningPrsd (prsState (midPrsd .trace 0)) (midPrsd .trace 0) ∧ WithinBound (midPrsd .trace 0) 2 :=
  ⟨⟨rfl, rfl⟩, .inr (by decide), ⟨rfl, rfl⟩, .inl rfl⟩

theorem witness_PrsCopyRepeatsEarlierOutput :
    RunningPrsd (prsState (midPrsd .bytes 257)) (midPrsd .bytes 257) ∧ IsPrsCopy (.ecopy (-1) 256) (-1) 256 ∧
      ((midPrsd .bytes 257).mode = .bytes → (midPrsd .bytes 257).out.length = (midPrsd .bytes 257).outLen) ∧
      ((-1 : Int) < 0) ∧ 0 ≤ ((midPrsd .bytes 257).outLen : Int) + -1 ∧
      WithinBound (midPrsd .bytes 257) ((midPrsd .bytes 257).outLen + 256) :=
  ⟨⟨rfl, rfl⟩, .inr (.inr rfl), by decide, by decide, by decide, .inr (by decide)⟩

/-- One byte before the output (P5), and one at its end. -/
theorem witness_PrsCopyOutsideOutputRaisesBackref :
    RunningPrsd (prsState (midPrsd .bytes 2)) (midPrsd .bytes 2) ∧ IsPrsCopy (.lcopy (-2) 3) (-2) 3 ∧
      ((midPrsd .bytes 2).outLen : Int) + -2 < 0 ∧ IsPrsCopy (.lcopy 0 3) 0 3 ∧
      ((midPrsd .bytes 2).outLen : Int) ≤ ((midPrsd .bytes 2).outLen : Int) + 0 :=
  ⟨⟨rfl, rfl⟩, .inr (.inl rfl), by decide, .inr (.inl rfl), by decide⟩

theorem witness_OutputBoundRaisesResourceLimit_lit :
    RunningPrsd (prsState (midPrsd .size 1)) (midPrsd .size 1) ∧
      (∃ v, Instr.lit 0#8 = .lit v ∧ 2 = (midPrsd .size 1).outLen + 1) ∧ (midPrsd .size 1).maxOut ≠ 0 ∧
      (midPrsd .size 1).maxOut < 2 := ⟨⟨rfl, rfl⟩, ⟨_, rfl, rfl⟩, by decide, by decide⟩

theorem witness_OutputBoundRaisesResourceLimit_copy :
    RunningPrsd (prsState (midPrsd .bytes 2)) (midPrsd .bytes 2) ∧
      (∃ off cnt, IsPrsCopy (.scopy (-1) 2) off cnt ∧ off < 0 ∧ 0 ≤ ((midPrsd .bytes 2).outLen : Int) + off ∧
        3 = (midPrsd .bytes 2).outLen + cnt) ∧ (midPrsd .bytes 2).maxOut ≠ 0 ∧ (midPrsd .bytes 2).maxOut < 3 :=
  ⟨⟨rfl, rfl⟩, ⟨-1, 2, .inl rfl, by decide, by decide, rfl⟩, by decide, by decide⟩

theorem witness_StopEndsTheDecode :
    RunningPrsd (prsState (midPrsd .trace 0)) (midPrsd .trace 0) ∧ (prsState (midPrsd .trace 0)).schedule = [] :=
  ⟨⟨rfl, rfl⟩, rfl⟩

theorem witness_CleanEndBetweenOpcodes :
    RunningPrsd (prsState (midPrsd .bytes 0)) (midPrsd .bytes 0) ∧ (prsState (midPrsd .bytes 0)).schedule = [] ∧
      (midPrsd .bytes 0).rd.pos = (midPrsd .bytes 0).rd.input.length := ⟨⟨rfl, rfl⟩, rfl, rfl⟩

/-- V-PD1: a literal control bit with no byte after it. -/
theorem witness_TruncationInsideAnOpcode :
    ∃ e, RunningPrsd (prsState (Prsd.start [0x01#8] .bytes 0 0)) (Prsd.start [0x01#8] .bytes 0 0) ∧
      (prsState (Prsd.start [0x01#8] .bytes 0 0)).schedule = [] ∧
      (Prsd.start [0x01#8] .bytes 0 0).rd.pos < (Prsd.start [0x01#8] .bytes 0 0).rd.input.length ∧
      decodePrs (Prsd.start [0x01#8] .bytes 0 0).rd = .error e := ⟨_, ⟨rfl, rfl⟩, rfl, by decide, rfl⟩

theorem witness_StepRunsTheDecodedInstruction_prs :
    ∃ i r, (prsState (Prsd.start [0x01#8, 0x41#8] .bytes 0 0)).reschedule = prsState (Prsd.start [0x01#8, 0x41#8] .bytes 0 0) ∧
      RunningPrsd (prsState (Prsd.start [0x01#8, 0x41#8] .bytes 0 0)) (Prsd.start [0x01#8, 0x41#8] .bytes 0 0) ∧
      (Prsd.start [0x01#8, 0x41#8] .bytes 0 0).rd.pos ≠ (Prsd.start [0x01#8, 0x41#8] .bytes 0 0).rd.input.length ∧
      decodePrs (Prsd.start [0x01#8, 0x41#8] .bytes 0 0).rd = .ok (i, r) := ⟨_, _, rfl, ⟨rfl, rfl⟩, by decide, rfl⟩

theorem witness_StepRunsTheDecodedInstruction_bc0 :
    ∃ i r, (bc0State (Bc0d.start [0x01#8, 0x41#8] .bytes 0)).reschedule = bc0State (Bc0d.start [0x01#8, 0x41#8] .bytes 0) ∧
      RunningBc0d (bc0State (Bc0d.start [0x01#8, 0x41#8] .bytes 0)) (Bc0d.start [0x01#8, 0x41#8] .bytes 0) ∧
      decodeBc0 (Bc0d.start [0x01#8, 0x41#8] .bytes 0).rd = .op i r := ⟨_, _, rfl, ⟨rfl, rfl⟩, rfl⟩

/-- The machine with one host action to take. -/
def hostState (a : HostAction) : State := { State.reset with host := [a] }

theorem witness_StepRunsTheDecodedInstruction_host :
    (hostState (.issue (.bc0Decompress []))).reschedule = hostState (.issue (.bc0Decompress [])) ∧
      (hostState (.issue (.bc0Decompress []))).active = .idle ∧
      (hostState (.issue (.bc0Decompress []))).host = .issue (.bc0Decompress []) :: [] := ⟨rfl, rfl, rfl⟩

theorem witness_BlitMirrorsIntoTheMemo :
    RunningBc0d (bc0State (bc0dWith [0x41#8])) (bc0dWith [0x41#8]) := ⟨rfl, rfl⟩

theorem witness_BrefCopiesThroughTheMemo :
    RunningBc0d (bc0State (bc0dWith [0x41#8])) (bc0dWith [0x41#8]) ∧ Memory.wf (bc0dWith [0x41#8]).memo = true ∧
      4096 ≤ 4096 ∧ (bc0dWith [0x41#8]).mode ≠ .trace ∧
      RunningBc0d (bc0State (Bc0d.start [] .trace 0)) (Bc0d.start [] .trace 0) ∧
      Memory.wf (Bc0d.start [] .trace 0).memo = true := ⟨⟨rfl, rfl⟩, by decide, by decide, by decide, ⟨rfl, rfl⟩, rfl⟩

/-- V-BD4. -/
theorem witness_Bc0EndDiscardsThePartialOpcode :
    ∃ r, RunningBc0d (bc0State (Bc0d.start [0x02#8, 0x41#8] .bytes 0)) (Bc0d.start [0x02#8, 0x41#8] .bytes 0) ∧
      (bc0State (Bc0d.start [0x02#8, 0x41#8] .bytes 0)).schedule = [] ∧
      decodeBc0 (Bc0d.start [0x02#8, 0x41#8] .bytes 0).rd = .ended r := ⟨_, ⟨rfl, rfl⟩, rfl, rfl⟩

/-! The statements about a command on an idle thread: the machine at reset is one, for every operand. -/

theorem witness_PrsDecompressAnswers : State.reset.active = .idle := rfl
theorem witness_SizeModeAgreesWithBytesMode : State.reset.active = .idle := rfl
theorem witness_PrsDisassemblerReportsTheDecode : State.reset.active = .idle := rfl
theorem witness_Bc0DecompressNeverFails : State.reset.active = .idle := rfl
theorem witness_Bc0DisassemblerReportsTheDecode : State.reset.active = .idle := rfl
theorem witness_Bc0TruncationGivesAPrefix : State.reset.active = .idle := rfl
theorem witness_PrsRoundTrip : State.reset.active = .idle := rfl
theorem witness_Bc0RoundTrip : State.reset.active = .idle := rfl
theorem witness_ZerosCompressTo56Bytes : State.reset.active = .idle := rfl

/-- V-PD17. -/
theorem witness_BytesAfterStopAreIgnored :
    ∃ p, State.reset.active = .idle ∧ prsDecompress [0x02#8, 0x00#8, 0x00#8] 0 = .ok p ∧ p.fin = .stop :=
  ⟨_, rfl, rfl, rfl⟩

theorem witness_PrsCompressCompletes :
    State.reset.active = .idle ∧ callbackPassive .absent = true ∧ callbackPassive .returning = true := by decide

theorem witness_Bc0CompressCompletes :
    State.reset.active = .idle ∧ ([] : Bytes) = [] ∧ callbackPassive .absent = true ∧ callbackPassive .returning = true := by
  decide

/-- A new instance is in order. -/
theorem start_inv (level : Nat) (pr : Progress) : Prsc.Inv (Prsc.start level pr) :=
  ⟨Nat.le_refl 0, rfl, fun _ => ⟨Nat.zero_lt_succ 7, Nat.zero_lt_one, Nat.zero_lt_one, fun _ => rfl⟩, (fun h => nomatch h)⟩

theorem witness_CallbackThatNeverReturnsStalls :
    State.reset.active = .idle ∧ 0 < 1 ∧ 4096 * 1 ≤ (List.replicate 4096 (0#8 : Byte)).length :=
  ⟨rfl, by decide, by rw [List.length_replicate]⟩

/-- CLOSE at its boundary: the data ends at 4096. -/
theorem witness_CallbackThatNeverReturnsStalls_close :
    ∃ p, (prscState p).active = .idle ∧ 0 < 1 ∧ (prscState p).prscs[0]? = some (.live p) ∧ p.closed = false ∧
      Prsc.Inv p ∧ p.b < 4096 * 1 ∧ 4096 * 1 ≤ p.data.length ∧ p.progress = .hangsAt (4096 * 1) :=
  ⟨(Prsc.start 1 (.hangsAt 4096)).append (List.replicate 4096 0#8), rfl, by decide, rfl, rfl,
    ⟨Nat.zero_le _, rfl, (start_inv 1 (.hangsAt 4096)).open_writer, (fun h => nomatch h)⟩, by decide,
    by simp only [Prsc.append, Prsc.start, List.nil_append, List.length_replicate]; omega, rfl⟩

/-- ADD at its boundary: 257 bytes after 4096, at level 1. -/
theorem witness_CallbackThatNeverReturnsStalls_add :
    ∃ p, (prscState p).active = .idle ∧ 0 < 1 ∧ (prscState p).prscs[0]? = some (.live p) ∧ p.closed = false ∧
      Prsc.Inv p ∧ p.b < 4096 * 1 ∧
      4096 * 1 + 256 + p.level ≤ (p.data ++ List.replicate 4353 (0#8 : Byte)).length ∧
      p.progress = .unwindsAt (4096 * 1) :=
  ⟨Prsc.start 1 (.unwindsAt 4096), rfl, by decide, rfl, rfl, start_inv _ _, by decide,
    by simp only [Prsc.start, List.nil_append, List.length_replicate]; omega, rfl⟩

theorem witness_ActingCallbackRunsInsideItsCommand_issue :
    State.reset.active = .idle ∧
      (prscState (Prsc.start 1 .acting)).active = .idle ∧
      (prscState (Prsc.start 1 .acting)).prscs[0]? = some (.live (Prsc.start 1 .acting)) ∧
      (Prsc.start 1 .acting).progress = .acting ∧ (Prsc.start 1 .acting).closed = false ∧
      (Prsc.start 1 .acting).failed = false := ⟨rfl, rfl, rfl, rfl, rfl, rfl⟩

/-- A PRSC instance with an acting callback, at level 0 (so every byte becomes a literal), one byte before the notification
point 4096, with two bytes ahead. -/
def nearPoint : Prsc := { Prsc.start 0 .acting with data := List.replicate 4097 0#8, b := 4095 }

/-- A BC0C instance with an acting callback, one byte before the notification point 4096, with two bytes ahead. -/
def nearPosition : Bc0c := { Bc0c.start (List.replicate 4097 0#8) .acting with i := 4095 }

/-- A step that passes no point, and one that reaches 4096. -/
theorem witness_ActingCallbackRunsInsideItsCommand_bc0 :
    ∀ x ∈ [(Bc0c.start [0x41#8] .acting, []), (nearPosition, [4096])], ∃ s : State, s.schedule = [] ∧
      s.active = .bc0c x.1 ∧ x.1.progress = .acting ∧ x.1.i < x.1.n ∧ notifyPoints x.1.i (bc0cIter x.1).i = x.2 := by
  intro x hx
  refine ⟨{ State.reset with active := .bc0c x.1 }, rfl, rfl, ?_⟩
  revert x
  decide +kernel

/-- The same for the three jobs of PRSC: CLOSE on both sides, ADD and `prs_compress` with 257 bytes ahead at level 1. -/
theorem witness_ActingCallbackRunsInsideItsCommand_prsc :
    (∀ x ∈ [((Prsc.start 1 .acting).append [0x41#8], []), (nearPoint, [4096])], ∃ s : State, s.schedule = [] ∧
        s.active = .prsc (some 0) x.1 .closing ∧ x.1.progress = .acting ∧ x.1.b < x.1.data.length ∧
        notifyPoints x.1.b (advance x.1).1.b = x.2) ∧
      (∀ job ∈ [PrscJob.adding, .oneShot], ∃ (s : State) (p : Prsc), s.schedule = [] ∧ s.active = .prsc none p job ∧
        p.progress = .acting ∧ 256 + p.level ≤ p.data.length - p.b) := by
  constructor
  · intro x hx
    refine ⟨{ State.reset with active := .prsc (some 0) x.1 .closing }, rfl, rfl, ?_⟩
    revert x
    decide +kernel
  · exact fun job _ => ⟨{ State.reset with
      active := .prsc none ((Prsc.start 1 .acting).append (List.replicate 257 0#8)) job }, _, rfl, rfl, rfl,
      by simp only [Prsc.append, Prsc.start, List.nil_append, List.length_replicate]; omega⟩

/-- R88: the callback is called right after the byte that brings `b` to 4096, with only the literal before it emitted; the
other literal of the plan stands beside. -/
theorem test_callback_at_its_byte :
    (match nearPoint.performTo [.lit, .commit 1, .lit, .commit 1] with
      | .notified p left => some (p.b, p.w.npend, left)
      | _ => none) = some (4096, 1, [.commit 0, .lit, .commit 1]) := by decide +kernel

/-- R114: the same for BC0C, in the middle of the index steps of one reference. -/
theorem test_callback_at_its_position :
    (match ({ Bc0c.start [] .acting with i := 4094 } : Bc0c).indexStepsTo 5 with
      | (c, left) => (c.i, left)) = (4096, some 3) := by decide +kernel

/-- A thread in a callback of the waiting command `c`; the host returns. -/
def waiting (c : Call) : State := { State.reset with host := [.callbackReturn], calls := [c] }

/-- Waiting commands: BC0C and PRSC with nothing left to do before their loop goes on, and each with one point to come. -/
def someCalls : List Call :=
  [.bc0c (Bc0c.start [0x41#8] .acting) 0, .bc0c { Bc0c.start [0x41#8] .acting with i := 4095 } 1,
    .prsc none (Prsc.start 1 .acting) .closing [], .prsc (some 0) nearPoint .closing [.lit, .commit 1]]

theorem witness_ActingCallbackRunsInsideItsCommand_return :
    (∀ c ∈ someCalls, (waiting c).schedule = [] ∧ (waiting c).active = .idle ∧ (waiting c).host = .callbackReturn :: []) ∧
      (∀ x ∈ [(Bc0c.start [0x41#8] .acting, 0, []), ({ Bc0c.start [0x41#8] .acting with i := 4095 }, 1, [4096])],
        (waiting (.bc0c x.1 x.2.1)).calls = .bc0c x.1 x.2.1 :: [] ∧ notifyPoints x.1.i (x.1.i + x.2.1) = x.2.2) ∧
      ((waiting (.prsc none (Prsc.start 1 .acting) .closing [])).calls = [.prsc none (Prsc.start 1 .acting) .closing []] ∧
        notifyPoints (Prsc.start 1 .acting).b ((Prsc.start 1 .acting).perform []).1.b = []) ∧
      (waiting (.prsc (some 0) nearPoint .closing [.lit, .commit 1])).calls =
        [.prsc (some 0) nearPoint .closing [.lit, .commit 1]] ∧
      (∀ m ∈ [PrscMove.lit, .commit 1], PrscMove.Inv m) ∧
      notifyPoints nearPoint.b (nearPoint.perform [.lit, .commit 1]).1.b = [4096] := by
  refine ⟨by decide +kernel, by decide +kernel, ⟨rfl, by decide⟩, rfl, ?_, by decide +kernel⟩
  intro m hm
  simp only [List.mem_cons, List.not_mem_nil, or_false] at hm
  obtain rfl | rfl := hm <;> exact trivial

/-- R132: after the callback's return the command goes on as it was. -/
theorem test_callbackReturn :
    (match step (waiting (.bc0c (Bc0c.start [0x41#8] .acting) 0)) with
      | .next s => some (s.active, s.calls)
      | _ => none) = some (.bc0c (Bc0c.start [0x41#8] .acting), []) := by decide

theorem witness_CallbacksLeaveTheWaitingCommandAlone :
    ∀ c ∈ someCalls, ∃ t, (waiting c).schedule = [] ∧ step (waiting c) = .next t := by
  intro c h
  cases c with
  | bc0c c left => exact ⟨_, rfl, rfl⟩
  | prsc slot p job left => exact ⟨_, rfl, rfl⟩

theorem witness_CallbacksChangeNoResult :
    State.reset.schedule = [] ∧ State.reset.active = .idle ∧
      (prscState (Prsc.start 1 .acting)).prscs[0]? = some (.live (Prsc.start 1 .acting)) ∧
      (Prsc.start 1 .acting).progress = .acting ∧ (Prsc.start 1 .acting).closed = false ∧
      Prsc.Inv (Prsc.start 1 .acting) ∧
      (∀ i ∈ [Instr.prscAdd 0 [0x41#8], .prscClose 0], i = .prscAdd 0 [0x41#8] ∨ i = .prscClose 0) :=
  ⟨rfl, rfl, rfl, rfl, rfl, start_inv _ _, by decide⟩

theorem witness_NewCreatesAnInstanceAtItsTableValues : State.reset.active = .idle ∧ (-1 : Int) < 0 := by decide

theorem witness_NegativeLevelIsRefused : State.reset.active = .idle ∧ (-1 : Int) < 0 := by decide

theorem witness_AddCompletes :
    (prscState (Prsc.start 1 .returning)).active = .idle ∧
      (prscState (Prsc.start 1 .returning)).prscs[0]? = some (.live (Prsc.start 1 .returning)) ∧
      (Prsc.start 1 .returning).closed = false ∧ Prsc.Inv (Prsc.start 1 .returning) ∧
      callbackPassive (Prsc.start 1 .returning).progress = true ∧
      ((Prsc.start 1 .returning).data ++ List.replicate 256 (0#8 : Byte)).length - (Prsc.start 1 .returning).b <
        256 + (Prsc.start 1 .returning).level :=
  ⟨rfl, rfl, rfl, start_inv _ _, rfl, by
    simp only [Prsc.start, List.nil_append, List.length_replicate]; omega⟩

theorem witness_ClosedInstanceRefusesAddAndKeepsItsResult :
    ∃ p, (prscState p).active = .idle ∧ (prscState p).prscs[0]? = some (.live p) ∧ p.closed = true :=
  ⟨{ Prsc.start 1 .absent with closed := true }, rfl, rfl, rfl⟩

theorem witness_CloseCompletesAndIsIdempotent :
    (prscState (Prsc.start 0 .absent)).active = .idle ∧
      (prscState (Prsc.start 0 .absent)).prscs[0]? = some (.live (Prsc.start 0 .absent)) ∧
      (Prsc.start 0 .absent).closed = false ∧ Prsc.Inv (Prsc.start 0 .absent) ∧
      callbackPassive (Prsc.start 0 .absent).progress = true := ⟨rfl, rfl, rfl, start_inv _ _, rfl⟩

theorem witness_FailedInstanceAlwaysRaises :
    ∃ p, (prscState p).active = .idle ∧ (prscState p).prscs[0]? = some (.live p) ∧ p.closed = false ∧ p.failed = true :=
  ⟨(Prsc.start 1 .absent).fail, rfl, rfl, rfl, rfl⟩

theorem witness_SearchResultsAlwaysHaveAnEncoding :
    search [0x41#8, 0x41#8, 0x41#8] 1 1 = some { k := 0, d := 1, len := 2 } := by decide +kernel

/-- Both clauses: a match of 2 bytes that ends before its cap of 3. -/
theorem witness_MatchLengthIsTheCyclicComparison :
    0 < 1 ∧ 2 = matchLen (fun i => ([0x41#8, 0x41#8, 0x41#8, 0x42#8] : Bytes)[i]?) 3 0 1 ∧ 1 < 2 ∧ 2 < 3 := by
  decide +kernel

theorem witness_SearchFindsTheBestCandidate :
    Candidate [0x41#8, 0x41#8, 0x41#8] 1 2 0 1 ∧ Candidate [0x41#8, 0x41#8, 0x41#8] 1 2 1 2 := by
  simp [Candidate]

/-- Three bytes 41 after the first: a copy of two; a single byte: no match. The literal case of R86 is V-PC18's. -/
theorem witness_AdvanceCommitsTheSelectedMatch :
    (∃ p : Prsc, p.b < p.data.length ∧ search p.data p.b p.level = some { k := 0, d := 1, len := 2 } ∧
        ¬ (2 = 2 ∧ 256 < 1)) ∧
      (∃ p : Prsc, p.b < p.data.length ∧ search p.data p.b p.level = none) :=
  ⟨⟨{ Prsc.start 1 .absent with data := [0x41#8, 0x41#8, 0x41#8], b := 1 }, by decide +kernel, by decide +kernel,
      by decide⟩,
    ⟨{ Prsc.start 1 .absent with data := [0x41#8] }, by decide +kernel, by decide +kernel⟩⟩

/-- A match of two bytes at distance 257, beyond the short window (R86 case 3). -/
theorem witness_AdvanceCommitsTheSelectedMatch_literal :
    ∃ p : Prsc, p.b < p.data.length ∧ search p.data p.b p.level = some { k := 0, d := 257, len := 2 } ∧
      (2 = 2 ∧ 256 < 257) :=
  ⟨{ Prsc.start 1 .absent with
      data := [0x41#8, 0x42#8] ++ List.replicate 255 0#8 ++ [0x41#8, 0x42#8], b := 257 }, by decide +kernel,
    by decide +kernel, by decide⟩

theorem witness_Bc0SearchTriesBothNeighbours :
    (let d : Bytes := [0x41#8, 0x41#8, 0x41#8]
     let rd : Nat → Option Byte := fun j => d[j]?
     keyLt rd 2 1 = true ∧ keyLt rd 1 0 = true) ∧
      bc0Search [0x41#8, 0x41#8, 0x41#8] 1 [0] = some (0, 2) := by decide +kernel

/-- A BC0C instance whose group holds one opcode, in order, with a match of 3 bytes ahead. -/
def midBc0c : Bc0c :=
  { d := [0x41#8, 0x41#8, 0x41#8, 0x41#8], n := 4, i := 1, x := [0], out := [0x01#8, 0x41#8], gctl := some 0, gbits := 1,
    progress := .absent }

theorem witness_Bc0IterationEmitsOneOpcode :
    Bc0c.Inv midBc0c ∧ midBc0c.d[midBc0c.i]? = some 0x41#8 ∧ midBc0c.gbits < 8 ∧
      bc0Search midBc0c.d midBc0c.i midBc0c.x = some (0, 3) ∧
      Bc0c.Inv (Bc0c.start [0x41#8] .absent) ∧
      (Bc0c.start [0x41#8] .absent).d[(Bc0c.start [0x41#8] .absent).i]? = some 0x41#8 ∧
      (Bc0c.start [0x41#8] .absent).gbits = 8 :=
  ⟨⟨rfl, by decide, by decide, by decide, fun _ => ⟨0, rfl, by decide⟩⟩, rfl, by decide, by decide +kernel,
    ⟨rfl, by decide, by decide, by decide, fun h => absurd h (by decide)⟩, rfl, rfl⟩

theorem witness_WriterProducesTheCanonicalLayout :
    ∀ c ∈ [litCode 0x41#8, longCode 1 7, stopCode 0#3], c.bits ≠ [] := by decide

/-- A decoder about to read its first opcode is in order, and steps. -/
theorem prsd_start_inv (input : Bytes) : Prsd.Inv (Prsd.start input .bytes 0 0) :=
  ⟨⟨Nat.zero_le _, Nat.zero_le 8, Nat.zero_lt_one⟩, fun _ => rfl, fun _ => rfl, fun _ => rfl, (fun h => nomatch h),
    fun h => absurd rfl h⟩

theorem witness_StepKeepsTheMachineInOrder :
    ∃ t, State.Inv (prsState (Prsd.start [0x01#8, 0x41#8] .bytes 0 0)) ∧
      step (prsState (Prsd.start [0x01#8, 0x41#8] .bytes 0 0)) = .next t :=
  ⟨_, ⟨prsd_start_inv _, (fun _ h => nomatch h), (fun _ h => nomatch h), (fun _ h => nomatch h)⟩, rfl⟩

theorem witness_MemoMirrorsTheOutput :
    ∃ t, State.Inv (bc0State (Bc0d.start [0x01#8, 0x41#8] .bytes 0)) ∧
      State.Mirror (bc0State (Bc0d.start [0x01#8, 0x41#8] .bytes 0)) ∧
      step (bc0State (Bc0d.start [0x01#8, 0x41#8] .bytes 0)) = .next t :=
  ⟨_, ⟨⟨⟨by decide, by decide, by decide⟩, rfl, by decide, fun _ => ⟨rfl, rfl⟩, (fun h => nomatch h)⟩,
      (fun _ h => nomatch h), (fun _ h => nomatch h), (fun _ h => nomatch h)⟩,
    ⟨fun _ _ _ => rfl, (fun _ h => nomatch h)⟩, rfl⟩

theorem witness_InstancesStartAtTheirTableValues :
    State.reset.schedule = [] ∧ State.reset.active = .idle ∧
      (∀ x ∈ [(Instr.prsDecompress [] 7, Mode.bytes, 7, 0), (.prsDecompressSize [] 7, .size, 7, 0),
          (.prsDisassemble 3 [], .trace, 0, 3)],
        (x.1 = .prsDecompress [] 7 ∧ x.2.1 = .bytes ∧ x.2.2.1 = 7 ∧ x.2.2.2 = 0) ∨
          (x.1 = .prsDecompressSize [] 7 ∧ x.2.1 = .size ∧ x.2.2.1 = 7 ∧ x.2.2.2 = 0) ∨
          (x.1 = .prsDisassemble 3 [] ∧ x.2.1 = .trace ∧ x.2.2.1 = 0 ∧ x.2.2.2 = 3)) ∧
      (∀ x ∈ [(Instr.bc0Decompress [], Mode.bytes, 0), (.bc0Disassemble 3 [], .trace, 3)],
        (x.1 = .bc0Decompress [] ∧ x.2.1 = .bytes ∧ x.2.2 = 0) ∨
          (x.1 = .bc0Disassemble 3 [] ∧ x.2.1 = .trace ∧ x.2.2 = 3)) := by decide

theorem witness_LaunchedCommandsAgreeWithAtomicOnes :
    State.reset.schedule = [] ∧ State.reset.active = .idle ∧
      ∀ i ∈ [Instr.prsCompress [] 1 .absent, .prscNew 1 .absent, .prscAdd 0 [], .prscClose 0, .bc0Compress [] .absent,
        .prsDecompress [] 0, .prsDecompressSize [] 0, .prsDisassemble 0 [], .bc0Decompress [], .bc0Disassemble 0 []],
        isCommand i = true := by decide

theorem witness_CommandsNeverInfluenceEachOther :
    (∃ bytes, ∃ level : Nat, ∃ pr, Instr.prsCompress [0#8] 1 .returning = .prsCompress bytes level pr ∧
        callbackPassive pr = true) ∧
      (∃ bytes pr, Instr.bc0Compress [0#8] .returning = .bc0Compress bytes pr ∧ callbackPassive pr = true) ∧
      (∃ bytes maxOut, Instr.prsDecompress [0#8] 1 = .prsDecompress bytes maxOut) ∧
      (∃ bytes maxOut, Instr.prsDecompressSize [0#8] 1 = .prsDecompressSize bytes maxOut) ∧
      (∃ k bytes, Instr.prsDisassemble 1 [0#8] = .prsDisassemble k bytes) ∧
      (∃ bytes, Instr.bc0Decompress [0#8] = .bc0Decompress bytes) ∧
      (∃ k bytes, Instr.bc0Disassemble 1 [0#8] = .bc0Disassemble k bytes) ∧ State.reset.active = .idle :=
  ⟨⟨_, 1, _, rfl, rfl⟩, ⟨_, _, rfl, rfl⟩, ⟨_, _, rfl⟩, ⟨_, _, rfl⟩, ⟨_, _, rfl⟩, ⟨_, rfl⟩, ⟨_, _, rfl⟩, rfl⟩

/-- A second host thread, with nothing to do. -/
def otherThread : Thread := { host := [], active := .idle, calls := [], responses := [], notes := [] }

theorem witness_ThreadsDoNotTouchEachOther :
    (∃ t, step State.reset = .next t ∧ State.reset.schedule = []) ∧
      (∃ s t, step s = .next t ∧ s.schedule = 0 :: []) ∧
      (∃ s t, step s = .next t ∧ s.schedule = (1 + 1) :: [] ∧ s.parked[1]? = none) ∧
      (∃ s t, step s = .next t ∧ s.schedule = (0 + 1) :: [] ∧ s.parked[0]? = some otherThread) :=
  ⟨⟨_, rfl, rfl⟩, ⟨{ State.reset with schedule := [0] }, _, rfl, rfl⟩,
    ⟨{ State.reset with parked := [otherThread], schedule := [2] }, _, rfl, rfl, rfl⟩,
    ⟨{ State.reset with parked := [otherThread], schedule := [1] }, _, rfl, rfl, rfl⟩⟩

theorem witness_PrscCommandsTouchTheirOwnInstanceOnly :
    (∃ t, exec (.prscAdd 0 []) (prscState (Prsc.start 0 .absent)) = .next t) ∧
      (∃ t, exec (.prscAdd 0 []) (prscState (Prsc.start 0 .acting)) = .next t) ∧
      (∃ t, exec (.prscClose 0) (prscState { Prsc.start 0 .absent with closed := true }) = .next t) ∧ 1 ≠ 0 :=
  ⟨⟨_, rfl⟩, ⟨_, rfl⟩, ⟨_, rfl⟩, by decide⟩

theorem witness_OpcodesNeedTheirDecoder :
    isPrsOp (.lit 0#8) = true ∧ (∀ p, ¬ RunningPrsd State.reset p) ∧ isBc0Op (.blit 0#8) = true ∧
      (∀ d, ¬ RunningBc0d State.reset d) :=
  ⟨rfl, (fun _ h => nomatch h.1), rfl, (fun _ h => nomatch h.1)⟩

theorem witness_BusyThreadIssuesNothing :
    isCommand (.prscNew 1 .absent) = true ∧ (prsState (midPrsd .bytes 0)).active ≠ .idle := by decide

theorem witness_MissingInstanceIsRefused :
    State.reset.active = .idle ∧ State.reset.prscs[0]? = none ∧
      ({ State.reset with prscs := [.discarded] } : State).prscs[0]? = some .discarded ∧
      ({ State.reset with prscs := [.inFlight] } : State).prscs[0]? = some .inFlight ∧
      (let s : State := { State.reset with prscs := [.live (Prsc.start 1 .absent)], host := [.discard 0] }
       s.schedule = [] ∧ (∃ p, s.prscs[0]? = some (.live p)) ∧ s.host = .discard 0 :: []) ∧
      (let s : State := { State.reset with prscs := [.inFlight], host := [.discard 0] }
       s.active = .idle ∧ s.schedule = [] ∧ s.prscs[0]? = some .inFlight ∧ s.host = .discard 0 :: []) :=
  ⟨rfl, rfl, rfl, rfl, ⟨rfl, ⟨_, rfl⟩, rfl⟩, rfl, rfl, rfl, rfl⟩

/-- An ADD and a CLOSE whose loop is over, on an instance still in its slot's care and on a discarded one. -/
theorem witness_MissingInstanceIsRefused_putBack :
    ∀ slot ∈ [PrscSlot.inFlight, .discarded],
      (∃ (s : State) (p : Prsc), s.schedule = [] ∧ s.active = .prsc (some 0) p .adding ∧
        p.data.length - p.b < 256 + p.level ∧ s.prscs[0]? = some slot) ∧
      (∃ (s : State) (p : Prsc), s.schedule = [] ∧ s.active = .prsc (some 0) p .closing ∧
        p.data.length ≤ p.b ∧ s.prscs[0]? = some slot) :=
  fun slot _ =>
    ⟨⟨{ State.reset with active := .prsc (some 0) (Prsc.start 1 .absent) .adding, prscs := [slot] },
        Prsc.start 1 .absent, rfl, rfl, by decide, rfl⟩,
      ⟨{ State.reset with active := .prsc (some 0) (Prsc.start 1 .absent) .closing, prscs := [slot] },
        Prsc.start 1 .absent, rfl, rfl, by decide, rfl⟩⟩

/-- R125, R132 (log entry 3): a CLOSE that ends on a discarded instance returns its stream, here of no input, and leaves the
slot as it is. -/
theorem test_close_of_discarded :
    (match step { State.reset with
        active := .prsc (some 0) (Prsc.start 1 .absent) .closing, prscs := [.discarded] } with
      | .next s => some (s.responses, s.prscs)
      | _ => none) = some ([.ok (.bytes [0x02#8, 0x00#8, 0x00#8])], [.discarded]) := by decide

end Sys2Proof.Tests
end

section
/-!
PROOFS. Family 00_scope: the refusals at the host boundary (R9).
-/

namespace Sys2Proof.Machine

/-- R9 for `prs_compress`: the level is looked at before the bytes and the callback. -/
theorem execPrsCompress_of_neg {s : State} {level : Int} (hidle : s.active = .idle) (hneg : level < 0)
    (bytes : Bytes) (progress : Progress) :
    execPrsCompress bytes level progress s = .refused .negativeLevel := by
  rw [execPrsCompress, whenIdle_of_idle s _ hidle, withLevel_neg hneg]

/-- Settles O35: `prs_compress` on an idle thread comes to `withLevel`, which refuses every negative level. -/
theorem negativeLevelIsRefused : Obligations.NegativeLevelIsRefused :=
  fun _ bytes _ progress hidle hneg => execPrsCompress_of_neg hidle hneg bytes progress

end Sys2Proof.Machine
end

section
/-!
PROOFS. Family 10_state: what NEW and the launches create, the machine at reset, and the guard of a busy thread (R9, R20,
R33, R144).
-/

namespace Sys2Proof.Machine

/-! ## NEW, the launches, and the guards (R9, R20, R33, R144) -/

/-- On an idle thread NEW is `withLevel`'s check and one more live instance (R80). -/
theorem execPrscNew_nat {s : State} (hidle : s.active = .idle) (level : Nat) (pr : Progress) :
    execPrscNew level pr s = .next { s with
      prscs := s.prscs ++ [.live (Prsc.start level pr)]
      responses := s.responses ++ [.ok (.handle s.prscs.length)] } := by
  rw [execPrscNew, whenIdle_of_idle s _ hidle, withLevel_nat]
  rfl

/-- R9 for NEW. -/
theorem execPrscNew_of_neg {s : State} {level : Int} (hidle : s.active = .idle) (hneg : level < 0) (pr : Progress) :
    execPrscNew level pr s = .refused .negativeLevel := by
  rw [execPrscNew, whenIdle_of_idle s _ hidle, withLevel_neg hneg]

/-- Settles O34: NEW's instance is `Prsc.start`, whose fields are the table's. -/
theorem newCreatesAnInstanceAtItsTableValues : Obligations.NewCreatesAnInstanceAtItsTableValues :=
  fun _ pr hidle =>
    ⟨fun level => ⟨Prsc.start level pr, execPrscNew_nat hidle level pr, rfl, rfl, rfl, rfl, rfl, rfl, rfl⟩,
      fun _ hneg => execPrscNew_of_neg hidle hneg pr⟩

/-- With nothing scheduled, an idle thread's launch is the step. -/
theorem step_launch {s : State} (hsched : s.schedule = []) (hidle : s.active = .idle) (i : Instr)
    (rest : List HostAction) :
    step { s with host := .launch i :: rest } = launch i { s with host := rest } := by
  rw [step_of_schedule_nil (by exact hsched)]
  simp [fetchCurrent, fetchHost, hidle]

/-- Settles O48: each launch puts its unit's `start` in flight, whose fields are the table's. -/
theorem instancesStartAtTheirTableValues : Obligations.InstancesStartAtTheirTableValues := by
  intro s rest bytes maxOut k pr hsched hidle
  have hstep := step_launch hsched hidle (rest := rest)
  have hlaunch := fun o => whenIdle_of_idle { s with host := rest } o hidle
  refine ⟨?_, ?_, by rw [hstep, launch, hlaunch]; rfl⟩
  · rintro i mode bound sink (⟨rfl, rfl, rfl, rfl⟩ | ⟨rfl, rfl, rfl, rfl⟩ | ⟨rfl, rfl, rfl, rfl⟩) <;>
      · rw [hstep, launch, hlaunch]; rfl
  · rintro i mode sink (⟨rfl, rfl, rfl⟩ | ⟨rfl, rfl, rfl⟩) <;>
      exact ⟨_, by rw [hstep, launch, hlaunch], rfl, Memory.read_nil, rfl, rfl, rfl, rfl, rfl, rfl, rfl, rfl⟩

/-- Settles O45: at reset there is no instance to be out of order, and the thread has no host action to take. -/
theorem resetIsInOrder : Obligations.ResetIsInOrder := by
  refine ⟨⟨trivial, ?_, ?_, ?_⟩, ⟨trivial, ?_⟩, rfl⟩ <;> simp

/-- Settles O54: every command begins with `whenIdle`. -/
theorem busyThreadIssuesNothing : Obligations.BusyThreadIssuesNothing := by
  intro s i hcmd hbusy
  cases i
  case lit | scopy | lcopy | ecopy | stop | blit | bref => cases hcmd
  all_goals exact whenIdle_of_busy s _ hbusy

end Sys2Proof.Machine
end

section
/-!
PROOFS. Family 10_state: how far a PRS opcode moves the reader (R24, R55, R74).
-/

namespace Sys2Proof.Machine

/-- `r'` is `r` after `n` control bits and `k` data bytes of one opcode (R24, R74, R75): a control byte is fetched between
them exactly when `r` has fewer than `n` unread bits. -/
structure ReaderMoved (r r' : Reader) (n k : Nat) : Prop where
  input : r'.input = r.input
  bits : r'.bits = r.bits + n
  pos : r'.pos = r.pos + k + (if r.left < n then 1 else 0)
  left : r'.left + n = r.left + (if r.left < n then 8 else 0)

theorem ReaderMoved.refl (r : Reader) : ReaderMoved r r 0 0 := ⟨rfl, rfl, rfl, rfl⟩

/-- One more control bit, of at most 8: it needs a fetch exactly when the unread bits of `r` end here. -/
theorem ReaderMoved.getBit {r r' r'' : Reader} {n k : Nat} {b : Bool} (hm : ReaderMoved r r' n k) (hn : n < 8)
    (h : r'.getBit = .ok (b, r'')) : ReaderMoved r r'' (n + 1) k := by
  obtain ⟨hi, hb, hp, hl⟩ := hm
  obtain ⟨hi', hb', ⟨h0, -, -, hp', hl'⟩ | ⟨h0, -, -, -, -, hp', hl'⟩⟩ := getBit_ok h
  · have : r.left < n + 1 ↔ r.left < n := by split at hl <;> omega
    exact ⟨hi'.trans hi, by omega, by simp only [this]; omega, by simp only [this]; omega⟩
  · obtain rfl : r.left = n := by split at hl <;> omega
    simp only [Nat.lt_irrefl, if_false] at hp hl
    exact ⟨hi'.trans hi, by omega, by simp; omega, by simp; omega⟩

/-- One more data byte, which stands inside the input. -/
theorem ReaderMoved.getByte {r r' r'' : Reader} {n k : Nat} {v : Byte} (hm : ReaderMoved r r' n k)
    (h : r'.getByte = .ok (v, r'')) : ReaderMoved r r'' n (k + 1) ∧ r''.pos ≤ r.input.length := by
  obtain ⟨hi, hb, hp, hl⟩ := hm
  obtain ⟨hv, rfl⟩ := getByte_ok h
  exact ⟨⟨hi, hb, by simp only [hp]; omega, hl⟩, hi ▸ pos_lt_of_get hv⟩

/-- A PRS opcode reads its control bits and its data bytes, the last of them a data byte (R54, R55). -/
theorem decodePrs_moved {r r' : Reader} {i : Instr} (h : decodePrs r = .ok (i, r')) :
    ReaderMoved r r' (ctlBits i) (dataBytes i) ∧ r'.pos ≤ r.input.length := by
  have h0 := ReaderMoved.refl r
  obtain ⟨r1, v, h1, h2, rfl⟩ | ⟨r1, r2, h1, h2, h3⟩ | ⟨r1, r2, h1, h2, h3⟩ := decodePrs_ok h
  · exact (h0.getBit (by omega) h1).getByte h2
  · have hm := (h0.getBit (by omega) h1).getBit (by omega) h2
    obtain ⟨b0, r3, b1, r4, h4, h5, hi⟩ := decodeLong_ok h3
    have hm2 := (hm.getByte h4).1.getByte h5
    obtain ⟨-, rfl, rfl⟩ | ⟨-, -, rfl, rfl⟩ | ⟨-, -, n, h6, rfl⟩ := hi
    · exact hm2
    · exact hm2
    · exact hm2.1.getByte h6
  · have hm := (h0.getBit (by omega) h1).getBit (by omega) h2
    obtain ⟨hb, r3, lb, r4, o, h4, h5, h6, rfl⟩ := decodeShort_ok h3
    exact ((hm.getBit (by omega) h4).getBit (by omega) h5).getByte h6

/-- Settles O5: the reader moves as `ReaderMoved` says, whatever its unread bits. -/
theorem prsOpcodeAdvancesReader : Obligations.PrsOpcodeAdvancesReader := by
  intro r r' i _ h
  obtain ⟨⟨hinput, hbits, hpos, hleft⟩, hle⟩ := decodePrs_moved h
  exact ⟨hinput, hle, hbits, hpos, hleft⟩

end Sys2Proof.Machine
end

section
/-!
PROOFS. Family 10_state: the order of the index's keys, the two neighbours, and the better of them (R26, R112).
-/

namespace Sys2Proof.Machine

/-! ## The order of keys (R26) -/

/-- A key is empty past the end of the input. -/
theorem take_drop_of_none {d : Bytes} {p : Nat} (h : d[p]? = none) (n : Nat) : (d.drop p).take n = [] := by
  rw [List.drop_eq_nil_of_le (List.getElem?_eq_none_iff.mp h), List.take_nil]

/-- Inside the input, a key is its first byte and the shorter key one further. -/
theorem take_drop_of_some {d : Bytes} {p : Nat} {x : Byte} (h : d[p]? = some x) (n : Nat) :
    (d.drop p).take (n + 1) = x :: (d.drop (p + 1)).take n := by
  obtain ⟨hp, rfl⟩ := List.getElem?_eq_some_iff.mp h
  rw [List.drop_eq_getElem_cons hp, List.take_succ_cons]

/-- Comparing two nonempty keys: by the first byte, then by the rest. -/
theorem compareOfLessAndEq_cons (x y : Byte) (xs ys : Bytes) :
    compareOfLessAndEq (x :: xs) (y :: ys) =
      if x < y then .lt else if y < x then .gt else compareOfLessAndEq xs ys := by
  unfold compareOfLessAndEq
  rcases Std.lt_trichotomy x y with hlt | rfl | hgt
  · simp [List.cons_lt_cons_iff, hlt]
  · simp [Std.lt_irrefl]
  · have hnlt : ¬x < y := fun h => Std.lt_irrefl (Std.lt_trans h hgt)
    have hne : x ≠ y := fun h => Std.lt_irrefl (h ▸ hgt)
    simp [List.cons_lt_cons_iff, hgt, hne, hnlt]

/-- `keyCompare` is the lexicographic order of the two byte strings (R26, D13). -/
theorem keyCompare_eq (d : Bytes) (n p q : Nat) :
    keyCompare (fun j => d[j]?) n p q = compareOfLessAndEq ((d.drop p).take n) ((d.drop q).take n) := by
  induction n generalizing p q with
  | zero => simp [keyCompare, compareOfLessAndEq]
  | succ n ih =>
    rw [keyCompare]
    cases hp : d[p]? with
    | none =>
      rw [take_drop_of_none hp]
      cases hq : d[q]? with
      | none => rw [take_drop_of_none hq]; rfl
      | some y => rw [take_drop_of_some hq]; rfl
    | some x =>
      rw [take_drop_of_some hp]
      cases hq : d[q]? with
      | none => rw [take_drop_of_none hq]; rfl
      | some y => rw [take_drop_of_some hq, compareOfLessAndEq_cons, ← ih]

theorem keyLt_iff (d : Bytes) (p q : Nat) :
    keyLt (fun j => d[j]?) p q = true ↔
      ((d.drop p).take 18 < (d.drop q).take 18 ∨ ((d.drop p).take 18 = (d.drop q).take 18 ∧ p < q)) := by
  rw [keyLt, keyCompare_eq]
  unfold compareOfLessAndEq Config.bc0F
  by_cases hlt : (d.drop p).take 18 < (d.drop q).take 18
  · simp [hlt]
  · by_cases heq : (d.drop p).take 18 = (d.drop q).take 18
    · simp [heq, Std.lt_irrefl]
    · simp [hlt, heq]

/-- The keys are in a strict total order: what a search for a neighbour needs of it. -/
structure StrictTotal (lt : Nat → Nat → Bool) : Prop where
  trans : ∀ {p q r}, lt p q = true → lt q r = true → lt p r = true
  total : ∀ p q, lt p q = true ∨ p = q ∨ lt q p = true

theorem StrictTotal.flip {lt : Nat → Nat → Bool} (h : StrictTotal lt) : StrictTotal (fun p q => lt q p) :=
  ⟨fun h1 h2 => h.trans h2 h1, fun p q => by rcases h.total p q with h | h | h <;> simp [h]⟩

theorem keyLt_strictTotal (d : Bytes) : StrictTotal (keyLt (fun j => d[j]?)) where
  trans {p q r} h1 h2 := by
    rw [keyLt_iff] at *
    rcases h1 with h1 | ⟨h1, h1'⟩ <;> rcases h2 with h2 | ⟨h2, h2'⟩
    · exact .inl (Std.lt_trans h1 h2)
    · exact .inl (h2 ▸ h1)
    · exact .inl (h1 ▸ h2)
    · exact .inr ⟨h1.trans h2, h1'.trans h2'⟩
  total p q := by
    simp only [keyLt_iff]
    rcases Std.lt_trichotomy ((d.drop p).take 18) ((d.drop q).take 18) with h | h | h
    · exact .inl (.inl h)
    · rcases Nat.lt_trichotomy p q with hp | hp | hp
      · exact .inl (.inr ⟨h, hp⟩)
      · exact .inr (.inl hp)
      · exact .inr (.inr (.inr ⟨h.symm, hp⟩))
    · exact .inr (.inr (.inl h))

/-! ## The two neighbours (R112) -/

/-- The fold of both neighbour searches: the greatest element below `i` so far. -/
def nearestStep (lt : Nat → Nat → Bool) (i : Nat) (best : Option Nat) (q : Nat) : Option Nat :=
  if lt q i then
    match best with
    | none => some q
    | some p => if lt p q then some q else some p
  else best

theorem predecessor_eq_foldl (rd : Nat → Option Byte) (i : Nat) (x : List Nat) :
    predecessor rd i x = x.foldl (nearestStep (keyLt rd) i) none := rfl

/-- The successor is the predecessor in the reversed order. -/
theorem successor_eq_foldl (rd : Nat → Option Byte) (i : Nat) (x : List Nat) :
    successor rd i x = x.foldl (nearestStep (fun p q => keyLt rd q p) i) none := rfl

/-- `best` is the greatest element of `x` below `i`, or none where none is below. -/
def IsNearest (lt : Nat → Nat → Bool) (i : Nat) (x : List Nat) : Option Nat → Prop
  | none => ∀ q ∈ x, lt q i = false
  | some p => p ∈ x ∧ lt p i = true ∧ ∀ q ∈ x, lt q i = true → q = p ∨ lt q p = true

/-- One step of the fold accounts for one more element. -/
theorem IsNearest.step {lt : Nat → Nat → Bool} (hlt : StrictTotal lt) {i : Nat} {x : List Nat} {best : Option Nat}
    (h : IsNearest lt i x best) (q : Nat) : IsNearest lt i (x ++ [q]) (nearestStep lt i best q) := by
  unfold nearestStep
  by_cases hq : lt q i = true
  · rw [if_pos hq]
    cases best with
    | none =>
      refine ⟨by simp, hq, fun r hr hri => ?_⟩
      rcases List.mem_append.mp hr with hr | hr
      · rw [h r hr] at hri; cases hri
      · exact .inl (List.mem_singleton.mp hr)
    | some p =>
      obtain ⟨hmem, hpi, hmax⟩ := h
      by_cases hpq : lt p q = true
      · simp only [hpq, if_true]
        refine ⟨by simp, hq, fun r hr hri => ?_⟩
        rcases List.mem_append.mp hr with hr | hr
        · rcases hmax r hr hri with rfl | hrp
          · exact .inr hpq
          · exact .inr (hlt.trans hrp hpq)
        · exact .inl (List.mem_singleton.mp hr)
      · simp only [hpq]
        refine ⟨by simp [hmem], hpi, fun r hr hri => ?_⟩
        rcases List.mem_append.mp hr with hr | hr
        · exact hmax r hr hri
        · rw [List.mem_singleton.mp hr]
          exact (hlt.total p q).elim (fun h => absurd h hpq) (Or.imp_left Eq.symm)
  · rw [if_neg hq]
    have hnew : ∀ r ∈ x ++ [q], lt r i = true → r ∈ x := fun r hr hri => by
      rcases List.mem_append.mp hr with hr | hr
      · exact hr
      · rw [List.mem_singleton.mp hr] at hri; exact absurd hri hq
    cases best with
    | none => exact fun r hr => Bool.eq_false_iff.mpr fun hri => by simp [h r (hnew r hr hri)] at hri
    | some p =>
      obtain ⟨hmem, hpi, hmax⟩ := h
      exact ⟨by simp [hmem], hpi, fun r hr hri => hmax r (hnew r hr hri) hri⟩

theorem foldl_isNearest {lt : Nat → Nat → Bool} (hlt : StrictTotal lt) (i : Nat) (x : List Nat) :
    IsNearest lt i x (x.foldl (nearestStep lt i) none) := by
  induction x using List.reverseRecOn with
  | nil => simp [IsNearest]
  | append_singleton x q ih =>
    rw [List.foldl_append]
    exact ih.step hlt q

theorem predecessor_isNearest (d : Bytes) (i : Nat) (x : List Nat) :
    IsNearest (keyLt (fun j => d[j]?)) i x (predecessor (fun j => d[j]?) i x) := by
  rw [predecessor_eq_foldl]
  exact foldl_isNearest (keyLt_strictTotal d) i x

theorem successor_isNearest (d : Bytes) (i : Nat) (x : List Nat) :
    IsNearest (fun p q => keyLt (fun j => d[j]?) q p) i x (successor (fun j => d[j]?) i x) := by
  rw [successor_eq_foldl]
  exact foldl_isNearest (keyLt_strictTotal d).flip i x

/-! ## The better of the two (R112, D14) -/

/-- The searches' array holds the input's bytes. -/
theorem byteAt_toArray_eq (data : Bytes) : byteAt data.toArray = fun i => data[i]? :=
  funext fun i => byteAt_toArray data i

/-- The search on the input's bytes, tried on the predecessor and then on the successor. -/
theorem bc0Search_eq (d : Bytes) (i : Nat) (x : List Nat) :
    bc0Search d i x =
      tryNeighbour (fun j => d[j]?) (min 18 (d.length - i)) i
        (tryNeighbour (fun j => d[j]?) (min 18 (d.length - i)) i none (predecessor (fun j => d[j]?) i x))
        (successor (fun j => d[j]?) i x) := by
  unfold bc0Search
  rw [byteAt_toArray_eq]
  rfl

/-- The better of two neighbours `pr` and `su`: the first wherever the second is not strictly longer. -/
theorem tryNeighbour_both (rd : Nat → Option Byte) (cap i : Nat) (pr su : Option Nat) :
    match tryNeighbour rd cap i (tryNeighbour rd cap i none pr) su with
    | none => ∀ q, pr = some q ∨ su = some q → matchLen rd cap q i = 0
    | some (q, len) => len = matchLen rd cap q i ∧ 0 < len ∧
        ((pr = some q ∧ ∀ q', su = some q' → matchLen rd cap q' i ≤ len) ∨
          (su = some q ∧ ∀ q', pr = some q' → matchLen rd cap q' i < len)) := by
  cases pr with
  | none =>
    cases su with
    | none => simp [tryNeighbour]
    | some q =>
      by_cases hq : 0 < matchLen rd cap q i
      · simp [tryNeighbour, hq]
      · simp [tryNeighbour, Nat.eq_zero_of_not_pos hq]
  | some p =>
    by_cases hp : 0 < matchLen rd cap p i
    · cases su with
      | none => simp [tryNeighbour, hp]
      | some q =>
        by_cases hlt : matchLen rd cap p i < matchLen rd cap q i
        · simp [tryNeighbour, hp, hlt, Nat.zero_lt_of_lt hlt]
        · simp [tryNeighbour, hp, hlt, Nat.not_lt.mp hlt]
    · have hp0 : matchLen rd cap p i = 0 := Nat.eq_zero_of_not_pos hp
      cases su with
      | none => simp [tryNeighbour, hp0]
      | some q =>
        by_cases hq : 0 < matchLen rd cap q i
        · simp [tryNeighbour, hp0, hq]
        · have hq0 : matchLen rd cap q i = 0 := Nat.eq_zero_of_not_pos hq
          simp only [tryNeighbour, hp0, hq0, Nat.lt_irrefl, if_false, Option.some.injEq]
          rintro r (rfl | rfl) <;> assumption

/-- Settles O43: both neighbours are the nearest of their side, and the search is the better of them. -/
theorem bc0SearchTriesBothNeighbours : Obligations.Bc0SearchTriesBothNeighbours := by
  intro d i x
  refine ⟨keyLt_iff d, ?_, ?_, ?_⟩
  · exact predecessor_isNearest d i x
  · exact successor_isNearest d i x
  · rw [bc0Search_eq]
    exact tryNeighbour_both _ _ i _ _

end Sys2Proof.Machine
end

section
/-!
PROOFS. Family 10_state: the PRS compressor keeps its instances in order, and no Advance fails (R20, R66 to R94).
-/

namespace Sys2Proof.Machine

/-! ## The PBS writer (R66 to R72) -/

/-- The writer after the first control bit of an opcode and before its `EndOpcode`: its group may be full (R70, R71). -/
structure PbsWriter.Writing (w : PbsWriter) : Prop where
  npend_pos : 0 < w.npend
  npend_le : w.npend ≤ 8
  ctl_lt : w.ctlOff < w.out.length
  pend_lt : w.pend.toNat < 2 ^ w.npend

theorem start_writerInv : PbsWriter.Inv PbsWriter.start := ⟨by decide, by decide, by decide, fun _ => rfl⟩

/-- A control bit goes above the bits already pending. -/
theorem pend_or_bit_lt {pend : Byte} {n : Nat} (h : pend.toNat < 2 ^ n) (v : Bool) :
    (pend ||| (BitVec.ofNat 8 v.toNat <<< n)).toNat < 2 ^ (n + 1) := by
  have hv : (BitVec.ofNat 8 v.toNat).toNat ≤ 1 := by cases v <;> decide
  rw [BitVec.toNat_or, BitVec.toNat_shiftLeft]
  refine Nat.or_lt_two_pow (h.trans (Nat.pow_lt_pow_succ Nat.one_lt_two)) (lt_of_le_of_lt (Nat.mod_le _ _) ?_)
  rw [Nat.shiftLeft_eq, Nat.pow_succ']
  exact Nat.mul_lt_mul_of_pos_right (by omega) (Nat.two_pow_pos n)

/-- `PutBit` opens a group where the last one is full (R68). -/
theorem putBit_writing {w : PbsWriter} (hn : w.npend ≤ 8) (hc : w.ctlOff < w.out.length)
    (hp : w.pend.toNat < 2 ^ w.npend) (v : Bool) : PbsWriter.Writing (w.putBit v) := by
  unfold PbsWriter.putBit PbsWriter.rollIfFull
  by_cases hfull : w.npend = 8
  · simp only [hfull, if_true]
    exact ⟨by simp, by simp, by simp, pend_or_bit_lt (by simp) v⟩
  · simp only [hfull, if_false]
    exact ⟨Nat.succ_pos _, by simp only; omega, hc, pend_or_bit_lt hp v⟩

/-- More control bits keep the writer so. -/
theorem foldl_putBit_writing {w : PbsWriter} (h : PbsWriter.Writing w) (bits : List Bool) :
    PbsWriter.Writing (bits.foldl PbsWriter.putBit w) := by
  induction bits generalizing w with
  | nil => exact h
  | cons v bits ih => exact ih (putBit_writing h.npend_le h.ctl_lt h.pend_lt v)

/-- So do data bytes. -/
theorem foldl_putByte_writing {w : PbsWriter} (h : PbsWriter.Writing w) (data : Bytes) :
    PbsWriter.Writing (data.foldl PbsWriter.putByte w) := by
  induction data generalizing w with
  | nil => exact h
  | cons v data ih =>
    obtain ⟨h1, h2, h3, h4⟩ := h
    exact ih ⟨h1, h2, by simp only [PbsWriter.putByte_out, PbsWriter.putByte_ctlOff, List.length_append]; omega, h4⟩

/-- `EndOpcode` puts the writer between opcodes (R70). -/
theorem rollIfFull_inv {w : PbsWriter} (h : PbsWriter.Writing w) : PbsWriter.Inv w.rollIfFull := by
  obtain ⟨h1, h2, h3, h4⟩ := h
  unfold PbsWriter.rollIfFull
  split
  · exact ⟨by simp, by simp, by simp, by simp⟩
  · exact ⟨by omega, h3, h4, by omega⟩

/-- An opcode with a control bit leaves the writer between opcodes (R71). -/
theorem emit_writerInv {w : PbsWriter} (h : PbsWriter.Inv w) {c : Code} (hc : c.bits ≠ []) :
    PbsWriter.Inv (w.emit c) := by
  unfold PbsWriter.emit
  obtain ⟨v, bits, hbits⟩ := List.exists_cons_of_ne_nil hc
  rw [hbits]
  have hbit := putBit_writing (Nat.le_of_lt h.npend_lt) h.ctl_lt h.pend_lt v
  exact rollIfFull_inv (foldl_putByte_writing (foldl_putBit_writing hbit bits) c.data)

/-! ## The match search (R84, R85) -/

/-- What `Search` may return: a candidate with its own match length, of at least 2 bytes (R84). -/
def IsCandidateMatch (data : Bytes) (b level : Nat) (m : Match) : Prop :=
  Candidate data b level m.k m.d ∧ m.len = candidateLen data b m.k m.d ∧ 2 ≤ m.len

/-- The better of the two is one of the two. -/
theorem betterMatch_cases {best : Option Match} {c m : Match} (h : betterMatch best c = some m) :
    best = some m ∨ (m = c ∧ 2 ≤ c.len) := by
  unfold betterMatch at h
  split at h
  · exact .inl h
  · next hlen =>
    split at h
    · exact .inr ⟨by cases h; rfl, by omega⟩
    · split at h
      · exact .inr ⟨by cases h; rfl, by omega⟩
      · exact .inl h

/-- At one literal-prefix length, the search keeps to its candidates. -/
theorem searchBack_isCandidateMatch {data : Bytes} {b level k : Nat} (hk : k < level) (hb : b + k < data.length)
    {n d : Nat} (hd : 1 ≤ d) (hn : d + n ≤ min (b + k) 8191 + 1) {best : Option Match}
    (hbest : ∀ m, best = some m → IsCandidateMatch data b level m) {m : Match}
    (h : searchBack (fun i => data[i]?) (b + k) (min 256 (data.length - (b + k))) k n d best = some m) :
    IsCandidateMatch data b level m := by
  induction n generalizing d best with
  | zero => exact hbest m h
  | succ n ih =>
    refine ih (d := d + 1) (by omega) (by omega) (fun m' hm' => ?_) h
    rcases betterMatch_cases hm' with hm' | ⟨rfl, hlen⟩
    · exact hbest m' hm'
    · exact ⟨⟨hk, hb, hd, by simp only; omega, by simp only; omega⟩, rfl, hlen⟩

/-- The loop over the literal-prefix lengths keeps to the candidates. -/
theorem searchLoop_isCandidateMatch {data : Bytes} {b level n k : Nat} (hk : k + n ≤ level) {best : Option Match}
    (hbest : ∀ m, best = some m → IsCandidateMatch data b level m) {m : Match}
    (h : searchLoop (fun i => data[i]?) data.length b n k best = some m) : IsCandidateMatch data b level m := by
  induction n generalizing k best with
  | zero => exact hbest m h
  | succ n ih =>
    rw [searchLoop] at h
    split at h
    · exact hbest m h
    · next hb =>
      refine ih (k := k + 1) (by omega) (fun m' hm' => ?_) h
      exact searchBack_isCandidateMatch (by omega) (by omega) (Nat.le_refl 1)
        (by simp only [Config.prsWindow]; omega) hbest hm'

theorem search_isCandidateMatch {data : Bytes} {b level : Nat} {m : Match} (h : search data b level = some m) :
    IsCandidateMatch data b level m := by
  rw [search, byteAt_toArray_eq] at h
  exact searchLoop_isCandidateMatch (by omega) (fun _ h => by cases h) h

/-- A match is at most 256 bytes and stays inside the input (R85, R94). -/
theorem IsCandidateMatch.len_le {data : Bytes} {b level : Nat} {m : Match} (h : IsCandidateMatch data b level m) :
    m.len ≤ 256 ∧ b + m.k + m.len ≤ data.length := by
  obtain ⟨⟨-, hb, -, -, -⟩, hlen, -⟩ := h
  have hle := matchLen_le (fun i => data[i]?) (min 256 (data.length - (b + m.k))) (b + m.k - m.d) (b + m.k)
  rw [hlen, candidateLen]
  omega

/-- In the ranges of R94, R86's case 6 is not met. -/
theorem selectCode_eq {d len : Nat} (hd : d ≤ 8191) (hlen : 2 ≤ len) (hlen' : len ≤ 256) :
    selectCode d len =
      if d ≤ 256 ∧ len ≤ 5 then some (some (shortCode d len))
      else if len = 2 then some none
      else if len ≤ 9 then some (some (longCode d len))
      else some (some (extCode d len)) := by
  have hshort : (d ≤ Config.prsShortWindow ∧ 2 ≤ len ∧ len ≤ 5) ↔ (d ≤ 256 ∧ len ≤ 5) := by
    simp [Config.prsShortWindow, hlen]
  by_cases h2 : len = 2
  · simp [selectCode, Config.prsShortWindow, h2]
  · have hlong : (d ≤ Config.prsWindow ∧ 3 ≤ len ∧ len ≤ 9) ↔ len ≤ 9 := by
      simp only [Config.prsWindow]; omega
    have hext : (d ≤ Config.prsWindow ∧ 10 ≤ len ∧ len ≤ Config.prsMaxCopy) ↔ ¬len ≤ 9 := by
      simp only [Config.prsWindow, Config.prsMaxCopy]; omega
    have hlt : ¬len < 3 := by omega
    simp only [selectCode, hshort, hlong, hext, h2, hlt, if_false]
    by_cases h9 : len ≤ 9 <;> simp [h9]

/-- Every match is selected: a literal, or an opcode with a control bit (R86, R94). -/
theorem selectCode_cases {d len : Nat} (hd : d ≤ 8191) (hlen : 2 ≤ len) (hlen' : len ≤ 256) :
    selectCode d len = some none ∨ ∃ c, selectCode d len = some (some c) ∧ c.bits ≠ [] := by
  rw [selectCode_eq hd hlen hlen']
  split
  · exact .inr ⟨_, rfl, by simp [shortCode]⟩
  · split
    · exact .inl rfl
    · split
      · exact .inr ⟨_, rfl, by simp [longCode]⟩
      · exact .inr ⟨_, rfl, by simp [extCode]⟩

/-! ## Moves (R87, R88) -/

/-- An open instance in order, with moves still to do that stay inside its input and do not fail (R20, R88, R94). -/
def Prsc.Ready (p : Prsc) (ms : List PrscMove) : Prop :=
  Prsc.Inv p ∧ p.closed = false ∧ p.b + movesBytes ms ≤ p.data.length ∧ ∀ m ∈ ms, PrscMove.Inv m

theorem call_inv_prsc (slot : Option Nat) (p : Prsc) (job : PrscJob) (ms : List PrscMove) :
    Call.Inv (.prsc slot p job ms) ↔ p.Ready ms := Iff.rfl

/-- An open instance in order has nothing to do. -/
theorem Prsc.ready_nil {p : Prsc} : p.Ready [] ↔ Prsc.Inv p ∧ p.closed = false :=
  ⟨fun h => ⟨h.1, h.2.1⟩, fun h => ⟨h.1, h.2, h.1.b_le, by simp⟩⟩

theorem movesBytes_append (ms ms' : List PrscMove) : movesBytes (ms ++ ms') = movesBytes ms + movesBytes ms' := by
  induction ms with
  | nil => simp [movesBytes]
  | cons m ms ih => cases m <;> simp [movesBytes, ih, Nat.add_assoc]

theorem Prsc.Inv.emit {p : Prsc} (h : Prsc.Inv p) (hopen : p.closed = false) {c : Code} (hc : c.bits ≠ []) :
    Prsc.Inv (p.emit c) :=
  ⟨h.b_le, h.not_failed, fun _ => emit_writerInv (h.open_writer hopen) hc,
    fun hclosed => by rw [Prsc.emit_closed, hopen] at hclosed; cases hclosed⟩

theorem Prsc.Inv.emitNext {p : Prsc} (h : Prsc.Inv p) (hopen : p.closed = false) : Prsc.Inv p.emitNext := by
  unfold Prsc.emitNext
  split
  · exact h.emit hopen (by simp [litCode])
  · exact h

theorem Prsc.Inv.commit {p : Prsc} (h : Prsc.Inv p) (hopen : p.closed = false) {n : Nat}
    (hn : p.b + n ≤ p.data.length) : Prsc.Inv (p.commit n) := by
  rw [Prsc.commit_eq]
  exact ⟨hn, h.not_failed, h.open_writer, fun hclosed => by rw [hopen] at hclosed; cases hclosed⟩

/-- Performing a first part of the moves leaves the rest to do, and the boundary past the bytes of that part. -/
theorem perform_ready {p : Prsc} (ms ms' : List PrscMove) (h : p.Ready (ms ++ ms')) :
    ∃ q, p.perform ms = (q, none) ∧ q.Ready ms' ∧ q.b = p.b + movesBytes ms := by
  induction ms generalizing p with
  | nil => exact ⟨p, rfl, h, rfl⟩
  | cons m ms ih =>
    rw [List.cons_append] at h
    obtain ⟨hinv, hopen, hbytes, hall⟩ := h
    obtain ⟨hm, hms⟩ := List.forall_mem_cons.mp hall
    cases m with
    | lit =>
      obtain ⟨q, h1, h2, h3⟩ := ih (p := p.emitNext)
        ⟨hinv.emitNext hopen, by simpa using hopen, by simpa [movesBytes] using hbytes, hms⟩
      exact ⟨q, h1, h2, by simpa [movesBytes] using h3⟩
    | emit c => exact ih (p := p.emit c) ⟨hinv.emit hopen hm, hopen, hbytes, hms⟩
    | commit n =>
      rw [movesBytes, ← Nat.add_assoc] at hbytes
      obtain ⟨q, h1, h2, h3⟩ := ih (p := p.commit n)
        ⟨hinv.commit hopen (by omega), by simpa using hopen, by simpa using hbytes, hms⟩
      exact ⟨q, h1, h2, by rw [h3, Prsc.commit_b, movesBytes, Nat.add_assoc]⟩
    | fail e => exact hm.elim

/-- An instance interrupted in its moves has the rest of them to do (R88). -/
theorem Prsc.Ready.interrupted {p q : Prsc} {ms left : List PrscMove} {b : Nat} (h : p.Ready ms)
    (hat : PrscAt p ms b q left) : q.Ready left := by
  obtain ⟨before, n₁, n₂, after, rfl, -, rfl, -, rfl⟩ := hat
  obtain ⟨hinv, hopen, hbytes, hms⟩ := h
  have hsplit : p.Ready ((before ++ [.commit n₁]) ++ .commit n₂ :: after) := by
    refine ⟨hinv, hopen, ?_, fun m hm => ?_⟩
    · simp only [movesBytes_append, movesBytes] at hbytes ⊢
      omega
    · simp only [List.mem_append, List.mem_cons, List.not_mem_nil, or_false] at hm hms
      rcases hm with (hm | rfl) | rfl | hm
      · exact hms m (.inl hm)
      · trivial
      · trivial
      · exact hms m (.inr (.inr hm))
  obtain ⟨q, hq, hready, -⟩ := perform_ready _ _ hsplit
  rw [hq]
  exact hready

/-! ## One Advance (R86, R87) -/

theorem movesBytes_litMoves (k : Nat) : movesBytes (litMoves k) = k := by
  induction k with
  | zero => rfl
  | succ k ih => simp only [litMoves, movesBytes, ih, Nat.add_comm]

theorem litMoves_inv (k : Nat) : ∀ m ∈ litMoves k, PrscMove.Inv m := by
  induction k with
  | zero => simp [litMoves]
  | succ k ih => simpa [litMoves, PrscMove.Inv] using ih

/-- With a byte ahead, an Advance commits at least one byte and none past the input, and does not fail (R94). -/
theorem advancePlan_inv {p : Prsc} (hb : p.b < p.data.length) :
    p.b + movesBytes (advancePlan p) ≤ p.data.length ∧ 0 < movesBytes (advancePlan p) ∧
      ∀ m ∈ advancePlan p, PrscMove.Inv m := by
  unfold advancePlan
  cases hs : search p.data p.b p.level with
  | none => exact ⟨hb, Nat.one_pos, litMoves_inv 1⟩
  | some m =>
    have hm := search_isCandidateMatch hs
    obtain ⟨hlen, hin⟩ := hm.len_le
    obtain ⟨⟨-, -, -, -, hd⟩, -, hlen2⟩ := hm
    simp only [movesBytes_append, movesBytes_litMoves, List.forall_mem_append]
    obtain hsel | ⟨c, hsel, hc⟩ := selectCode_cases hd hlen2 hlen <;> rw [hsel]
    · simp only [movesBytes_litMoves]
      exact ⟨by omega, by omega, litMoves_inv m.k, litMoves_inv 1⟩
    · simp only [movesBytes]
      exact ⟨by omega, by omega, litMoves_inv m.k, by simp [PrscMove.Inv, hc]⟩

theorem advancePlan_ready {p : Prsc} (hinv : Prsc.Inv p) (hopen : p.closed = false) (hb : p.b < p.data.length) :
    p.Ready (advancePlan p) := by
  obtain ⟨hin, -, hms⟩ := advancePlan_inv hb
  exact ⟨hinv, hopen, hin, hms⟩

/-- An Advance of an open instance in order meets no error, keeps it so and moves its boundary (R87, R94). -/
theorem advance_ready {p : Prsc} (hinv : Prsc.Inv p) (hopen : p.closed = false) (hb : p.b < p.data.length) :
    ∃ q, advance p = (q, none) ∧ Prsc.Inv q ∧ q.closed = false ∧ p.b < q.b := by
  have hready := advancePlan_ready hinv hopen hb
  obtain ⟨q, hq, ⟨hinv', hopen', -⟩, hqb⟩ := perform_ready (advancePlan p) [] (by rwa [List.append_nil])
  have := (advancePlan_inv hb).2.1
  exact ⟨q, hq, hinv', hopen', by omega⟩

/-! ## The loops of ADD and CLOSE, and the two commands (R81, R82) -/

theorem enough_lt {p : Prsc} (h : p.enough = true) : p.b < p.data.length := by
  have hlen : 256 + p.level ≤ p.data.length - p.b := of_decide_eq_true h
  omega

theorem more_lt {p : Prsc} (h : p.more = true) : p.b < p.data.length := by
  simpa [Prsc.more] using h

/-- The loops meet no error and keep the instance in order; with turns enough, they end by their own condition (R162). -/
theorem advanceWhile_ready {go : Prsc → Bool} (hgo : ∀ q, go q = true → q.b < q.data.length) {n : Nat} {p : Prsc}
    (hinv : Prsc.Inv p) (hopen : p.closed = false) (hn : p.data.length - p.b ≤ n) :
    ∃ q, advanceWhile go n p = (q, none) ∧ Prsc.Inv q ∧ q.closed = false ∧ go q = false := by
  induction n generalizing p with
  | zero =>
    refine ⟨p, rfl, hinv, hopen, Bool.eq_false_iff.mpr fun h => ?_⟩
    have := hgo p h
    omega
  | succ n ih =>
    rw [advanceWhile]
    split
    · next h =>
      obtain ⟨q, hq, hinv', hopen', hlt⟩ := advance_ready hinv hopen (hgo p h)
      have hdata := (advance_frame p).1
      rw [hq] at hdata ⊢
      exact ih hinv' hopen' (by rw [hdata]; omega)
    · next h => exact ⟨p, rfl, hinv, hopen, Bool.eq_false_iff.mpr h⟩

theorem addLoop_ready {p : Prsc} (hinv : Prsc.Inv p) (hopen : p.closed = false) :
    ∃ q, addLoop p = (q, none) ∧ Prsc.Inv q ∧ q.closed = false ∧ q.enough = false :=
  advanceWhile_ready (fun _ => enough_lt) hinv hopen (Nat.le_refl _)

/-- CLOSE's loop drains the input (R82). -/
theorem closeLoop_ready {p : Prsc} (hinv : Prsc.Inv p) (hopen : p.closed = false) :
    ∃ q, closeLoop p = (q, none) ∧ Prsc.Inv q ∧ q.closed = false ∧ q.more = false :=
  advanceWhile_ready (fun _ => more_lt) hinv hopen (Nat.le_refl _)

theorem start_prscInv (level : Nat) (progress : Progress) : Prsc.Inv (Prsc.start level progress) :=
  ⟨Nat.le_refl 0, rfl, fun _ => start_writerInv, nofun⟩

theorem Prsc.Inv.append {p : Prsc} (h : Prsc.Inv p) (hopen : p.closed = false) (bytes : Bytes) :
    Prsc.Inv (p.append bytes) :=
  ⟨by simpa using Nat.le_add_right_of_le h.b_le, h.not_failed, h.open_writer,
    fun hclosed => by rw [Prsc.append_closed, hopen] at hclosed; cases hclosed⟩

/-- Terminating a drained instance closes it (R72, R82, R93). -/
theorem Prsc.Inv.terminate {p : Prsc} (h : Prsc.Inv p) (hmore : p.more = false) : Prsc.Inv p.terminate := by
  have hb : p.b = p.data.length := Nat.le_antisymm h.b_le (by simpa [Prsc.more] using hmore)
  exact ⟨h.b_le, h.not_failed, nofun, fun _ => ⟨hb, rfl⟩⟩

/-- ADD starts its loop only on an open instance that has not failed (R81, R140). -/
theorem addError_eq_none {p : Prsc} (h : addError p = none) : p.closed = false ∧ p.failed = false := by
  unfold addError at h
  split at h
  · cases h
  · split at h
    · cases h
    · simp_all

theorem prscAdd_inv {p : Prsc} (h : Prsc.Inv p) (bytes : Bytes) : Prsc.Inv (prscAdd bytes p).1 := by
  unfold prscAdd
  split
  · exact h
  · next he =>
    have hopen := (addError_eq_none he).1
    obtain ⟨q, hq, hinv, -⟩ := addLoop_ready (h.append hopen bytes) hopen
    rwa [hq]

theorem prscClose_inv {p : Prsc} (h : Prsc.Inv p) : Prsc.Inv (prscClose p).1 := by
  unfold prscClose
  cases hc : p.closed with
  | true => simpa using h
  | false =>
    obtain ⟨q, hq, hinv, -, hmore⟩ := closeLoop_ready h hc
    simpa [h.not_failed, hq] using hinv.terminate hmore

end Sys2Proof.Machine
end

section
/-!
PROOFS. Family 10_state: the BC0 compressor keeps its instances in order (R25, R77, R111 to R114).
-/

namespace Sys2Proof.Machine

/-! ## BC0C (R25, R77, R111, R114) -/

theorem start_bc0cInv (input : Bytes) (progress : Progress) : Bc0c.Inv (Bc0c.start input progress) :=
  ⟨rfl, Nat.zero_le _, rfl, Nat.le_refl 8, fun h => absurd h (Nat.lt_irrefl 8)⟩

/-- Marking a control bit keeps the output's length (R77). -/
@[simp] theorem markControl_length (out : Bytes) (gctl : Option Nat) (v : Bool) (gbits : Nat) :
    (markControl out gctl v gbits).length = out.length := by
  cases gctl <;> simp [markControl]

/-- After it, a group with room is open (R77). -/
theorem openGroup_group {c : Bc0c} (h : Bc0c.Inv c) :
    c.openGroup.gbits < 8 ∧ ∃ g, c.openGroup.gctl = some g ∧ g < c.openGroup.out.length := by
  unfold Bc0c.openGroup
  split
  · exact ⟨Nat.zero_lt_succ 7, c.out.length, rfl, by simp⟩
  · next hfull =>
    have hlt := Nat.lt_of_le_of_ne h.gbits_le hfull
    exact ⟨hlt, h.group hlt⟩

/-- An opcode goes into an open group and moves no position (R77). -/
theorem Bc0c.Inv.emit {c : Bc0c} (h : Bc0c.Inv c) (v : Bool) (data : Bytes) : Bc0c.Inv (c.emit v data) := by
  obtain ⟨hbits, g, hg, hlt⟩ := openGroup_group h
  refine ⟨by simpa using h.n_eq, by simpa using h.i_le, by simpa using h.x_eq, ?_, fun _ => ⟨g, ?_, ?_⟩⟩
  · exact hbits
  · exact hg
  · simp only [Bc0c.emit, List.length_append, markControl_length]
    omega

/-- One index step slides the window of positions by one (R25, R114). -/
theorem indexStep_window {i : Nat} {x : List Nat} (hx : x = List.range' (i - 4096) (min i 4096)) :
    (if 4096 ≤ i then (x ++ [i]).filter (fun q => q != i - 4096) else x ++ [i]) =
      List.range' (i + 1 - 4096) (min (i + 1) 4096) := by
  have happ : x ++ [i] = List.range' (i - 4096) (min i 4096 + 1) := by
    rw [hx, List.range'_concat]
    congr 2
    omega
  rw [happ]
  split
  · next hfull =>
    have hmin : min i 4096 = 4096 := by omega
    rw [hmin, List.range'_succ, List.filter_cons_of_neg (by simp), List.filter_eq_self.mpr]
    · rw [show i - 4096 + 1 = i + 1 - 4096 by omega, show min (i + 1) 4096 = 4096 by omega]
    · intro q hq
      have := (List.mem_range'_1.mp hq).1
      simp only [bne_iff_ne]
      omega
  · rw [show i - 4096 = i + 1 - 4096 by omega, show min i 4096 + 1 = min (i + 1) 4096 by omega]

theorem Bc0c.Inv.indexStep {c : Bc0c} (h : Bc0c.Inv c) (hi : c.i < c.n) : Bc0c.Inv c.indexStep := by
  have hnew : c.i ∉ c.x := by
    rw [h.x_eq, List.mem_range'_1]
    omega
  refine ⟨h.n_eq, hi, Eq.trans ?_ (indexStep_window h.x_eq), h.gbits_le, h.group⟩
  simp only [Bc0c.indexStep, hnew, if_false, Config.bc0N]

theorem Bc0c.Inv.indexSteps {n : Nat} {c : Bc0c} (h : Bc0c.Inv c) (hn : c.i + n ≤ c.n) : Bc0c.Inv (c.indexSteps n) := by
  induction n generalizing c with
  | zero => exact h
  | succ n ih =>
    exact ih (h.indexStep (by omega)) (by simp only [Bc0c.indexStep_i, Bc0c.indexStep_n]; omega)

/-- A search result's length is the match's, capped at the input's end (R112, R113). -/
theorem bc0Search_len_le {d : Bytes} {i : Nat} {x : List Nat} {q len : Nat} (h : bc0Search d i x = some (q, len)) :
    len ≤ d.length - i := by
  have hboth := tryNeighbour_both (fun j => d[j]?) (min 18 (d.length - i)) i (predecessor (fun j => d[j]?) i x)
    (successor (fun j => d[j]?) i x)
  rw [← bc0Search_eq, h] at hboth
  obtain ⟨rfl, -⟩ := hboth
  exact (matchLen_le _ _ _ _).trans (Nat.min_le_right _ _)

/-- An iteration emits one opcode and then has index steps to make that stay inside the input (R111). -/
theorem bc0cEmit_inv {c c' : Bc0c} {n : Nat} (h : Bc0c.Inv c) (he : bc0cEmit c = some (c', n)) :
    Bc0c.Inv c' ∧ c'.i + n ≤ c'.n := by
  obtain ⟨-, hnone⟩ | ⟨v, hv, ⟨q, len, hs, -, hsome⟩ | ⟨-, hsome⟩⟩ := bc0cEmit_cases c
  · rw [hnone] at he; cases he
  · rw [hsome] at he
    cases he
    have hlen := bc0Search_len_le hs
    have hi := pos_lt_of_get hv
    exact ⟨h.emit _ _, by simp only [Bc0c.emitRef_i, Bc0c.emitRef_n, h.n_eq]; omega⟩
  · rw [hsome] at he
    cases he
    have hi := pos_lt_of_get hv
    exact ⟨h.emit _ _, by simp only [Bc0c.emitLit_i, Bc0c.emitLit_n, h.n_eq]; omega⟩

theorem Bc0c.Inv.iter {c : Bc0c} (h : Bc0c.Inv c) : Bc0c.Inv (bc0cIter c) := by
  unfold bc0cIter
  split
  · exact h
  · next he =>
    obtain ⟨hinv, hn⟩ := bc0cEmit_inv h he
    exact hinv.indexSteps hn

end Sys2Proof.Machine
end

section
/-!
PROOFS. Family 10_state: the decompressors keep their instances in order, and BC0D's memo mirrors its output (R23, R27, R99
to R106, R119 to R121).
-/

namespace Sys2Proof.Machine

/-! ## PRSD (R23, R99 to R106) -/

theorem start_prsdInv (input : Bytes) {mode : Mode} {maxOut : Nat} (sink : Nat)
    (hmax : mode = .trace → maxOut = 0) : Prsd.Inv (Prsd.start input mode maxOut sink) :=
  ⟨start_readerInv input, fun _ => rfl, fun _ => rfl, fun _ => rfl, hmax, fun _ => Nat.zero_le _⟩

theorem Prsd.Inv.fetched {p : Prsd} (h : Prsd.Inv p) {r : Reader} (hr : ReaderInv r) : Prsd.Inv (p.fetched r) :=
  ⟨hr, h.bytes_len, h.other_out, h.trace_nil, h.trace_max, h.bounded⟩

theorem Prsd.Inv.setEnd {p : Prsd} (h : Prsd.Inv p) (e : PrsdEnd) : Prsd.Inv (p.setEnd e) :=
  ⟨h.rd, h.bytes_len, h.other_out, h.trace_nil, h.trace_max, h.bounded⟩

/-- Only TRACE mode records (R108). -/
theorem Prsd.Inv.record {p : Prsd} (h : Prsd.Inv p) (i : Instr) : Prsd.Inv (p.record i) := by
  by_cases hm : p.mode = .trace
  · refine ⟨by simpa using h.rd, by simpa using h.bytes_len, by simpa using h.other_out, ?_, by simpa using h.trace_max,
      by simpa using h.bounded⟩
    simp [hm]
  · rwa [Prsd.record_of_not_trace p i hm]

/-- More output within the bound: in BYTES mode the bytes counted are there, in the other modes none is kept. -/
theorem Prsd.Inv.grow {p : Prsd} (h : Prsd.Inv p) {out : Bytes} {n : Nat} (hlimit : overLimit p.maxOut n = false)
    (hbytes : p.mode = .bytes → out.length = n) (hother : p.mode ≠ .bytes → out = p.out) :
    Prsd.Inv { p with out := out, outLen := n } :=
  ⟨h.rd, hbytes, fun hm => (hother hm).trans (h.other_out hm), h.trace_nil, h.trace_max,
    (overLimit_eq_false.mp hlimit).resolve_left⟩

theorem prsdCopy_inv {off : Int} {cnt : Nat} {p p' : Prsd} (h : Prsd.Inv p) (hc : prsdCopy off cnt p = .ok p') :
    Prsd.Inv p' := by
  obtain ⟨-, he⟩ | ⟨-, -, he⟩ | ⟨-, hlimit, hm, he⟩ | ⟨-, hlimit, hm, ⟨out, hout, he⟩ | ⟨-, he⟩⟩ :=
    prsdCopy_cases off cnt p <;> rw [he] at hc <;> cases hc
  · exact h.grow hlimit (fun hm' => absurd hm' hm) (fun _ => rfl)
  · refine h.grow hlimit (fun _ => ?_) (fun hm' => absurd hm hm')
    rw [copyOut_length hout, h.bytes_len hm]

theorem prsdLit_inv {v : Byte} {p p' : Prsd} (h : Prsd.Inv p) (hl : prsdLit v p = .ok p') : Prsd.Inv p' := by
  have hrec := h.record (.lit v)
  rw [prsdLit] at hl
  split at hl
  · cases hl
  · next hlimit =>
    rw [Bool.not_eq_true] at hlimit
    split at hl
    · next hm =>
      cases hl
      refine hrec.grow hlimit (fun _ => ?_) (fun hm' => absurd hm hm')
      rw [List.length_append, hrec.bytes_len hm]
      rfl
    · next hm =>
      cases hl
      exact hrec.grow hlimit (fun hm' => absurd hm' hm) (fun _ => rfl)

/-- Every PRS opcode that goes on keeps the instance in order. -/
theorem prsdOp_inv {i : Instr} {p p' : Prsd} (h : Prsd.Inv p) (ho : prsdOp i p = .ok p') : Prsd.Inv p' := by
  cases i with
  | lit v => exact prsdLit_inv h ho
  | scopy off cnt => exact prsdCopy_inv (h.record _) ho
  | lcopy off cnt => exact prsdCopy_inv (h.record _) ho
  | ecopy off cnt => exact prsdCopy_inv (h.record _) ho
  | stop f => cases ho; exact (h.record _).setEnd _
  | _ => cases ho

/-! ## BC0D (R27, R28, R120, R121) -/

theorem start_bc0dInv (input : Bytes) (mode : Mode) (sink : Nat) : Bc0d.Inv (Bc0d.start input mode sink) :=
  ⟨start_readerInv input, rfl, rfl, fun _ => ⟨rfl, rfl⟩, fun _ => ⟨rfl, rfl⟩⟩

theorem Bc0d.Inv.fetched {d : Bc0d} (h : Bc0d.Inv d) {r : Reader} (hr : ReaderInv r) : Bc0d.Inv (d.fetched r) :=
  ⟨hr, h.memo_wf, h.cur_eq, h.bytes_len, h.trace_none⟩

theorem Bc0d.Inv.leave {d : Bc0d} (h : Bc0d.Inv d) {r : Reader} (hr : ReaderInv r) : Bc0d.Inv (d.leave r) :=
  ⟨hr, h.memo_wf, h.cur_eq, h.bytes_len, h.trace_none⟩

/-- Only TRACE mode records (R122). -/
theorem Bc0d.Inv.record {d : Bc0d} (h : Bc0d.Inv d) (i : Instr) : Bc0d.Inv (d.record i) := by
  by_cases hm : d.mode = .trace
  · refine ⟨by simpa using h.rd, by simpa using h.memo_wf, by simpa using h.cur_eq, ?_, by simpa using h.trace_none⟩
    simp [hm]
  · rwa [Bc0d.record_of_not_trace d i hm]

/-- A byte put into the output moves the cursor with it (R120). -/
theorem Bc0d.Inv.put {d : Bc0d} (h : Bc0d.Inv d) (c : Byte) : Bc0d.Inv (d.put c) := by
  have hcur : (d.cur + 1#12).toNat = (0xFEE + (d.outLen + 1)) % 4096 := by
    rw [BitVec.toNat_add, h.cur_eq]
    simp only [BitVec.toNat_ofNat]
    omega
  by_cases hm : d.mode = .trace
  · rw [Bc0d.put_trace_mode d c hm]
    exact ⟨h.rd, h.memo_wf, hcur, fun hne => absurd hm hne, h.trace_none⟩
  · obtain ⟨hlen, htrace⟩ := h.bytes_len hm
    refine ⟨by simpa using h.rd, ?_, by simpa using hcur, fun _ => ?_, by simp [hm]⟩
    · rw [Bc0d.put_memo d c hm]
      exact memoWrite_wf h.memo_wf _ _
    · simp [Bc0d.put_out d c hm, hlen, htrace]

/-! ## The mirror (R27) -/

/-- One more byte of output changes what its own slot mirrors, and no other slot (R27). -/
theorem mirrorByte_append (out : Bytes) (c : Byte) (a : Nat) :
    mirrorByte (out ++ [c]) a = if a = (0xFEE + out.length) % 4096 then c else mirrorByte out a := by
  unfold mirrorByte
  rw [List.length_append, List.length_singleton, List.range_succ, List.reverse_append, List.reverse_singleton,
    List.singleton_append, List.find?_cons]
  by_cases ha : (0xFEE + out.length) % 4096 = a
  · simp [ha]
  · have hne : ((0xFEE + out.length) % 4096 == a) = false := beq_false_of_ne ha
    rw [hne, if_neg (Ne.symm ha)]
    cases hf : (List.range out.length).reverse.find? (fun j => (0xFEE + j) % 4096 == a) with
    | none => rfl
    | some j =>
      have hj : j < out.length := by simpa using List.mem_of_find?_eq_some hf
      exact List.getD_append _ _ _ _ hj

theorem start_mirror (input : Bytes) (mode : Mode) (sink : Nat) : Bc0d.Mirror (Bc0d.start input mode sink) :=
  fun _ a _ => Memory.read_nil a

theorem Bc0d.Mirror.record {d : Bc0d} (h : Bc0d.Mirror d) (i : Instr) : Bc0d.Mirror (d.record i) := by
  simpa [Bc0d.Mirror] using h

/-- A byte put into the output goes to its own slot of the memo (R27, R120). -/
theorem Bc0d.Mirror.put {d : Bc0d} (hinv : Bc0d.Inv d) (h : Bc0d.Mirror d) (c : Byte) : Bc0d.Mirror (d.put c) := by
  intro hm a ha
  rw [Bc0d.put_mode] at hm
  rw [Bc0d.put_memo d c hm, Bc0d.put_out d c hm, mirrorByte_append, memoWrite,
    Memory.read_write (Memory.wf_iff.mp hinv.memo_wf).1, h hm a ha, hinv.cur_eq, (hinv.bytes_len hm).1]

end Sys2Proof.Machine
end

section
/-!
PROOFS. Family 10_state: every step keeps the machine in order, and the mirror with it. Both invariants are one induction over
the machine's operations: the machine in order with a further fact `D` about BC0D's instances (`State.InvWith D`).
-/

namespace Sys2Proof.Machine

/-! ## The machine in order, with a further fact about BC0D's instances -/

/-- A fact about BC0D's instances that creation and every part of a step give or keep. -/
structure Bc0dKept (D : Bc0d → Prop) : Prop where
  start : ∀ input mode sink, D (Bc0d.start input mode sink)
  fetched : ∀ {d} r, D d → D (d.fetched r)
  leave : ∀ {d} r, D d → D (d.leave r)
  record : ∀ {d} i, D d → D (d.record i)
  put : ∀ {d} c, Bc0d.Inv d → D d → D (d.put c)

/-- The command in flight is in order, and `D` holds of a BC0D instance. -/
def Flight.InvWith (D : Bc0d → Prop) : Flight → Prop
  | .bc0d d => Bc0d.Inv d ∧ D d
  | f => Flight.Inv f

/-- The machine is in order, and `D` holds of every BC0D instance it holds. -/
structure State.InvWith (D : Bc0d → Prop) (s : State) : Prop where
  active : Flight.InvWith D s.active
  calls : ∀ c ∈ s.calls, Call.Inv c
  parked : ∀ t ∈ s.parked, Flight.InvWith D t.active ∧ ∀ c ∈ t.calls, Call.Inv c
  slots : ∀ x ∈ s.prscs, PrscSlot.Inv x

theorem flight_invWith_true (f : Flight) : Flight.InvWith (fun _ => True) f ↔ Flight.Inv f := by
  cases f with
  | bc0d d => exact and_iff_left trivial
  | _ => exact Iff.rfl

theorem flight_invWith_mirror (f : Flight) : Flight.InvWith Bc0d.Mirror f ↔ Flight.Inv f ∧ Flight.Mirror f := by
  cases f with
  | bc0d d => exact Iff.rfl
  | _ => exact (and_iff_left trivial).symm

theorem state_invWith_true (s : State) : State.InvWith (fun _ => True) s ↔ State.Inv s := by
  refine ⟨fun h => ⟨?_, h.calls, ?_, h.slots⟩, fun h => ⟨?_, h.calls, ?_, h.slots⟩⟩
  · exact (flight_invWith_true _).mp h.active
  · exact fun t ht => (h.parked t ht).imp_left (flight_invWith_true _).mp
  · exact (flight_invWith_true _).mpr h.active
  · exact fun t ht => (h.parked t ht).imp_left (flight_invWith_true _).mpr

theorem state_invWith_mirror (s : State) : State.InvWith Bc0d.Mirror s ↔ State.Inv s ∧ State.Mirror s := by
  simp only [State.Mirror]
  refine ⟨fun h => ⟨⟨?_, h.calls, fun t ht => ?_, h.slots⟩, ?_, fun t ht => ?_⟩,
    fun ⟨h, hactive, hparked⟩ => ⟨?_, h.calls, fun t ht => ⟨?_, (h.parked t ht).2⟩, h.slots⟩⟩
  · exact ((flight_invWith_mirror _).mp h.active).1
  · exact (h.parked t ht).imp_left fun hf => ((flight_invWith_mirror _).mp hf).1
  · exact ((flight_invWith_mirror _).mp h.active).2
  · exact ((flight_invWith_mirror _).mp (h.parked t ht).1).2
  · exact (flight_invWith_mirror _).mpr ⟨h.active, hactive⟩
  · exact (flight_invWith_mirror _).mpr ⟨(h.parked t ht).1, hparked t ht⟩

/-! ## The operations of the state keep it -/

section
variable {D : Bc0d → Prop} {s : State}

theorem State.InvWith.fly (h : s.InvWith D) {f : Flight} (hf : Flight.InvWith D f) :
    State.InvWith D { s with active := f } :=
  ⟨hf, h.calls, h.parked, h.slots⟩

theorem State.InvWith.respond (h : s.InvWith D) (r : Response) : (s.respond r).InvWith D :=
  ⟨h.active, h.calls, h.parked, h.slots⟩

theorem State.InvWith.writeSink (h : s.InvWith D) (k : Nat) (items : List SinkItem) : (s.writeSink k items).InvWith D :=
  ⟨h.active, h.calls, h.parked, h.slots⟩

theorem State.InvWith.callBack (h : s.InvWith D) {call : Call} (hcall : Call.Inv call) (n : Note) :
    (s.callBack call n).InvWith D :=
  ⟨trivial, List.forall_mem_cons.mpr ⟨hcall, h.calls⟩, h.parked, h.slots⟩

/-- Writing a slot in order keeps the slots in order. -/
theorem forall_mem_set_inv {l : List PrscSlot} (h : ∀ x ∈ l, PrscSlot.Inv x) (k : Nat) {y : PrscSlot} (hy : y.Inv) :
    ∀ x ∈ l.set k y, PrscSlot.Inv x := fun x hx =>
  (List.mem_or_eq_of_mem_set hx).elim (h x) fun he => he ▸ hy

theorem State.InvWith.setSlot (h : s.InvWith D) (k : Nat) {x : PrscSlot} (hx : x.Inv) : (s.setSlot k x).InvWith D :=
  ⟨h.active, h.calls, h.parked, forall_mem_set_inv h.slots k hx⟩

/-- A command's end keeps the machine in order where the instance it gives back is (R153). -/
theorem State.InvWith.release_of (h : s.InvWith D) {f : Flight}
    (hf : ∀ slot p job, f = .prsc slot p job → Prsc.Inv p) : (State.release { s with active := f }).InvWith D := by
  refine ⟨by rw [State.release_active]; trivial, by simpa using h.calls, by simpa using h.parked, ?_⟩
  rw [State.release_prscs]
  split
  · next k p job hactive =>
    obtain ⟨-, hset⟩ | ⟨-, hsame⟩ := putBack_cases s.prscs k p
    · rw [hset]; exact forall_mem_set_inv h.slots k (hf _ p job hactive)
    · rw [hsame]; exact h.slots
  · exact h.slots

theorem State.InvWith.release (h : s.InvWith D) : s.release.InvWith D :=
  h.release_of fun _ _ _ hactive => (hactive ▸ h.active : Flight.InvWith D (.prsc _ _ _)).1

theorem State.InvWith.returnOk (h : s.InvWith D) (r : Result) : (s.returnOk r).InvWith D := h.release.respond _

theorem State.InvWith.raise (h : s.InvWith D) (e : EngineError) : (s.raise e).InvWith D := h.release.respond _

/-- The threads change places, in order as they are (R148). -/
theorem State.InvWith.reschedule (h : s.InvWith D) : s.reschedule.InvWith D := by
  obtain he | he | ⟨k, t, ht, he⟩ := reschedule_cases s <;> rw [he]
  · exact h
  · exact ⟨h.active, h.calls, h.parked, h.slots⟩
  · obtain ⟨hactive, hcalls⟩ := h.parked t (List.mem_of_getElem? ht)
    refine ⟨hactive, hcalls, fun u hu => ?_, h.slots⟩
    rcases List.mem_or_eq_of_mem_set hu with hu | rfl
    · exact h.parked u hu
    · exact ⟨h.active, h.calls⟩

end

/-! ## Outcomes that keep it -/

/-- Where there is a next state, it is in order. -/
def Keeps (D : Bc0d → Prop) : Out → Prop
  | .next t => t.InvWith D
  | .fault _ => True
  | .refused _ => True

section
variable {D : Bc0d → Prop} {s : State}

theorem whenIdle_keeps {o : Out} (ho : Keeps D o) : Keeps D (whenIdle s o) := by
  unfold whenIdle
  split
  · exact ho
  · trivial

theorem withPrsc_keeps (h : s.InvWith D) (k : Nat) {f : Prsc → Out} (hf : ∀ p, Prsc.Inv p → Keeps D (f p)) :
    Keeps D (withPrsc s k f) := by
  unfold withPrsc
  split
  · next p hp => exact hf p (h.slots _ (List.mem_of_getElem? hp))
  all_goals trivial

theorem withLevel_keeps (level : Int) {f : Nat → Out} (hf : ∀ n, Keeps D (f n)) : Keeps D (withLevel level f) := by
  cases level with
  | ofNat n => exact hf n
  | negSucc n => trivial

theorem unlessActing_keeps (pr : Progress) {launched atomic : Out} (hl : Keeps D launched) (ha : Keeps D atomic) :
    Keeps D (unlessActing pr launched atomic) := by
  unfold unlessActing
  split
  · exact hl
  · exact ha

/-- Notifications leave nothing but themselves (R132). -/
theorem andThen_notify_keeps (h : s.InvWith D) (pr : Progress) (mk : Nat → Note) (pts : List Nat) {f : State → Out}
    (hf : ∀ t, t.InvWith D → Keeps D (f t)) : Keeps D (andThen (notify pr mk pts s) f) := by
  cases hn : notify pr mk pts s with
  | next t =>
    obtain ⟨ns, rfl⟩ := notify_next hn
    exact hf _ ⟨h.active, h.calls, h.parked, h.slots⟩
  | fault r => trivial
  | refused r => trivial

/-! ## The stream opcodes -/

theorem onPrsd_keeps (h : s.InvWith D) {f : Prsd → PrsdOut} (hf : ∀ p p', Prsd.Inv p → f p = .ok p' → Prsd.Inv p') :
    Keeps D (onPrsd f s) := by
  cases hn : onPrsd f s with
  | next t =>
    obtain ⟨p, hactive, -, ⟨p', hok, rfl⟩ | ⟨p', e, -, rfl⟩⟩ := onPrsd_next hn
    · have hp := h.active
      rw [hactive] at hp
      exact (h.writeSink _ _).fly (hf p p' hp hok)
    · exact (h.writeSink _ _).raise e
  | fault r => trivial
  | refused r => trivial

theorem onBc0d_keeps (h : s.InvWith D) {f : Bc0d → Bc0d}
    (hf : ∀ d, Bc0d.Inv d → D d → Bc0d.Inv (f d) ∧ D (f d)) : Keeps D (onBc0d f s) := by
  cases hn : onBc0d f s with
  | next t =>
    obtain ⟨d, hactive, -, rfl⟩ := onBc0d_next hn
    have hd := h.active
    rw [hactive] at hd
    exact (h.writeSink _ _).fly (hf d hd.1 hd.2)
  | fault r => trivial
  | refused r => trivial

theorem bc0dLit_keeps (hD : Bc0dKept D) (v : Byte) (d : Bc0d) (hinv : Bc0d.Inv d) (hd : D d) :
    Bc0d.Inv (bc0dLit v d) ∧ D (bc0dLit v d) :=
  ⟨(hinv.record _).put v, hD.put v (hinv.record _) (hD.record _ hd)⟩

theorem bc0dCopy_keeps (hD : Bc0dKept D) (n : Nat) (m : BitVec 12) (d : Bc0d) (hinv : Bc0d.Inv d) (hd : D d) :
    Bc0d.Inv (bc0dCopy n m d) ∧ D (bc0dCopy n m d) := by
  induction n generalizing m d with
  | zero => exact ⟨hinv, hd⟩
  | succ n ih => exact ih _ _ (hinv.put _) (hD.put _ hinv hd)

theorem bc0dRef_keeps (hD : Bc0dKept D) (m : BitVec 12) (cnt : Nat) (d : Bc0d) (hinv : Bc0d.Inv d) (hd : D d) :
    Bc0d.Inv (bc0dRef m cnt d) ∧ D (bc0dRef m cnt d) :=
  bc0dCopy_keeps hD cnt m _ (hinv.record _) (hD.record _ hd)

/-! ## The host commands -/

theorem launchPrsCompress_keeps (h : s.InvWith D) (bytes : Bytes) (level : Nat) (pr : Progress) :
    Keeps D (launchPrsCompress bytes level pr s) :=
  h.fly ⟨(start_prscInv level pr).append rfl bytes, rfl⟩

theorem launchAdd_keeps (h : s.InvWith D) (k : Nat) (bytes : Bytes) {p : Prsc} (hp : Prsc.Inv p) :
    Keeps D (launchAdd k bytes p s) := by
  unfold launchAdd
  split
  · exact h.raise _
  · next he =>
    have hopen := (addError_eq_none he).1
    exact (h.setSlot k (x := .inFlight) trivial).fly ⟨hp.append hopen bytes, hopen⟩

theorem launchClose_keeps (h : s.InvWith D) (k : Nat) {p : Prsc} (hp : Prsc.Inv p) : Keeps D (launchClose k p s) := by
  unfold launchClose
  split
  · exact h.returnOk _
  · next hopen =>
    split
    · exact h.raise _
    · exact (h.setSlot k (x := .inFlight) trivial).fly ⟨hp, Bool.eq_false_iff.mpr hopen⟩

theorem execPrsCompress_keeps (h : s.InvWith D) (bytes : Bytes) (level : Int) (pr : Progress) :
    Keeps D (execPrsCompress bytes level pr s) :=
  whenIdle_keeps (withLevel_keeps level fun n =>
    unlessActing_keeps pr (launchPrsCompress_keeps h bytes n pr) (andThen_notify_keeps h _ _ _ fun _ ht => ht.respond _))

theorem execPrscNew_keeps (h : s.InvWith D) (level : Int) (pr : Progress) : Keeps D (execPrscNew level pr s) :=
  whenIdle_keeps (withLevel_keeps level fun n =>
    ⟨h.active, h.calls, h.parked,
      List.forall_mem_append.mpr ⟨h.slots, by simpa [PrscSlot.Inv] using start_prscInv n pr⟩⟩)

theorem execPrscAdd_keeps (h : s.InvWith D) (k : Nat) (bytes : Bytes) : Keeps D (execPrscAdd k bytes s) :=
  whenIdle_keeps (withPrsc_keeps h k fun _ hp =>
    unlessActing_keeps _ (launchAdd_keeps h k bytes hp)
      (andThen_notify_keeps h _ _ _ fun _ ht => (ht.setSlot k (x := .live _) (prscAdd_inv hp bytes)).respond _))

theorem execPrscClose_keeps (h : s.InvWith D) (k : Nat) : Keeps D (execPrscClose k s) :=
  whenIdle_keeps (withPrsc_keeps h k fun _ hp =>
    unlessActing_keeps _ (launchClose_keeps h k hp)
      (andThen_notify_keeps h _ _ _ fun _ ht => (ht.setSlot k (x := .live _) (prscClose_inv hp)).respond _))

theorem execBc0Compress_keeps (h : s.InvWith D) (bytes : Bytes) (pr : Progress) :
    Keeps D (execBc0Compress bytes pr s) :=
  whenIdle_keeps (unlessActing_keeps pr (h.fly (start_bc0cInv bytes pr))
    (andThen_notify_keeps h _ _ _ fun _ ht => ht.respond _))

theorem prsdDeliver_keeps (h : s.InvWith D) (o : PrsdOut) : Keeps D (prsdDeliver o s) := by
  cases o with
  | ok p => exact ((h.writeSink _ _).writeSink _ _).returnOk _
  | raised p e => exact (h.writeSink _ _).raise e
  | fault r => trivial

theorem bc0dDeliver_keeps (h : s.InvWith D) (o : Option Bc0d) : Keeps D (bc0dDeliver o s) := by
  cases o with
  | some d => exact ((h.writeSink _ _).writeSink _ _).returnOk _
  | none => trivial

/-- Every instruction keeps the machine in order. -/
theorem exec_keeps (hD : Bc0dKept D) (h : s.InvWith D) (i : Instr) : Keeps D (exec i s) := by
  have prs : ∀ op, Keeps D (onPrsd (prsdOp op) s) := fun _ => onPrsd_keeps h fun _ _ => prsdOp_inv
  cases i with
  | lit v => exact prs (.lit v)
  | scopy off cnt => exact prs (.scopy off cnt)
  | lcopy off cnt => exact prs (.lcopy off cnt)
  | ecopy off cnt => exact prs (.ecopy off cnt)
  | stop f => exact prs (.stop f)
  | blit v => exact onBc0d_keeps h (bc0dLit_keeps hD v)
  | bref m cnt => exact onBc0d_keeps h (bc0dRef_keeps hD m cnt)
  | prsCompress bytes level pr => exact execPrsCompress_keeps h bytes level pr
  | prscNew level pr => exact execPrscNew_keeps h level pr
  | prscAdd k bytes => exact execPrscAdd_keeps h k bytes
  | prscClose k => exact execPrscClose_keeps h k
  | bc0Compress bytes pr => exact execBc0Compress_keeps h bytes pr
  | prsDecompress bytes maxOut => exact whenIdle_keeps (prsdDeliver_keeps h _)
  | prsDecompressSize bytes maxOut => exact whenIdle_keeps (prsdDeliver_keeps h _)
  | prsDisassemble k bytes => exact whenIdle_keeps (prsdDeliver_keeps h _)
  | bc0Decompress bytes => exact whenIdle_keeps (bc0dDeliver_keeps h _)
  | bc0Disassemble k bytes => exact whenIdle_keeps (bc0dDeliver_keeps h _)

/-- Every launched unit begins in order (R33). -/
theorem launch_keeps (hD : Bc0dKept D) (h : s.InvWith D) (i : Instr) : Keeps D (launch i s) := by
  refine whenIdle_keeps ?_
  cases i with
  | prsCompress bytes level pr => exact withLevel_keeps level fun n => launchPrsCompress_keeps h bytes n pr
  | prscNew level pr => exact execPrscNew_keeps h level pr
  | prscAdd k bytes => exact withPrsc_keeps h k fun p hp => launchAdd_keeps h k bytes hp
  | prscClose k => exact withPrsc_keeps h k fun p hp => launchClose_keeps h k hp
  | bc0Compress bytes pr => exact h.fly (start_bc0cInv bytes pr)
  | prsDecompress bytes maxOut => exact h.fly (start_prsdInv bytes 0 nofun)
  | prsDecompressSize bytes maxOut => exact h.fly (start_prsdInv bytes 0 nofun)
  | prsDisassemble k bytes => exact h.fly (start_prsdInv bytes k fun _ => rfl)
  | bc0Decompress bytes => exact h.fly ⟨start_bc0dInv bytes .bytes 0, hD.start bytes .bytes 0⟩
  | bc0Disassemble k bytes => exact h.fly ⟨start_bc0dInv bytes .trace k, hD.start bytes .trace k⟩
  | _ => trivial

/-! ## The units' own steps, and the host's other actions -/

theorem discard_keeps (h : s.InvWith D) (k : Nat) : Keeps D (discard k s) := by
  cases hn : discard k s with
  | next t =>
    obtain ⟨-, rfl⟩ := discard_next hn
    exact h.setSlot k trivial
  | fault r => trivial
  | refused r => trivial

theorem resumeBc0c_invWith (h : s.InvWith D) {c : Bc0c} (hc : Bc0c.Inv c) {n : Nat} (hn : c.i + n ≤ c.n) :
    (resumeBc0c c n s).InvWith D := by
  obtain ⟨he, -⟩ | ⟨k, left, rfl, -, he, -⟩ := resumeBc0c_cases c n s <;> rw [he]
  · exact h.fly (hc.indexSteps hn)
  · obtain ⟨-, hcn, hci, -⟩ := indexSteps_frame k c
    exact h.callBack (call := .bc0c _ left) ⟨hc.indexSteps (by omega), by rw [hcn, hci]; omega⟩ _

theorem resumePrsc_invWith (h : s.InvWith D) (slot : Option Nat) {p : Prsc} (job : PrscJob) {ms : List PrscMove}
    (hp : p.Ready ms) : (resumePrsc slot p job ms s).InvWith D := by
  obtain ⟨q, hperform, hq, -⟩ := perform_ready ms [] (by rwa [List.append_nil])
  obtain ⟨q', he, hq', -⟩ | ⟨q', e, -, hq', -⟩ | ⟨q', left, he, hat, -⟩ := resumePrsc_cases slot p job ms s
  · rw [hperform] at hq'
    cases hq'
    rw [he]
    exact h.fly (Prsc.ready_nil.mp hq)
  · rw [hperform] at hq'
    cases hq'
  · rw [he]
    exact h.callBack ((call_inv_prsc slot q' job left).mpr (hp.interrupted hat)) _

/-- A waiting command that goes on is in order (R132). -/
theorem returnCallback_keeps (h : s.InvWith D) : Keeps D (returnCallback s) := by
  obtain ⟨-, he⟩ | ⟨c, left, cs, hcalls, he⟩ | ⟨slot, p, job, left, cs, hcalls, he⟩ := returnCallback_cases s <;> rw [he]
  · trivial
  all_goals
    have hall := h.calls
    rw [hcalls] at hall
    obtain ⟨hcall, hcs⟩ := List.forall_mem_cons.mp hall
    have hs : State.InvWith D { s with calls := cs } := ⟨h.active, hcs, h.parked, h.slots⟩
  · exact resumeBc0c_invWith hs hcall.1 hcall.2
  · exact resumePrsc_invWith hs slot job ((call_inv_prsc slot p job left).mp hcall)

theorem bc0cStep_keeps (h : s.InvWith D) {c : Bc0c} (hc : Bc0c.Inv c) : Keeps D (bc0cStep c s) := by
  unfold bc0cStep
  split
  · split
    · split
      · exact h
      · next he =>
        obtain ⟨hinv, hn⟩ := bc0cEmit_inv hc he
        exact resumeBc0c_invWith h hinv hn
    · exact andThen_notify_keeps h _ _ _ fun t ht => ht.fly hc.iter
  · exact h.returnOk _

theorem prscAdvance_keeps (h : s.InvWith D) (slot : Option Nat) {p : Prsc} (job : PrscJob) (hp : Prsc.Inv p)
    (hopen : p.closed = false) (hb : p.b < p.data.length) : Keeps D (prscAdvance slot p job s) := by
  unfold prscAdvance
  split
  · exact resumePrsc_invWith h slot job (advancePlan_ready hp hopen hb)
  · obtain ⟨q, hq, hinv, hopen', -⟩ := advance_ready hp hopen hb
    rw [hq]
    exact andThen_notify_keeps h _ _ _ fun t ht => ht.fly ⟨hinv, hopen'⟩

theorem prscStep_keeps (h : s.InvWith D) (slot : Option Nat) {p : Prsc} (job : PrscJob) (hp : Prsc.Inv p)
    (hopen : p.closed = false) : Keeps D (prscStep slot p job s) := by
  cases job with
  | adding =>
    simp only [prscStep]
    split
    · next henough => exact prscAdvance_keeps h slot .adding hp hopen (enough_lt henough)
    · exact h.returnOk _
  | closing =>
    simp only [prscStep]
    split
    · next hmore => exact prscAdvance_keeps h slot .closing hp hopen (more_lt hmore)
    · next hmore =>
      have hterm := hp.terminate (Bool.eq_false_iff.mpr hmore)
      exact (h.release_of (f := .prsc slot p.terminate .closing) fun _ _ _ he => by cases he; exact hterm).respond _
  | oneShot =>
    simp only [prscStep]
    split
    · next henough => exact prscAdvance_keeps h slot .oneShot hp hopen (enough_lt henough)
    · exact h.fly (f := .prsc slot p .closing) ⟨hp, hopen⟩

/-! ## The step -/

/-- What the machine turns to keeps it in order: the state an instruction executes in, or the outcome. -/
def Fetched.Keeps (D : Bc0d → Prop) : Fetched → Prop
  | .run _ t => t.InvWith D
  | .outcome o => Machine.Keeps D o

theorem fetchHost_keeps (hD : Bc0dKept D) (h : s.InvWith D) : (fetchHost s).Keeps D := by
  have hrest : ∀ rest, State.InvWith D { s with host := rest } := fun _ => ⟨h.active, h.calls, h.parked, h.slots⟩
  unfold fetchHost
  split
  · exact h
  · exact hrest _
  · exact launch_keeps hD (hrest _) _
  · exact discard_keeps (hrest _) _
  · exact returnCallback_keeps (hrest _)

theorem fetchPrsd_keeps (h : s.InvWith D) {p : Prsd} (hp : Prsd.Inv p) : (fetchPrsd p s).Keeps D := by
  unfold fetchPrsd
  split
  · exact (h.writeSink _ _).returnOk _
  · split
    · exact h.fly (hp.setEnd _)
    · split
      · exact h.raise _
      · next hdecode => exact h.fly (hp.fetched (decodePrs_readerInv hp.rd hdecode))

theorem fetchBc0d_keeps (hD : Bc0dKept D) (h : s.InvWith D) {d : Bc0d} (hinv : Bc0d.Inv d) (hd : D d) :
    (fetchBc0d d s).Keeps D := by
  unfold fetchBc0d
  split
  · exact (h.writeSink _ _).returnOk _
  · split
    · next r hdecode => exact h.fly ⟨hinv.leave (decodeBc0_readerInv hinv.rd (.inl hdecode)), hD.leave r hd⟩
    · next i r hdecode => exact h.fly ⟨hinv.fetched (decodeBc0_readerInv hinv.rd (.inr ⟨i, hdecode⟩)), hD.fetched r hd⟩

theorem fetchCurrent_keeps (hD : Bc0dKept D) (h : s.InvWith D) : (fetchCurrent s).Keeps D := by
  have hactive := h.active
  unfold fetchCurrent
  cases he : s.active <;> rw [he] at hactive
  case idle => exact fetchHost_keeps hD h
  case prsd p => exact fetchPrsd_keeps h hactive
  case bc0d d => exact fetchBc0d_keeps hD h hactive.1 hactive.2
  case bc0c c => exact bc0cStep_keeps h hactive
  case prsc slot p job => exact prscStep_keeps h slot job hactive.1 hactive.2

/-- Every step keeps the machine in order, and `D` with it. -/
theorem step_keeps (hD : Bc0dKept D) (h : s.InvWith D) : Keeps D (step s) := by
  have hfetch : (fetch s).Keeps D := fetchCurrent_keeps hD h.reschedule
  unfold step
  cases he : fetch s <;> rw [he] at hfetch
  case run i t => exact exec_keeps hD hfetch i
  case outcome o => exact hfetch

theorem step_invWith (hD : Bc0dKept D) {t : State} (h : s.InvWith D) (hstep : step s = .next t) : t.InvWith D := by
  have hkeeps := step_keeps hD h
  rwa [hstep] at hkeeps

end

/-! ## The two invariants -/

theorem bc0dKept_true : Bc0dKept (fun _ => True) :=
  ⟨fun _ _ _ => trivial, fun _ _ => trivial, fun _ _ => trivial, fun _ _ => trivial, fun _ _ _ => trivial⟩

theorem bc0dKept_mirror : Bc0dKept Bc0d.Mirror :=
  ⟨start_mirror, fun _ h => h, fun _ h => h, fun i h => h.record i, fun c hinv h => h.put hinv c⟩

/-- Settles O46: by `step_keeps`, with no further fact about BC0D's instances. -/
theorem stepKeepsTheMachineInOrder : Obligations.StepKeepsTheMachineInOrder := by
  intro s t hinv hstep
  rw [← state_invWith_true] at *
  exact step_invWith bc0dKept_true hinv hstep

/-- Settles O47: by `step_keeps`, with the mirror as the further fact; only `Put` writes the memo (R120). -/
theorem memoMirrorsTheOutput : Obligations.MemoMirrorsTheOutput := by
  intro s t hinv hmirror hstep
  have hs := (state_invWith_mirror s).mpr ⟨hinv, hmirror⟩
  exact ((state_invWith_mirror t).mp (step_invWith bc0dKept_mirror hs hstep)).2

end Sys2Proof.Machine
end

section
/-!
PROOFS. Family 20_memory: a stream opcode on the decoder in flight, and the record it adds to the trace (R99, R108, R122).
-/

namespace Sys2Proof.Machine

/-- A PRS opcode runs its decoder's operation on the instance in flight (R99). -/
theorem exec_prsOp {i : Instr} (h : isPrsOp i = true) (s : State) : exec i s = onPrsd (prsdOp i) s := by
  cases i with
  | lit | scopy | lcopy | ecopy | stop => rfl
  | _ => cases h

/-- A BC0 opcode runs its decoder's operation, which never fails, on the instance in flight (R119). -/
theorem exec_bc0Op {i : Instr} (h : isBc0Op i = true) :
    ∃ f, (∀ d, bc0dOp i d = some (f d)) ∧ ∀ s, exec i s = onBc0d f s := by
  cases i with
  | blit v => exact ⟨bc0dLit v, fun _ => rfl, fun _ => rfl⟩
  | bref m cnt => exact ⟨bc0dRef m cnt, fun _ => rfl, fun _ => rfl⟩
  | _ => cases h

theorem Prsd.record_eq (p : Prsd) (i : Instr) : p.record i = { p with trace := p.trace ++ prsTraced p i } := by
  by_cases hm : p.mode = .trace <;> simp [Prsd.record, prsTraced, hm]

theorem Bc0d.record_eq (d : Bc0d) (i : Instr) : d.record i = { d with trace := d.trace ++ bc0Traced d i } := by
  by_cases hm : d.mode = .trace <;> simp [Bc0d.record, bc0Traced, hm]

theorem prsNewItems_of_trace_append {p p' : Prsd} {l : List PrsRecord} (h : p'.trace = p.trace ++ l) :
    prsNewItems p p' = l.map .prs := by
  simp [prsNewItems, h]

theorem bc0NewItems_of_trace_append {d d' : Bc0d} {l : List Bc0Record} (h : d'.trace = d.trace ++ l) :
    bc0NewItems d d' = l.map .bc0 := by
  simp [bc0NewItems, h]

end Sys2Proof.Machine
end

section
/-!
PROOFS. Family 20_memory: control bits fill a control byte from bit 0, for both writers and both readers (R38).
-/

namespace Sys2Proof.Machine

/-! ## Bits of a byte -/

/-- A control bit shifted to place `n` of a byte. -/
theorem getLsbD_bit_shiftLeft (v : Bool) (n j : Nat) (hj : j < 8) :
    (BitVec.ofNat 8 v.toNat <<< n).getLsbD j = (decide (j = n) && v) := by
  rw [BitVec.getLsbD_shiftLeft, BitVec.getLsbD_ofNat, Nat.testBit_bool_toNat]
  rcases Nat.lt_trichotomy j n with h | rfl | h
  · simp [h, Nat.ne_of_lt h]
  · simp [hj]
  · have hne : ¬j - n = 0 := by omega
    simp [hne, Nat.ne_of_gt h]

/-- Above `n`, a byte below `2 ^ n` has no bit. -/
theorem getLsbD_eq_false_of_lt {b : Byte} {n j : Nat} (h : b.toNat < 2 ^ n) (hj : n ≤ j) : b.getLsbD j = false :=
  Nat.testBit_lt_two_pow (h.trans_le (Nat.pow_le_pow_right (by decide) hj))

theorem controlByte_cons_toNat {b : Bool} {bs : List Bool} (h : (controlByte bs).toNat < 2 ^ 7) :
    (controlByte (b :: bs)).toNat = b.toNat + 2 * (controlByte bs).toNat := by
  have := b.toNat_le
  rw [controlByte, BitVec.toNat_ofNat]
  omega

/-- A control byte of `n` bits is below `2 ^ n` (R72, R77: the unused high bits are 0). -/
theorem controlByte_lt {bs : List Bool} (h : bs.length ≤ 8) : (controlByte bs).toNat < 2 ^ bs.length := by
  induction bs with
  | nil => decide
  | cons b bs ih =>
    rw [List.length_cons] at h
    have hlt := ih (by omega)
    have h7 : 2 ^ bs.length ≤ 2 ^ 7 := Nat.pow_le_pow_right (by decide) (by omega)
    have := b.toNat_le
    rw [controlByte_cons_toNat (by omega), List.length_cons, Nat.pow_succ]
    omega

/-- The j-th bit of a group stands at bit j of its control byte (R38). -/
theorem getLsbD_controlByte {bs : List Bool} (h : bs.length ≤ 8) (j : Nat) :
    (controlByte bs).getLsbD j = bs.getD j false := by
  induction bs generalizing j with
  | nil => simp [controlByte]
  | cons b bs ih =>
    rw [List.length_cons] at h
    have h7 : 2 ^ bs.length ≤ 2 ^ 7 := Nat.pow_le_pow_right (by decide) (by omega)
    have hlt := controlByte_lt (bs := bs) (by omega)
    have hn := controlByte_cons_toNat (b := b) (bs := bs) (by omega)
    rw [BitVec.getLsbD, hn, Nat.add_comm]
    cases j with
    | zero => cases b <;> simp
    | succ j =>
      have hdiv : (2 * (controlByte bs).toNat + b.toNat) / 2 = (controlByte bs).toNat := by
        have := b.toNat_lt
        omega
      rw [Nat.testBit_succ, hdiv]
      exact ih (by omega) j

/-! ## The reader (R74, R78) -/

theorem getLsbD_shiftBit_ctl (r : Reader) (j : Nat) : r.shiftBit.2.ctl.getLsbD j = r.ctl.getLsbD (j + 1) := by
  simp [Reader.shiftBit, Nat.add_comm]

/-! ## The PBS writer (R67, R68) -/

theorem putBit_of_lt {w : PbsWriter} (h : w.npend < 8) (v : Bool) :
    w.putBit v = { w with pend := w.pend ||| (BitVec.ofNat 8 v.toNat <<< w.npend), npend := w.npend + 1 } := by
  simp [PbsWriter.putBit, PbsWriter.rollIfFull, Nat.ne_of_lt h]

/-- With its group full, the writer first rolls over (R67). -/
theorem putBit_of_full {w : PbsWriter} (h : w.npend = 8) (v : Bool) :
    w.putBit v = { w.rollover with pend := 0#8 ||| (BitVec.ofNat 8 v.toNat <<< 0), npend := 1 } := by
  simp [PbsWriter.putBit, PbsWriter.rollIfFull, h]

/-- A new control bit is bit 0 of an empty control byte. -/
theorem getLsbD_first_bit (v : Bool) (j : Nat) :
    (0#8 ||| (BitVec.ofNat 8 v.toNat <<< 0)).getLsbD j = (decide (j = 0) && v) := by
  rw [BitVec.getLsbD_or]
  by_cases hj : j < 8
  · rw [getLsbD_bit_shiftLeft v 0 j hj]
    simp
  · have hne : ¬j = 0 := by omega
    simp [BitVec.getLsbD_of_ge _ _ (Nat.le_of_not_lt hj), hne]

/-! ## The BBS writer (R77) -/

theorem openGroup_of_lt {c : Bc0c} (h : c.gbits < 8) : c.openGroup = c := by
  simp [Bc0c.openGroup, Nat.ne_of_lt h]

theorem openGroup_of_full {c : Bc0c} (h : c.gbits = 8) :
    c.openGroup = { c with gctl := some c.out.length, out := c.out ++ [0#8], gbits := 0 } := by
  simp [Bc0c.openGroup, h]

/-- Into an open group, an opcode's control bit is ORed into the group's control byte. -/
theorem emit_out_of_lt {c : Bc0c} {g : Nat} (h : c.gbits < 8) (hg : c.gctl = some g) (v : Bool) (data : Bytes) :
    (c.emit v data).out = c.out.modify g (fun ctl => ctl ||| (BitVec.ofNat 8 v.toNat <<< c.gbits)) ++ data := by
  simp only [Bc0c.emit, openGroup_of_lt h, hg, markControl]

/-- With the group full, an opcode opens one at the end of the output, and its control bit is that group's first. -/
theorem emit_of_full {c : Bc0c} (h : c.gbits = 8) (v : Bool) (data : Bytes) :
    c.emit v data = { c with
      gctl := some c.out.length
      out := c.out ++ (0#8 ||| (BitVec.ofNat 8 v.toNat <<< 0)) :: data
      gbits := 1 } := by
  simp [Bc0c.emit, openGroup_of_full h, markControl, List.modify_eq_take_cons_drop]

/-- Settles O7: a control byte by induction on its group, the readers by the shift, the writers by the bit they OR in. -/
theorem controlBitsAreLeastSignificantFirst : Obligations.ControlBitsAreLeastSignificantFirst := by
  refine ⟨fun bs h j _ => getLsbD_controlByte h j, fun r h => ?_, fun r c h hc => ?_, fun w v h hlt j hj => ?_,
    fun c v data g old h hg hold => ?_, fun w v h hlt => ?_, fun c v data h => ?_⟩
  · exact ⟨r.shiftBit.2, getBit_of_left (Nat.ne_of_gt h), getLsbD_shiftBit_ctl r⟩
  · exact ⟨_, getBit_fetch h hc, rfl, getLsbD_shiftBit_ctl _⟩
  · rw [putBit_of_lt h, BitVec.getLsbD_or, getLsbD_bit_shiftLeft v _ j hj]
    by_cases hjn : j = w.npend
    · simp [hjn, getLsbD_eq_false_of_lt hlt]
    · simp [hjn]
  · have hlen := pos_lt_of_get hold
    refine ⟨old ||| (BitVec.ofNat 8 v.toNat <<< c.gbits), ?_, fun j hj => ?_⟩
    · rw [emit_out_of_lt h hg, List.getElem?_append_left (by simpa using hlen), List.getElem?_modify_eq, hold]
      rfl
    · rw [BitVec.getLsbD_or, getLsbD_bit_shiftLeft v _ j hj]
      by_cases hjn : j = c.gbits <;> simp [hjn]
  · rw [putBit_of_full h]
    refine ⟨rfl, getLsbD_first_bit v, ?_, rfl⟩
    rw [PbsWriter.rollover_out, List.getElem?_append_left (by simpa using hlt), List.getElem?_set_self hlt]
  · rw [emit_of_full h]
    refine ⟨rfl, rfl, ⟨_, ?_, getLsbD_first_bit v⟩, fun k hk => List.getElem?_append_left hk⟩
    simp

end Sys2Proof.Machine
end

section
/-!
PROOFS. Family 20_memory: a PRS copy repeats the output from its source on (R44, R100 to R104).
-/

namespace Sys2Proof.Machine

/-! ## The byte-serial copy as a repetition (R44) -/

theorem repeated_length (out : Bytes) (src k : Nat) : (repeated out src k).length = k := by simp [repeated]

theorem repeated_succ (out : Bytes) (src k : Nat) :
    repeated out src (k + 1) = repeated out src k ++ [out.getD (src + k % (out.length - src)) 0#8] := by
  simp [repeated, List.range_succ]

/-- After `k` bytes of a copy, the next byte read is byte `k` of the repetition: from the output as it was for `k` below the
distance, else a byte that the copy itself has appended. -/
theorem getElem?_append_repeated {out : Bytes} {src : Nat} (h : src < out.length) (k : Nat) :
    (out ++ repeated out src k)[src + k]? = some (out.getD (src + k % (out.length - src)) 0#8) := by
  by_cases hk : src + k < out.length
  · rw [List.getElem?_append_left hk, Nat.mod_eq_of_lt (by omega), List.getD_eq_getElem _ _ hk,
      List.getElem?_eq_getElem hk]
  · have hback : src + k - out.length = k - (out.length - src) := by omega
    have hlt : k - (out.length - src) < (repeated out src k).length := by rw [repeated_length]; omega
    rw [List.getElem?_append_right (by omega), hback, List.getElem?_eq_getElem hlt, Nat.mod_eq_sub_mod (by omega)]
    simp [repeated]

/-- The rest of a copy, from its byte `k` on. -/
theorem copyOut_repeated_from {out : Bytes} {src : Nat} (h : src < out.length) (n k : Nat) :
    copyOut (src + k) n (out ++ repeated out src k) = some (out ++ repeated out src (k + n)) := by
  induction n generalizing k with
  | zero => rfl
  | succ n ih =>
    rw [copyOut, getElem?_append_repeated h]
    simp only [List.append_assoc, ← repeated_succ]
    rw [Nat.add_assoc, ih, Nat.add_assoc, Nat.add_comm 1 n]

/-- A copy from inside the output appends the repetition of the output from its source on. -/
theorem copyOut_eq_repeated {out : Bytes} {src : Nat} (h : src < out.length) (cnt : Nat) :
    copyOut src cnt out = some (out ++ repeated out src cnt) := by
  simpa [repeated] using copyOut_repeated_from h cnt 0

/-! ## The copies on an instance (R100 to R104) -/

theorem isPrsOp_of_isPrsCopy {i : Instr} {off : Int} {cnt : Nat} (h : IsPrsCopy i off cnt) : isPrsOp i = true := by
  obtain rfl | rfl | rfl := h <;> rfl

/-- The three copies are one primitive after their record (R102 to R104). -/
theorem prsdOp_of_isPrsCopy {i : Instr} {off : Int} {cnt : Nat} (h : IsPrsCopy i off cnt) (p : Prsd) :
    prsdOp i p = prsdCopy off cnt (p.record i) := by
  obtain rfl | rfl | rfl := h <;> rfl

/-- A copy from inside the output and within the bound (R44, R100). -/
theorem prsdCopy_eq_ok {p : Prsd} {off : Int} {cnt : Nat} (hlen : p.mode = .bytes → p.out.length = p.outLen)
    (hneg : off < 0) (hsrc : 0 ≤ (p.outLen : Int) + off) (hbound : WithinBound p (p.outLen + cnt)) :
    prsdCopy off cnt p = .ok { p with
      out := if p.mode = .bytes then p.out ++ repeated p.out ((p.outLen : Int) + off).toNat cnt else p.out
      outLen := p.outLen + cnt } := by
  have hback : backrefBad p.outLen off = false := by
    simp only [backrefBad, Bool.or_eq_false_iff, decide_eq_false_iff_not]
    unfold copySource
    omega
  have hlimit : overLimit p.maxOut (p.outLen + cnt) = false := overLimit_eq_false.mpr hbound
  by_cases hm : p.mode = .bytes
  · have hin : ((p.outLen : Int) + off).toNat < p.out.length := by rw [hlen hm]; omega
    simp [prsdCopy, hback, hlimit, hm, copySource, copyOut_eq_repeated hin]
  · simp [prsdCopy, hback, hlimit, hm]

/-- Settles O10: the copy primitive after the record, with the byte-serial copy as a repetition. -/
theorem prsCopyRepeatsEarlierOutput : Obligations.PrsCopyRepeatsEarlierOutput := by
  intro s p i off cnt ⟨hactive, hrunning⟩ hcopy hlen hneg hsrc hbound
  have hop : prsdOp i p = .ok { p with
      out := if p.mode = .bytes then p.out ++ repeated p.out ((p.outLen : Int) + off).toNat cnt else p.out
      outLen := p.outLen + cnt
      trace := p.trace ++ prsTraced p i } := by
    rw [prsdOp_of_isPrsCopy hcopy, Prsd.record_eq]
    exact prsdCopy_eq_ok (p := { p with trace := p.trace ++ prsTraced p i }) hlen hneg hsrc hbound
  rw [exec_prsOp (isPrsOp_of_isPrsCopy hcopy), onPrsd_running hactive hrunning, hop]
  simp [prsNewItems_of_trace_append (l := prsTraced p i), State.writeSink]

end Sys2Proof.Machine
end

section
/-!
PROOFS. Family 20_memory: a BC0 copy repeats the memo from its slot on, round the memo and across the cursor (R45, R121).
-/

namespace Sys2Proof.Machine

/-! ## The copy, one byte more at its end -/

theorem bc0dCopy_succ (n : Nat) (m : BitVec 12) (d : Bc0d) :
    bc0dCopy (n + 1) m d =
      (bc0dCopy n m d).put (memoRead (bc0dCopy n m d).memo (m + BitVec.ofNat 12 n)) := by
  induction n generalizing m d with
  | zero => simp [bc0dCopy]
  | succ n ih =>
    rw [bc0dCopy, ih, ← bc0dCopy, BitVec.add_assoc, ← BitVec.ofNat_add, Nat.add_comm 1 n]

/-- A copy changes only `OUT`, `out_len`, the memo and the cursor; the last two as these say (R121). -/
theorem bc0dCopy_eq (n : Nat) (m : BitVec 12) (d : Bc0d) :
    bc0dCopy n m d = { d with
      out := (bc0dCopy n m d).out
      memo := (bc0dCopy n m d).memo
      outLen := d.outLen + n
      cur := d.cur + BitVec.ofNat 12 n } := by
  obtain ⟨hrd, hmode, htrace, hmark, hdone, hsink⟩ := bc0dCopy_frame n m d
  rw [← bc0dCopy_outLen n m d, ← bc0dCopy_cur n m d, ← hrd, ← hmode, ← htrace, ← hmark, ← hdone, ← hsink]

/-- TRACE mode keeps neither bytes nor memo (R28). -/
theorem bc0dCopy_of_trace {d : Bc0d} (hm : d.mode = .trace) (n : Nat) (m : BitVec 12) :
    (bc0dCopy n m d).out = d.out ∧ (bc0dCopy n m d).memo = d.memo := by
  induction n with
  | zero => exact ⟨rfl, rfl⟩
  | succ n ih =>
    have hmode : (bc0dCopy n m d).mode = .trace := by rwa [(bc0dCopy_frame n m d).2.1]
    rw [bc0dCopy_succ, Bc0d.put_trace_mode _ _ hmode]
    exact ih

/-! ## The copied bytes in terms of the memo before the copy (R45) -/

/-- Byte `k` of the copy. -/
def memoRepeatedByte (memo : Memory) (cur m : BitVec 12) (k : Nat) : Byte :=
  memoRead memo (m + BitVec.ofNat 12 (if m = cur then k else k % (cur - m).toNat))

theorem memoRepeated_length (memo : Memory) (cur m : BitVec 12) (n : Nat) : (memoRepeated memo cur m n).length = n := by
  simp [memoRepeated]

theorem memoRepeated_succ (memo : Memory) (cur m : BitVec 12) (n : Nat) :
    memoRepeated memo cur m (n + 1) = memoRepeated memo cur m n ++ [memoRepeatedByte memo cur m n] := by
  simp [memoRepeated, memoRepeatedByte, List.range_succ]

theorem memoRepeated_getD (memo : Memory) (cur m : BitVec 12) {n k : Nat} (hk : k < n) :
    (memoRepeated memo cur m n).getD k 0#8 = memoRepeatedByte memo cur m k := by
  rw [List.getD_eq_getElem _ _ (by rwa [memoRepeated_length])]
  simp [memoRepeated, memoRepeatedByte]

/-- The memo after `n` bytes of the copy: slots `cur`, `cur + 1`, … hold them, the others are as before. -/
def CopiedMemo (memo : Memory) (cur m : BitVec 12) (n : Nat) (memo' : Memory) : Prop :=
  ∀ a : BitVec 12, memoRead memo' a =
    if (a - cur).toNat < n then memoRepeatedByte memo cur m (a - cur).toNat else memoRead memo a

/-- The next byte read is byte `n` of the copy. With `m = cur` its slot is not yet written; else it is once the copy is past
the distance, and then it holds the byte one distance before. -/
theorem CopiedMemo.next_read {memo memo' : Memory} {cur m : BitVec 12} {n : Nat} (h : CopiedMemo memo cur m n memo')
    (hn : n < 4096) : memoRead memo' (m + BitVec.ofNat 12 n) = memoRepeatedByte memo cur m n := by
  have hdist : (m + BitVec.ofNat 12 n - cur).toNat = (n + 4096 - (cur - m).toNat) % 4096 := by
    have := (cur - m).isLt
    bv_omega
  rw [h, hdist]
  by_cases hm : m = cur
  · subst hm
    have hself : (n + 4096 - (m - m).toNat) % 4096 = n := by simp; omega
    rw [hself, if_neg (Nat.lt_irrefl n), memoRepeatedByte, if_pos rfl]
  · have hpos : 0 < (cur - m).toNat := by bv_omega
    have hlt := (cur - m).isLt
    by_cases hk : n < (cur - m).toNat
    · rw [if_neg (by omega), memoRepeatedByte, if_neg hm, Nat.mod_eq_of_lt hk]
    · have hback : (n + 4096 - (cur - m).toNat) % 4096 = n - (cur - m).toNat := by omega
      rw [hback, if_pos (by omega), memoRepeatedByte, memoRepeatedByte, if_neg hm, if_neg hm,
        Nat.mod_eq_sub_mod (Nat.le_of_not_lt hk)]

/-- Putting byte `n` into its slot `cur + n`. -/
theorem CopiedMemo.write {memo memo' : Memory} {cur m : BitVec 12} {n : Nat} (h : CopiedMemo memo cur m n memo')
    (hwf : Memory.wf memo' = true) (hn : n < 4096) :
    CopiedMemo memo cur m (n + 1)
      (memoWrite memo' (cur + BitVec.ofNat 12 n) (memoRepeatedByte memo cur m n)) := by
  intro a
  have hslot : a = cur + BitVec.ofNat 12 n ↔ (a - cur).toNat = n := by bv_omega
  rw [memoRead_memoWrite hwf, h a]
  by_cases ha : (a - cur).toNat = n
  · simp [hslot, ha]
  · have hsucc : (a - cur).toNat < n + 1 ↔ (a - cur).toNat < n := by omega
    simp only [mt hslot.mp ha, if_false, hsucc]

/-- The whole copy in BYTES mode, of at most 4096 bytes: what it appends, and the memo after it (R45, R121). -/
theorem bc0dCopy_of_bytes {d : Bc0d} (hm : d.mode ≠ .trace) (hwf : Memory.wf d.memo = true) (m : BitVec 12) {n : Nat}
    (hn : n ≤ 4096) :
    (bc0dCopy n m d).out = d.out ++ memoRepeated d.memo d.cur m n ∧
      CopiedMemo d.memo d.cur m n (bc0dCopy n m d).memo := by
  induction n with
  | zero => exact ⟨by simp [bc0dCopy, memoRepeated], fun a => by simp [bc0dCopy]⟩
  | succ n ih =>
    obtain ⟨hout, hmemo⟩ := ih (by omega)
    have hmode : (bc0dCopy n m d).mode ≠ .trace := by rwa [(bc0dCopy_frame n m d).2.1]
    rw [bc0dCopy_succ, hmemo.next_read hn, Bc0d.put_out _ _ hmode, Bc0d.put_memo _ _ hmode, bc0dCopy_cur, hout,
      memoRepeated_succ, List.append_assoc]
    exact ⟨rfl, hmemo.write (bc0dCopy_memo_wf n m hwf) hn⟩

/-- Settles O18: BREF is the record and the copy, whose bytes and memo `bc0dCopy_of_bytes` gives. -/
theorem brefCopiesThroughTheMemo : Obligations.BrefCopiesThroughTheMemo := by
  intro s d m cnt ⟨hactive, hrunning⟩ hwf hcnt
  refine ⟨bc0dRef m cnt d, ?_, ?_, fun hm => ?_, fun hm => ?_⟩
  · have hnew : (bc0dRef m cnt d).trace = d.trace ++ bc0Traced d (.bref m cnt) := by
      rw [bc0dRef, (bc0dCopy_frame _ _ _).2.2.1, Bc0d.record_eq]
    rw [show exec (.bref m cnt) s = onBc0d (bc0dRef m cnt) s from rfl, onBc0d_running hactive hrunning,
      bc0NewItems_of_trace_append hnew]
    simp [State.writeSink]
  · rw [bc0dRef, Bc0d.record_eq]
    exact bc0dCopy_eq cnt m _
  · have hcopy := bc0dCopy_of_trace (d := d.record (.bref m cnt)) (by simpa using hm) cnt m
    simpa [bc0dRef] using hcopy
  · rw [bc0dRef, Bc0d.record_of_not_trace d _ hm]
    obtain ⟨hout, hmemo⟩ := bc0dCopy_of_bytes hm hwf m hcnt
    refine ⟨hout, bc0dCopy_memo_wf cnt m hwf, fun a => ?_⟩
    rw [hmemo a]
    by_cases ha : (a - d.cur).toNat < cnt
    · rw [if_pos ha, if_pos ha, memoRepeated_getD _ _ _ ha]
    · rw [if_neg ha, if_neg ha]

end Sys2Proof.Machine
end

section
/-!
PROOFS. Family 20_memory: a step leaves the parked threads and the rest of the schedule to the machine (R47, R148).
-/

namespace Sys2Proof.Machine

/-! ## Outcomes that leave the other threads alone -/

/-- Where there is a next state, its parked threads and its schedule are those of `s`. -/
def LeavesThreads (s : State) : Out → Prop
  | .next t => t.parked = s.parked ∧ t.schedule = s.schedule
  | .fault _ => True
  | .refused _ => True

/-- A state with the same other threads may stand for the first. -/
theorem LeavesThreads.of_same {s t : State} {o : Out} (h : LeavesThreads t o)
    (hst : t.parked = s.parked ∧ t.schedule = s.schedule) : LeavesThreads s o := by
  cases o with
  | next u => exact ⟨h.1.trans hst.1, h.2.trans hst.2⟩
  | fault r => trivial
  | refused r => trivial

theorem whenIdle_leavesThreads {s u : State} {o : Out} (h : LeavesThreads s o) : LeavesThreads s (whenIdle u o) := by
  unfold whenIdle
  split
  · exact h
  · trivial

theorem withPrsc_leavesThreads {s u : State} {k : Nat} {f : Prsc → Out} (h : ∀ p, LeavesThreads s (f p)) :
    LeavesThreads s (withPrsc u k f) := by
  unfold withPrsc
  split
  · exact h _
  all_goals trivial

theorem withLevel_leavesThreads {s : State} {level : Int} {f : Nat → Out} (h : ∀ n, LeavesThreads s (f n)) :
    LeavesThreads s (withLevel level f) := by
  cases level with
  | ofNat n => exact h n
  | negSucc n => trivial

theorem unlessActing_leavesThreads {s : State} {pr : Progress} {launched atomic : Out}
    (hl : LeavesThreads s launched) (ha : LeavesThreads s atomic) :
    LeavesThreads s (unlessActing pr launched atomic) := by
  unfold unlessActing
  split
  · exact hl
  · exact ha

theorem andThen_notify_leavesThreads {s : State} {pr : Progress} {mk : Nat → Note} {pts : List Nat} {f : State → Out}
    (h : ∀ ns, LeavesThreads s (f { s with notes := ns })) : LeavesThreads s (andThen (notify pr mk pts s) f) := by
  cases hn : notify pr mk pts s with
  | next t =>
    obtain ⟨ns, rfl⟩ := notify_next hn
    exact h _
  | fault r => trivial
  | refused r => trivial

/-- A response ends the command of its own thread only (R14, R141). -/
theorem returnOk_leavesThreads (s : State) (r : Result) : LeavesThreads s (.next (s.returnOk r)) := by
  simp [LeavesThreads]

theorem raise_leavesThreads (s : State) (e : EngineError) : LeavesThreads s (.next (s.raise e)) := by
  simp [LeavesThreads]

/-! ## Instructions -/

theorem onPrsd_leavesThreads (f : Prsd → PrsdOut) (s : State) : LeavesThreads s (onPrsd f s) := by
  cases h : onPrsd f s with
  | next t =>
    obtain ⟨p, -, -, ⟨p', -, rfl⟩ | ⟨p', e, -, rfl⟩⟩ := onPrsd_next h
    · exact ⟨rfl, rfl⟩
    · exact raise_leavesThreads (s.writeSink _ _) e
  | fault r => trivial
  | refused r => trivial

theorem onBc0d_leavesThreads (f : Bc0d → Bc0d) (s : State) : LeavesThreads s (onBc0d f s) := by
  cases h : onBc0d f s with
  | next t =>
    obtain ⟨d, -, -, rfl⟩ := onBc0d_next h
    exact ⟨rfl, rfl⟩
  | fault r => trivial
  | refused r => trivial

theorem launchAdd_leavesThreads (k : Nat) (bytes : Bytes) (p : Prsc) (s : State) :
    LeavesThreads s (launchAdd k bytes p s) := by
  unfold launchAdd
  split
  · exact raise_leavesThreads s _
  · exact ⟨rfl, rfl⟩

theorem launchClose_leavesThreads (k : Nat) (p : Prsc) (s : State) : LeavesThreads s (launchClose k p s) := by
  unfold launchClose
  split
  · exact returnOk_leavesThreads s _
  · split
    · exact raise_leavesThreads s _
    · exact ⟨rfl, rfl⟩

theorem execPrscNew_leavesThreads (level : Int) (pr : Progress) (s : State) :
    LeavesThreads s (execPrscNew level pr s) :=
  whenIdle_leavesThreads (withLevel_leavesThreads fun _ => ⟨rfl, rfl⟩)

theorem prsdDeliver_leavesThreads (o : PrsdOut) (s : State) : LeavesThreads s (prsdDeliver o s) := by
  cases o with
  | ok p => exact returnOk_leavesThreads ((s.writeSink _ _).writeSink _ _) _
  | raised p e => exact raise_leavesThreads (s.writeSink _ _) e
  | fault r => trivial

theorem bc0dDeliver_leavesThreads (o : Option Bc0d) (s : State) : LeavesThreads s (bc0dDeliver o s) := by
  cases o with
  | some d => exact returnOk_leavesThreads ((s.writeSink _ _).writeSink _ _) _
  | none => trivial

/-- Every instruction works on the current thread. -/
theorem exec_leavesThreads (i : Instr) (s : State) : LeavesThreads s (exec i s) := by
  cases i with
  | lit | scopy | lcopy | ecopy | stop =>
    rw [exec_prsOp rfl]
    exact onPrsd_leavesThreads _ s
  | blit | bref => exact onBc0d_leavesThreads _ s
  | prsCompress bytes level pr =>
    exact whenIdle_leavesThreads (withLevel_leavesThreads fun _ =>
      unlessActing_leavesThreads ⟨rfl, rfl⟩ (andThen_notify_leavesThreads fun _ => ⟨rfl, rfl⟩))
  | prscNew level pr => exact execPrscNew_leavesThreads level pr s
  | prscAdd k bytes =>
    exact whenIdle_leavesThreads (withPrsc_leavesThreads fun p =>
      unlessActing_leavesThreads (launchAdd_leavesThreads k bytes p s)
        (andThen_notify_leavesThreads fun _ => ⟨rfl, rfl⟩))
  | prscClose k =>
    exact whenIdle_leavesThreads (withPrsc_leavesThreads fun p =>
      unlessActing_leavesThreads (launchClose_leavesThreads k p s)
        (andThen_notify_leavesThreads fun _ => ⟨rfl, rfl⟩))
  | bc0Compress bytes pr =>
    exact whenIdle_leavesThreads (unlessActing_leavesThreads ⟨rfl, rfl⟩
      (andThen_notify_leavesThreads fun _ => ⟨rfl, rfl⟩))
  | prsDecompress | prsDecompressSize | prsDisassemble =>
    exact whenIdle_leavesThreads (prsdDeliver_leavesThreads _ s)
  | bc0Decompress | bc0Disassemble => exact whenIdle_leavesThreads (bc0dDeliver_leavesThreads _ s)

/-! ## What a thread turns to -/

theorem launch_leavesThreads (i : Instr) (s : State) : LeavesThreads s (launch i s) := by
  refine whenIdle_leavesThreads ?_
  cases i with
  | prsCompress => exact withLevel_leavesThreads fun _ => ⟨rfl, rfl⟩
  | prscNew level pr => exact execPrscNew_leavesThreads level pr s
  | prscAdd k bytes => exact withPrsc_leavesThreads fun p => launchAdd_leavesThreads k bytes p s
  | prscClose k => exact withPrsc_leavesThreads fun p => launchClose_leavesThreads k p s
  | lit | scopy | lcopy | ecopy | stop | blit | bref => trivial
  | _ => exact ⟨rfl, rfl⟩

theorem discard_leavesThreads (k : Nat) (s : State) : LeavesThreads s (discard k s) := by
  cases h : discard k s with
  | next t =>
    obtain ⟨-, rfl⟩ := discard_next h
    exact ⟨rfl, rfl⟩
  | fault r => trivial
  | refused r => trivial

theorem resumeBc0c_leavesThreads (c : Bc0c) (n : Nat) (s : State) : LeavesThreads s (.next (resumeBc0c c n s)) := by
  obtain ⟨he, -⟩ | ⟨k, left, -, -, he, -⟩ := resumeBc0c_cases c n s <;> rw [he] <;> exact ⟨rfl, rfl⟩

theorem resumePrsc_leavesThreads (slot : Option Nat) (p : Prsc) (job : PrscJob) (ms : List PrscMove) (s : State) :
    LeavesThreads s (.next (resumePrsc slot p job ms s)) := by
  obtain ⟨q, he, -⟩ | ⟨q, e, he, -⟩ | ⟨q, left, he, -⟩ := resumePrsc_cases slot p job ms s <;> rw [he]
  · exact ⟨rfl, rfl⟩
  · exact raise_leavesThreads { s with active := .prsc slot q job } e
  · exact ⟨rfl, rfl⟩

theorem returnCallback_leavesThreads (s : State) : LeavesThreads s (returnCallback s) := by
  obtain ⟨-, he⟩ | ⟨c, left, cs, -, he⟩ | ⟨slot, p, job, left, cs, -, he⟩ := returnCallback_cases s <;> rw [he]
  · trivial
  · exact resumeBc0c_leavesThreads c left { s with calls := cs }
  · exact resumePrsc_leavesThreads slot p job left { s with calls := cs }

theorem bc0cStep_leavesThreads (c : Bc0c) (s : State) : LeavesThreads s (bc0cStep c s) := by
  unfold bc0cStep
  split
  · split
    · split
      · exact ⟨rfl, rfl⟩
      · exact resumeBc0c_leavesThreads _ _ s
    · exact andThen_notify_leavesThreads fun _ => ⟨rfl, rfl⟩
  · exact returnOk_leavesThreads s _

theorem settle_leavesThreads (s : State) (e : Option EngineError) : LeavesThreads s (.next (s.settle e)) := by
  cases e with
  | none => exact ⟨rfl, rfl⟩
  | some e => exact raise_leavesThreads s e

theorem prscAdvance_leavesThreads (slot : Option Nat) (p : Prsc) (job : PrscJob) (s : State) :
    LeavesThreads s (prscAdvance slot p job s) := by
  unfold prscAdvance
  split
  · exact resumePrsc_leavesThreads slot p job _ s
  · exact andThen_notify_leavesThreads fun _ => settle_leavesThreads { s with active := _, notes := _ } _

theorem prscStep_leavesThreads (slot : Option Nat) (p : Prsc) (job : PrscJob) (s : State) :
    LeavesThreads s (prscStep slot p job s) := by
  cases job <;> simp only [prscStep] <;> split
  case adding.isFalse => exact returnOk_leavesThreads s _
  case closing.isFalse => exact returnOk_leavesThreads { s with active := _ } _
  case oneShot.isFalse => exact ⟨rfl, rfl⟩
  all_goals exact prscAdvance_leavesThreads slot p _ s

/-! ## The step -/

/-- What the machine turns to leaves the other threads alone: the state an instruction executes in, or the outcome. -/
def Fetched.LeavesThreads (s : State) : Fetched → Prop
  | .run _ t => t.parked = s.parked ∧ t.schedule = s.schedule
  | .outcome o => Machine.LeavesThreads s o

theorem fetchHost_leavesThreads (s : State) : (fetchHost s).LeavesThreads s := by
  unfold fetchHost
  split
  · exact ⟨rfl, rfl⟩
  · exact ⟨rfl, rfl⟩
  · exact launch_leavesThreads _ { s with host := _ }
  · exact discard_leavesThreads _ { s with host := _ }
  · exact returnCallback_leavesThreads { s with host := _ }

theorem fetchPrsd_leavesThreads (p : Prsd) (s : State) : (fetchPrsd p s).LeavesThreads s := by
  unfold fetchPrsd
  split
  · exact returnOk_leavesThreads (s.writeSink _ _) _
  · split
    · exact ⟨rfl, rfl⟩
    · split
      · exact raise_leavesThreads s _
      · exact ⟨rfl, rfl⟩

theorem fetchBc0d_leavesThreads (d : Bc0d) (s : State) : (fetchBc0d d s).LeavesThreads s := by
  unfold fetchBc0d
  split
  · exact returnOk_leavesThreads (s.writeSink _ _) _
  · split <;> exact ⟨rfl, rfl⟩

theorem fetchCurrent_leavesThreads (s : State) : (fetchCurrent s).LeavesThreads s := by
  unfold fetchCurrent
  split
  · exact fetchHost_leavesThreads s
  · exact fetchPrsd_leavesThreads _ s
  · exact fetchBc0d_leavesThreads _ s
  · exact bc0cStep_leavesThreads _ s
  · exact prscStep_leavesThreads _ _ _ s

/-- Once the schedule's head is taken, a step moves the thread that is current then, and no other (R148). -/
theorem step_leavesThreads (s : State) : LeavesThreads s.reschedule (step s) := by
  have hfetch : (fetch s).LeavesThreads s.reschedule := fetchCurrent_leavesThreads s.reschedule
  unfold step
  split
  · next i t he =>
    rw [he] at hfetch
    exact (exec_leavesThreads i t).of_same hfetch
  · next o he => rwa [he] at hfetch

/-- Settles O51: the parked threads and the schedule after a step are those of `State.reschedule`, in each of its cases. -/
theorem threadsDoNotTouchEachOther : Obligations.ThreadsDoNotTouchEachOther := by
  intro s t hstep
  have hleaves := step_leavesThreads s
  rw [hstep] at hleaves
  obtain ⟨hparked, hsched⟩ := hleaves
  rw [hparked, hsched]
  refine ⟨fun h => ?_, fun rest h => ?_, fun k rest h hk => ?_, fun k rest th h hk => ?_⟩
  · rw [reschedule_nil s h]
    exact ⟨rfl, h⟩
  · simp [State.reschedule, h]
  · simp [State.reschedule, h, hk]
  · simp [State.reschedule, h, hk, State.thread]

end Sys2Proof.Machine
end

section
/-!
PROOFS. Family 20_memory: what a launched command comes to (R18, R42): the steps it takes, and its notifications on the way.
-/

namespace Sys2Proof.Machine

/-! ## Outcomes that come to another in some steps -/

/-- From the outcome `o`, some number of further steps come to the outcome `o'`. -/
def LeadsTo (o o' : Out) : Prop := ∃ n, andThen o (Host.Core.run Sys2Proof.core n) = o'

theorem LeadsTo.refl (o : Out) : LeadsTo o o := ⟨0, by cases o <;> rfl⟩

/-- One step, and the steps after it. -/
theorem run_succ (n : Nat) (s : State) :
    Host.Core.run Sys2Proof.core (n + 1) s = andThen (step s) (Host.Core.run Sys2Proof.core n) := by
  have hcore : Sys2Proof.core.step s = step s := rfl
  cases h : step s <;> simp only [Host.Core.run, hcore, h, andThen] <;> rfl

theorem LeadsTo.step {s : State} {o : Out} (h : LeadsTo (step s) o) : LeadsTo (.next s) o := by
  obtain ⟨n, hn⟩ := h
  exact ⟨n + 1, (run_succ n s).trans hn⟩

theorem withLevel_leadsTo (level : Int) {f g : Nat → Out} (h : ∀ n, LeadsTo (f n) (g n)) :
    LeadsTo (withLevel level f) (withLevel level g) := by
  cases level with
  | ofNat n => exact h n
  | negSucc n => exact .refl _

theorem withPrsc_leadsTo (s : State) (k : Nat) {f g : Prsc → Out}
    (h : ∀ p, s.prscs[k]? = some (.live p) → LeadsTo (f p) (g p)) :
    LeadsTo (withPrsc s k f) (withPrsc s k g) := by
  unfold withPrsc
  split
  · next p hp => exact h p hp
  all_goals exact .refl _

/-- A command with an acting callback is launched in any case; else it comes to the atomic one. -/
theorem leadsTo_unlessActing (pr : Progress) {launched atomic : Out} (h : pr ≠ .acting → LeadsTo launched atomic) :
    LeadsTo launched (unlessActing pr launched atomic) := by
  by_cases hpr : pr = .acting
  · rw [hpr]
    exact .refl _
  · rw [unlessActing_of_ne hpr]
    exact h hpr

/-! ## Notifications on the way (R132) -/

/-- What notifications come to does not depend on the state: new notes, a fault or a refusal. -/
theorem notify_cases (pr : Progress) (mk : Nat → Note) (pts : List Nat) :
    (∃ ns, ∀ s, notify pr mk pts s = .next { s with notes := s.notes ++ ns }) ∨
      (∃ r, ∀ s, notify pr mk pts s = .fault r) ∨ ∃ r, ∀ s, notify pr mk pts s = .refused r := by
  cases pr with
  | absent => exact .inl ⟨[], fun s => by simp [notify]⟩
  | returning => exact .inl ⟨_, fun _ => rfl⟩
  | acting => exact .inl ⟨_, fun _ => rfl⟩
  | hangsAt b =>
    by_cases hb : b ∈ pts
    · exact .inr (.inl ⟨_, fun s => by simp only [notify, hb, if_true]; rfl⟩)
    · exact .inl ⟨pts.map mk, fun s => by simp only [notify, hb, if_false]⟩
  | unwindsAt b =>
    by_cases hb : b ∈ pts
    · exact .inr (.inr ⟨_, fun s => by simp only [notify, hb, if_true]; rfl⟩)
    · exact .inl ⟨pts.map mk, fun s => by simp only [notify, hb, if_false]⟩

@[simp] theorem notify_nil (pr : Progress) (mk : Nat → Note) (s : State) : notify pr mk [] s = .next s := by
  cases pr <;> simp [notify]

/-- Notifying in two parts. -/
theorem notify_append (pr : Progress) (mk : Nat → Note) (a b : List Nat) (s : State) :
    notify pr mk (a ++ b) s = andThen (notify pr mk a s) (notify pr mk b) := by
  cases pr with
  | absent => rfl
  | returning => simp [notify]
  | acting => simp [notify]
  | hangsAt x => by_cases ha : x ∈ a <;> simp [notify, ha, andThen]
  | unwindsAt x => by_cases ha : x ∈ a <;> simp [notify, ha, andThen]

/-- With `f` in flight on `v`, whatever the notes so far, the steps to come are those of the atomic command on `s`: notify at
`pts`, then `k`. -/
def EndsAs (v s : State) (f : Flight) (pr : Progress) (mk : Nat → Note) (pts : List Nat) (k : State → Out) : Prop :=
  ∀ ns, LeadsTo (.next { v with active := f, notes := ns }) (andThen (notify pr mk pts { s with notes := ns }) k)

section
variable {v s : State} {f f' : Flight} {pr : Progress} {mk : Nat → Note} {a b : List Nat} {k : State → Out}

/-- The last step, with nothing more to notify. -/
theorem EndsAs.last (hstep : ∀ ns, step { v with active := f, notes := ns } = k { s with notes := ns }) :
    EndsAs v s f pr mk [] k := fun ns => .step (by rw [hstep, notify_nil]; exact .refl _)

/-- A step whose notifications are the first part of those to come. -/
theorem EndsAs.step (h : EndsAs v s f' pr mk b k)
    (hstep : ∀ ns, Machine.step { v with active := f, notes := ns } =
      andThen (notify pr mk a { v with active := f, notes := ns }) (fun t => .next { t with active := f' })) :
    EndsAs v s f pr mk (a ++ b) k := fun ns => by
  refine .step ?_
  rw [hstep, notify_append]
  obtain ⟨new, hnew⟩ | ⟨r, hr⟩ | ⟨r, hr⟩ := notify_cases pr mk a
  · rw [hnew, hnew]
    exact h _
  · rw [hr, hr]
    exact .refl _
  · rw [hr, hr]
    exact .refl _

end

end Sys2Proof.Machine
end

section
/-!
PROOFS. Family 20_memory: a decoder's own steps come to its whole decode (R99, R109, R119, R123, R162).
-/

namespace Sys2Proof.Machine

/-! ## A command's end where no instance goes back to the host (R14, R153) -/

/-- The command's own instance goes, and the thread is idle as before. -/
theorem release_fly {s : State} (hidle : s.active = .idle) {f : Flight} (hf : ∀ h p job, f ≠ .prsc (some h) p job) :
    State.release { s with active := f } = s := by
  unfold State.release
  split
  · next h p job he => exact absurd he (hf h p job)
  · rw [← hidle]

theorem returnOk_of_idle {s : State} (hidle : s.active = .idle) (r : Result) : s.returnOk r = s.respond (.ok r) := by
  rw [State.returnOk, State.release_of_idle s hidle]

theorem raise_of_idle {s : State} (hidle : s.active = .idle) (e : EngineError) : s.raise e = s.respond (.error e) := by
  rw [State.raise, State.release_of_idle s hidle]

theorem returnOk_fly {s : State} (hidle : s.active = .idle) {f : Flight} (hf : ∀ h p job, f ≠ .prsc (some h) p job)
    (r : Result) : State.returnOk { s with active := f } r = s.respond (.ok r) := by
  rw [State.returnOk, release_fly hidle hf]

theorem raise_fly {s : State} (hidle : s.active = .idle) {f : Flight} (hf : ∀ h p job, f ≠ .prsc (some h) p job)
    (e : EngineError) : State.raise { s with active := f } e = s.respond (.error e) := by
  rw [State.raise, release_fly hidle hf]

/-! ## PRSD -/

/-- `p` in flight on the thread of `s`, its records so far written to its sink. -/
def State.flyPrsd (s : State) (p : Prsd) : State :=
  { s.writeSink p.sink (p.trace.map .prs) with active := .prsd p }

/-- The PRS decode yields opcodes of its own, each with a data byte (R54, R55). -/
theorem decodePrs_isPrsOp {r r' : Reader} {i : Instr} (h : decodePrs r = .ok (i, r')) :
    isPrsOp i = true ∧ 0 < dataBytes i := by
  obtain ⟨r1, v, -, -, rfl⟩ | ⟨r1, r2, -, -, h3⟩ | ⟨r1, r2, -, -, h3⟩ := decodePrs_ok h
  · exact ⟨rfl, Nat.succ_pos _⟩
  · obtain ⟨b0, r3, b1, r4, -, -, ⟨-, -, rfl⟩ | ⟨-, -, -, rfl⟩ | ⟨-, -, n, -, rfl⟩⟩ := decodeLong_ok h3 <;>
      exact ⟨rfl, Nat.succ_pos _⟩
  · obtain ⟨hb, r3, lb, r4, o, -, -, -, rfl⟩ := decodeShort_ok h3
    exact ⟨rfl, Nat.succ_pos _⟩

/-- What one iteration's outcome is on the machine: the instance goes on, or the command ends. -/
def prsdProceed (s : State) : PrsdOut → Out
  | .ok p => .next (s.flyPrsd p)
  | .raised p e => prsdDeliver (.raised p e) s
  | .fault r => .fault r

/-- The instance after an opcode keeps its sink and has the records `l` more. -/
def PrsdOut.Traces (p : Prsd) (l : List PrsRecord) : PrsdOut → Prop
  | .ok p' => p'.sink = p.sink ∧ p'.trace = p.trace ++ l
  | .raised p' _ => p'.sink = p.sink ∧ p'.trace = p.trace ++ l
  | .fault _ => True

theorem prsdCopy_traces (off : Int) (cnt : Nat) (p : Prsd) (l : List PrsRecord) :
    (prsdCopy off cnt { p with trace := p.trace ++ l }).Traces p l := by
  obtain ⟨-, h⟩ | ⟨-, -, h⟩ | ⟨-, -, -, h⟩ | ⟨-, -, -, ⟨out, -, h⟩ | ⟨-, h⟩⟩ :=
    prsdCopy_cases off cnt { p with trace := p.trace ++ l } <;> rw [h]
  case inr.inr.inr.inr => trivial
  all_goals exact ⟨rfl, rfl⟩

/-- Every PRS opcode traces its own record, also where it raises (R108, D17). -/
theorem prsdOp_traces (i : Instr) (p : Prsd) : (prsdOp i p).Traces p (prsTraced p i) := by
  cases i with
  | lit v =>
    simp only [prsdOp, prsdLit, Prsd.record_eq]
    split
    · exact ⟨rfl, rfl⟩
    · split <;> exact ⟨rfl, rfl⟩
  | scopy off cnt | lcopy off cnt | ecopy off cnt =>
    rw [prsdOp]
    simp only [prsdScopy, prsdLcopy, prsdEcopy, Prsd.record_eq]
    exact prsdCopy_traces off cnt p _
  | stop f =>
    simp only [prsdOp, prsdStop, Prsd.record_eq]
    exact ⟨rfl, rfl⟩
  | _ => trivial

/-- The records an opcode adds go to the sink after those before (R129). -/
theorem flyPrsd_writeSink (s : State) {p p' : Prsd} {l : List PrsRecord}
    (h : p'.sink = p.sink ∧ p'.trace = p.trace ++ l) :
    (s.flyPrsd p).writeSink p'.sink (prsNewItems p p') =
      { s.writeSink p'.sink (p'.trace.map .prs) with active := .prsd p } := by
  rw [prsNewItems_of_trace_append h.2, h.1, h.2, List.map_append, ← writeSink_append]
  rfl

/-- A PRS opcode on the instance in flight. -/
theorem exec_flyPrsd {s : State} (hidle : s.active = .idle) {i : Instr} (hi : isPrsOp i = true) {p : Prsd}
    (hrun : p.fin = .running) : exec i (s.flyPrsd p) = prsdProceed s (prsdOp i p) := by
  have htraces := prsdOp_traces i p
  rw [exec_prsOp hi, onPrsd_running rfl hrun]
  cases ho : prsdOp i p <;> rw [ho] at htraces
  case ok p' =>
    simp only [flyPrsd_writeSink s htraces]
    rfl
  case raised p' e =>
    simp only [flyPrsd_writeSink s htraces, prsdProceed, prsdDeliver]
    rw [raise_fly (by exact hidle) (f := .prsd p) nofun, raise_of_idle (by exact hidle)]
  case fault r => rfl

theorem fetchCurrent_flyPrsd (s : State) (p : Prsd) : fetchCurrent (s.flyPrsd p) = fetchPrsd p (s.flyPrsd p) := rfl

/-- In the loop, a step of PRSD is one iteration (R99). -/
theorem step_flyPrsd {s : State} (hsched : s.schedule = []) (hidle : s.active = .idle) {p : Prsd}
    (hrun : p.ended = false) : step (s.flyPrsd p) = prsdProceed s (prsdIter p) := by
  rw [step_of_schedule_nil (by exact hsched), fetchCurrent_flyPrsd, fetchPrsd, prsdIter,
    if_neg (by simp [hrun])]
  by_cases hend : p.atEnd = true
  · rw [if_pos hend, if_pos hend]
    rfl
  · rw [if_neg hend, if_neg hend]
    cases hd : decodePrs p.rd with
    | error e =>
      obtain ⟨k⟩ := e
      simp only [prsdProceed, prsdDeliver]
      rw [State.flyPrsd, raise_fly (by exact hidle) (f := .prsd p) nofun, raise_of_idle (by exact hidle)]
    | ok x =>
      exact exec_flyPrsd hidle (decodePrs_isPrsOp hd).1 (p := p.fetched x.2) (by simpa [Prsd.ended] using hrun)

/-- Out of the loop, the step of PRSD returns its result (R99). -/
theorem step_flyPrsd_ended {s : State} (hsched : s.schedule = []) (hidle : s.active = .idle) {p : Prsd}
    (hend : p.ended = true) : step (s.flyPrsd p) = prsdDeliver (.ok p) s := by
  rw [step_of_schedule_nil (by exact hsched), fetchCurrent_flyPrsd, fetchPrsd, if_pos hend]
  simp only [prsdReturn, prsdDeliver]
  rw [show (s.flyPrsd p).writeSink p.sink p.finalItems =
    { (s.writeSink p.sink (p.trace.map .prs)).writeSink p.sink p.finalItems with active := .prsd p } from rfl,
    returnOk_fly (by exact hidle) (f := .prsd p) nofun, returnOk_of_idle (by exact hidle)]

/-- An iteration that goes on has left the loop, or has moved the reader inside its input (R162). -/
theorem prsdIter_progress {p p' : Prsd} (hpos : p.rd.pos ≤ p.rd.input.length) (h : prsdIter p = .ok p') :
    p'.rd.input = p.rd.input ∧ p'.rd.pos ≤ p.rd.input.length ∧ (p'.ended = true ∨ p.rd.pos < p'.rd.pos) := by
  unfold prsdIter at h
  split at h
  · cases h
    exact ⟨rfl, hpos, .inl rfl⟩
  · split at h
    · cases h
    · next i r hd =>
      obtain ⟨hmoved, hle⟩ := decodePrs_moved hd
      have hbytes := (decodePrs_isPrsOp hd).2
      rw [(prsdOp_frame h).1, Prsd.fetched_rd]
      exact ⟨hmoved.input, hle, .inr (by rw [hmoved.pos]; omega)⟩

/-- A decode that has left its loop is whole, and its last step returns it. -/
theorem flyPrsd_leadsTo_of_ended {s : State} (hsched : s.schedule = []) (hidle : s.active = .idle) {p : Prsd}
    (hend : p.ended = true) (n : Nat) : LeadsTo (.next (s.flyPrsd p)) (prsdDeliver (prsdRun n p) s) := by
  have hrun : prsdRun n p = .ok p := by cases n <;> rw [prsdRun, if_pos hend]
  rw [hrun, ← step_flyPrsd_ended hsched hidle hend]
  exact .step (.refl _)

/-- PRSD's own steps come to its whole decode, with iterations enough (R162). -/
theorem flyPrsd_leadsTo {s : State} (hsched : s.schedule = []) (hidle : s.active = .idle) {n : Nat} {p : Prsd}
    (hpos : p.rd.pos ≤ p.rd.input.length) (hn : p.ended = true ∨ p.rd.input.length < p.rd.pos + n) :
    LeadsTo (.next (s.flyPrsd p)) (prsdDeliver (prsdRun n p) s) := by
  induction n generalizing p with
  | zero => exact flyPrsd_leadsTo_of_ended hsched hidle (hn.resolve_right (by omega)) 0
  | succ n ih =>
    cases hend : p.ended with
    | true => exact flyPrsd_leadsTo_of_ended hsched hidle hend _
    | false =>
      refine .step ?_
      rw [step_flyPrsd hsched hidle hend, prsdRun, if_neg (by simp [hend])]
      cases hi : prsdIter p with
      | ok p' =>
        obtain ⟨hinput, hle, hprogress⟩ := prsdIter_progress hpos hi
        rw [hend] at hn
        refine ih (by rwa [hinput]) (hprogress.imp_right fun hlt => ?_)
        rw [hinput]
        have := hn.resolve_left nofun
        omega
      | raised p' e => exact .refl _
      | fault r => exact .refl _

/-- A launched decode comes to the atomic one. -/
theorem prsd_leadsTo {s : State} (hsched : s.schedule = []) (hidle : s.active = .idle) (input : Bytes) (mode : Mode)
    (maxOut sink : Nat) :
    LeadsTo (.next { s with active := .prsd (Prsd.start input mode maxOut sink) })
      (prsdDeliver (prsdDecode (Prsd.start input mode maxOut sink)) s) := by
  have h := flyPrsd_leadsTo hsched hidle (n := input.length + 1) (p := Prsd.start input mode maxOut sink)
    (Nat.zero_le _) (.inr (by simp))
  rwa [State.flyPrsd, Prsd.start_trace, List.map_nil, writeSink_nil] at h

/-! ## BC0D -/

/-- `d` in flight on the thread of `s`, its records so far written to its sink. -/
def State.flyBc0d (s : State) (d : Bc0d) : State :=
  { s.writeSink d.sink (d.trace.map .bc0) with active := .bc0d d }

theorem fetchCurrent_flyBc0d (s : State) (d : Bc0d) : fetchCurrent (s.flyBc0d d) = fetchBc0d d (s.flyBc0d d) := rfl

/-- The BC0 decode yields opcodes of its own and moves the reader, inside its input (R24, R59). -/
theorem decodeBc0_isBc0Op {r r' : Reader} {i : Instr} (h : decodeBc0 r = .op i r') :
    isBc0Op i = true ∧ r'.input = r.input ∧ r'.pos ≤ r.input.length ∧ r.pos < r'.pos := by
  obtain ⟨r1, v, hbit, hv, rfl, rfl⟩ | ⟨r1, b0, b1, hbit, -, hb, rfl, rfl⟩ := decodeBc0_op h
  all_goals
    have hmoved := (ReaderMoved.refl r).getBit (by omega) hbit
    have hpos := hmoved.pos
    have hinput := hmoved.input
  · have := pos_lt_of_get hv
    exact ⟨rfl, hinput, by rw [← hinput]; exact this, by simp only; omega⟩
  · have := pos_lt_of_get hb
    exact ⟨rfl, hinput, by rw [← hinput]; exact this, by simp only; omega⟩

/-- Every BC0 opcode keeps the reader and the sink, and traces its own record (R122). -/
theorem bc0dOp_frame {i : Instr} {d d' : Bc0d} (h : bc0dOp i d = some d') :
    d'.rd = d.rd ∧ d'.sink = d.sink ∧ d'.trace = d.trace ++ bc0Traced d i := by
  cases i with
  | blit v => cases h; simp [bc0dLit, Bc0d.record_eq]
  | bref m cnt =>
    cases h
    obtain ⟨hrd, -, htrace, -, -, hsink⟩ := bc0dCopy_frame cnt m (d.record (.bref m cnt))
    exact ⟨hrd.trans (d.record_rd _), hsink.trans (d.record_sink _), htrace.trans (by rw [Bc0d.record_eq])⟩
  | _ => cases h

/-- In the loop, a step of BC0D is one iteration, which leaves the loop or moves the reader inside its input (R119, R162). -/
theorem step_flyBc0d {s : State} (hsched : s.schedule = []) {d : Bc0d} (hrun : d.done = false) :
    ∃ d', bc0dIter d = some d' ∧ step (s.flyBc0d d) = .next (s.flyBc0d d') ∧
      (d'.done = true ∨
        (d'.rd.input = d.rd.input ∧ d'.rd.pos ≤ d.rd.input.length ∧ d.rd.pos < d'.rd.pos)) := by
  rw [step_of_schedule_nil (by exact hsched), fetchCurrent_flyBc0d, fetchBc0d, bc0dIter,
    if_neg (by simp [hrun])]
  cases hd : decodeBc0 d.rd with
  | ended r => exact ⟨d.leave r, rfl, rfl, .inl rfl⟩
  | op i r =>
    obtain ⟨hi, hinput, hle, hlt⟩ := decodeBc0_isBc0Op hd
    obtain ⟨f, hop, hexec⟩ := exec_bc0Op hi
    obtain ⟨hrd, hsink, htrace⟩ := bc0dOp_frame (hop (d.fetched r))
    refine ⟨f (d.fetched r), hop _, ?_, .inr ?_⟩
    · change exec i (s.flyBc0d (d.fetched r)) = _
      rw [hexec, onBc0d_running (d := d.fetched r) rfl hrun, bc0NewItems_of_trace_append htrace]
      simp only [State.flyBc0d, hsink, htrace, List.map_append, ← writeSink_append]
      rfl
    · rw [hrd]
      exact ⟨hinput, hle, hlt⟩

/-- Out of the loop, the step of BC0D returns its result (R119). -/
theorem step_flyBc0d_done {s : State} (hsched : s.schedule = []) (hidle : s.active = .idle) {d : Bc0d}
    (hdone : d.done = true) : step (s.flyBc0d d) = bc0dDeliver (some d) s := by
  rw [step_of_schedule_nil (by exact hsched), fetchCurrent_flyBc0d, fetchBc0d, if_pos hdone]
  simp only [bc0dReturn, bc0dDeliver]
  rw [show (s.flyBc0d d).writeSink d.sink d.finalItems =
    { (s.writeSink d.sink (d.trace.map .bc0)).writeSink d.sink d.finalItems with active := .bc0d d } from rfl,
    returnOk_fly (by exact hidle) (f := .bc0d d) nofun, returnOk_of_idle (by exact hidle)]

/-- A decode that has left its loop is whole, and its last step returns it. -/
theorem flyBc0d_leadsTo_of_done {s : State} (hsched : s.schedule = []) (hidle : s.active = .idle) {d : Bc0d}
    (hdone : d.done = true) (n : Nat) : LeadsTo (.next (s.flyBc0d d)) (bc0dDeliver (bc0dRun n d) s) := by
  have hrun : bc0dRun n d = some d := by cases n <;> rw [bc0dRun, if_pos hdone]
  rw [hrun, ← step_flyBc0d_done hsched hidle hdone]
  exact .step (.refl _)

/-- BC0D's own steps come to its whole decode, with iterations enough (R162). -/
theorem flyBc0d_leadsTo {s : State} (hsched : s.schedule = []) (hidle : s.active = .idle) {n : Nat} {d : Bc0d}
    (hn : d.done = true ∨ (d.rd.pos ≤ d.rd.input.length ∧ d.rd.input.length < d.rd.pos + n)) :
    LeadsTo (.next (s.flyBc0d d)) (bc0dDeliver (bc0dRun n d) s) := by
  induction n generalizing d with
  | zero => exact flyBc0d_leadsTo_of_done hsched hidle (hn.resolve_right (by omega)) 0
  | succ n ih =>
    cases hdone : d.done with
    | true => exact flyBc0d_leadsTo_of_done hsched hidle hdone _
    | false =>
      obtain ⟨d', hiter, hstep, hprogress⟩ := step_flyBc0d hsched hdone
      refine .step ?_
      rw [hstep, bc0dRun, if_neg (by simp [hdone]), hiter]
      rw [hdone] at hn
      obtain ⟨hpos, hlen⟩ := hn.resolve_left nofun
      refine ih (hprogress.imp_right fun ⟨hinput, hle, hlt⟩ => ?_)
      rw [hinput]
      omega

/-- A launched decode comes to the atomic one. -/
theorem bc0d_leadsTo {s : State} (hsched : s.schedule = []) (hidle : s.active = .idle) (input : Bytes) (mode : Mode)
    (sink : Nat) :
    LeadsTo (.next { s with active := .bc0d (Bc0d.start input mode sink) })
      (bc0dDeliver (bc0dDecode (Bc0d.start input mode sink)) s) := by
  have h := flyBc0d_leadsTo hsched hidle (n := input.length + 1) (d := Bc0d.start input mode sink) (.inr (by simp))
  rwa [State.flyBc0d, Bc0d.start_trace, List.map_nil, writeSink_nil] at h

end Sys2Proof.Machine
end

section
/-!
PROOFS. Family 20_memory: a compressor's own steps come to its whole run (R81, R82, R96, R111, R162), and with that every
launched command to the atomic one.
-/

namespace Sys2Proof.Machine

/-! ## BC0C (R111, R126) -/

theorem bc0cRun_of_not_more {c : Bc0c} (h : c.more = false) (n : Nat) : bc0cRun n c = c := by
  cases n <;> simp [bc0cRun, h]

theorem bc0cRun_i_le (n : Nat) (c : Bc0c) : c.i ≤ (bc0cRun n c).i := by
  induction n generalizing c with
  | zero => exact Nat.le_refl _
  | succ n ih =>
    rw [bc0cRun]
    split
    · exact (bc0cIter_frame c).2.2.2.1.trans (ih _)
    · exact Nat.le_refl _

/-- With nothing scheduled, the step of BC0C in flight. -/
theorem step_bc0c {s : State} (hsched : s.schedule = []) (c : Bc0c) :
    step { s with active := .bc0c c } = bc0cStep c { s with active := .bc0c c } := by
  rw [step_of_schedule_nil (by exact hsched)]
  rfl

/-- Past the end of the input, BC0C returns its stream. -/
theorem bc0c_endsAs_of_not_more {c : Bc0c} {s : State} (hsched : s.schedule = []) (hidle : s.active = .idle)
    (hmore : c.more = false) (n : Nat) :
    EndsAs s s (.bc0c c) c.progress .bc0c (notifyPoints c.i (bc0cRun n c).i)
      (fun t => .next (t.respond (.ok (.bytes (bc0cRun n c).out)))) := by
  rw [bc0cRun_of_not_more hmore, notifyPoints_self]
  refine .last fun ns => ?_
  rw [step_bc0c (s := { s with notes := ns }) hsched, bc0cStep, if_neg (by simp [hmore])]
  exact congrArg Host.Outcome.next (returnOk_fly (s := { s with notes := ns }) hidle (f := .bc0c c) nofun _)

/-- BC0C's own steps come to its whole loop, with iterations enough, and to the return of its stream. -/
theorem bc0cRun_endsAs {n : Nat} {c : Bc0c} {s : State} (hsched : s.schedule = []) (hidle : s.active = .idle)
    (hpr : c.progress ≠ .acting) (hlen : c.n = c.d.length) (hn : c.n - c.i ≤ n) :
    EndsAs s s (.bc0c c) c.progress .bc0c (notifyPoints c.i (bc0cRun n c).i)
      (fun t => .next (t.respond (.ok (.bytes (bc0cRun n c).out)))) := by
  induction n generalizing c with
  | zero =>
    have hmore : c.more = false := by simp only [Bc0c.more, decide_eq_false_iff_not]; omega
    exact bc0c_endsAs_of_not_more hsched hidle hmore 0
  | succ n ih =>
    cases hmore : c.more with
    | false => exact bc0c_endsAs_of_not_more hsched hidle hmore _
    | true =>
      obtain ⟨hd, hlen', hpr', hle, hlt⟩ := bc0cIter_frame c
      have hin : c.i < c.n := by simpa [Bc0c.more] using hmore
      have hrest := ih (c := bc0cIter c) (by rwa [hpr']) (by rw [hlen', hd, hlen]) (by have := hlt (by omega); omega)
      rw [bc0cRun, if_pos hmore, notifyPoints_append hle (bc0cRun_i_le n _)]
      rw [hpr'] at hrest
      refine hrest.step fun ns => ?_
      rw [step_bc0c (s := { s with notes := ns }) hsched, bc0cStep, if_pos hmore, if_neg hpr]
      rfl

/-! ## PRSC (R81, R82, R87) -/

/-- Moves that do not fail meet no error, and move the boundary over their bytes. -/
theorem perform_of_inv {ms : List PrscMove} (h : ∀ m ∈ ms, PrscMove.Inv m) (p : Prsc) :
    ∃ q, p.perform ms = (q, none) ∧ q.b = p.b + movesBytes ms := by
  induction ms generalizing p with
  | nil => exact ⟨p, rfl, rfl⟩
  | cons m ms ih =>
    obtain ⟨hm, hms⟩ := List.forall_mem_cons.mp h
    cases m with
    | lit => simpa [movesBytes] using ih hms p.emitNext
    | emit c => exact ih hms (p.emit c)
    | commit n => simpa [movesBytes, Nat.add_assoc] using ih hms (p.commit n)
    | fail e => exact hm.elim

/-- With a byte ahead, an Advance of any instance meets no error and moves the boundary (R94). -/
theorem advance_of_lt {p : Prsc} (h : p.b < p.data.length) : ∃ q, advance p = (q, none) ∧ p.b < q.b := by
  obtain ⟨-, hpos, hms⟩ := advancePlan_inv h
  obtain ⟨q, hq, hb⟩ := perform_of_inv hms p
  exact ⟨q, hq, by omega⟩

/-- With nothing scheduled, the step of PRSC in flight. -/
theorem step_prsc {s : State} (hsched : s.schedule = []) (slot : Option Nat) (p : Prsc) (job : PrscJob) :
    step { s with active := .prsc slot p job } = prscStep slot p job { s with active := .prsc slot p job } := by
  rw [step_of_schedule_nil (by exact hsched)]
  rfl

/-- `go` is the loop condition of `job` (R81, R82): it needs a byte ahead, and while it holds the step is one Advance. -/
structure LoopOf (go : Prsc → Bool) (job : PrscJob) : Prop where
  ahead : ∀ {p}, go p = true → p.b < p.data.length
  step : ∀ {slot p s}, go p = true → prscStep slot p job s = prscAdvance slot p job s

theorem loopOf_adding : LoopOf Prsc.enough .adding :=
  ⟨enough_lt, fun h => by simp only [prscStep, h, if_true]⟩

theorem loopOf_closing : LoopOf Prsc.more .closing :=
  ⟨more_lt, fun h => by simp only [prscStep, h, if_true]⟩

theorem loopOf_oneShot : LoopOf Prsc.enough .oneShot :=
  ⟨enough_lt, fun h => by simp only [prscStep, h, if_true]⟩

/-- PRSC's own steps come from `p` at `job` to `q` at `job'`, with the notifications of the way between. -/
structure PrscLeads (slot : Option Nat) (p : Prsc) (job : PrscJob) (q : Prsc) (job' : PrscJob) : Prop where
  b_le : p.b ≤ q.b
  progress_eq : q.progress = p.progress
  endsAs : ∀ {v s : State} {rest : List Nat} {k : State → Out}, v.schedule = [] →
    EndsAs v s (.prsc slot q job') p.progress .prsc rest k →
    EndsAs v s (.prsc slot p job) p.progress .prsc (notifyPoints p.b q.b ++ rest) k

section
variable {slot : Option Nat} {p q r : Prsc} {job job' job'' : PrscJob}

theorem PrscLeads.refl : PrscLeads slot p job p job :=
  ⟨Nat.le_refl _, rfl, fun _ h => by rwa [notifyPoints_self]⟩

theorem PrscLeads.trans (h : PrscLeads slot p job q job') (h' : PrscLeads slot q job' r job'') :
    PrscLeads slot p job r job'' := by
  refine ⟨h.b_le.trans h'.b_le, h'.progress_eq.trans h.progress_eq, fun hsched hrest => ?_⟩
  rw [notifyPoints_append h.b_le h'.b_le, List.append_assoc]
  refine h.endsAs hsched ?_
  rw [← h.progress_eq] at hrest ⊢
  exact h'.endsAs hsched hrest

/-- One Advance, which meets no error (R94). -/
theorem PrscLeads.advance (hpr : p.progress ≠ .acting) (hadv : Machine.advance p = (q, none))
    (hstep : ∀ s, prscStep slot p job s = prscAdvance slot p job s) : PrscLeads slot p job q job := by
  obtain ⟨-, -, hpr', -, -, hle⟩ := advance_frame p
  rw [hadv] at hpr' hle
  refine ⟨hle, hpr', fun {v _ _ _} hsched hrest => hrest.step fun ns => ?_⟩
  rw [step_prsc (s := { v with notes := ns }) hsched, hstep, prscAdvance, if_neg hpr, hadv]
  rfl

/-- `prs_compress` goes over from ADD to CLOSE (R124). -/
theorem PrscLeads.toClosing (h : p.enough = false) : PrscLeads slot p .oneShot p .closing := by
  refine ⟨Nat.le_refl _, rfl, fun {v _ _ _} hsched hrest => ?_⟩
  rw [notifyPoints_self]
  refine hrest.step (a := []) fun ns => ?_
  rw [step_prsc (s := { v with notes := ns }) hsched, prscStep, if_neg (by simp [h]), notify_nil]
  rfl

/-- A job's loop comes to its end without an error, with turns enough (R81, R82, R162). -/
theorem advanceWhile_leads {go : Prsc → Bool} (hgo : LoopOf go job) {n : Nat} (hpr : p.progress ≠ .acting)
    (hn : p.data.length - p.b ≤ n) :
    ∃ q, advanceWhile go n p = (q, none) ∧ go q = false ∧ PrscLeads slot p job q job := by
  induction n generalizing p with
  | zero => exact ⟨p, rfl, Bool.eq_false_iff.mpr fun h => by have := hgo.ahead h; omega, .refl⟩
  | succ n ih =>
    rw [advanceWhile]
    split
    · next h =>
      obtain ⟨q, hadv, hlt⟩ := advance_of_lt (hgo.ahead h)
      have hfirst := PrscLeads.advance (slot := slot) hpr hadv fun _ => hgo.step h
      have hdata := (advance_frame p).1
      rw [hadv] at hdata ⊢
      obtain ⟨r, hr, hend, hleads⟩ := ih (p := q) (by rwa [hfirst.progress_eq]) (by rw [hdata]; omega)
      exact ⟨r, hr, hend, hfirst.trans hleads⟩
    · next h => exact ⟨p, rfl, Bool.eq_false_iff.mpr h, .refl⟩

/-- The whole way of a command, to its last step. -/
theorem PrscLeads.finish (h : PrscLeads slot p job q job') {v s : State} {k : State → Out} (hsched : v.schedule = [])
    (hlast : ∀ ns, prscStep slot q job' { v with active := .prsc slot q job', notes := ns } = k { s with notes := ns }) :
    EndsAs v s (.prsc slot p job) p.progress .prsc (notifyPoints p.b q.b) k := by
  rw [← List.append_nil (notifyPoints p.b q.b)]
  exact h.endsAs hsched (.last fun ns => (step_prsc (s := { v with notes := ns }) hsched _ _ _).trans (hlast ns))

end

/-! ## The end of a command on a host's instance (R125, R153) -/

theorem setSlot_self {s : State} {h : Nat} {x : PrscSlot} (hx : s.prscs[h]? = some x) : s.setSlot h x = s := by
  obtain ⟨hlt, rfl⟩ := List.getElem?_eq_some_iff.mp hx
  rw [State.setSlot, List.set_getElem_self]

/-- A launched command on instance `h` ends as the atomic one does: its instance back in its slot, and its response. -/
theorem returnOk_inFlight {s : State} (hidle : s.active = .idle) {h : Nat} (hh : h < s.prscs.length) (q : Prsc)
    (job : PrscJob) (r : Result) :
    State.returnOk { s.setSlot h .inFlight with active := .prsc (some h) q job } r = prscDone h q (.ok r) s := by
  have hslot : (s.prscs.set h .inFlight)[h]? = some .inFlight := List.getElem?_set_self hh
  simp [State.returnOk, State.release, prscDone, State.setSlot, State.respond, putBack_inFlight q hslot, hidle]

/-- A command that is over at once does not touch its instance. -/
theorem prscDone_self {s : State} {h : Nat} {p : Prsc} (hp : s.prscs[h]? = some (.live p)) (r : Response) :
    prscDone h p r s = s.respond r := by
  rw [prscDone, setSlot_self hp]

/-- A command that ends where it is checked: the same response, and no notification. -/
theorem raise_eq_prscDone {s : State} (hidle : s.active = .idle) {h : Nat} {p : Prsc} (hp : s.prscs[h]? = some (.live p))
    (e : EngineError) : s.raise e = prscDone h p (.error e) s := by
  rw [raise_of_idle hidle, prscDone_self hp]

/-! ## The launched PRSC commands (R81, R82, R124) -/

/-- A launched ADD that passes its checks comes to its loop's end and gives the instance back. -/
theorem launchAdd_leadsTo {s : State} (hsched : s.schedule = []) (hidle : s.active = .idle) {h : Nat} {p : Prsc}
    (hp : s.prscs[h]? = some (.live p)) (hpr : p.progress ≠ .acting) (bytes : Bytes) :
    LeadsTo (launchAdd h bytes p s)
      (andThen (prscNotify p (prscAdd bytes p).1 s)
        (fun t => .next (prscDone h (prscAdd bytes p).1 (prscResponse .unit (prscAdd bytes p).2) t))) := by
  have hh := (List.getElem?_eq_some_iff.mp hp).1
  unfold launchAdd prscAdd
  cases he : addError p with
  | some e =>
    simp only [prscNotify, notifyPoints_self, notify_nil, andThen_next, prscResponse, raise_eq_prscDone hidle hp]
    exact .refl _
  | none =>
    obtain ⟨q, hloop, hend, hleads⟩ := advanceWhile_leads (slot := some h) loopOf_adding (p := p.append bytes) hpr
      (Nat.le_refl _)
    simp only [addLoop, hloop]
    refine hleads.finish (v := s.setSlot h .inFlight) hsched (fun ns => ?_) s.notes
    simp only [prscStep, hend, Bool.false_eq_true, if_false]
    exact congrArg _ (returnOk_inFlight (s := { s with notes := ns }) hidle hh q .adding .unit)

/-- A launched CLOSE drains its instance, terminates the stream and gives the instance back. -/
theorem launchClose_leadsTo {s : State} (hsched : s.schedule = []) (hidle : s.active = .idle) {h : Nat} {p : Prsc}
    (hp : s.prscs[h]? = some (.live p)) (hpr : p.progress ≠ .acting) :
    LeadsTo (launchClose h p s)
      (andThen (prscNotify p (prscClose p).1 s) (fun t =>
        .next (prscDone h (prscClose p).1 (prscResponse (.bytes (prscClose p).1.result) (prscClose p).2) t))) := by
  have hh := (List.getElem?_eq_some_iff.mp hp).1
  unfold launchClose prscClose
  cases hclosed : p.closed with
  | true =>
    simp only [if_true, prscNotify, notifyPoints_self, notify_nil, andThen_next, prscResponse, prscDone_self hp,
      returnOk_of_idle hidle]
    exact .refl _
  | false =>
    cases hfailed : p.failed with
    | true =>
      simp only [Bool.false_eq_true, if_false, if_true, prscNotify, notifyPoints_self, notify_nil, andThen_next,
        prscResponse, raise_eq_prscDone hidle hp]
      exact .refl _
    | false =>
      obtain ⟨q, hloop, hend, hleads⟩ := advanceWhile_leads (slot := some h) loopOf_closing hpr (Nat.le_refl _)
      simp only [Bool.false_eq_true, if_false, closeLoop, hloop]
      refine hleads.finish (v := s.setSlot h .inFlight) hsched (fun ns => ?_) s.notes
      simp only [prscStep, hend, Bool.false_eq_true, if_false]
      exact congrArg _ (returnOk_inFlight (s := { s with notes := ns }) hidle hh q.terminate .closing _)

/-- A launched `prs_compress` comes through the loop of ADD, then that of CLOSE. -/
theorem launchPrsCompress_leadsTo {s : State} (hsched : s.schedule = []) (hidle : s.active = .idle) (bytes : Bytes)
    (level : Nat) {pr : Progress} (hpr : pr ≠ .acting) :
    LeadsTo (launchPrsCompress bytes level pr s)
      (andThen (prscNotify (Prsc.start level pr) (prsCompress bytes level pr).1 s) (fun t =>
        .next (t.respond (prscResponse (.bytes (prsCompress bytes level pr).1.result) (prsCompress bytes level pr).2)))) := by
  obtain ⟨q, hloop, hend, hleads⟩ := advanceWhile_leads (slot := none) loopOf_oneShot
    (p := (Prsc.start level pr).append bytes) hpr (Nat.le_refl _)
  obtain ⟨q', hadd, hinv, hopen, -⟩ := addLoop_ready ((start_prscInv level pr).append rfl bytes) rfl
  obtain rfl : q = q' := congrArg Prod.fst (hloop.symm.trans hadd)
  obtain ⟨r, hloop', hend', hleads'⟩ := advanceWhile_leads (slot := none) (p := q) loopOf_closing
    (by rwa [hleads.progress_eq]) (Nat.le_refl _)
  have hcompress : prsCompress bytes level pr = (r.terminate, none) := by
    rw [prsCompress, prscAdd, show addError (Prsc.start level pr) = none from rfl]
    simp only [hadd, prscClose, hopen, hinv.not_failed, closeLoop, hloop']
    rfl
  rw [hcompress]
  refine ((hleads.trans (.toClosing hend)).trans hleads').finish hsched (fun ns => ?_) s.notes
  simp only [prscStep, hend', Bool.false_eq_true, if_false]
  exact congrArg Host.Outcome.next
    (returnOk_fly (s := { s with notes := ns }) hidle (f := .prsc none r.terminate .closing) nofun _)

/-! ## The ten commands -/

/-- On an idle thread, a launched command comes to the atomic one. -/
theorem launch_leadsTo {s : State} (hsched : s.schedule = []) (hidle : s.active = .idle) {i : Instr}
    (hi : isCommand i = true) : LeadsTo (launch i s) (exec i s) := by
  unfold launch
  rw [whenIdle_of_idle s _ hidle]
  cases i with
  | lit | scopy | lcopy | ecopy | stop | blit | bref => cases hi
  | prsCompress bytes level pr =>
    rw [exec, execPrsCompress, whenIdle_of_idle s _ hidle]
    exact withLevel_leadsTo level fun lv => leadsTo_unlessActing pr fun hpr =>
      launchPrsCompress_leadsTo hsched hidle bytes lv hpr
  | prscNew level pr => exact .refl _
  | prscAdd h bytes =>
    rw [exec, execPrscAdd, whenIdle_of_idle s _ hidle]
    exact withPrsc_leadsTo s h fun p hp => leadsTo_unlessActing p.progress fun hpr =>
      launchAdd_leadsTo hsched hidle hp hpr bytes
  | prscClose h =>
    rw [exec, execPrscClose, whenIdle_of_idle s _ hidle]
    exact withPrsc_leadsTo s h fun p hp => leadsTo_unlessActing p.progress fun hpr =>
      launchClose_leadsTo hsched hidle hp hpr
  | bc0Compress bytes pr =>
    rw [exec, execBc0Compress, whenIdle_of_idle s _ hidle]
    exact leadsTo_unlessActing pr fun hpr =>
      bc0cRun_endsAs hsched hidle (c := Bc0c.start bytes pr) hpr rfl (Nat.le_refl _) s.notes
  | prsDecompress bytes maxOut =>
    rw [exec, execPrsDecompress, whenIdle_of_idle s _ hidle]
    exact prsd_leadsTo hsched hidle bytes .bytes maxOut 0
  | prsDecompressSize bytes maxOut =>
    rw [exec, execPrsDecompressSize, whenIdle_of_idle s _ hidle]
    exact prsd_leadsTo hsched hidle bytes .size maxOut 0
  | prsDisassemble sink bytes =>
    rw [exec, execPrsDisassemble, whenIdle_of_idle s _ hidle]
    exact prsd_leadsTo hsched hidle bytes .trace 0 sink
  | bc0Decompress bytes =>
    rw [exec, execBc0Decompress, whenIdle_of_idle s _ hidle]
    exact bc0d_leadsTo hsched hidle bytes .bytes 0
  | bc0Disassemble sink bytes =>
    rw [exec, execBc0Disassemble, whenIdle_of_idle s _ hidle]
    exact bc0d_leadsTo hsched hidle bytes .trace sink

/-- Settles O49: the first step launches the command, and what it launched comes to the atomic command. -/
theorem launchedCommandsAgreeWithAtomicOnes : Obligations.LaunchedCommandsAgreeWithAtomicOnes := by
  intro s i rest hsched hidle hi
  obtain ⟨n, hn⟩ := launch_leadsTo (s := { s with host := rest }) hsched hidle hi
  refine ⟨n + 1, ?_⟩
  rw [run_succ, step_launch hsched hidle]
  exact hn

end Sys2Proof.Machine
end

section
/-!
PROOFS. Family 30_encoding: decoding the layout of an opcode word gives the opcode back (R37, R53 to R60, R73).
-/

namespace Sys2Proof.Machine

/-! ## The reader inside a word laid out at the start of a stream (R73 to R75) -/

theorem getByte_of_get {r : Reader} {v : Byte} (h : r.input[r.pos]? = some v) :
    r.getByte = .ok (v, { r with pos := r.pos + 1 }) := by
  simp [Reader.getByte, h]

/-- The reader in the layout of `c`, followed by `tail`, once it has read the control byte, `n` control bits and `k`
data bytes. -/
def readerIn (c : Code) (tail : Bytes) (n k : Nat) : Reader :=
  { input := c.layout ++ tail, pos := k + 1, ctl := controlByte (c.bits.drop n), left := 8 - n, bits := n }

/-- The shift that takes a control bit leaves the control byte of the other bits (R38, R74). -/
theorem controlByte_cons_shift {b : Bool} {bs : List Bool} (h : bs.length < 8) :
    controlByte (b :: bs) >>> 1 = controlByte bs := by
  have hlt : (controlByte bs).toNat < 2 ^ 7 :=
    (controlByte_lt (by omega)).trans_le (Nat.pow_le_pow_right (by decide) (by omega))
  have := b.toNat_lt
  apply BitVec.eq_of_toNat_eq
  rw [BitVec.toNat_ushiftRight, controlByte_cons_toNat hlt, Nat.shiftRight_eq_div_pow]
  omega

section
variable {c : Code} {b : Bool} {n k : Nat}

/-- Once the control byte is fetched, the next bit read is the word's (R38, R74). -/
theorem readerIn_shiftBit (hlen : c.bits.length ≤ 8) (hb : c.bits[n]? = some b) (tail : Bytes) :
    (readerIn c tail n k).shiftBit = (b, readerIn c tail (n + 1) k) := by
  obtain ⟨hn, rfl⟩ := List.getElem?_eq_some_iff.mp hb
  have hdrop := List.drop_eq_getElem_cons hn
  have hrest : (c.bits.drop (n + 1)).length < 8 := by rw [List.length_drop]; omega
  rw [Reader.shiftBit, readerIn, readerIn, getLsbD_controlByte (by rw [List.length_drop]; omega), hdrop,
    controlByte_cons_shift hrest]
  rfl

theorem getBit_readerIn (hlen : c.bits.length ≤ 8) (hb : c.bits[n]? = some b) (tail : Bytes) :
    (readerIn c tail n k).getBit = .ok (b, readerIn c tail (n + 1) k) := by
  have hn := (List.getElem?_eq_some_iff.mp hb).1
  have hleft : (readerIn c tail n k).left ≠ 0 := Nat.sub_ne_zero_of_lt (by omega)
  rw [getBit_of_left hleft, readerIn_shiftBit hlen hb]

/-- The first control bit comes with the fetch of the word's control byte. -/
theorem getBit_layout (hlen : c.bits.length ≤ 8) (hb : c.bits[0]? = some b) (tail : Bytes) :
    (Reader.start (c.layout ++ tail)).getBit = .ok (b, readerIn c tail 1 0) := by
  rw [getBit_fetch rfl rfl]
  exact congrArg _ (readerIn_shiftBit hlen hb tail)

theorem getElem?_input_readerIn {v : Byte} {j : Nat} (hv : c.data[j]? = some v) (tail : Bytes) :
    (readerIn c tail n k).input[j + 1]? = some v := by
  have hj := pos_lt_of_get hv
  simp [readerIn, Code.layout, List.getElem?_append_left hj, hv]

theorem getByte_readerIn {v : Byte} (hv : c.data[k]? = some v) (tail : Bytes) :
    (readerIn c tail n k).getByte = .ok (v, readerIn c tail n (k + 1)) :=
  getByte_of_get (getElem?_input_readerIn hv tail)

end

/-! ## The decode trees, from what is read to the opcode (R54, R59) -/

section
variable {r r1 r2 r3 : Reader} {b0 b1 v : Byte}

theorem decodePrs_of_lit (h1 : r.getBit = .ok (true, r1)) (h2 : r1.getByte = .ok (v, r2)) :
    decodePrs r = .ok (.lit v, r2) := by
  simp [decodePrs, h1, h2, bind, Except.bind, pure, Except.pure]

theorem decodePrs_of_long (h1 : r.getBit = .ok (false, r1)) (h2 : r1.getBit = .ok (true, r2)) :
    decodePrs r = decodeLong r2 := by
  simp [decodePrs, h1, h2, bind, Except.bind]

theorem decodePrs_of_short (h1 : r.getBit = .ok (false, r1)) (h2 : r1.getBit = .ok (false, r2)) :
    decodePrs r = decodeShort r2 := by
  simp [decodePrs, h1, h2, bind, Except.bind]

theorem decodeShort_of_fields {hb lb : Bool} (h1 : r.getBit = .ok (hb, r1)) (h2 : r1.getBit = .ok (lb, r2))
    (h3 : r2.getByte = .ok (v, r3)) : decodeShort r = .ok (.scopy (shortOffset v) (shortCount hb lb), r3) := by
  simp [decodeShort, h1, h2, h3, bind, Except.bind, pure, Except.pure]

/-- The long form once its field is read (R54, R58). -/
theorem decodeLong_of_field (h1 : r.getByte = .ok (b0, r1)) (h2 : r1.getByte = .ok (b1, r2)) :
    decodeLong r =
      if offsetField (fieldF b0 b1) = 0 then .ok (.stop (BitVec.ofNat 3 (lengthField (fieldF b0 b1))), r2)
      else if lengthField (fieldF b0 b1) ≠ 0 then
        .ok (.lcopy (longOffset (fieldF b0 b1)) (longCount (fieldF b0 b1)), r2)
      else r2.getByte.map fun x => (.ecopy (longOffset (fieldF b0 b1)) (extCount x.1), x.2) := by
  simp only [decodeLong, h1, h2, bind, Except.bind, pure, Except.pure]
  cases r2.getByte <;> rfl

theorem decodeBc0_of_blit (h1 : r.getBit = .ok (true, r1)) (h2 : r1.input[r1.pos]? = some v) :
    decodeBc0 r = .op (.blit v) { r1 with pos := r1.pos + 1 } := by
  simp [decodeBc0, h1, h2]

theorem decodeBc0_of_bref (h1 : r.getBit = .ok (false, r1)) (h2 : r1.input[r1.pos]? = some b0)
    (h3 : r1.input[r1.pos + 1]? = some b1) :
    decodeBc0 r = .op (.bref (memoOffset b0 b1) (refCount b1)) { r1 with pos := r1.pos + 2 } := by
  simp [decodeBc0, h1, h2, h3]

end

/-! ## Fields of encoded operands (R36, R37, R56 to R60) -/

/-- The two bytes of a field give it back. -/
theorem fieldF_fieldBytes {f : Nat} (h : f < 65536) : fieldF (BitVec.ofNat 8 f) (BitVec.ofNat 8 (f / 256)) = f := by
  simp only [fieldF, BitVec.toNat_ofNat]
  omega

/-- `O - 256` of the byte `256 - d` (R56, R90). -/
theorem shortOffset_of_distance {off : Int} (h : -256 ≤ off) (h' : off ≤ -1) :
    shortOffset (BitVec.ofNat 8 (256 - (-off).toNat)) = off := by
  simp only [shortOffset, BitVec.toNat_ofNat]
  omega

/-- The two length bits of a short copy (R56, R90). -/
theorem shortCount_of_bits {cnt : Nat} (h : 2 ≤ cnt) (h' : cnt ≤ 5) :
    shortCount ((cnt - 2) / 2 % 2 == 1) ((cnt - 2) % 2 == 1) = cnt := by
  interval_cases cnt <;> rfl

/-- The offset field of a long-form word at distance `-off`, whatever its length field (R57, R91, R92). -/
theorem offsetField_of_distance {off : Int} {l : Nat} (h : -8191 ≤ off) (h' : off ≤ -1) (hl : l < 8) :
    (offsetField ((8192 - (-off).toNat) * 8 + l) : Int) = off + 8192 := by
  simp only [offsetField]
  omega

theorem memoOffset_brefCode (m : BitVec 12) {l : Nat} (h : l < 16) :
    memoOffset (BitVec.ofNat 8 m.toNat) (BitVec.ofNat 8 (m.toNat / 256 * 16 + l)) = m := by
  have := m.isLt
  apply BitVec.eq_of_toNat_eq
  simp only [memoOffset, BitVec.toNat_ofNat]
  omega

theorem refCount_brefCode (m : BitVec 12) {cnt : Nat} (h : 3 ≤ cnt) (h' : cnt ≤ 18) :
    refCount (BitVec.ofNat 8 (m.toNat / 256 * 16 + (cnt - 3))) = cnt := by
  have := m.isLt
  simp only [refCount, BitVec.toNat_ofNat]
  omega

/-! ## The opcodes -/

/-- The reader right after the word of `c`. -/
abbrev readerAfter (c : Code) (tail : Bytes) : Reader := readerIn c tail c.bits.length c.data.length

theorem decodePrs_litCode (v : Byte) (tail : Bytes) :
    decodePrs (Reader.start ((litCode v).layout ++ tail)) = .ok (.lit v, readerAfter (litCode v) tail) :=
  decodePrs_of_lit (getBit_layout (by simp [litCode]) rfl tail) (getByte_readerIn rfl tail)

theorem decodePrs_shortCode {off : Int} {cnt : Nat} (hoff : -256 ≤ off ∧ off ≤ -1) (hcnt : 2 ≤ cnt ∧ cnt ≤ 5)
    (tail : Bytes) :
    decodePrs (Reader.start ((shortCode (-off).toNat cnt).layout ++ tail)) =
      .ok (.scopy off cnt, readerAfter (shortCode (-off).toNat cnt) tail) := by
  have hlen : (shortCode (-off).toNat cnt).bits.length ≤ 8 := by simp [shortCode]
  rw [decodePrs_of_short (getBit_layout hlen rfl tail) (getBit_readerIn hlen rfl tail),
    decodeShort_of_fields (getBit_readerIn hlen rfl tail) (getBit_readerIn hlen rfl tail) (getByte_readerIn rfl tail),
    shortOffset_of_distance hoff.1 hoff.2, shortCount_of_bits hcnt.1 hcnt.2]
  rfl

/-- A long-form word, with control bits `0 1` and first two data bytes `f`, is read to its field `f` (R53, R54). -/
theorem decodePrs_longForm {f : Nat} (hf : f < 65536) (more tail : Bytes) :
    decodePrs (Reader.start (Code.layout ⟨[false, true], fieldBytes f ++ more⟩ ++ tail)) =
      if offsetField f = 0 then
        .ok (.stop (BitVec.ofNat 3 (lengthField f)), readerIn ⟨[false, true], fieldBytes f ++ more⟩ tail 2 2)
      else if lengthField f ≠ 0 then
        .ok (.lcopy (longOffset f) (longCount f), readerIn ⟨[false, true], fieldBytes f ++ more⟩ tail 2 2)
      else (readerIn ⟨[false, true], fieldBytes f ++ more⟩ tail 2 2).getByte.map
        fun x => (.ecopy (longOffset f) (extCount x.1), x.2) := by
  rw [decodePrs_of_long (getBit_layout (by simp) rfl tail) (getBit_readerIn (by simp) rfl tail),
    decodeLong_of_field (getByte_readerIn rfl tail) (getByte_readerIn rfl tail), fieldF_fieldBytes hf]

theorem decodePrs_longCode {off : Int} {cnt : Nat} (hoff : -8191 ≤ off ∧ off ≤ -1) (hcnt : 3 ≤ cnt ∧ cnt ≤ 9)
    (tail : Bytes) :
    decodePrs (Reader.start ((longCode (-off).toNat cnt).layout ++ tail)) =
      .ok (.lcopy off cnt, readerAfter (longCode (-off).toNat cnt) tail) := by
  have ho := offsetField_of_distance hoff.1 hoff.2 (l := cnt - 2) (by omega)
  have hl : lengthField ((8192 - (-off).toNat) * 8 + (cnt - 2)) = cnt - 2 := by simp only [lengthField]; omega
  have h := decodePrs_longForm (f := (8192 - (-off).toNat) * 8 + (cnt - 2)) (by omega) [] tail
  rw [if_neg (by omega), if_pos (by omega), longOffset, longCount, ho, hl, Int.add_sub_cancel,
    Nat.sub_add_cancel (by omega)] at h
  exact h

theorem decodePrs_extCode {off : Int} {cnt : Nat} (hoff : -8191 ≤ off ∧ off ≤ -1) (hcnt : 1 ≤ cnt ∧ cnt ≤ 256)
    (tail : Bytes) :
    decodePrs (Reader.start ((extCode (-off).toNat cnt).layout ++ tail)) =
      .ok (.ecopy off cnt, readerAfter (extCode (-off).toNat cnt) tail) := by
  have ho := offsetField_of_distance hoff.1 hoff.2 (l := 0) (by omega)
  have hl : lengthField ((8192 - (-off).toNat) * 8) = 0 := by simp only [lengthField]; omega
  have hn : extCount (BitVec.ofNat 8 (cnt - 1)) = cnt := by simp only [extCount, BitVec.toNat_ofNat]; omega
  have h := decodePrs_longForm (f := (8192 - (-off).toNat) * 8) (by omega) [BitVec.ofNat 8 (cnt - 1)] tail
  rw [Nat.add_zero] at ho
  rw [if_neg (by omega), if_neg (by simp [hl]), getByte_readerIn rfl tail, longOffset, ho, Int.add_sub_cancel] at h
  simp only [Except.map, hn] at h
  exact h

theorem decodePrs_stopCode (f : BitVec 3) (tail : Bytes) :
    decodePrs (Reader.start ((stopCode f).layout ++ tail)) = .ok (.stop f, readerAfter (stopCode f) tail) := by
  have hf := f.isLt
  have ho : offsetField f.toNat = 0 := by simp only [offsetField]; omega
  have hl : lengthField f.toNat = f.toNat := Nat.mod_eq_of_lt hf
  have h := decodePrs_longForm (f := f.toNat) (by omega) [] tail
  rw [if_pos ho, hl, BitVec.ofNat_toNat, BitVec.setWidth_eq] at h
  exact h

theorem decodeBc0_blitCode (v : Byte) (tail : Bytes) :
    decodeBc0 (Reader.start ((blitCode v).layout ++ tail)) = .op (.blit v) (readerAfter (blitCode v) tail) :=
  decodeBc0_of_blit (getBit_layout (by simp [blitCode]) rfl tail) (getElem?_input_readerIn rfl tail)

theorem decodeBc0_brefCode (m : BitVec 12) {cnt : Nat} (h : 3 ≤ cnt) (h' : cnt ≤ 18) (tail : Bytes) :
    decodeBc0 (Reader.start ((brefCode m cnt).layout ++ tail)) =
      .op (.bref m cnt) (readerAfter (brefCode m cnt) tail) := by
  rw [decodeBc0_of_bref (getBit_layout (by simp [brefCode]) rfl tail) (getElem?_input_readerIn rfl tail)
      (getElem?_input_readerIn rfl tail),
    memoOffset_brefCode m (by omega), refCount_brefCode m h h']
  rfl

/-- Every well-formed PRS opcode is decoded from its word, and the reader is then right after the word (R53 to R58). -/
theorem decodePrs_encode {i : Instr} {c : Code} (hi : isPrsOp i = true) (hw : wellFormed i = true)
    (hc : encode i = some c) (tail : Bytes) :
    decodePrs (Reader.start (c.layout ++ tail)) = .ok (i, readerAfter c tail) := by
  cases i with
  | lit v => cases hc; exact decodePrs_litCode v tail
  | scopy off cnt =>
    cases hc
    obtain ⟨h1, h2, hcnt⟩ := of_decide_eq_true hw
    exact decodePrs_shortCode ⟨h1, h2⟩ hcnt tail
  | lcopy off cnt =>
    cases hc
    obtain ⟨h1, h2, hcnt⟩ := of_decide_eq_true hw
    exact decodePrs_longCode ⟨h1, h2⟩ hcnt tail
  | ecopy off cnt =>
    cases hc
    obtain ⟨h1, h2, hcnt⟩ := of_decide_eq_true hw
    exact decodePrs_extCode ⟨h1, h2⟩ hcnt tail
  | stop f => cases hc; exact decodePrs_stopCode f tail
  | _ => cases hi

/-- Every well-formed BC0 opcode is decoded from its word (R59, R60). -/
theorem decodeBc0_encode {i : Instr} {c : Code} (hi : isBc0Op i = true) (hw : wellFormed i = true)
    (hc : encode i = some c) (tail : Bytes) :
    decodeBc0 (Reader.start (c.layout ++ tail)) = .op i (readerAfter c tail) ∧ c.bits.length = 1 := by
  cases i with
  | blit v => cases hc; exact ⟨decodeBc0_blitCode v tail, rfl⟩
  | bref m cnt =>
    cases hc
    obtain ⟨h, h'⟩ := of_decide_eq_true hw
    exact ⟨decodeBc0_brefCode m h h' tail, rfl⟩
  | _ => cases hi

/-- Settles O1: the decode of each opcode's word ends with the reader right after it. -/
theorem prsDecodeOfEncode : Obligations.PrsDecodeOfEncode :=
  fun _ c tail hi hw hc => ⟨readerAfter c tail, decodePrs_encode hi hw hc tail, rfl, rfl, rfl⟩

/-- Settles O2: a BC0 word has one control bit. -/
theorem bc0DecodeOfEncode : Obligations.Bc0DecodeOfEncode := by
  intro i c tail hi hw hc
  obtain ⟨hdec, hbits⟩ := decodeBc0_encode hi hw hc tail
  exact ⟨readerAfter c tail, hdec, rfl, by rw [readerAfter, hbits]; rfl, rfl⟩

/-- Settles O3: each word is evaluated. -/
theorem specWordsDecode : Obligations.SpecWordsDecode := by
  unfold Obligations.SpecWordsDecode
  decide

end Sys2Proof.Machine
end

section
/-!
PROOFS. Family 30_encoding: the opcodes the decoders yield are in the ranges of R64, and STOP is told by its offset
field alone (R54, R56 to R59, R61).
-/

namespace Sys2Proof.Machine

theorem wellFormed_scopy_fields (o : Byte) (h l : Bool) :
    wellFormed (.scopy (shortOffset o) (shortCount h l)) = true := by
  have := o.isLt
  have := h.toNat_le
  have := l.toNat_le
  refine decide_eq_true ?_
  simp only [shortOffset, shortCount]
  omega

theorem longOffset_range {f : Nat} (h : offsetField f ≠ 0) : -8191 ≤ longOffset f ∧ longOffset f ≤ -1 := by
  have : offsetField f < 8192 := Nat.mod_lt _ (by decide)
  simp only [longOffset]
  omega

theorem wellFormed_lcopy_fields {f : Nat} (ho : offsetField f ≠ 0) (hl : lengthField f ≠ 0) :
    wellFormed (.lcopy (longOffset f) (longCount f)) = true := by
  have : lengthField f < 8 := Nat.mod_lt _ (by decide)
  have := longOffset_range ho
  refine decide_eq_true ?_
  simp only [longCount]
  omega

theorem wellFormed_ecopy_fields {f : Nat} (ho : offsetField f ≠ 0) (n : Byte) :
    wellFormed (.ecopy (longOffset f) (extCount n)) = true := by
  have := n.isLt
  have := longOffset_range ho
  refine decide_eq_true ?_
  simp only [extCount]
  omega

theorem wellFormed_bref_fields (m : BitVec 12) (b1 : Byte) : wellFormed (.bref m (refCount b1)) = true := by
  refine decide_eq_true ?_
  simp only [refCount]
  omega

theorem decodePrs_wellFormed {r r' : Reader} {i : Instr} (h : decodePrs r = .ok (i, r')) : wellFormed i = true := by
  obtain ⟨r1, v, -, -, rfl⟩ | ⟨r1, r2, -, -, h⟩ | ⟨r1, r2, -, -, h⟩ := decodePrs_ok h
  · rfl
  · obtain ⟨b0, r3, b1, r4, -, -, ⟨-, -, rfl⟩ | ⟨ho, hl, -, rfl⟩ | ⟨ho, -, n, -, rfl⟩⟩ := decodeLong_ok h
    · rfl
    · exact wellFormed_lcopy_fields ho hl
    · exact wellFormed_ecopy_fields ho n
  · obtain ⟨hb, r3, lb, r4, o, -, -, -, rfl⟩ := decodeShort_ok h
    exact wellFormed_scopy_fields o hb lb

theorem decodeBc0_wellFormed {r r' : Reader} {i : Instr} (h : decodeBc0 r = .op i r') : wellFormed i = true := by
  obtain ⟨r1, v, -, -, -, rfl⟩ | ⟨r1, b0, b1, -, -, -, -, rfl⟩ := decodeBc0_op h
  · rfl
  · exact wellFormed_bref_fields _ b1

/-- Settles O4: the format from the decode tree, the ranges from the widths of the fields. -/
theorem decodersYieldWellFormedOpcodes : Obligations.DecodersYieldWellFormedOpcodes :=
  ⟨fun _ _ _ h => ⟨(decodePrs_isPrsOp h).1, decodePrs_wellFormed h⟩,
    fun _ _ _ h => ⟨(decodeBc0_isBc0Op h).1, decodeBc0_wellFormed h⟩⟩

theorem offsetField_fieldF_eq_zero_iff (b0 b1 : Byte) : offsetField (fieldF b0 b1) = 0 ↔ b1 = 0#8 ∧ b0.toNat < 8 := by
  have := b0.isLt
  have := b1.isLt
  rw [← BitVec.toNat_inj, offsetField, fieldF, BitVec.toNat_ofNat]
  omega

/-- The long form yields STOP exactly when the offset field is 0, with the reader after the two bytes (R54, R58). -/
theorem decodeLong_eq_stop_iff {r r1 r2 r' : Reader} {b0 b1 : Byte} {f : BitVec 3} (h1 : r.getByte = .ok (b0, r1))
    (h2 : r1.getByte = .ok (b1, r2)) :
    decodeLong r = .ok (.stop f, r') ↔
      offsetField (fieldF b0 b1) = 0 ∧ f = BitVec.ofNat 3 (lengthField (fieldF b0 b1)) ∧ r' = r2 := by
  rw [decodeLong_of_field h1 h2]
  by_cases ho : offsetField (fieldF b0 b1) = 0
  · simp [ho, eq_comm]
  · by_cases hl : lengthField (fieldF b0 b1) = 0
    · cases h3 : r2.getByte <;> simp [ho, hl, Except.map]
    · simp [ho, hl]

/-- Settles O6: the two bytes are read before anything else is looked at, and `F[15:3]` decides. -/
theorem stopIsToldByTheOffsetFieldAlone : Obligations.StopIsToldByTheOffsetFieldAlone := by
  intro r r₁ r₂ b0 b1 hbit0 hbit1 hb0 hb1
  have hstop := fun f r' => decodeLong_eq_stop_iff (f := f) (r' := r') (getByte_of_get hb0)
    (getByte_of_get (r := { r₂ with pos := r₂.pos + 1 }) hb1)
  simp only [decodePrs_of_long hbit0 hbit1, hstop, offsetField_fieldF_eq_zero_iff]
  refine ⟨⟨fun ⟨_, _, h, _⟩ => h, fun h => ⟨_, _, h, rfl, rfl⟩⟩, ?_⟩
  rintro f r' ⟨⟨rfl, hlt⟩, rfl, rfl⟩
  refine ⟨?_, rfl⟩
  simp only [lengthField, fieldF, BitVec.toNat_ofNat]
  omega

end Sys2Proof.Machine
end

section
/-!
PROOFS. Family 30_encoding: the pseudo-instructions against the compressor's selection (R60, R65, R86).
-/

namespace Sys2Proof.Machine

/-- COPY at distance `d`, by R65's cases. -/
theorem pseudoCopy_neg_eq {d len : Nat} (hd : 1 ≤ d) (hd' : d ≤ 8191) (hlen : 2 ≤ len) (hlen' : len ≤ 256) :
    pseudoCopy (-(d : Int)) len =
      if d ≤ 256 ∧ len ≤ 5 then some (.scopy (-d) len)
      else if len = 2 then none
      else if len ≤ 9 then some (.lcopy (-d) len)
      else some (.ecopy (-d) len) := by
  have hrange : ¬(-(d : Int) < -8191 ∨ -1 < -(d : Int) ∨ len < 2 ∨ 256 < len) := by omega
  have hshort : (-256 ≤ -(d : Int) ∧ len ≤ 5) ↔ (d ≤ 256 ∧ len ≤ 5) := by omega
  have htwo : len < 3 ↔ len = 2 := by omega
  rw [pseudoCopy, if_neg hrange]
  simp only [hshort, htwo]

/-- COPY's opcode has the word that the selection picks (R65, R86, R90 to R92). -/
theorem selectCode_eq_encode_pseudoCopy {d len : Nat} (hd : 1 ≤ d) (hd' : d ≤ 8191) (hlen : 2 ≤ len)
    (hlen' : len ≤ 256) :
    selectCode d len = some ((pseudoCopy (-(d : Int)) len).bind encode) := by
  rw [selectCode_eq hd' hlen hlen', pseudoCopy_neg_eq hd hd' hlen hlen']
  split
  · simp [encode]
  · split
    · rfl
    · split <;> simp [encode]

/-- The selection falls back to literals only for two bytes beyond the short window (R86 case 3). -/
theorem selectCode_eq_none_iff {d len : Nat} (hd : d ≤ 8191) (hlen : 2 ≤ len) (hlen' : len ≤ 256) :
    selectCode d len = some none ↔ len = 2 ∧ 256 < d := by
  rw [selectCode_eq hd hlen hlen']
  split
  · exact iff_of_false nofun (by omega)
  · split
    · exact iff_of_true rfl (by omega)
    · split <;> exact iff_of_false nofun (by omega)

theorem memoOf_toNat (q : Nat) : (memoOf q).toNat = (q + 0x0FEE) % 4096 := by
  simp only [memoOf, Config.bc0Cursor0, BitVec.toNat_add, BitVec.toNat_ofNat]
  omega

/-- Settles O8: the two case splits of R65 and R86 are the same. -/
theorem pseudoCopyIsTheSelectedOpcode : Obligations.PseudoCopyIsTheSelectedOpcode := by
  refine ⟨fun d len hd hd' hlen hlen' => ?_, fun q cnt => ⟨memoOf q, rfl, memoOf_toNat q⟩⟩
  have hsel := selectCode_eq_encode_pseudoCopy hd hd' hlen hlen'
  refine ⟨_, hsel, rfl, ?_⟩
  rw [← selectCode_eq_none_iff hd' hlen hlen', hsel, Option.some_inj]

end Sys2Proof.Machine
end

section
/-!
PROOFS. Family 30_encoding: STOP on the decoder in flight, and the step that returns its result (R58, R99, R105).
-/

namespace Sys2Proof.Machine

/-- A PRS opcode that goes on: its instance, and its own record on the sink (R108, R129). -/
theorem exec_prsOp_ok {s : State} {p p' : Prsd} {i : Instr} (hp : RunningPrsd s p) (hi : isPrsOp i = true)
    (hop : prsdOp i p = .ok p') :
    exec i s = .next { s with
      active := .prsd p'
      sink := s.sink ++ (prsTraced p i).map (fun r => (p.sink, .prs r)) } := by
  obtain ⟨hactive, hrunning⟩ := hp
  have htraces := prsdOp_traces i p
  rw [hop] at htraces
  obtain ⟨hsink, htrace⟩ := htraces
  rw [exec_prsOp hi, onPrsd_running hactive hrunning, hop]
  simp [prsNewItems_of_trace_append htrace, hsink, State.writeSink]

theorem prsdOp_stop (f : BitVec 3) (p : Prsd) :
    prsdOp (.stop f) p = .ok { p with fin := .stop, trace := p.trace ++ prsTraced p (.stop f) } := by
  rw [prsdOp, prsdStop, Prsd.record_eq]
  rfl

/-- Out of the loop, the step returns the result (R99). -/
theorem step_prsd_ended {s : State} {p : Prsd} (hsched : s.schedule = []) (hactive : s.active = .prsd p)
    (hend : p.ended = true) : step s = .next (prsdReturn p s) := by
  rw [step_of_schedule_nil hsched, fetchCurrent, hactive]
  simp only [fetchPrsd, hend, if_true]

/-- The return of PRSD: the final count in TRACE mode, the result, and the thread idle (R99, R129). -/
theorem prsdReturn_eq {s : State} {p : Prsd} (hactive : s.active = .prsd p) :
    prsdReturn p s = { s with
      active := .idle
      responses := s.responses ++ [.ok p.returned]
      sink := s.sink ++ p.finalItems.map (fun x => (p.sink, x)) } := by
  simp [prsdReturn, State.returnOk, State.release, State.respond, State.writeSink, hactive]

/-- Settles O13: STOP only sets `end`, and an instance out of its loop returns. -/
theorem stopEndsTheDecode : Obligations.StopEndsTheDecode := by
  intro s p f hp hsched
  refine ⟨_, exec_prsOp_ok hp rfl (prsdOp_stop f p), rfl, ?_⟩
  rw [step_prsd_ended (by exact hsched) rfl rfl, prsdReturn_eq rfl]
  cases p.mode <;> simp [Prsd.returned, Prsd.finalItems]

end Sys2Proof.Machine
end

section
/-!
PROOFS. Family 40_bitstream: an input that ends inside a PRS opcode (R74, R75, R110, R137).
-/

namespace Sys2Proof.Machine

/-- Where a read fails: at its first step, or at what follows it. -/
theorem bind_error {α β : Type} {x : Except DecodeError α} {f : α → Except DecodeError β} {e : DecodeError}
    (h : (x >>= f) = .error e) : x = .error e ∨ ∃ a, x = .ok a ∧ f a = .error e := by
  cases x with
  | error e' => cases h; exact .inl rfl
  | ok a => exact .inr ⟨a, rfl, h⟩

/-! ## The bytes of an opcode (R75) -/

/-- The reader reads `input`, and has not passed its end (R24). -/
def ReaderInside (r : Reader) (input : Bytes) : Prop := r.input = input ∧ r.pos ≤ input.length

theorem ReaderInside.getByte {r r' : Reader} {input : Bytes} {v : Byte} (h : ReaderInside r input)
    (hv : r.getByte = .ok (v, r')) : ReaderInside r' input := by
  obtain ⟨rfl, -⟩ := h
  obtain ⟨hget, rfl⟩ := getByte_ok hv
  exact ⟨rfl, pos_lt_of_get hget⟩

/-- The byte that is missing stands at `len(IN)`. -/
theorem ReaderInside.getByte_error {r : Reader} {input : Bytes} {e : DecodeError} (h : ReaderInside r input)
    (he : r.getByte = .error e) : e = .truncated input.length := by
  obtain ⟨rfl, hle⟩ := h
  obtain ⟨hget, rfl⟩ := Machine.getByte_error he
  rw [Nat.le_antisymm hle (List.getElem?_eq_none_iff.mp hget)]

/-- The long form fails only for want of a data byte (R54). -/
theorem ReaderInside.decodeLong_error {r : Reader} {input : Bytes} {e : DecodeError} (h : ReaderInside r input)
    (he : decodeLong r = .error e) : e = .truncated input.length := by
  obtain hb0 | ⟨⟨b0, r1⟩, hb0, hrest⟩ := bind_error he
  · exact h.getByte_error hb0
  obtain hb1 | ⟨⟨b1, r2⟩, hb1, -⟩ := bind_error hrest
  · exact (h.getByte hb0).getByte_error hb1
  rw [decodeLong_of_field hb0 hb1] at he
  split at he
  · cases he
  · split at he
    · cases he
    · cases hn : r2.getByte with
      | error e' =>
        rw [hn] at he
        cases he
        exact ((h.getByte hb0).getByte hb1).getByte_error hn
      | ok x => rw [hn] at he; cases he

section
variable {r r1 r2 : Reader} {e : DecodeError}

theorem decodePrs_of_lit_error (h1 : r.getBit = .ok (true, r1)) (h2 : r1.getByte = .error e) :
    decodePrs r = .error e := by
  simp [decodePrs, h1, h2, bind, Except.bind]

theorem decodeShort_of_error {hb lb : Bool} (h1 : r.getBit = .ok (hb, r1)) (h2 : r1.getBit = .ok (lb, r2))
    (h3 : r2.getByte = .error e) : decodeShort r = .error e := by
  simp [decodeShort, h1, h2, h3, bind, Except.bind]

end

/-! ## The control bits of an opcode (R74) -/

section
variable {r r' : Reader} {n : Nat}

/-- An opcode's control bits fetch at most one control byte. -/
theorem ReaderMoved.inside (hm : ReaderMoved r r' n 0) (hpos : r.pos < r.input.length) : ReaderInside r' r.input := by
  refine ⟨hm.input, ?_⟩
  rw [hm.pos]
  split <;> omega

/-- With a byte ahead, each of the first 8 control bits is there: the bits of a fetched control byte last for them, and
until one is fetched that byte is still ahead. -/
theorem ReaderMoved.exists_getBit (hm : ReaderMoved r r' n 0) (hn : n < 8) (hpos : r.pos < r.input.length) :
    ∃ b r'', r'.getBit = .ok (b, r'') ∧ ReaderMoved r r'' (n + 1) 0 := by
  cases hbit : r'.getBit with
  | ok x => exact ⟨x.1, x.2, rfl, hm.getBit hn hbit⟩
  | error e =>
    obtain ⟨hleft, hget, -⟩ := getBit_error hbit
    have hend := List.getElem?_eq_none_iff.mp hget
    obtain ⟨hinput, -, hp, hl⟩ := hm
    have hunfetched : ¬r.left < n := fun hlt => by rw [if_pos hlt] at hl; omega
    rw [if_neg hunfetched] at hp
    rw [hinput] at hend
    omega

end

/-- What a PRS decode has read where it fails with a byte ahead: the control bits of its branch (R54). A data byte is
missing. -/
theorem decodePrs_error {r : Reader} {e : DecodeError} (hpos : r.pos < r.input.length) (he : decodePrs r = .error e) :
    e = .truncated r.input.length ∧
      ∃ a r1, r.getBit = .ok (a, r1) ∧ (a = false →
        ∃ b r2, r1.getBit = .ok (b, r2) ∧ (b = false →
          ∃ h r3 l r4, r2.getBit = .ok (h, r3) ∧ r3.getBit = .ok (l, r4))) := by
  obtain ⟨a, r1, h1, hm1⟩ := (ReaderMoved.refl r).exists_getBit (by omega) hpos
  obtain ⟨b, r2, h2, hm2⟩ := hm1.exists_getBit (by omega) hpos
  obtain ⟨h, r3, h3, hm3⟩ := hm2.exists_getBit (by omega) hpos
  obtain ⟨l, r4, h4, hm4⟩ := hm3.exists_getBit (by omega) hpos
  refine ⟨?_, a, r1, h1, fun _ => ⟨b, r2, h2, fun _ => ⟨h, r3, l, r4, h3, h4⟩⟩⟩
  cases a with
  | true =>
    cases hv : r1.getByte with
    | error e' =>
      rw [decodePrs_of_lit_error h1 hv] at he
      cases he
      exact (hm1.inside hpos).getByte_error hv
    | ok x => rw [decodePrs_of_lit h1 hv] at he; cases he
  | false =>
    cases b with
    | true =>
      rw [decodePrs_of_long h1 h2] at he
      exact (hm2.inside hpos).decodeLong_error he
    | false =>
      rw [decodePrs_of_short h1 h2] at he
      cases ho : r4.getByte with
      | error e' =>
        rw [decodeShort_of_error h3 h4 ho] at he
        cases he
        exact (hm4.inside hpos).getByte_error ho
      | ok x => rw [decodeShort_of_fields h3 h4 ho] at he; cases he

/-- Inside an opcode that the input cuts off, the step raises the error (R99, R137, R141). -/
theorem step_prsd_truncated {s : State} {p : Prsd} {k : Nat} (hp : RunningPrsd s p) (hsched : s.schedule = [])
    (hend : p.atEnd = false) (hd : decodePrs p.rd = .error (.truncated k)) :
    step s = .next (s.raise (.malformedTruncated k)) := by
  obtain ⟨hactive, hrunning⟩ := hp
  rw [step_of_schedule_nil hsched, fetchCurrent, hactive]
  simp [fetchPrsd, Prsd.ended, hrunning, hend, hd]

theorem raise_prsd {s : State} {p : Prsd} (hactive : s.active = .prsd p) (e : EngineError) :
    s.raise e = { s with active := .idle, responses := s.responses ++ [.error e] } := by
  simp [State.raise, State.release, State.respond, hactive]

/-- Settles O15: the opcode's control bits are there, its missing data byte stands at `len(IN)`, and the step raises. -/
theorem truncationInsideAnOpcode : Obligations.TruncationInsideAnOpcode := by
  intro s p e hp hsched hpos he
  obtain ⟨rfl, hbits⟩ := decodePrs_error hpos he
  have hend : p.atEnd = false := by simpa [Prsd.atEnd] using Nat.ne_of_lt hpos
  exact ⟨rfl, by rw [step_prsd_truncated hp hsched hend he, raise_prsd hp.1], hbits⟩

end Sys2Proof.Machine
end

section
/-!
PROOFS. Family 40_bitstream: a BC0 stream that ends inside an opcode (R78, R119 to R121).
-/

namespace Sys2Proof.Machine

/-- Where no whole opcode is left, the step leaves the loop (R119). -/
theorem step_bc0d_ended {s : State} {d : Bc0d} {r : Reader} (hd : RunningBc0d s d) (hsched : s.schedule = [])
    (hend : decodeBc0 d.rd = .ended r) : step s = .next { s with active := .bc0d (d.leave r) } := by
  obtain ⟨hactive, hrunning⟩ := hd
  rw [step_of_schedule_nil hsched, fetchCurrent, hactive]
  simp [fetchBc0d, hrunning, hend]

/-- Out of the loop, the step returns the result (R119). -/
theorem step_bc0d_done {s : State} {d : Bc0d} (hsched : s.schedule = []) (hactive : s.active = .bc0d d)
    (hdone : d.done = true) : step s = .next (bc0dReturn d s) := by
  rw [step_of_schedule_nil hsched, fetchCurrent, hactive]
  simp only [fetchBc0d, hdone, if_true]

/-- The return of BC0D: the final count in TRACE mode, the result, and the thread idle (R119, R131). -/
theorem bc0dReturn_eq {s : State} {d : Bc0d} (hactive : s.active = .bc0d d) :
    bc0dReturn d s = { s with
      active := .idle
      responses := s.responses ++ [.ok d.returned]
      sink := s.sink ++ d.finalItems.map (fun x => (d.sink, x)) } := by
  simp [bc0dReturn, State.returnOk, State.release, State.respond, State.writeSink, hactive]

/-- Settles O19: the loop is left with the reader moved only, and an instance out of its loop returns. -/
theorem bc0EndDiscardsThePartialOpcode : Obligations.Bc0EndDiscardsThePartialOpcode := by
  intro s d r hd hsched hend
  refine ⟨_, step_bc0d_ended hd hsched hend, rfl, _, step_bc0d_done (by exact hsched) rfl rfl, ?_⟩
  rw [bc0dReturn_eq rfl]
  exact ⟨rfl, rfl⟩

end Sys2Proof.Machine
end

section
/-!
PROOFS. Family 40_bitstream: the PBS writer against the canonical layout of control bits and data bytes (R67 to R73).
-/

namespace Sys2Proof.Machine

/-! ## The canonical layout (R73) -/

/-- The layout looks at its count of bits only within the group of 8. -/
theorem canonical_add_eight (n : Nat) (ts : List Token) : canonical (n + 8) ts = canonical n ts := by
  induction ts generalizing n with
  | nil => rfl
  | cons t ts ih =>
    cases t with
    | bit b => simp only [canonical, Nat.add_mod_right, Nat.add_right_comm n 8 1, ih]
    | byte v => simp only [canonical, ih]

/-- One more bit goes above a group's bits (R38, R68). -/
theorem controlByte_concat {bs : List Bool} (h : bs.length < 8) (v : Bool) :
    controlByte (bs ++ [v]) = controlByte bs ||| (BitVec.ofNat 8 v.toNat <<< bs.length) := by
  refine BitVec.eq_of_getLsbD_eq fun j hj => ?_
  rw [BitVec.getLsbD_or, getLsbD_bit_shiftLeft v _ j hj, getLsbD_controlByte (Nat.le_of_lt h),
    getLsbD_controlByte (by simpa using h)]
  rcases Nat.lt_trichotomy j bs.length with hlt | rfl | hgt
  · simp [List.getElem?_append_left hlt, Nat.ne_of_lt hlt]
  · simp
  · simp [List.getElem?_append_right hgt.le, Nat.ne_of_gt hgt, Nat.sub_ne_zero_of_lt hgt, hgt.le]

/-! ## The writer, one token at a time (R68 to R71) -/

/-- `PutBit` or `PutByte`, as the token says. -/
def PbsWriter.put (w : PbsWriter) : Token → PbsWriter
  | .bit b => w.putBit b
  | .byte v => w.putByte v

theorem emit_eq_foldl_put (w : PbsWriter) (c : Code) :
    w.emit c = ((codeTokens c).foldl PbsWriter.put w).rollIfFull := by
  rw [codeTokens, List.foldl_append, List.foldl_map, List.foldl_map]
  rfl

/-- The writer inside a group: `pre` is written before the group's placeholder, `suf` after it, and the group has the bits
`bs` so far, up to all 8 (R67 to R69, R157). -/
structure PbsWriter.InGroup (w : PbsWriter) (pre : Bytes) (bs : List Bool) (suf : Bytes) : Prop where
  out : ∃ hole, w.out = pre ++ hole :: suf
  ctlOff : w.ctlOff = pre.length
  pend : w.pend = controlByte bs
  npend : w.npend = bs.length
  pos : 0 < bs.length
  le : bs.length ≤ 8

section
variable {w : PbsWriter} {pre suf : Bytes} {bs : List Bool}

/-- The group's control byte goes to its placeholder (R67, R72). -/
theorem PbsWriter.InGroup.backfill (h : w.InGroup pre bs suf) : w.out.set w.ctlOff w.pend = pre ++ controlByte bs :: suf := by
  obtain ⟨hole, hout⟩ := h.out
  rw [hout, h.ctlOff, h.pend, List.set_append_right _ _ (Nat.le_refl _), Nat.sub_self, List.set_cons_zero]

theorem PbsWriter.InGroup.finish_out (h : w.InGroup pre bs suf) : w.finish.out = pre ++ controlByte bs :: suf := by
  rw [← h.backfill, PbsWriter.finish, if_pos (h.npend ▸ h.pos)]

theorem PbsWriter.InGroup.putByte (h : w.InGroup pre bs suf) (v : Byte) : (w.putByte v).InGroup pre bs (suf ++ [v]) := by
  obtain ⟨⟨hole, hout⟩, hctl, hpend, hnpend, hpos, hle⟩ := h
  exact ⟨⟨hole, by simp [hout]⟩, hctl, hpend, hnpend, hpos, hle⟩

/-- Into a group with room, a bit goes above the others. -/
theorem PbsWriter.InGroup.putBit_of_lt (h : w.InGroup pre bs suf) (hlt : bs.length < 8) (b : Bool) :
    (w.putBit b).InGroup pre (bs ++ [b]) suf := by
  rw [Machine.putBit_of_lt (h.npend ▸ hlt)]
  refine ⟨h.out, h.ctlOff, ?_, ?_, by simp, by simpa using hlt⟩
  · simp only [h.pend, h.npend, controlByte_concat hlt]
  · simp [h.npend]

/-- After a full group, a bit opens the next group at the end of the output. -/
theorem PbsWriter.InGroup.putBit_of_full (h : w.InGroup pre bs suf) (hfull : bs.length = 8) (b : Bool) :
    (w.putBit b).InGroup (pre ++ controlByte bs :: suf) [b] [] := by
  rw [Machine.putBit_of_full (h.npend ▸ hfull)]
  refine ⟨⟨0#8, ?_⟩, ?_, ?_, rfl, Nat.one_pos, by simp⟩
  · rw [← h.backfill]; rfl
  · rw [← h.backfill, List.length_set]; rfl
  · cases b <;> rfl

end

/-- From inside a group, the writer completes the group and goes on with the canonical layout (R73). -/
theorem PbsWriter.InGroup.foldl_put_finish_out {w : PbsWriter} {pre suf : Bytes} {bs : List Bool}
    (h : w.InGroup pre bs suf) (ts : List Token) :
    (ts.foldl PbsWriter.put w).finish.out =
      pre ++ controlByte ((bs ++ tokenBits ts).take 8) :: (suf ++ canonical bs.length ts) := by
  induction ts generalizing w pre bs suf with
  | nil => simp [canonical, tokenBits, h.finish_out, List.take_of_length_le h.le]
  | cons t ts ih =>
    rw [List.foldl_cons]
    cases t with
    | byte v => simp [PbsWriter.put, ih (h.putByte v), canonical, tokenBits]
    | bit b =>
      have hpos := h.pos
      rw [PbsWriter.put, canonical, tokenBits]
      rcases Nat.lt_or_eq_of_le h.le with hlt | hfull
      · have hmod : ¬bs.length % 8 = 0 := by omega
        rw [ih (h.putBit_of_lt hlt b), if_neg hmod, List.append_assoc, List.length_append]
        rfl
      · have hnext : canonical (8 + 1) ts = canonical 1 ts := canonical_add_eight 1 ts
        rw [ih (h.putBit_of_full hfull b), hfull, if_pos rfl, hnext, List.take_left' hfull]
        simp

/-! ## `EndOpcode` (R70) -/

/-- To roll over a full group at once, or with the next bit, is the same. -/
theorem putBit_rollIfFull (w : PbsWriter) (b : Bool) : w.rollIfFull.putBit b = w.putBit b := by
  by_cases h : w.npend = 8 <;> simp [PbsWriter.putBit, PbsWriter.rollIfFull, h]

/-- At the end of the stream it is the same too: an unused placeholder is removed (R72). -/
theorem finish_rollIfFull_out (w : PbsWriter) : w.rollIfFull.finish.out = w.finish.out := by
  by_cases h : w.npend = 8 <;> simp [PbsWriter.finish, PbsWriter.rollIfFull, h]

/-- Before opcodes, each of which starts with a bit, a full group may be rolled over or not. -/
theorem foldl_put_rollIfFull_finish_out {codes : List Code} (h : ∀ c ∈ codes, c.bits ≠ []) (w : PbsWriter) :
    ((codes.flatMap codeTokens).foldl PbsWriter.put w.rollIfFull).finish.out =
      ((codes.flatMap codeTokens).foldl PbsWriter.put w).finish.out := by
  cases codes with
  | nil => exact finish_rollIfFull_out w
  | cons c codes =>
    obtain ⟨b, bits, hbits⟩ := List.exists_cons_of_ne_nil (h c List.mem_cons_self)
    simp only [List.flatMap_cons, codeTokens, hbits, List.map_cons, List.cons_append, List.foldl_cons, PbsWriter.put,
      putBit_rollIfFull]

/-- The stream of some opcodes is the stream of their tokens: `EndOpcode` shows nowhere in it. -/
theorem foldl_emit_finish_out {codes : List Code} (h : ∀ c ∈ codes, c.bits ≠ []) (w : PbsWriter) :
    (codes.foldl PbsWriter.emit w).finish.out = ((codes.flatMap codeTokens).foldl PbsWriter.put w).finish.out := by
  induction codes generalizing w with
  | nil => rfl
  | cons c codes ih =>
    have hcodes := fun c' hc' => h c' (List.mem_cons_of_mem c hc')
    rw [List.foldl_cons, ih hcodes, emit_eq_foldl_put, foldl_put_rollIfFull_finish_out hcodes, List.flatMap_cons,
      List.foldl_append]

/-- The first bit goes into the group that a new writer has reserved (R66). -/
theorem start_putBit_inGroup (b : Bool) : (PbsWriter.start.putBit b).InGroup [] [b] [] := by
  refine ⟨⟨0#8, rfl⟩, rfl, ?_, rfl, Nat.one_pos, by simp⟩
  cases b <;> rfl

/-- Settles O44: the opcodes' tokens one by one, by the invariant of the group they go into. -/
theorem writerProducesTheCanonicalLayout : Obligations.WriterProducesTheCanonicalLayout := by
  intro codes h
  rw [foldl_emit_finish_out h]
  cases codes with
  | nil => rfl
  | cons c codes =>
    obtain ⟨b, bits, hbits⟩ := List.exists_cons_of_ne_nil (h c List.mem_cons_self)
    have htokens : ∃ ts, (c :: codes).flatMap codeTokens = .bit b :: ts := ⟨_, by simp [codeTokens, hbits]; rfl⟩
    obtain ⟨ts, hts⟩ := htokens
    rw [hts, List.foldl_cons, PbsWriter.put, (start_putBit_inGroup b).foldl_put_finish_out]
    rfl

end Sys2Proof.Machine
end

section
/-!
PROOFS. Family 40_bitstream: one iteration of the BC0 compressor (R77, R111, R114 to R116).
-/

namespace Sys2Proof.Machine

/-- A search result's length fits BREF's length field (R113). -/
theorem bc0Search_len_le_bc0F {d : Bytes} {i : Nat} {x : List Nat} {q len : Nat} (h : bc0Search d i x = some (q, len)) :
    len ≤ 18 := by
  obtain ⟨-, -, -, hboth⟩ := bc0SearchTriesBothNeighbours d i x
  rw [h] at hboth
  obtain ⟨rfl, -⟩ := hboth
  exact (matchLen_le _ _ _ _).trans (Nat.min_le_left _ _)

/-- One iteration is one opcode's word, emitted, and the index steps over the bytes it covers (R111, R115, R116). -/
theorem bc0cIter_eq_emit {c : Bc0c} {v : Byte} (hv : c.d[c.i]? = some v) :
    ∃ (i : Instr) (code : Code) (n : Nat) (bit : Bool),
      ((∃ q len, bc0Search c.d c.i c.x = some (q, len) ∧ 3 ≤ len ∧ i = pseudoBrefq q len ∧ n = len ∧ bit = false) ∨
        ((∀ q len, bc0Search c.d c.i c.x = some (q, len) → len < 3) ∧ i = .blit v ∧ n = 1 ∧ bit = true)) ∧
      wellFormed i = true ∧ encode i = some code ∧ code.bits = [bit] ∧
      bc0cIter c = (c.emit bit code.data).indexSteps n := by
  obtain ⟨hnone, -⟩ | ⟨v', hv', ⟨q, len, hs, hlen, he⟩ | ⟨hs, he⟩⟩ := bc0cEmit_cases c
  · rw [hv] at hnone; cases hnone
  · refine ⟨pseudoBrefq q len, _, len, false, .inl ⟨q, len, hs, hlen, rfl, rfl, rfl⟩, ?_, rfl, rfl, ?_⟩
    · exact decide_eq_true ⟨hlen, bc0Search_len_le_bc0F hs⟩
    · rw [bc0cIter, he]; rfl
  · obtain rfl : v' = v := Option.some_inj.mp (hv'.symm.trans hv)
    exact ⟨.blit v', _, 1, true, .inr ⟨hs, rfl, rfl, rfl⟩, rfl, rfl, rfl, by rw [bc0cIter, he]; rfl⟩

/-- Into an open group, the control bit goes to its place in the group's control byte (R77). -/
theorem emit_of_lt {c : Bc0c} {g : Nat} {old : Byte} (h : c.gbits < 8) (hg : c.gctl = some g) (hold : c.out[g]? = some old)
    (v : Bool) (data : Bytes) :
    c.emit v data = { c with
      out := c.out.set g (if v then old ||| 1#8 <<< c.gbits else old) ++ data
      gbits := c.gbits + 1 } := by
  have hbit : (old ||| (BitVec.ofNat 8 v.toNat <<< c.gbits)) = if v then old ||| 1#8 <<< c.gbits else old := by
    cases v <;> simp
  rw [Bc0c.emit, openGroup_of_lt h, hg, markControl, List.modify_eq_set_getElem?, hold]
  simp [hbit]

/-- Settles O60: the opcode from the search's two cases, the group from the writer's, and the window from the invariant
that the iteration keeps. -/
theorem bc0IterationEmitsOneOpcode : Obligations.Bc0IterationEmitsOneOpcode := by
  intro c v hinv hv
  obtain ⟨i, code, n, bit, hop, hwf, hcode, hbits, hiter⟩ := bc0cIter_eq_emit hv
  obtain ⟨hd, hn, hi, hout, hgctl, hgbits, hprogress⟩ := indexSteps_frame n (c.emit bit code.data)
  have hinv' := hinv.iter
  have hle := hinv'.i_le
  have hx := hinv'.x_eq
  rw [hiter] at hle hx
  rw [hi, hn, Bc0c.emit_i, Bc0c.emit_n] at hle
  rw [hi, Bc0c.emit_i] at hx
  refine ⟨i, code, n, bit, hop, hwf, hcode, hbits, ?_⟩
  rw [hiter, hd, hn, hi, hout, hgctl, hgbits, hprogress]
  refine ⟨by rw [Bc0c.emit_i], hle, hx, c.emit_d _ _, c.emit_n _ _, c.emit_progress _ _, fun hfull => ?_, fun hlt => ?_⟩
  · rw [emit_of_full hfull]
    cases bit <;> simp
  · obtain ⟨g, hg, hglt⟩ := hinv.group hlt
    have hold := List.getElem?_eq_getElem hglt
    refine ⟨g, _, hg, hold, ?_⟩
    rw [emit_of_lt hlt hg hold]
    exact ⟨rfl, hg, rfl⟩

end Sys2Proof.Machine
end

section
/-!
PROOFS. Family 41_prs_compressor: match lengths as a cyclic comparison, the order of preference of the search, and the
encodings of its results (R83 to R86, R94, R113).
-/

namespace Sys2Proof.Machine

/-! ## The match length (R83, R113) -/

/-- What agrees with itself at distance `d` is read round the first `d` bytes. -/
theorem get_eq_get_mod_of_agree {rd : Nat → Option Byte} {p d n : Nat} (hd : 0 < d)
    (h : ∀ j, j < n → rd (p + j) = rd (p + d + j)) (j : Nat) (hj : j < n + d) : rd (p + j) = rd (p + j % d) := by
  induction j using Nat.strong_induction_on with
  | _ j ih =>
    by_cases hlt : j < d
    · rw [Nat.mod_eq_of_lt hlt]
    · have hstep : rd (p + j) = rd (p + (j - d)) := by
        rw [h (j - d) (by omega)]
        congr 1
        omega
      rw [hstep, ih (j - d) (by omega) (by omega), ← Nat.mod_eq_sub_mod (by omega)]

/-- From the match's start to its end, the bytes repeat those before the boundary. -/
theorem matchLen_cyclic (rd : Nat → Option Byte) {cap p bb : Nat} (h : p < bb) (j : Nat)
    (hj : j < matchLen rd cap p bb + (bb - p)) : rd (p + j) = rd (p + j % (bb - p)) := by
  refine get_eq_get_mod_of_agree (n := matchLen rd cap p bb) (by omega) (fun j hj => ?_) j hj
  rw [matchLen_agree rd hj]
  congr 1
  omega

/-- Inside the match, a byte is the one the cyclic reading gives (R83). -/
theorem matchLen_get_cyclic (rd : Nat → Option Byte) {cap p bb j : Nat} (h : p < bb) (hj : j < matchLen rd cap p bb) :
    rd (bb + j) = rd (p + j % (bb - p)) := by
  rw [← matchLen_agree rd hj]
  exact matchLen_cyclic rd h j (Nat.lt_add_right _ hj)

/-- Settles O41: the agreement of `matchLen`, and the period it gives the bytes from the match's start on. -/
theorem matchLengthIsTheCyclicComparison : Obligations.MatchLengthIsTheCyclicComparison := by
  rintro data cap p bb L h rfl
  refine ⟨matchLen_le _ _ _ _, fun j hj => ⟨(matchLen_agree _ hj).symm, matchLen_get_cyclic _ h hj⟩, fun hlt => ?_⟩
  have hstop := (matchLen_stop _ hlt).symm
  refine ⟨hstop, ?_⟩
  rwa [matchLen_cyclic (fun i => data[i]?) h _ (Nat.lt_add_of_pos_right (by omega))] at hstop

/-! ## The search as a choice from a list (R84, R85) -/

/-- The candidate of prefix `k` and distance `d`, with its match length. -/
def candidateAt (data : Bytes) (b k d : Nat) : Match := { k := k, d := d, len := candidateLen data b k d }

/-- The candidates of prefix `k`, closest first. -/
def candidatesAt (data : Bytes) (b k d n : Nat) : List Match := (List.range' d n).map (candidateAt data b k)

/-- The candidates of the prefixes `k, k + 1, …`, `n` of them, that leave a byte to match. -/
def candidatesFrom (data : Bytes) (b k n : Nat) : List Match :=
  ((List.range' k n).filter (fun k => decide (b + k < data.length))).flatMap
    fun k => candidatesAt data b k 1 (min (b + k) 8191)

theorem searchBack_eq_foldl (data : Bytes) (b k n d : Nat) (best : Option Match) :
    searchBack (fun i => data[i]?) (b + k) (min 256 (data.length - (b + k))) k n d best =
      (candidatesAt data b k d n).foldl betterMatch best := by
  induction n generalizing d best with
  | zero => rfl
  | succ n ih =>
    rw [searchBack, ih]
    rfl

theorem searchLoop_eq_foldl (data : Bytes) (b n k : Nat) (best : Option Match) :
    searchLoop (fun i => data[i]?) data.length b n k best = (candidatesFrom data b k n).foldl betterMatch best := by
  induction n generalizing k best with
  | zero => rfl
  | succ n ih =>
    rw [searchLoop, candidatesFrom]
    split
    · next hend =>
      have hnil : (List.range' k (n + 1)).filter (fun k => decide (b + k < data.length)) = [] := by
        simp only [List.filter_eq_nil_iff, List.mem_range'_1, decide_eq_true_eq]
        omega
      rw [hnil]
      rfl
    · next hin =>
      rw [ih, List.range'_succ, List.filter_cons_of_pos (by simpa using hin), List.flatMap_cons, List.foldl_append,
        ← searchBack_eq_foldl]
      rfl

/-- The search picks from its candidates, in their order. -/
theorem search_eq_foldl (data : Bytes) (b level : Nat) :
    search data b level = (candidatesFrom data b 0 level).foldl betterMatch none := by
  rw [search, byteAt_toArray_eq, searchLoop_eq_foldl]

theorem mem_candidatesFrom {data : Bytes} {b level : Nat} {c : Match} :
    c ∈ candidatesFrom data b 0 level ↔ Candidate data b level c.k c.d ∧ c.len = candidateLen data b c.k c.d := by
  simp only [candidatesFrom, candidatesAt, List.mem_flatMap, List.mem_filter, List.mem_range'_1, List.mem_map,
    decide_eq_true_eq, Candidate]
  constructor
  · rintro ⟨k, hk, d, hd, rfl⟩
    exact ⟨⟨by simp only [candidateAt]; omega, hk.2, hd.1, by simp only [candidateAt]; omega,
      by simp only [candidateAt]; omega⟩, rfl⟩
  · rintro ⟨hc, hlen⟩
    exact ⟨c.k, by omega, c.d, by omega, by rw [candidateAt, ← hlen]⟩

/-- The candidates come with their prefixes in order. -/
theorem candidatesFrom_pairwise (data : Bytes) (b k n : Nat) :
    (candidatesFrom data b k n).Pairwise (fun m c => m.k ≤ c.k) := by
  have hsorted : ((List.range' k n).filter (fun k => decide (b + k < data.length))).Pairwise (· ≤ ·) :=
    List.pairwise_le_range'.filter _
  refine List.pairwise_flatMap.mpr ⟨fun k _ => ?_, hsorted.imp fun hle m hm c hc => ?_⟩
  · exact List.pairwise_map.mpr (List.pairwise_of_forall fun _ _ => Nat.le_refl k)
  · obtain ⟨_, -, rfl⟩ := List.mem_map.mp hm
    obtain ⟨_, -, rfl⟩ := List.mem_map.mp hc
    exact hle

/-! ## The order of preference (R84) -/

/-- `m` is preferred to `c`, or is `c` itself: longer, or as long and closer, or as long and as far with no
longer prefix. -/
def Match.AtLeast (m c : Match) : Prop :=
  c.len < m.len ∨ (c.len = m.len ∧ (m.d < c.d ∨ (m.d = c.d ∧ m.k ≤ c.k)))

/-- The choice from `cs`: none where every match is too short, else the most preferred. -/
def IsBest (cs : List Match) : Option Match → Prop
  | none => ∀ c ∈ cs, c.len < 2
  | some m => m ∈ cs ∧ 2 ≤ m.len ∧ ∀ c ∈ cs, m.AtLeast c

theorem Match.AtLeast.refl (m : Match) : m.AtLeast m := .inr ⟨rfl, .inr ⟨rfl, Nat.le_refl _⟩⟩

/-- One more candidate, whose prefix is no shorter than the earlier ones: a tie keeps the earlier one. -/
theorem IsBest.betterMatch {cs : List Match} {best : Option Match} (h : IsBest cs best) {c : Match}
    (hk : ∀ m ∈ cs, m.k ≤ c.k) : IsBest (cs ++ [c]) (betterMatch best c) := by
  have hall : ∀ {P : Match → Prop}, (∀ m ∈ cs, P m) → P c → ∀ m ∈ cs ++ [c], P m := fun hcs hc =>
    List.forall_mem_append.mpr ⟨hcs, List.forall_mem_singleton.mpr hc⟩
  have hlast : c ∈ cs ++ [c] := List.mem_append_right _ (List.mem_singleton_self c)
  unfold Machine.betterMatch
  split
  · next hshort =>
    cases best with
    | none => exact hall h hshort
    | some m =>
      obtain ⟨hmem, hlen, hbest⟩ := h
      exact ⟨List.mem_append_left _ hmem, hlen, hall hbest (.inl (by omega))⟩
  · next hlong =>
    cases best with
    | none => exact ⟨hlast, by omega, hall (fun c' hc' => .inl (by have := h c' hc'; omega)) (.refl c)⟩
    | some m =>
      obtain ⟨hmem, hlen, hbest⟩ := h
      have hmk := hk m hmem
      simp only
      split
      · next hbetter =>
        refine ⟨hlast, by omega, hall (fun c' hc' => ?_) (.refl c)⟩
        have := hbest c' hc'
        unfold Match.AtLeast at this ⊢
        omega
      · next hworse =>
        refine ⟨List.mem_append_left _ hmem, hlen, hall hbest ?_⟩
        unfold Match.AtLeast
        omega

theorem foldl_isBest {cs : List Match} (h : cs.Pairwise (fun m c => m.k ≤ c.k)) :
    IsBest cs (cs.foldl betterMatch none) := by
  induction cs using List.reverseRecOn with
  | nil => simp [IsBest]
  | append_singleton cs c ih =>
    obtain ⟨hcs, -, hlast⟩ := List.pairwise_append.mp h
    rw [List.foldl_append]
    exact (ih hcs).betterMatch fun m hm => hlast m hm c (List.mem_singleton_self c)

theorem search_isBest (data : Bytes) (b level : Nat) :
    IsBest (candidatesFrom data b 0 level) (search data b level) := by
  rw [search_eq_foldl]
  exact foldl_isBest (candidatesFrom_pairwise data b 0 level)

/-- Settles O42: the search's choice from the list of its candidates, which are those of R85. -/
theorem searchFindsTheBestCandidate : Obligations.SearchFindsTheBestCandidate := by
  intro data b level
  have hbest := search_isBest data b level
  have hmem : ∀ {k d}, Candidate data b level k d → candidateAt data b k d ∈ candidatesFrom data b 0 level :=
    fun hc => mem_candidatesFrom.mpr ⟨hc, rfl⟩
  cases hs : search data b level with
  | none =>
    rw [hs] at hbest
    exact fun k d hc => hbest _ (hmem hc)
  | some m =>
    rw [hs] at hbest
    obtain ⟨hm, hlen, hall⟩ := hbest
    obtain ⟨hcand, hmlen⟩ := mem_candidatesFrom.mp hm
    exact ⟨hcand, hmlen, hlen, fun k d hc => hall _ (hmem hc)⟩

/-! ## No Advance fails (R94) -/

theorem perform_failed_of_inv {ms : List PrscMove} (h : ∀ m ∈ ms, PrscMove.Inv m) (p : Prsc) :
    (p.perform ms).1.failed = p.failed := by
  induction ms generalizing p with
  | nil => rfl
  | cons m ms ih =>
    obtain ⟨hm, hms⟩ := List.forall_mem_cons.mp h
    cases m with
    | lit => simpa using ih hms p.emitNext
    | emit c => simpa using ih hms (p.emit c)
    | commit n => simpa using ih hms (p.commit n)
    | fail e => exact hm.elim

/-- No move of an Advance fails; at the end of the input too, where the search finds nothing. -/
theorem advancePlan_moves_inv (p : Prsc) : ∀ m ∈ advancePlan p, PrscMove.Inv m := by
  cases hs : search p.data p.b p.level with
  | none =>
    rw [advancePlan, hs]
    exact litMoves_inv 1
  | some m =>
    obtain ⟨⟨-, hin, -⟩, -⟩ := search_isCandidateMatch hs
    exact (advancePlan_inv (by omega)).2.2

/-- Settles O40: the ranges from the candidates, the cases of R86 from the ranges, and moves that do not fail. -/
theorem searchResultsAlwaysHaveAnEncoding : Obligations.SearchResultsAlwaysHaveAnEncoding := by
  refine ⟨fun data b level m hs => ?_, fun p => ?_⟩
  · have hm := search_isCandidateMatch hs
    have hlen := hm.len_le.1
    obtain ⟨⟨-, -, hd, -, hd'⟩, -, hlen2⟩ := hm
    exact ⟨hlen2, hlen, hd, hd', selectCode_eq hd' hlen2 hlen⟩
  · have hms := advancePlan_moves_inv p
    obtain ⟨q, hq, -⟩ := perform_of_inv hms p
    exact ⟨congrArg Prod.snd hq, perform_failed_of_inv hms p⟩

end Sys2Proof.Machine
end

section
/-!
PROOFS. Family 41_prs_compressor: one Advance as the opcodes it writes (R86 to R92).
-/

namespace Sys2Proof.Machine

/-! ## The opcodes of an Advance (R86, R87) -/

/-- The literals of `k` bytes from `b` on. -/
def litOps (data : Bytes) (b k : Nat) : List Instr := ((data.drop b).take k).map .lit

/-- The opcodes of one Advance at boundary `b`: the prefix literals and the match's COPY, or one more literal where
the match has no encoding or there is none. -/
def advanceOps (data : Bytes) (b level : Nat) : List Instr :=
  match search data b level with
  | none => litOps data b 1
  | some m =>
    match pseudoCopy (-(m.d : Int)) m.len with
    | none => litOps data b (m.k + 1)
    | some i => litOps data b m.k ++ [i]

/-- How many bytes some opcodes give. -/
def outCount (is : List Instr) : Nat := (is.map outBytes).sum

@[simp] theorem outCount_nil : outCount [] = 0 := rfl

@[simp] theorem outCount_cons (i : Instr) (is : List Instr) : outCount (i :: is) = outBytes i + outCount is := by
  simp [outCount]

@[simp] theorem outCount_append (is js : List Instr) : outCount (is ++ js) = outCount is + outCount js := by
  simp [outCount]

/-- Emit the words of some opcodes and move the boundary over the bytes they give. -/
def Prsc.write (p : Prsc) (is : List Instr) : Prsc :=
  { p with w := (is.filterMap encode).foldl PbsWriter.emit p.w, b := p.b + outCount is }

@[simp] theorem Prsc.write_nil (p : Prsc) : p.write [] = p := rfl

theorem Prsc.write_append (p : Prsc) (is js : List Instr) : p.write (is ++ js) = (p.write is).write js := by
  simp [Prsc.write, List.filterMap_append, Nat.add_assoc]

@[simp] theorem Prsc.write_b (p : Prsc) (is : List Instr) : (p.write is).b = p.b + outCount is := rfl

/-! ## Literals -/

theorem litMoves_append_one (k : Nat) : litMoves k ++ litMoves 1 = litMoves (k + 1) := by
  induction k with
  | zero => rfl
  | succ k ih =>
    rw [litMoves, List.cons_append, List.cons_append, ih]
    rfl

theorem filterMap_encode_litOps (data : Bytes) (b k : Nat) :
    (litOps data b k).filterMap encode = ((data.drop b).take k).map litCode := by
  rw [litOps, List.filterMap_map, ← List.filterMap_eq_map]
  rfl

theorem litOps_succ {data : Bytes} {b : Nat} {v : Byte} (h : data[b]? = some v) (k : Nat) :
    litOps data b (k + 1) = .lit v :: litOps data (b + 1) k := by
  rw [litOps, take_drop_of_some h]
  rfl

theorem outCount_litOps {data : Bytes} {b k : Nat} (h : b + k ≤ data.length) : outCount (litOps data b k) = k := by
  induction k generalizing b with
  | zero => simp [litOps]
  | succ k ih =>
    rw [litOps_succ (List.getElem?_eq_getElem (by omega)), outCount_cons, ih (by omega)]
    exact Nat.add_comm 1 k

/-- A prefix literal, by its two moves. -/
theorem perform_lit_commit {p : Prsc} {v : Byte} (h : p.data[p.b]? = some v) (ms : List PrscMove) :
    p.perform (.lit :: .commit 1 :: ms) = (p.write [.lit v]).perform ms := by
  rw [perform_lit, perform_commit, Prsc.commit_eq, Prsc.emitNext, h]
  rfl

theorem perform_litMoves {p : Prsc} {k : Nat} (h : p.b + k ≤ p.data.length) :
    p.perform (litMoves k) = (p.write (litOps p.data p.b k), none) := by
  induction k generalizing p with
  | zero => simp [litMoves, litOps]
  | succ k ih =>
    have hv := List.getElem?_eq_getElem (l := p.data) (i := p.b) (by omega)
    have hrest : p.b + 1 + k ≤ p.data.length := by omega
    rw [litMoves, perform_lit_commit hv, ih hrest, litOps_succ hv]
    exact congrArg (·, none) (Prsc.write_append p [_] _).symm

/-! ## The match (R86, R90 to R92) -/

/-- A search result with an encoding is a COPY of R65, well-formed and with a word. -/
theorem pseudoCopy_isPrsCopy {d len : Nat} (hd : 1 ≤ d) (hd' : d ≤ 8191) (hlen : 2 ≤ len) (hlen' : len ≤ 256) {i : Instr}
    (h : pseudoCopy (-(d : Int)) len = some i) : IsPrsCopy i (-(d : Int)) len ∧ wellFormed i = true := by
  rw [pseudoCopy_neg_eq hd hd' hlen hlen'] at h
  split at h
  · cases h
    exact ⟨.inl rfl, decide_eq_true (by omega)⟩
  · split at h
    · cases h
    · split at h
      · cases h
        exact ⟨.inr (.inl rfl), decide_eq_true (by omega)⟩
      · cases h
        exact ⟨.inr (.inr rfl), decide_eq_true (by omega)⟩

/-- A copy has a word, and gives its count of bytes. -/
theorem encode_isPrsCopy {i : Instr} {off : Int} {cnt : Nat} (h : IsPrsCopy i off cnt) :
    (∃ c, encode i = some c) ∧ outBytes i = cnt := by
  obtain rfl | rfl | rfl := h <;> exact ⟨⟨_, rfl⟩, rfl⟩

/-- What a search result stands for: no COPY for two bytes beyond distance 256, else a COPY. -/
theorem pseudoCopy_of_match {data : Bytes} {b level : Nat} {m : Match} (hm : IsCandidateMatch data b level m) :
    (m.len = 2 ∧ 256 < m.d ∧ pseudoCopy (-(m.d : Int)) m.len = none ∧ selectCode m.d m.len = some none) ∨
      ∃ i c, ¬(m.len = 2 ∧ 256 < m.d) ∧ pseudoCopy (-(m.d : Int)) m.len = some i ∧
        IsPrsCopy i (-(m.d : Int)) m.len ∧ wellFormed i = true ∧ encode i = some c ∧
        selectCode m.d m.len = some (some c) := by
  have hlen := hm.len_le.1
  obtain ⟨⟨-, -, hd, -, hd'⟩, -, hlen2⟩ := hm
  have hsel := selectCode_eq_encode_pseudoCopy hd hd' hlen2 hlen
  have hnone := selectCode_eq_none_iff hd' hlen2 hlen
  cases hc : pseudoCopy (-(m.d : Int)) m.len with
  | none =>
    rw [hc] at hsel
    obtain ⟨h2, hfar⟩ := hnone.mp hsel
    exact .inl ⟨h2, hfar, rfl, hsel⟩
  | some i =>
    obtain ⟨hcopy, hwf⟩ := pseudoCopy_isPrsCopy hd hd' hlen2 hlen hc
    obtain ⟨⟨c, hcode⟩, -⟩ := encode_isPrsCopy hcopy
    rw [hc, Option.bind_some, hcode] at hsel
    refine .inr ⟨i, c, fun h => ?_, rfl, hcopy, hwf, hcode, hsel⟩
    rw [hnone.mpr h] at hsel
    cases hsel

/-! ## One Advance (R87) -/

/-- With a byte ahead, an Advance writes its opcodes and does nothing else. -/
theorem advance_eq_write {p : Prsc} (h : p.b < p.data.length) :
    advance p = (p.write (advanceOps p.data p.b p.level), none) := by
  rw [advance, advancePlan, advanceOps]
  cases hs : search p.data p.b p.level with
  | none => exact perform_litMoves h
  | some m =>
    have hm := search_isCandidateMatch hs
    have hin := hm.len_le.2
    have hlen2 := hm.2.2
    obtain ⟨-, -, hcopy, hsel⟩ | ⟨i, c, -, hcopy, his, -, hcode, hsel⟩ := pseudoCopy_of_match hm
    · simp only [hcopy, hsel]
      rw [litMoves_append_one, perform_litMoves (by omega)]
    · simp only [hcopy, hsel]
      rw [perform_append (perform_litMoves (by omega)), perform_emit, perform_commit, perform_nil, Prsc.write_append,
        Prsc.commit_eq]
      simp [Prsc.write, Prsc.emit, hcode, (encode_isPrsCopy his).2]

/-- Settles O59: the opcodes that `advance_eq_write` says an Advance writes, in each outcome of the search. -/
theorem advanceCommitsTheSelectedMatch : Obligations.AdvanceCommitsTheSelectedMatch := by
  intro p h
  have hadv := advance_eq_write h
  rw [advanceOps] at hadv
  cases hs : search p.data p.b p.level with
  | none =>
    have hv := List.getElem?_eq_getElem h
    rw [hs] at hadv
    refine ⟨_, hv, hadv.trans ?_⟩
    simp only [litOps_succ hv]
    rfl
  | some m =>
    have hm := search_isCandidateMatch hs
    have hin := hm.len_le.2
    have hlen2 := hm.2.2
    simp only [hs] at hadv
    obtain ⟨h2, hfar, hcopy, -⟩ | ⟨i, c, hnot, hcopy, his, hwf, hcode, -⟩ := pseudoCopy_of_match hm
    · refine ⟨hin, fun _ => ?_, fun hne => absurd ⟨h2, hfar⟩ hne⟩
      rw [hadv, hcopy]
      simp only [Prsc.write, filterMap_encode_litOps]
      rw [outCount_litOps (by omega), Nat.add_assoc]
    · refine ⟨hin, fun hfar => absurd hfar hnot, fun _ => ⟨i, c, hcopy, hwf, hcode, ?_⟩⟩
      rw [hadv, hcopy]
      simp only [Prsc.write, List.filterMap_append, filterMap_encode_litOps, outCount_append]
      rw [outCount_litOps (by omega)]
      simp [hcode, (encode_isPrsCopy his).2, Nat.add_assoc]

end Sys2Proof.Machine
end

section
/-!
PROOFS. Family 41_prs_compressor: the loops of ADD and CLOSE, and `prs_compress` as the opcodes it writes (R81, R82, R96,
R97, R162).
-/

namespace Sys2Proof.Machine

/-! ## Turns of a loop (R162) -/

/-- An Advance with a byte ahead leaves fewer bytes ahead. -/
theorem advance_ahead_lt {p : Prsc} (h : p.b < p.data.length) :
    (advance p).1.data.length - (advance p).1.b < p.data.length - p.b := by
  obtain ⟨q, hq, hlt⟩ := advance_of_lt h
  have hb : (advance p).1.b = q.b := by rw [hq]
  rw [(advance_frame p).1, hb]
  omega

/-- Every Advance with a byte ahead brings the boundary nearer to the end, so a proof may go by the Advances still to make. -/
theorem advance_induction {P : Prsc → Prop} (h : ∀ p, (p.b < p.data.length → P (advance p).1) → P p) (p : Prsc) :
    P p := by
  generalize hn : p.data.length - p.b = n
  induction n using Nat.strong_induction_on generalizing p with
  | _ n ih =>
    exact h p fun hlt => ih _ (hn ▸ advance_ahead_lt hlt) (advance p).1 rfl

section
variable {go : Prsc → Bool}

theorem advanceWhile_of_not_go {p : Prsc} (h : go p = false) (n : Nat) : advanceWhile go n p = (p, none) := by
  cases n <;> simp [advanceWhile, h]

theorem advanceWhile_of_go {p : Prsc} (h : go p = true) (hb : p.b < p.data.length) (n : Nat) :
    advanceWhile go (n + 1) p = advanceWhile go n (advance p).1 := by
  obtain ⟨q, hq, -⟩ := advance_of_lt hb
  simp only [advanceWhile, h, if_true, hq]

/-- With turns enough, how many are left does not matter. -/
theorem advanceWhile_turns (hgo : ∀ q, go q = true → q.b < q.data.length) {p : Prsc} {n m : Nat}
    (hn : p.data.length - p.b ≤ n) (hm : p.data.length - p.b ≤ m) : advanceWhile go n p = advanceWhile go m p := by
  induction p using advance_induction generalizing n m with
  | h p ih =>
    cases h : go p with
    | false => rw [advanceWhile_of_not_go h, advanceWhile_of_not_go h]
    | true =>
      have hb := hgo p h
      obtain ⟨n, rfl⟩ := Nat.exists_eq_add_one.mpr (show 0 < n by omega)
      obtain ⟨m, rfl⟩ := Nat.exists_eq_add_one.mpr (show 0 < m by omega)
      have hlt := advance_ahead_lt hb
      rw [advanceWhile_of_go h hb, advanceWhile_of_go h hb]
      exact ih hb (by omega) (by omega)

/-- A turn of a loop, and the loop from there. -/
theorem advanceWhile_succ_of_go (hgo : ∀ q, go q = true → q.b < q.data.length) {p : Prsc} (h : go p = true) :
    advanceWhile go (p.data.length - p.b) p =
      advanceWhile go ((advance p).1.data.length - (advance p).1.b) (advance p).1 := by
  have hb := hgo p h
  have hlt := advance_ahead_lt hb
  obtain ⟨n, hn⟩ := Nat.exists_eq_add_one.mpr (show 0 < p.data.length - p.b by omega)
  rw [hn, advanceWhile_of_go h hb]
  exact advanceWhile_turns hgo (by omega) (Nat.le_refl _)

end

theorem addLoop_of_enough {p : Prsc} (h : p.enough = true) : addLoop p = addLoop (advance p).1 :=
  advanceWhile_succ_of_go (fun _ => enough_lt) h

theorem addLoop_of_not_enough {p : Prsc} (h : p.enough = false) : addLoop p = (p, none) := advanceWhile_of_not_go h _

theorem closeLoop_of_more {p : Prsc} (h : p.more = true) : closeLoop p = closeLoop (advance p).1 :=
  advanceWhile_succ_of_go (fun _ => more_lt) h

theorem more_of_lt {p : Prsc} (h : p.b < p.data.length) : p.more = true := decide_eq_true h

/-- CLOSE's loop goes through ADD's Advances: what ADD has done already makes no difference. -/
theorem closeLoop_addLoop (p : Prsc) : closeLoop (addLoop p).1 = closeLoop p := by
  induction p using advance_induction with
  | h p ih =>
    cases h : p.enough with
    | false => rw [addLoop_of_not_enough h]
    | true =>
      have hb := enough_lt h
      rw [addLoop_of_enough h, ih hb, closeLoop_of_more (more_of_lt hb)]

/-! ## The commands on an open instance that has not failed (R81, R82) -/

section
variable {p : Prsc}

theorem prscAdd_of_open (hopen : p.closed = false) (hfailed : p.failed = false) (bytes : Bytes) :
    prscAdd bytes p = addLoop (p.append bytes) := by
  simp [prscAdd, addError, hopen, hfailed]

/-- CLOSE drains the instance and terminates its stream. -/
theorem prscClose_of_open (hinv : Prsc.Inv p) (hopen : p.closed = false) :
    prscClose p = ((closeLoop p).1.terminate, none) := by
  obtain ⟨q, hq, -⟩ := closeLoop_ready hinv hopen
  simp [prscClose, hopen, hinv.not_failed, hq]

/-- CLOSE leaves nothing ahead of the boundary. -/
theorem closeLoop_b (hinv : Prsc.Inv p) (hopen : p.closed = false) : (closeLoop p).1.b = p.data.length := by
  obtain ⟨q, hq, hinv', -, hmore⟩ := closeLoop_ready hinv hopen
  have hdata : (closeLoop p).1.data = p.data := (advanceWhile_frame _ _ _).1
  rw [hq] at hdata ⊢
  rw [← hdata]
  exact (hinv'.terminate hmore).closed_result rfl |>.1

/-- CLOSE after an ADD is CLOSE with all the bytes appended. -/
theorem prscClose_addLoop (hinv : Prsc.Inv p) (hopen : p.closed = false) :
    prscClose (addLoop p).1 = ((closeLoop p).1.terminate, none) := by
  obtain ⟨q, hq, hinv', hopen', -⟩ := addLoop_ready hinv hopen
  rw [← closeLoop_addLoop p, hq, prscClose_of_open hinv' hopen']

end

/-- A new instance with its whole input appended. -/
def Prsc.loaded (bytes : Bytes) (level : Nat) (progress : Progress) : Prsc := (Prsc.start level progress).append bytes

theorem loaded_inv (bytes : Bytes) (level : Nat) (progress : Progress) : Prsc.Inv (Prsc.loaded bytes level progress) :=
  (start_prscInv level progress).append rfl bytes

/-- `prs_compress` is CLOSE on the whole input (R96, R124). -/
theorem prsCompress_eq (bytes : Bytes) (level : Nat) (progress : Progress) :
    prsCompress bytes level progress = ((closeLoop (Prsc.loaded bytes level progress)).1.terminate, none) := by
  have hinv := loaded_inv bytes level progress
  obtain ⟨q, hq, -⟩ := addLoop_ready hinv rfl
  have hadd : prscAdd bytes (Prsc.start level progress) = addLoop (Prsc.loaded bytes level progress) :=
    prscAdd_of_open rfl rfl bytes
  rw [← prscClose_addLoop hinv rfl, prsCompress, hadd, hq]

/-! ## The stream (R97) -/

/-- The opcodes of CLOSE's loop from boundary `b`, in at most `n` Advances. -/
def drainOps (data : Bytes) (level : Nat) : Nat → Nat → List Instr
  | 0, _ => []
  | n + 1, b =>
    if b < data.length then
      advanceOps data b level ++ drainOps data level n (b + outCount (advanceOps data b level))
    else []

theorem advanceWhile_more_eq_write (n : Nat) (p : Prsc) :
    advanceWhile Prsc.more n p = (p.write (drainOps p.data p.level n p.b), none) := by
  induction n generalizing p with
  | zero => rfl
  | succ n ih =>
    rw [drainOps]
    split
    · next hb =>
      rw [advanceWhile_of_go (more_of_lt hb) hb, advance_eq_write hb, ih, Prsc.write_append]
      rfl
    · next hb => exact advanceWhile_of_not_go (decide_eq_false hb) _

/-- The opcodes of a whole stream before its STOP. -/
def streamOps (bytes : Bytes) (level : Nat) : List Instr := drainOps bytes level bytes.length 0

/-- The stream of some opcodes, ended by a STOP (R72, R73, R93). -/
def stoppedStream (is : List Instr) : Bytes :=
  (((is ++ [Instr.stop 0#3]).filterMap encode).foldl PbsWriter.emit PbsWriter.start).finish.out

/-- `prs_compress` returns the stream of its opcodes, whatever its callback (R132). -/
theorem prsCompress_result (bytes : Bytes) (level : Nat) (progress : Progress) :
    (prsCompress bytes level progress).1.result = stoppedStream (streamOps bytes level) := by
  rw [prsCompress_eq, closeLoop, advanceWhile_more_eq_write, Prsc.terminate_result]
  simp only [stoppedStream, List.filterMap_append, List.foldl_append]
  rfl

theorem prsCompress_b (bytes : Bytes) (level : Nat) (progress : Progress) :
    (prsCompress bytes level progress).1.b = bytes.length := by
  rw [prsCompress_eq, Prsc.terminate_b, closeLoop_b (loaded_inv bytes level progress) rfl]
  rfl

/-! ## The notifications of a whole run (R88, R132) -/

theorem notifyPoints_zero (n : Nat) : notifyPoints 0 n = (List.range (n / 4096)).map (fun j => 4096 * (j + 1)) := by
  induction n with
  | zero => rfl
  | succ n ih =>
    rw [notifyPoints_append (Nat.zero_le n) (Nat.le_succ n), ih, notifyPoints_succ (Nat.lt_succ_self n),
      notifyPoints_self, List.append_nil]
    by_cases hn : (n + 1) % 4096 = 0
    · have hdiv : (n + 1) / 4096 = n / 4096 + 1 := by omega
      have hlast : 4096 * (n / 4096 + 1) = n + 1 := by omega
      rw [if_pos (atInterval_eq_true.mpr hn), hdiv, List.range_succ, List.map_append, List.map_singleton, hlast]
    · have hdiv : (n + 1) / 4096 = n / 4096 := by omega
      rw [if_neg (fun h => hn (atInterval_eq_true.mp h)), hdiv, List.append_nil]

theorem notesBetween_zero (pr : Progress) (n : Nat) : notesBetween pr 0 n = progressNotes pr .prsc n := by
  simp only [notesBetween, progressNotes, notifyPoints_zero, List.map_map]
  rfl

/-- `prs_compress` on an idle thread with a callback that returns (R124, R132). -/
theorem exec_prsCompress_passive {s : State} (hidle : s.active = .idle) (bytes : Bytes) (level : Nat) {pr : Progress}
    (hpr : callbackPassive pr = true) :
    exec (.prsCompress bytes level pr) s = .next { s with
      responses := s.responses ++ [.ok (.bytes (stoppedStream (streamOps bytes level)))]
      notes := s.notes ++ progressNotes pr .prsc bytes.length } := by
  have herr : (prsCompress bytes level pr).2 = none := congrArg Prod.snd (prsCompress_eq bytes level pr)
  rw [exec, execPrsCompress, whenIdle_of_idle s _ hidle, withLevel_nat, unlessActing_passive hpr]
  simp only [prscNotify, Prsc.start_progress, notify_returns hpr, andThen_next, herr, prsCompress_result, prsCompress_b,
    Prsc.start_b, ← notesBetween_zero]
  rfl

/-- Without a callback there is no notification. -/
theorem exec_prsCompress_absent {s : State} (hidle : s.active = .idle) (bytes : Bytes) (level : Nat) :
    exec (.prsCompress bytes level .absent) s = .next { s with
      responses := s.responses ++ [.ok (.bytes (stoppedStream (streamOps bytes level)))] } := by
  rw [exec_prsCompress_passive hidle bytes level rfl, progressNotes, if_pos rfl, List.append_nil]

/-- Settles O27: the one byte sequence is the stream of the input's opcodes, in which the callback has no part. -/
theorem prsCompressCompletes : Obligations.PrsCompressCompletes :=
  fun _ bytes level hidle =>
    ⟨stoppedStream (streamOps bytes level), fun _ hpr => exec_prsCompress_passive hidle bytes level hpr⟩

end Sys2Proof.Machine
end

section
/-!
PROOFS. Family 41_prs_compressor: the decoder on the writer's stream, and the round trip (R73 to R75, R97, R99).
-/

namespace Sys2Proof.Machine

/-! ## The reader on a canonical layout (R73 to R75) -/

/-- The reader stands before the tokens `ts` of a canonical layout: its unread control bits are the next ones, and its
position is where the layout goes on. -/
structure ReaderBefore (r : Reader) (ts : List Token) : Prop where
  left_lt : r.left < 8
  ctl : r.ctl = controlByte ((tokenBits ts).take r.left)
  rest : r.input.drop r.pos = canonical (8 - r.left) ts

theorem start_before (ts : List Token) : ReaderBefore (Reader.start (canonical 0 ts)) ts :=
  ⟨by simp, rfl, (canonical_add_eight 0 ts).symm⟩

/-- What stands at the position, and what after it. -/
theorem get_of_drop_eq_cons {l l' : Bytes} {k : Nat} {v : Byte} (h : l.drop k = v :: l') :
    l[k]? = some v ∧ l.drop (k + 1) = l' := by
  rw [← List.head?_drop, h, ← List.drop_drop, h]
  exact ⟨rfl, rfl⟩

section
variable {r : Reader} {ts : List Token}

/-- The bit that a control byte gives first, and the control byte of the bits after it. -/
theorem shiftBit_controlByte {b : Bool} {bs : List Bool} (hlen : bs.length < 8) (h : r.ctl = controlByte (b :: bs)) :
    r.shiftBit = (b, { r with ctl := controlByte bs, left := r.left - 1, bits := r.bits + 1 }) := by
  rw [Reader.shiftBit, h, getLsbD_controlByte (by simpa using hlen), controlByte_cons_shift hlen]
  rfl

/-- `GetBit` before a control bit. -/
theorem ReaderBefore.getBit {b : Bool} (h : ReaderBefore r (.bit b :: ts)) :
    ∃ r', r.getBit = .ok (b, r') ∧ r'.input = r.input ∧ ReaderBefore r' ts := by
  obtain ⟨hleft, hctl, hrest⟩ := h
  have htake : ∀ n, n < 8 → ((tokenBits ts).take n).length < 8 := fun n hn => (List.length_take_le _ _).trans_lt hn
  rw [tokenBits] at hctl
  rw [canonical] at hrest
  by_cases h0 : r.left = 0
  · rw [h0, if_pos rfl] at hrest
    obtain ⟨hget, hdrop⟩ := get_of_drop_eq_cons hrest
    rw [getBit_fetch h0 hget, shiftBit_controlByte (htake 7 (by omega)) rfl]
    exact ⟨_, rfl, rfl, by simp, rfl, hdrop.trans (canonical_add_eight 1 ts)⟩
  · obtain ⟨n, hn⟩ := Nat.exists_eq_add_one.mpr (Nat.pos_of_ne_zero h0)
    have hmod : ¬(8 - r.left) % 8 = 0 := by omega
    have hnext : 8 - r.left + 1 = 8 - n := by omega
    rw [hn, List.take_succ_cons] at hctl
    rw [if_neg hmod, hnext] at hrest
    rw [getBit_of_left h0, shiftBit_controlByte (htake n (by omega)) hctl]
    refine ⟨_, rfl, rfl, ?_⟩
    simp only [hn, Nat.add_sub_cancel]
    exact ⟨by simp only; omega, rfl, hrest⟩

/-- `GetByte` before a data byte. -/
theorem ReaderBefore.getByte {v : Byte} (h : ReaderBefore r (.byte v :: ts)) :
    ∃ r', r.getByte = .ok (v, r') ∧ r'.input = r.input ∧ ReaderBefore r' ts := by
  obtain ⟨hleft, hctl, hrest⟩ := h
  obtain ⟨hget, hdrop⟩ := get_of_drop_eq_cons hrest
  exact ⟨_, getByte_of_get hget, rfl, hleft, hctl, hdrop⟩

/-- Before nothing, the reader is at the end of its input. -/
theorem ReaderBefore.pos_ge (h : ReaderBefore r []) : r.input.length ≤ r.pos := List.drop_eq_nil_iff.mp h.rest

/-! ## Decoding an opcode's word wherever it stands (R54) -/

/-- `decodePrs` reads `i` and stands before `ts` then. -/
def ReaderDecodes (r : Reader) (i : Instr) (ts : List Token) : Prop :=
  ∃ r', decodePrs r = .ok (i, r') ∧ r'.input = r.input ∧ ReaderBefore r' ts

theorem ReaderBefore.decodes_lit {v : Byte} (h : ReaderBefore r (codeTokens (litCode v) ++ ts)) :
    ReaderDecodes r (.lit v) ts := by
  obtain ⟨r1, h1, hi1, hb1⟩ := ReaderBefore.getBit h
  obtain ⟨r2, h2, hi2, hb2⟩ := hb1.getByte
  exact ⟨r2, decodePrs_of_lit h1 h2, hi2.trans hi1, hb2⟩

theorem ReaderBefore.decodes_scopy {off : Int} {cnt : Nat} (hoff : -256 ≤ off ∧ off ≤ -1) (hcnt : 2 ≤ cnt ∧ cnt ≤ 5)
    (h : ReaderBefore r (codeTokens (shortCode (-off).toNat cnt) ++ ts)) : ReaderDecodes r (.scopy off cnt) ts := by
  obtain ⟨r1, h1, hi1, hb1⟩ := ReaderBefore.getBit h
  obtain ⟨r2, h2, hi2, hb2⟩ := hb1.getBit
  obtain ⟨r3, h3, hi3, hb3⟩ := hb2.getBit
  obtain ⟨r4, h4, hi4, hb4⟩ := hb3.getBit
  obtain ⟨r5, h5, hi5, hb5⟩ := hb4.getByte
  refine ⟨r5, ?_, by rw [hi5, hi4, hi3, hi2, hi1], hb5⟩
  rw [decodePrs_of_short h1 h2, decodeShort_of_fields h3 h4 h5, shortOffset_of_distance hoff.1 hoff.2,
    shortCount_of_bits hcnt.1 hcnt.2]

/-- A long-form word is read to its field. -/
theorem ReaderBefore.decodes_longForm {f : Nat} (hf : f < 65536) {more : Bytes}
    (h : ReaderBefore r (codeTokens ⟨[false, true], fieldBytes f ++ more⟩ ++ ts)) :
    ∃ r', r'.input = r.input ∧ ReaderBefore r' (more.map .byte ++ ts) ∧
      decodePrs r =
        if offsetField f = 0 then .ok (.stop (BitVec.ofNat 3 (lengthField f)), r')
        else if lengthField f ≠ 0 then .ok (.lcopy (longOffset f) (longCount f), r')
        else r'.getByte.map fun x => (.ecopy (longOffset f) (extCount x.1), x.2) := by
  obtain ⟨r1, h1, hi1, hb1⟩ := ReaderBefore.getBit h
  obtain ⟨r2, h2, hi2, hb2⟩ := hb1.getBit
  obtain ⟨r3, h3, hi3, hb3⟩ := hb2.getByte
  obtain ⟨r4, h4, hi4, hb4⟩ := hb3.getByte
  refine ⟨r4, by rw [hi4, hi3, hi2, hi1], hb4, ?_⟩
  rw [decodePrs_of_long h1 h2, decodeLong_of_field h3 h4, fieldF_fieldBytes hf]

theorem ReaderBefore.decodes_lcopy {off : Int} {cnt : Nat} (hoff : -8191 ≤ off ∧ off ≤ -1) (hcnt : 3 ≤ cnt ∧ cnt ≤ 9)
    (h : ReaderBefore r (codeTokens (longCode (-off).toNat cnt) ++ ts)) : ReaderDecodes r (.lcopy off cnt) ts := by
  have ho := offsetField_of_distance hoff.1 hoff.2 (l := cnt - 2) (by omega)
  have hl : lengthField ((8192 - (-off).toNat) * 8 + (cnt - 2)) = cnt - 2 := by simp only [lengthField]; omega
  obtain ⟨r', hi, hb, hd⟩ := ReaderBefore.decodes_longForm (more := []) (by omega) h
  rw [if_neg (by omega), if_pos (by omega), longOffset, longCount, ho, hl, Int.add_sub_cancel,
    Nat.sub_add_cancel (by omega)] at hd
  exact ⟨r', hd, hi, hb⟩

theorem ReaderBefore.decodes_ecopy {off : Int} {cnt : Nat} (hoff : -8191 ≤ off ∧ off ≤ -1) (hcnt : 1 ≤ cnt ∧ cnt ≤ 256)
    (h : ReaderBefore r (codeTokens (extCode (-off).toNat cnt) ++ ts)) : ReaderDecodes r (.ecopy off cnt) ts := by
  have ho := offsetField_of_distance hoff.1 hoff.2 (l := 0) (by omega)
  have hl : lengthField ((8192 - (-off).toNat) * 8) = 0 := by simp only [lengthField]; omega
  have hn : extCount (BitVec.ofNat 8 (cnt - 1)) = cnt := by simp only [extCount, BitVec.toNat_ofNat]; omega
  obtain ⟨r', hi, hb, hd⟩ := ReaderBefore.decodes_longForm (more := [BitVec.ofNat 8 (cnt - 1)]) (by omega) h
  obtain ⟨r'', h3, hi3, hb3⟩ := ReaderBefore.getByte hb
  rw [Nat.add_zero] at ho
  rw [if_neg (by omega), if_neg (by simp [hl]), h3, longOffset, ho, Int.add_sub_cancel] at hd
  simp only [Except.map, hn] at hd
  exact ⟨r'', hd, hi3.trans hi, hb3⟩

theorem ReaderBefore.decodes_stop {f : BitVec 3} (h : ReaderBefore r (codeTokens (stopCode f) ++ ts)) :
    ReaderDecodes r (.stop f) ts := by
  have hf := f.isLt
  have ho : offsetField f.toNat = 0 := by simp only [offsetField]; omega
  have hl : lengthField f.toNat = f.toNat := Nat.mod_eq_of_lt hf
  obtain ⟨r', hi, hb, hd⟩ := ReaderBefore.decodes_longForm (f := f.toNat) (more := []) (by omega) h
  rw [if_pos ho, hl, BitVec.ofNat_toNat, BitVec.setWidth_eq] at hd
  exact ⟨r', hd, hi, hb⟩

/-- Every well-formed PRS opcode is decoded from its word, at any place of a stream (R53 to R58, R73). -/
theorem ReaderBefore.decodes {i : Instr} {c : Code} (hi : isPrsOp i = true) (hw : wellFormed i = true)
    (hc : encode i = some c) (h : ReaderBefore r (codeTokens c ++ ts)) : ReaderDecodes r i ts := by
  cases i with
  | lit v => cases hc; exact h.decodes_lit
  | scopy off cnt =>
    cases hc
    obtain ⟨h1, h2, hcnt⟩ := of_decide_eq_true hw
    exact h.decodes_scopy ⟨h1, h2⟩ hcnt
  | lcopy off cnt =>
    cases hc
    obtain ⟨h1, h2, hcnt⟩ := of_decide_eq_true hw
    exact h.decodes_lcopy ⟨h1, h2⟩ hcnt
  | ecopy off cnt =>
    cases hc
    obtain ⟨h1, h2, hcnt⟩ := of_decide_eq_true hw
    exact h.decodes_ecopy ⟨h1, h2⟩ hcnt
  | stop f => cases hc; exact h.decodes_stop
  | _ => cases hi

end

/-! ## What the opcodes of a stream give (R97) -/

/-- After the first `b` bytes of `data`, the opcode gives the bytes that follow: a literal its byte, a copy bytes that
stand in `data` at its distance before. -/
def Yields (data : Bytes) (b : Nat) (i : Instr) : Prop :=
  (∃ v, i = .lit v ∧ data[b]? = some v) ∨
    ∃ d len : Nat, IsPrsCopy i (-(d : Int)) len ∧ wellFormed i = true ∧ 1 ≤ d ∧ d ≤ b ∧ b + len ≤ data.length ∧
      ∀ j, j < len → data[b + j]? = data[b - d + j % d]?

/-- So do the opcodes one after the other. -/
def YieldsAll (data : Bytes) : Nat → List Instr → Prop
  | _, [] => True
  | b, i :: is => Yields data b i ∧ YieldsAll data (b + outBytes i) is

theorem yieldsAll_append {data : Bytes} {b : Nat} {is js : List Instr} :
    YieldsAll data b (is ++ js) ↔ YieldsAll data b is ∧ YieldsAll data (b + outCount is) js := by
  induction is generalizing b with
  | nil => simp [YieldsAll]
  | cons i is ih => simp [YieldsAll, ih, and_assoc, Nat.add_assoc]

theorem Yields.le {data : Bytes} {b : Nat} {i : Instr} (h : Yields data b i) : b + outBytes i ≤ data.length := by
  obtain ⟨v, rfl, hv⟩ | ⟨d, len, hcopy, -, -, -, hle, -⟩ := h
  · exact pos_lt_of_get hv
  · rwa [(encode_isPrsCopy hcopy).2]

/-- It is a well-formed PRS opcode with a word. -/
theorem Yields.encodes {data : Bytes} {b : Nat} {i : Instr} (h : Yields data b i) :
    isPrsOp i = true ∧ wellFormed i = true ∧ ∃ c, encode i = some c := by
  obtain ⟨v, rfl, -⟩ | ⟨d, len, hcopy, hwf, -⟩ := h
  · exact ⟨rfl, rfl, _, rfl⟩
  · exact ⟨isPrsOp_of_isPrsCopy hcopy, hwf, (encode_isPrsCopy hcopy).1⟩

theorem litOps_yieldsAll {data : Bytes} {b k : Nat} (h : b + k ≤ data.length) : YieldsAll data b (litOps data b k) := by
  induction k generalizing b with
  | zero => simp [litOps, YieldsAll]
  | succ k ih =>
    have hv := List.getElem?_eq_getElem (l := data) (i := b) (by omega)
    rw [litOps_succ hv]
    exact ⟨.inl ⟨_, rfl, hv⟩, ih (by simp only [outBytes]; omega)⟩

/-- The match found repeats earlier bytes, round its distance (R83). -/
theorem match_yields {data : Bytes} {b level : Nat} {m : Match} (hm : IsCandidateMatch data b level m) {i : Instr}
    (hcopy : IsPrsCopy i (-(m.d : Int)) m.len) (hwf : wellFormed i = true) : Yields data (b + m.k) i := by
  have hin := hm.len_le.2
  obtain ⟨⟨-, -, hd, hdb, -⟩, hlen, -⟩ := hm
  refine .inr ⟨m.d, m.len, hcopy, hwf, hd, hdb, hin, fun j hj => ?_⟩
  have hcyc := matchLen_get_cyclic (fun i => data[i]?) (by omega) (hlen ▸ hj)
  rwa [Nat.sub_sub_self hdb] at hcyc

/-- An Advance with a byte ahead writes opcodes of the bytes from its boundary on. -/
theorem advanceOps_yieldsAll {data : Bytes} {b : Nat} (h : b < data.length) (level : Nat) :
    YieldsAll data b (advanceOps data b level) := by
  rw [advanceOps]
  cases hs : search data b level with
  | none => exact litOps_yieldsAll h
  | some m =>
    have hm := search_isCandidateMatch hs
    have hin := hm.len_le.2
    have hlen2 := hm.2.2
    obtain ⟨-, -, hcopy, -⟩ | ⟨i, c, -, hcopy, his, hwf, -, -⟩ := pseudoCopy_of_match hm <;> simp only [hcopy]
    · exact litOps_yieldsAll (by omega)
    · refine yieldsAll_append.mpr ⟨litOps_yieldsAll (by omega), ?_, trivial⟩
      rw [outCount_litOps (by omega)]
      exact match_yields hm his hwf

theorem drainOps_yieldsAll (data : Bytes) (level n b : Nat) : YieldsAll data b (drainOps data level n b) := by
  induction n generalizing b with
  | zero => trivial
  | succ n ih =>
    rw [drainOps]
    split
    · next hb => exact yieldsAll_append.mpr ⟨advanceOps_yieldsAll hb level, ih _⟩
    · trivial

theorem streamOps_yieldsAll (bytes : Bytes) (level : Nat) : YieldsAll bytes 0 (streamOps bytes level) :=
  drainOps_yieldsAll bytes level _ 0

/-- The opcodes of a stream give the whole input. -/
theorem outCount_streamOps (bytes : Bytes) (level : Nat) : outCount (streamOps bytes level) = bytes.length := by
  have h := prsCompress_b bytes level .absent
  rw [prsCompress_eq, closeLoop, advanceWhile_more_eq_write, Prsc.terminate_b, Prsc.write_b] at h
  exact (Nat.zero_add _).symm.trans h

/-! ## The decode of a stream (R99) -/

/-- A decode without a bound, in its loop, that has given the first `b` bytes of `data`. -/
structure Prsd.HasGiven (p : Prsd) (data : Bytes) (b : Nat) : Prop where
  running : p.fin = .running
  maxOut : p.maxOut = 0
  mode : p.mode ≠ .trace
  trace : p.trace = []
  outLen : p.outLen = b
  out : p.mode = .bytes → p.out = data.take b

theorem Prsd.HasGiven.fetched {p : Prsd} {data : Bytes} {b : Nat} (h : p.HasGiven data b) (r : Reader) :
    (p.fetched r).HasGiven data b := ⟨h.running, h.maxOut, h.mode, h.trace, h.outLen, h.out⟩

/-- A repetition of output that is `data` so far gives the next bytes of `data` where these agree with it. -/
theorem take_append_repeated {data : Bytes} {b d len : Nat} (hd : 1 ≤ d) (hdb : d ≤ b) (hin : b + len ≤ data.length)
    (h : ∀ j, j < len → data[b + j]? = data[b - d + j % d]?) :
    data.take b ++ repeated (data.take b) (b - d) len = data.take (b + len) := by
  have hb : (data.take b).length = b := List.length_take_of_le (by omega)
  rw [List.take_add]
  refine congrArg _ (List.ext_getElem? fun j => ?_)
  by_cases hj : j < len
  · have hmod : b - d + j % d < b := by have := Nat.mod_lt j hd; omega
    rw [List.getElem?_take_of_lt hj, List.getElem?_drop, h j hj]
    have hget := List.getElem?_eq_getElem (l := data) (i := b - d + j % d) (by omega)
    simp [repeated, hb, Nat.sub_sub_self hdb, hj, hmod, hget]
  · rw [List.getElem?_eq_none (by rw [repeated_length]; omega), List.getElem?_eq_none (by simp; omega)]

/-- A literal of the stream, once it is read (R101). -/
theorem prsdLit_of_hasGiven {p : Prsd} {data : Bytes} {b : Nat} {v : Byte} (h : p.HasGiven data b)
    (hv : data[b]? = some v) : ∃ p', prsdLit v p = .ok p' ∧ p'.HasGiven data (b + 1) := by
  obtain ⟨hrun, hmax, hmode, htrace, rfl, hout⟩ := h
  have hlimit : overLimit p.maxOut (p.outLen + 1) = false := overLimit_eq_false.mpr (.inl hmax)
  by_cases hm : p.mode = .bytes
  · refine ⟨{ p with out := p.out ++ [v], outLen := p.outLen + 1 }, ?_, hrun, hmax, hmode, htrace, rfl, fun _ => ?_⟩
    · simp [prsdLit, hlimit, hm]
    · rw [hout hm, List.take_add_one, hv]
      rfl
  · refine ⟨{ p with outLen := p.outLen + 1 }, ?_, hrun, hmax, hmode, htrace, rfl, fun hm' => absurd hm' hm⟩
    simp [prsdLit, p.record_of_not_trace _ hmode, hlimit, hm]

/-- A copy of the stream, once it is read (R100). -/
theorem prsdCopy_of_hasGiven {p : Prsd} {data : Bytes} {b d len : Nat} (h : p.HasGiven data b) (hd : 1 ≤ d)
    (hdb : d ≤ b) (hin : b + len ≤ data.length) (hagree : ∀ j, j < len → data[b + j]? = data[b - d + j % d]?) :
    ∃ p', prsdCopy (-(d : Int)) len p = .ok p' ∧ p'.HasGiven data (b + len) := by
  obtain ⟨hrun, hmax, hmode, htrace, rfl, hout⟩ := h
  have hlen : p.mode = .bytes → p.out.length = p.outLen := fun hm => by
    rw [hout hm, List.length_take_of_le (by omega)]
  refine ⟨_, prsdCopy_eq_ok hlen (by omega) (by omega) (.inl hmax), hrun, hmax, hmode, htrace, rfl, fun hm => ?_⟩
  simp only at hm
  have hsrc : ((p.outLen : Int) + -(d : Int)).toNat = p.outLen - d := by omega
  simp only [hm, if_true, hout hm, hsrc]
  exact take_append_repeated hd hdb hin hagree

/-- One opcode of the stream, once it is read (R101 to R104). -/
theorem prsdOp_of_yields {p : Prsd} {data : Bytes} {b : Nat} {i : Instr} (h : p.HasGiven data b) (hi : Yields data b i) :
    ∃ p', prsdOp i p = .ok p' ∧ p'.HasGiven data (b + outBytes i) := by
  obtain ⟨v, rfl, hv⟩ | ⟨d, len, hcopy, -, hd, hdb, hin, hagree⟩ := hi
  · exact prsdLit_of_hasGiven h hv
  · rw [prsdOp_of_isPrsCopy hcopy, p.record_of_not_trace i h.mode, (encode_isPrsCopy hcopy).2]
    exact prsdCopy_of_hasGiven h hd hdb hin hagree

/-- The tokens of a stream of opcodes and its STOP. -/
def streamTokens (is : List Instr) : List Token := ((is ++ [Instr.stop 0#3]).filterMap encode).flatMap codeTokens

theorem streamTokens_cons {i : Instr} {c : Code} (h : encode i = some c) (is : List Instr) :
    streamTokens (i :: is) = codeTokens c ++ streamTokens is := by
  simp [streamTokens, h]

/-- One iteration in which an opcode is read, which needs a byte ahead. -/
theorem prsdIter_of_decodes {p : Prsd} {i : Instr} {r : Reader} (h : decodePrs p.rd = .ok (i, r)) :
    prsdIter p = prsdOp i (p.fetched r) := by
  obtain ⟨hmoved, hle⟩ := decodePrs_moved h
  have hbytes := (decodePrs_isPrsOp h).2
  have hpos := hmoved.pos
  have hend : p.atEnd = false := by
    simp only [Prsd.atEnd, beq_eq_false_iff_ne]
    omega
  simp [prsdIter, hend, h]

theorem prsdRun_succ_of_running {p p' : Prsd} (hrun : p.fin = .running) (h : prsdIter p = .ok p') (n : Nat) :
    prsdRun (n + 1) p = prsdRun n p' := by
  simp [prsdRun, Prsd.ended, hrun, h]

/-- The decode of a stream's opcodes ends by its STOP, at the end of the input, and has given the bytes they yield. -/
theorem prsdRun_stream {data : Bytes} {is : List Instr} {n b : Nat} {p : Prsd} (h : p.HasGiven data b)
    (his : YieldsAll data b is) (hrd : ReaderBefore p.rd (streamTokens is)) (hpos : p.rd.pos ≤ p.rd.input.length)
    (hn : p.rd.input.length < p.rd.pos + n) :
    ∃ q : Prsd, prsdRun n p = .ok (q.setEnd .stop) ∧ q.HasGiven data (b + outCount is) ∧ q.mode = p.mode ∧
      q.rd.pos = p.rd.input.length := by
  induction is generalizing n b p with
  | nil =>
    obtain ⟨r, hd, hinput, hend⟩ := ReaderBefore.decodes_stop (ts := []) hrd
    obtain ⟨n, rfl⟩ := Nat.exists_eq_add_one.mpr (show 0 < n by omega)
    have hge := hend.pos_ge
    rw [hinput] at hge
    refine ⟨p.fetched r, ?_, h.fetched r, rfl, Nat.le_antisymm (decodePrs_moved hd).2 hge⟩
    have hstop : prsdIter p = .ok ((p.fetched r).setEnd .stop) := by
      rw [prsdIter_of_decodes hd, prsdOp, prsdStop, Prsd.record_of_not_trace (p.fetched r) _ h.mode]
    rw [prsdRun_succ_of_running h.running hstop]
    cases n <;> rfl
  | cons i is ih =>
    obtain ⟨hi, hall⟩ := his
    obtain ⟨hop, hwf, c, hcode⟩ := hi.encodes
    rw [streamTokens_cons hcode] at hrd
    obtain ⟨r, hd, hinput, hrd'⟩ := hrd.decodes hop hwf hcode
    obtain ⟨n, rfl⟩ := Nat.exists_eq_add_one.mpr (show 0 < n by omega)
    obtain ⟨p', hp', hgiven⟩ := prsdOp_of_yields (h.fetched r) hi
    obtain ⟨hfrd, hfmode, -⟩ := prsdOp_frame hp'
    obtain ⟨hmoved, hle⟩ := decodePrs_moved hd
    have hbytes := (decodePrs_isPrsOp hd).2
    have hrpos := hmoved.pos
    rw [prsdRun_succ_of_running h.running ((prsdIter_of_decodes hd).trans hp')]
    rw [Prsd.fetched_rd] at hfrd
    obtain ⟨q, hrun, hq, hmode, hqpos⟩ := ih (n := n) hgiven hall (by rwa [hfrd]) (by rw [hfrd, hinput]; exact hle)
      (by rw [hfrd, hinput]; omega)
    refine ⟨q, hrun, ?_, hmode.trans hfmode, hqpos.trans (by rw [hfrd, hinput])⟩
    rwa [outCount_cons, ← Nat.add_assoc]

/-- Every opcode's word has a control bit (R55, R63). -/
theorem encode_bits_ne_nil {i : Instr} {c : Code} (h : encode i = some c) : c.bits ≠ [] := by
  cases i <;> cases h <;> exact List.cons_ne_nil _ _

/-- The stream is the canonical layout of its tokens (R73). -/
theorem stoppedStream_eq_canonical (is : List Instr) : stoppedStream is = canonical 0 (streamTokens is) := by
  refine writerProducesTheCanonicalLayout _ fun c hc => ?_
  obtain ⟨i, -, hcode⟩ := List.mem_filterMap.mp hc
  exact encode_bits_ne_nil hcode

/-- Decoding the stream that `prs_compress` returns gives the input back, in BYTES and SIZE mode (R97, R107). -/
theorem prsdDecode_stream (bytes : Bytes) (level : Nat) {mode : Mode} (hmode : mode ≠ .trace) :
    ∃ q : Prsd, prsdDecode (Prsd.start (stoppedStream (streamOps bytes level)) mode 0 0) = .ok (q.setEnd .stop) ∧
      q.HasGiven bytes bytes.length ∧ q.mode = mode ∧ q.rd.pos = (stoppedStream (streamOps bytes level)).length := by
  have hyields := streamOps_yieldsAll bytes level
  have hstart : (Prsd.start (stoppedStream (streamOps bytes level)) mode 0 0).HasGiven bytes 0 :=
    ⟨rfl, rfl, hmode, rfl, rfl, fun _ => by simp⟩
  have hrd : ReaderBefore (Reader.start (stoppedStream (streamOps bytes level)))
      (streamTokens (streamOps bytes level)) := by
    rw [stoppedStream_eq_canonical]
    exact start_before _
  obtain ⟨q, hrun, hq, hm, hpos⟩ := prsdRun_stream (n := (stoppedStream (streamOps bytes level)).length + 1) hstart
    hyields hrd (Nat.zero_le _) (by simp)
  rw [outCount_streamOps, Nat.zero_add] at hq
  exact ⟨q, hrun, hq, hm, hpos⟩

/-- What the command returns: the bytes, or their count (R99, R107). -/
theorem Prsd.HasGiven.deliver {q : Prsd} {data : Bytes} (h : q.HasGiven data data.length) {s : State}
    (hidle : s.active = .idle) :
    prsdDeliver (.ok (q.setEnd .stop)) s = .next { s with
      responses := s.responses ++ [.ok (if q.mode = .bytes then .bytes data else .int data.length)] } := by
  obtain ⟨-, -, hmode, htrace, hlen, hout⟩ := h
  have hfinal : (q.setEnd .stop).finalItems = [] := if_neg hmode
  have hresult : (q.setEnd .stop).returned = if q.mode = .bytes then .bytes data else .int data.length := by
    cases hm : q.mode with
    | bytes => simp [Prsd.returned, hm, hout hm]
    | size => simp [Prsd.returned, hm, hlen]
    | trace => exact absurd hm hmode
  rw [prsdDeliver, prsdReturn, hfinal, hresult, Prsd.setEnd_trace, htrace, List.map_nil, writeSink_nil, writeSink_nil,
    returnOk_of_idle hidle]
  rfl

/-- Settles O29: the decoder reads the opcodes back from the canonical layout, and each gives the bytes it stands for. -/
theorem prsRoundTrip : Obligations.PrsRoundTrip := by
  intro s bytes level hidle
  obtain ⟨q, hbytes, hq, hm, hpos⟩ := prsdDecode_stream bytes level (mode := .bytes) nofun
  obtain ⟨q', hsize, hq', hm', -⟩ := prsdDecode_stream bytes level (mode := .size) nofun
  refine ⟨_, q.setEnd .stop, exec_prsCompress_absent hidle bytes level, ?_, ?_, hbytes, rfl, hpos⟩
  · rw [exec, execPrsDecompress, whenIdle_of_idle s _ hidle, prsDecompress, hbytes, hq.deliver hidle, hm]
    rfl
  · rw [exec, execPrsDecompressSize, whenIdle_of_idle s _ hidle, prsDecompressSize, hsize, hq'.deliver hidle, hm']
    rfl

end Sys2Proof.Machine
end

section
/-!
PROOFS. Family 41_prs_compressor: ADD and CLOSE on the host's instance, and the input in chunks (R81, R82, R95, R96,
R139).
-/

namespace Sys2Proof.Machine

/-! ## Commands that are over at their checks (R81, R82, R139, R140) -/

/-- A command that comes to the same launched and in one step does so whatever its callback. -/
theorem unlessActing_eq {pr : Progress} {launched atomic o : Out} (hl : launched = o) (ha : atomic = o) :
    unlessActing pr launched atomic = o := by
  unfold unlessActing
  split <;> assumption

section
variable {s : State} {h : Nat} {p : Prsc}

/-- A command that leaves its instance as it is only hands over its response. -/
theorem andThen_prscDone_self (hp : s.prscs[h]? = some (.live p)) (r : Response) :
    andThen (prscNotify p p s) (fun s => .next (prscDone h p r s)) = .next (s.respond r) := by
  rw [prscNotify, notifyPoints_self, notify_nil, andThen_next, prscDone_self hp]

theorem exec_prscAdd_of_addError (hidle : s.active = .idle) (hp : s.prscs[h]? = some (.live p)) {e : EngineError}
    (he : addError p = some e) (bytes : Bytes) :
    exec (.prscAdd h bytes) s = .next (s.respond (.error e)) := by
  rw [exec, execPrscAdd, whenIdle_of_idle s _ hidle, withPrsc_live hp]
  refine unlessActing_eq ?_ ?_
  · simp only [launchAdd, he, raise_of_idle hidle]
  · simp only [prscAdd, he]
    exact andThen_prscDone_self hp _

theorem exec_prscClose_of_closed (hidle : s.active = .idle) (hp : s.prscs[h]? = some (.live p))
    (hclosed : p.closed = true) : exec (.prscClose h) s = .next (s.respond (.ok (.bytes p.result))) := by
  rw [exec, execPrscClose, whenIdle_of_idle s _ hidle, withPrsc_live hp]
  refine unlessActing_eq ?_ ?_
  · rw [launchClose, if_pos hclosed, returnOk_of_idle hidle]
  · rw [prscClose, if_pos hclosed]
    exact andThen_prscDone_self hp _

theorem exec_prscClose_of_failed (hidle : s.active = .idle) (hp : s.prscs[h]? = some (.live p))
    (hopen : p.closed = false) (hfailed : p.failed = true) :
    exec (.prscClose h) s = .next (s.respond (.error failedInstance)) := by
  rw [exec, execPrscClose, whenIdle_of_idle s _ hidle, withPrsc_live hp]
  refine unlessActing_eq ?_ ?_
  · rw [launchClose, if_neg (by simp [hopen]), if_pos hfailed, raise_of_idle hidle]
  · rw [prscClose, if_neg (by simp [hopen]), if_pos hfailed]
    exact andThen_prscDone_self hp _

/-! ## Commands that run (R81, R82, R132) -/

theorem exec_prscAdd_passive (hidle : s.active = .idle) (hp : s.prscs[h]? = some (.live p))
    (hpr : callbackPassive p.progress = true) {bytes : Bytes} {q : Prsc} (hadd : prscAdd bytes p = (q, none)) :
    exec (.prscAdd h bytes) s = .next { s with
      prscs := s.prscs.set h (.live q)
      responses := s.responses ++ [.ok .unit]
      notes := s.notes ++ notesBetween p.progress p.b q.b } := by
  rw [exec, execPrscAdd, whenIdle_of_idle s _ hidle, withPrsc_live hp, unlessActing_passive hpr]
  simp only [hadd, prscNotify, notify_returns hpr, andThen_next]
  rfl

theorem exec_prscClose_passive (hidle : s.active = .idle) (hp : s.prscs[h]? = some (.live p))
    (hpr : callbackPassive p.progress = true) {q : Prsc} (hclose : prscClose p = (q, none)) :
    exec (.prscClose h) s = .next { s with
      prscs := s.prscs.set h (.live q)
      responses := s.responses ++ [.ok (.bytes q.result)]
      notes := s.notes ++ notesBetween p.progress p.b q.b } := by
  rw [exec, execPrscClose, whenIdle_of_idle s _ hidle, withPrsc_live hp, unlessActing_passive hpr]
  simp only [hclose, prscNotify, notify_returns hpr, andThen_next]
  rfl

end

/-- Settles O39: both commands are over at their check of `failed`. -/
theorem failedInstanceAlwaysRaises : Obligations.FailedInstanceAlwaysRaises := by
  intro s h p bytes hidle hp hopen hfailed
  have he : addError p = some failedInstance := by simp [addError, hopen, hfailed]
  exact ⟨exec_prscAdd_of_addError hidle hp he bytes, exec_prscClose_of_failed hidle hp hopen hfailed⟩

/-- Settles O36: ADD's loop on the instance with the bytes appended, which ends by its own condition. -/
theorem addCompletes : Obligations.AddCompletes := by
  intro s h p bytes hidle hp hopen hinv hpr
  obtain ⟨q, hq, hinv', hopen', hend⟩ := addLoop_ready (hinv.append hopen bytes) hopen
  obtain ⟨hdata, hlevel, hprogress, -, -, hb⟩ := advanceWhile_frame Prsc.enough _ (p.append bytes)
  rw [← addLoop, hq] at hdata hlevel hprogress hb
  have hadd : prscAdd bytes p = (q, none) := (prscAdd_of_open hopen hinv.not_failed bytes).trans hq
  refine ⟨q, exec_prscAdd_passive hidle hp hpr hadd, hdata, hb, ?_, hinv', hlevel, hprogress, hopen', fun hfew => ?_⟩
  · rw [← Prsc.append_level p bytes, ← hlevel]
    exact Nat.lt_of_not_le (of_decide_eq_false hend)
  · have hnot : (p.append bytes).enough = false := decide_eq_false (Nat.not_le_of_lt hfew)
    rw [addLoop_of_not_enough hnot] at hq
    exact (congrArg Prod.fst hq).symm

/-- Settles O38: CLOSE's loop and the end of the stream; the second CLOSE finds the instance closed. -/
theorem closeCompletesAndIsIdempotent : Obligations.CloseCompletesAndIsIdempotent := by
  intro s h p hidle hp hopen hinv hpr
  have hh := (List.getElem?_eq_some_iff.mp hp).1
  have hdata : (closeLoop p).1.data = p.data := (advanceWhile_frame _ _ _).1
  refine ⟨(closeLoop p).1.terminate, _, exec_prscClose_passive hidle hp hpr (prscClose_of_open hinv hopen), rfl, rfl, ?_,
    hdata, rfl, ?_⟩
  · rw [Prsc.terminate_b, closeLoop_b hinv hopen, Prsc.terminate_data, hdata]
  · exact exec_prscClose_of_closed hidle (List.getElem?_set_self hh) rfl

/-! ## An Advance with enough bytes ahead looks at no byte to come (R81, R95) -/

section
variable {data c : Bytes}

/-- A comparison that stays inside the data does not see what is appended. -/
theorem matchLen_append {cap p q : Nat} (hp : p ≤ q) (hq : q + cap ≤ data.length) :
    matchLen (fun i => (data ++ c)[i]?) cap p q = matchLen (fun i => data[i]?) cap p q := by
  induction cap generalizing p q with
  | zero => rfl
  | succ cap ih =>
    rw [matchLen, matchLen, ih (by omega) (by omega), List.getElem?_append_left (by omega),
      List.getElem?_append_left (by omega)]

theorem candidateAt_append {b k d : Nat} (h : b + k + 256 ≤ data.length) :
    candidateAt (data ++ c) b k d = candidateAt data b k d := by
  have hcap : min 256 (data.length - (b + k)) = 256 := by omega
  have hcap' : min 256 ((data ++ c).length - (b + k)) = 256 := by rw [List.length_append]; omega
  rw [candidateAt, candidateAt, candidateLen, candidateLen, hcap, hcap', matchLen_append (Nat.sub_le _ _) h]

theorem candidatesFrom_append {b n : Nat} (h : ∀ k, k < n → b + k + 256 ≤ data.length) :
    candidatesFrom (data ++ c) b 0 n = candidatesFrom data b 0 n := by
  have hin : ∀ k ∈ List.range' 0 n, b + k + 256 ≤ data.length := fun k hk => h k (by simpa using hk)
  have hfilter : (List.range' 0 n).filter (fun k => decide (b + k < (data ++ c).length)) =
      (List.range' 0 n).filter (fun k => decide (b + k < data.length)) := List.filter_congr fun k hk => by
    have := hin k hk
    rw [List.length_append, decide_eq_true (by omega), decide_eq_true (by omega)]
  rw [candidatesFrom, candidatesFrom, hfilter]
  refine List.flatMap_congr fun k hk => List.map_congr_left fun d _ => ?_
  exact candidateAt_append (hin k (List.mem_of_mem_filter hk))

theorem search_append {b level : Nat} (h : 256 + level ≤ data.length - b) :
    search (data ++ c) b level = search data b level := by
  rw [search_eq_foldl, search_eq_foldl, candidatesFrom_append fun k hk => by omega]

theorem litOps_append {b k : Nat} (h : b + k ≤ data.length) : litOps (data ++ c) b k = litOps data b k := by
  rw [litOps, litOps, List.drop_append_of_le_length (by omega), List.take_append_of_le_length (by simp; omega)]

theorem advanceOps_append {b level : Nat} (h : 256 + level ≤ data.length - b) :
    advanceOps (data ++ c) b level = advanceOps data b level := by
  rw [advanceOps, advanceOps, search_append h]
  cases hs : search data b level with
  | none => exact litOps_append (by omega)
  | some m =>
    have hm := search_isCandidateMatch hs
    have hin := hm.len_le.2
    have hlen2 := hm.2.2
    simp only
    rw [litOps_append (by omega), litOps_append (by omega)]

end

theorem enough_append {p : Prsc} (h : p.enough = true) (c : Bytes) : (p.append c).enough = true := by
  have hlen : 256 + p.level ≤ p.data.length - p.b := of_decide_eq_true h
  refine decide_eq_true ?_
  simp only [Prsc.append_b, Prsc.append_data, Prsc.append_level, List.length_append, Config.prsMaxCopy]
  omega

/-- With enough bytes ahead, appending and one Advance may change places. -/
theorem advance_append {p : Prsc} (h : p.enough = true) (c : Bytes) :
    (advance (p.append c)).1 = (advance p).1.append c := by
  have hb := enough_lt h
  have hb' : (p.append c).b < (p.append c).data.length := enough_lt (enough_append h c)
  rw [advance_eq_write hb, advance_eq_write hb', Prsc.append_data, Prsc.append_b, Prsc.append_level,
    advanceOps_append (of_decide_eq_true h)]
  rfl

/-- An ADD after an ADD is one ADD of both (R95). -/
theorem addLoop_append_addLoop (p : Prsc) (c : Bytes) : addLoop ((addLoop p).1.append c) = addLoop (p.append c) := by
  induction p using advance_induction with
  | h p ih =>
    cases h : p.enough with
    | false => rw [addLoop_of_not_enough h]
    | true => rw [addLoop_of_enough h, ih (enough_lt h), addLoop_of_enough (enough_append h c), advance_append h]

theorem prscAdd_addLoop {p : Prsc} (hinv : Prsc.Inv p) (hopen : p.closed = false) (c : Bytes) :
    prscAdd c (addLoop p).1 = addLoop (p.append c) := by
  obtain ⟨q, hq, hinv', hopen', -⟩ := addLoop_ready hinv hopen
  rw [← addLoop_append_addLoop, hq, prscAdd_of_open hopen' hinv'.not_failed]

/-- A new instance after its ADDs is ADD's loop on all their bytes (R95, R96). -/
theorem foldl_prscAdd (level : Nat) (chunks : List Bytes) :
    chunks.foldl (fun p c => (prscAdd c p).1) (Prsc.start level .absent) =
      (addLoop (Prsc.loaded chunks.flatten level .absent)).1 := by
  induction chunks using List.reverseRecOn with
  | nil =>
    have hfew : (Prsc.loaded [] level .absent).enough = false :=
      decide_eq_false (by simp [Prsc.loaded, Config.prsMaxCopy])
    rw [List.flatten_nil, addLoop_of_not_enough hfew]
    rfl
  | append_singleton chunks c ih =>
    rw [List.foldl_append, ih, List.foldl_cons, List.foldl_nil, prscAdd_addLoop (loaded_inv _ _ _) rfl,
      List.flatten_append, List.flatten_singleton]
    rfl

/-- Settles O31: ADD after ADD is one ADD, and CLOSE after it is CLOSE on the whole input. -/
theorem prsStreamIndependentOfChunking : Obligations.PrsStreamIndependentOfChunking := by
  intro level chunks
  have hinv := fun bytes => loaded_inv bytes level .absent
  rw [foldl_prscAdd, prscClose_addLoop (hinv _) rfl, prsCompress_eq]
  refine ⟨rfl, rfl, fun before c _ => ?_⟩
  obtain ⟨q, hq, -⟩ := addLoop_ready ((hinv before.flatten).append rfl c) rfl
  rw [foldl_prscAdd, prscAdd_addLoop (hinv _) rfl, hq]

end Sys2Proof.Machine
end

section
/-!
PROOFS. Family 41_prs_compressor: a run of one byte, and the vector of R98.
-/

namespace Sys2Proof.Machine

/-! ## The search in a run of one byte (R84, R98) -/

/-- In a run every candidate matches up to its cap. -/
theorem candidateLen_replicate {n b k d : Nat} (v : Byte) (hin : b + k < n) :
    candidateLen (List.replicate n v) b k d = min 256 (n - (b + k)) := by
  rw [candidateLen, List.length_replicate]
  refine Nat.le_antisymm (matchLen_le _ _ _ _) (Nat.le_of_not_lt fun hlt => matchLen_stop _ hlt ?_)
  rw [List.getElem?_replicate_of_lt (by omega), List.getElem?_replicate_of_lt (by omega)]

/-- At its start there is nothing to copy. -/
theorem search_at_start (data : Bytes) : search data 0 1 = none := by
  refine Option.eq_none_iff_forall_ne_some.mpr fun m hs => ?_
  obtain ⟨⟨hk, -, hd, hd', -⟩, -⟩ := search_isCandidateMatch hs
  omega

/-- Past its start, the whole cap is copied from the byte before. -/
theorem search_replicate {n b : Nat} (v : Byte) (hb : 1 ≤ b) (hin : b + 2 ≤ n) :
    search (List.replicate n v) b 1 = some { k := 0, d := 1, len := min 256 (n - b) } := by
  have hfirst : Candidate (List.replicate n v) b 1 0 1 := by
    simp only [Candidate, List.length_replicate]
    omega
  have hlen := candidateLen_replicate (n := n) (b := b) (k := 0) (d := 1) v (by omega)
  have hbest := searchFindsTheBestCandidate (List.replicate n v) b 1
  cases hs : search (List.replicate n v) b 1 with
  | none =>
    rw [hs] at hbest
    have := hbest 0 1 hfirst
    omega
  | some m =>
    rw [hs] at hbest
    obtain ⟨⟨hk, hmb, hd, -⟩, hmlen, -, hall⟩ := hbest
    rw [List.length_replicate] at hmb
    rw [candidateLen_replicate v hmb] at hmlen
    have hle := hall 0 1 hfirst
    obtain ⟨k, d, len⟩ := m
    simp only [Option.some.injEq, Match.mk.injEq] at *
    omega

/-! ## The opcodes of a run at level 1 (R98) -/

theorem advanceOps_at_start {n : Nat} (v : Byte) : advanceOps (List.replicate (n + 1) v) 0 1 = [.lit v] := by
  rw [advanceOps, search_at_start]
  rfl

theorem advanceOps_replicate {n b : Nat} (v : Byte) (hb : 1 ≤ b) (hin : b + 10 ≤ n) :
    advanceOps (List.replicate n v) b 1 = [.ecopy (-1) (min 256 (n - b))] := by
  have hcopy := pseudoCopy_neg_eq (d := 1) (len := min 256 (n - b)) (by omega) (by omega) (by omega) (by omega)
  rw [if_neg (by omega), if_neg (by omega), if_neg (by omega)] at hcopy
  rw [advanceOps, search_replicate v hb (by omega)]
  simp only [hcopy]
  rfl

theorem drainOps_of_ge {data : Bytes} {b : Nat} (h : data.length ≤ b) (level n : Nat) :
    drainOps data level n b = [] := by
  cases n with
  | zero => rfl
  | succ n => rw [drainOps, if_neg (Nat.not_lt_of_le h)]

/-- One Advance of CLOSE's loop in a run. -/
theorem drainOps_replicate_succ {n b : Nat} (v : Byte) (hb : 1 ≤ b) (hin : b + 10 ≤ n) (turns : Nat) :
    drainOps (List.replicate n v) 1 (turns + 1) b =
      .ecopy (-1) (min 256 (n - b)) :: drainOps (List.replicate n v) 1 turns (b + min 256 (n - b)) := by
  rw [drainOps, if_pos (by rw [List.length_replicate]; omega), advanceOps_replicate v hb hin]
  rfl

/-- The rest of a run that is `m` whole copies and one of 255 bytes. -/
theorem drainOps_replicate {n b m turns : Nat} (v : Byte) (hb : 1 ≤ b) (hn : n = b + 256 * m + 255) (hm : m < turns) :
    drainOps (List.replicate n v) 1 turns b = List.replicate m (.ecopy (-1) 256) ++ [.ecopy (-1) 255] := by
  induction m generalizing b turns with
  | zero =>
    obtain ⟨turns, rfl⟩ := Nat.exists_eq_add_one.mpr hm
    have hlast : min 256 (n - b) = 255 := by omega
    rw [drainOps_replicate_succ v hb (by omega), hlast, drainOps_of_ge (by rw [List.length_replicate]; omega)]
    rfl
  | succ m ih =>
    obtain ⟨turns, rfl⟩ := Nat.exists_eq_add_one.mpr (show 0 < turns by omega)
    have hwhole : min 256 (n - b) = 256 := by omega
    rw [drainOps_replicate_succ v hb (by omega), hwhole, ih (by omega) (by omega) (by omega)]
    rfl

/-- A run of `256 * (m + 1)` bytes: the first byte, `m` copies of 256 bytes and one of 255. -/
theorem streamOps_replicate (m : Nat) (v : Byte) :
    streamOps (List.replicate (256 * (m + 1)) v) 1 =
      .lit v :: (List.replicate m (.ecopy (-1) 256) ++ [.ecopy (-1) 255]) := by
  have hlen : 256 * (m + 1) = (256 * m + 255) + 1 := by omega
  rw [streamOps, List.length_replicate, hlen, drainOps, if_pos (by simp), advanceOps_at_start, List.singleton_append]
  exact congrArg _ (drainOps_replicate v (Nat.le_refl 1) (by rw [outCount_cons, outCount_nil, outBytes]; omega)
    (by omega))

/-- Settles O32: the stream of 4096 zeros is that of a run with 15 whole copies, whose canonical layout is evaluated. -/
theorem zerosCompressTo56Bytes : Obligations.ZerosCompressTo56Bytes := by
  intro s hidle
  refine ⟨_, exec_prsCompress_absent hidle (List.replicate 4096 0#8) 1, ?_⟩
  rw [streamOps_replicate 15 0#8, stoppedStream_eq_canonical]
  decide

end Sys2Proof.Machine
end

section
/-!
PROOFS. Family 42_prs_decompressor: what a PRS opcode does to its instance, in terms of the counts alone (R99 to R108).
-/

namespace Sys2Proof.Machine

/-! ## When an opcode fails (R100, R106) -/

/-- The error of growing the output to `n` bytes (R106, R138). -/
def limitError (maxOut n : Nat) : Option EngineError := if overLimit maxOut n then some (.resourceLimit n) else none

/-- The error of a copy: the backreference check comes before the bound (R100, R140). -/
def copyError (maxOut outLen : Nat) (off : Int) (cnt : Nat) : Option EngineError :=
  if backrefBad outLen off then some (.malformedBackref outLen off) else limitError maxOut (outLen + cnt)

/-- The error of a PRS opcode where `outLen` bytes have been given: no mode has a part in it (R107, R108). -/
def prsOpError (maxOut outLen : Nat) : Instr → Option EngineError
  | .lit _ => limitError maxOut (outLen + 1)
  | .scopy off cnt => copyError maxOut outLen off cnt
  | .lcopy off cnt => copyError maxOut outLen off cnt
  | .ecopy off cnt => copyError maxOut outLen off cnt
  | _ => none

theorem prsOpError_of_isPrsCopy {i : Instr} {off : Int} {cnt : Nat} (h : IsPrsCopy i off cnt) (maxOut outLen : Nat) :
    prsOpError maxOut outLen i = copyError maxOut outLen off cnt := by
  obtain rfl | rfl | rfl := h <;> rfl

/-- The PRS opcodes: STOP, a literal, or a copy. -/
theorem isPrsOp_cases {i : Instr} (h : isPrsOp i = true) :
    (∃ f, i = .stop f) ∨ (∃ v, i = .lit v) ∨ ∃ off cnt, IsPrsCopy i off cnt := by
  cases i with
  | lit v => exact .inr (.inl ⟨v, rfl⟩)
  | scopy off cnt => exact .inr (.inr ⟨off, cnt, .inl rfl⟩)
  | lcopy off cnt => exact .inr (.inr ⟨off, cnt, .inr (.inl rfl)⟩)
  | ecopy off cnt => exact .inr (.inr ⟨off, cnt, .inr (.inr rfl)⟩)
  | stop f => exact .inl ⟨f, rfl⟩
  | _ => cases h

theorem backrefBad_eq_true_iff {outLen : Nat} {off : Int} :
    backrefBad outLen off = true ↔ (outLen : Int) + off < 0 ∨ (outLen : Int) ≤ (outLen : Int) + off := by
  rw [backrefBad, Bool.or_eq_true, decide_eq_true_iff, decide_eq_true_iff, copySource]

theorem limitError_eq_none_iff {maxOut n : Nat} : limitError maxOut n = none ↔ maxOut = 0 ∨ n ≤ maxOut := by
  rw [← overLimit_eq_false, limitError]
  cases overLimit maxOut n <;> simp

/-- The bound's error is there only where the check says so. -/
theorem overLimit_of_limitError {maxOut n : Nat} {e : EngineError} (h : limitError maxOut n = some e) :
    overLimit maxOut n = true ∧ e = .resourceLimit n := by
  rw [limitError] at h
  split at h
  · next hover =>
    cases h
    exact ⟨hover, rfl⟩
  · cases h

/-- It is there only for a bound that is passed. -/
theorem limitError_eq_some {maxOut n : Nat} {e : EngineError} (h : limitError maxOut n = some e) :
    e = .resourceLimit n ∧ maxOut ≠ 0 ∧ maxOut < n := by
  obtain ⟨hover, rfl⟩ := overLimit_of_limitError h
  rw [overLimit, Bool.and_eq_true, decide_eq_true_iff, decide_eq_true_iff] at hover
  exact ⟨rfl, hover⟩

theorem copyError_of_outside {outLen : Nat} {off : Int}
    (h : (outLen : Int) + off < 0 ∨ (outLen : Int) ≤ (outLen : Int) + off) (maxOut cnt : Nat) :
    copyError maxOut outLen off cnt = some (.malformedBackref outLen off) := if_pos (backrefBad_eq_true_iff.mpr h)

theorem copyError_of_inside {outLen : Nat} {off : Int} (h : off < 0) (h' : 0 ≤ (outLen : Int) + off)
    (maxOut cnt : Nat) : copyError maxOut outLen off cnt = limitError maxOut (outLen + cnt) :=
  if_neg (by rw [backrefBad_eq_true_iff]; omega)

/-- A copy's source is outside the output, or it lies before its end. -/
theorem copy_outside_or_inside (outLen : Nat) (off : Int) :
    ((outLen : Int) + off < 0 ∨ (outLen : Int) ≤ (outLen : Int) + off) ∨ (off < 0 ∧ 0 ≤ (outLen : Int) + off) := by
  omega

/-! ## What an opcode does (R101 to R105, R107, R108) -/

/-- The bytes an opcode gives (R44, R101). -/
def prsOpBytes (p : Prsd) : Instr → Bytes
  | .lit v => [v]
  | .scopy off cnt => repeated p.out ((p.outLen : Int) + off).toNat cnt
  | .lcopy off cnt => repeated p.out ((p.outLen : Int) + off).toNat cnt
  | .ecopy off cnt => repeated p.out ((p.outLen : Int) + off).toNat cnt
  | _ => []

/-- `end` after an opcode (R105). -/
def endAfter (fin : PrsdEnd) : Instr → PrsdEnd
  | .stop _ => .stop
  | _ => fin

/-- The instance after an opcode that does not fail: BYTES mode keeps the bytes, every mode counts them. -/
def Prsd.after (p : Prsd) (i : Instr) : Prsd :=
  { p with
    out := if p.mode = .bytes then p.out ++ prsOpBytes p i else p.out
    outLen := p.outLen + outBytes i
    trace := p.trace ++ prsTraced p i
    fin := endAfter p.fin i }

theorem prsOpBytes_length {i : Instr} (hi : isPrsOp i = true) (p : Prsd) :
    (prsOpBytes p i).length = outBytes i := by
  obtain ⟨f, rfl⟩ | ⟨v, rfl⟩ | ⟨off, cnt, rfl | rfl | rfl⟩ := isPrsOp_cases hi
  · rfl
  · rfl
  all_goals exact repeated_length _ _ _

theorem prsOpBytes_of_isPrsCopy {i : Instr} {off : Int} {cnt : Nat} (h : IsPrsCopy i off cnt) (p : Prsd) :
    prsOpBytes p i = repeated p.out ((p.outLen : Int) + off).toNat cnt := by
  obtain rfl | rfl | rfl := h <;> rfl

theorem endAfter_of_isPrsCopy {i : Instr} {off : Int} {cnt : Nat} (h : IsPrsCopy i off cnt) (fin : PrsdEnd) :
    endAfter fin i = fin := by
  obtain rfl | rfl | rfl := h <;> rfl

/-- A literal beyond the bound (R101, R106). -/
theorem prsdLit_of_error {v : Byte} {p : Prsd} {e : EngineError} (h : limitError p.maxOut (p.outLen + 1) = some e) :
    prsdLit v p = .raised (p.record (.lit v)) e := by
  obtain ⟨hover, rfl⟩ := overLimit_of_limitError h
  simp [prsdLit, hover]

/-- A literal within the bound (R101). -/
theorem prsdLit_of_no_error {v : Byte} {p : Prsd} (h : limitError p.maxOut (p.outLen + 1) = none) :
    prsdLit v p = .ok (p.after (.lit v)) := by
  have hlimit := overLimit_eq_false.mpr (limitError_eq_none_iff.mp h)
  by_cases hm : p.mode = .bytes
  · simp [prsdLit, hlimit, hm, Prsd.after, prsOpBytes, outBytes, prsTraced, endAfter]
  · simp [prsdLit, hlimit, hm, Prsd.record_eq, Prsd.after, outBytes, endAfter]

/-- A copy that fails (R100). -/
theorem prsdCopy_of_error {p : Prsd} {off : Int} {cnt : Nat} {e : EngineError}
    (h : copyError p.maxOut p.outLen off cnt = some e) : prsdCopy off cnt p = .raised p e := by
  rw [copyError] at h
  split at h
  · next hback =>
    cases h
    rw [prsdCopy, if_pos hback]
  · next hback =>
    obtain ⟨hover, rfl⟩ := overLimit_of_limitError h
    rw [prsdCopy, if_neg hback, if_pos hover]

/-- An opcode that fails keeps its record and nothing else, in every mode (R108, R141, D17). -/
theorem prsdOp_of_error {i : Instr} {p : Prsd} {e : EngineError} (h : prsOpError p.maxOut p.outLen i = some e) :
    prsdOp i p = .raised (p.record i) e := by
  cases i with
  | lit v => exact prsdLit_of_error h
  | scopy off cnt | lcopy off cnt | ecopy off cnt =>
    refine prsdCopy_of_error ?_
    rw [Prsd.record_maxOut, Prsd.record_outLen]
    exact h
  | _ => cases h

/-- An opcode that does not fail, on an instance whose `out_len` counts its bytes (R23). -/
theorem prsdOp_of_no_error {i : Instr} {p : Prsd} (hi : isPrsOp i = true)
    (hlen : p.mode = .bytes → p.out.length = p.outLen) (h : prsOpError p.maxOut p.outLen i = none) :
    prsdOp i p = .ok (p.after i) := by
  obtain ⟨f, rfl⟩ | ⟨v, rfl⟩ | ⟨off, cnt, hcopy⟩ := isPrsOp_cases hi
  · rw [prsdOp_stop]
    cases hm : p.mode <;> simp [Prsd.after, prsOpBytes, endAfter, outBytes, hm]
  · exact prsdLit_of_no_error h
  · rw [prsOpError_of_isPrsCopy hcopy] at h
    obtain hout | ⟨hneg, hsrc⟩ := copy_outside_or_inside p.outLen off
    · rw [copyError_of_outside hout] at h
      cases h
    · rw [copyError_of_inside hneg hsrc, limitError_eq_none_iff] at h
      rw [prsdOp_of_isPrsCopy hcopy, Prsd.record_eq,
        prsdCopy_eq_ok (p := { p with trace := p.trace ++ prsTraced p i }) hlen hneg hsrc h, Prsd.after,
        prsOpBytes_of_isPrsCopy hcopy, (encode_isPrsCopy hcopy).2, endAfter_of_isPrsCopy hcopy]

/-! ## The opcodes on the machine -/

/-- A PRS opcode that raises: its own record on the sink, the error, and the thread idle (R108, R129, R141). -/
theorem exec_prsOp_raised {s : State} {p p' : Prsd} {i : Instr} {e : EngineError} (hp : RunningPrsd s p)
    (hi : isPrsOp i = true) (hop : prsdOp i p = .raised p' e) :
    exec i s = .next { s with
      active := .idle
      responses := s.responses ++ [.error e]
      sink := s.sink ++ (prsTraced p i).map (fun r => (p.sink, .prs r)) } := by
  obtain ⟨hactive, hrunning⟩ := hp
  have htraces := prsdOp_traces i p
  rw [hop] at htraces
  obtain ⟨hsink, htrace⟩ := htraces
  rw [exec_prsOp hi, onPrsd_running hactive hrunning, hop]
  simp only [prsNewItems_of_trace_append htrace, hsink]
  rw [raise_prsd (p := p) (by exact hactive)]
  simp [State.writeSink]

/-- Settles O9: within the bound LIT has no error. -/
theorem litAppendsOneByte : Obligations.LitAppendsOneByte := by
  intro s p v hp hbound
  have hop : prsdOp (.lit v) p = .ok (p.after (.lit v)) := prsdLit_of_no_error (limitError_eq_none_iff.mpr hbound)
  exact exec_prsOp_ok hp rfl hop

/-- Settles O11: the backreference check is the copy's first, and its record is made before. -/
theorem prsCopyOutsideOutputRaisesBackref : Obligations.PrsCopyOutsideOutputRaisesBackref := by
  intro s p i off cnt hp hcopy hout
  have herr := (prsOpError_of_isPrsCopy hcopy p.maxOut p.outLen).trans (copyError_of_outside hout _ cnt)
  exact exec_prsOp_raised hp (isPrsOp_of_isPrsCopy hcopy) (prsdOp_of_error herr)

/-- Settles O53: an opcode runs its decoder's operation, which the machine refuses where there is no such instance. -/
theorem opcodesNeedTheirDecoder : Obligations.OpcodesNeedTheirDecoder := by
  refine fun s i => ⟨fun hi hnone => ?_, fun hi hnone => ?_⟩
  · rw [exec_prsOp hi, onPrsd]
    split
    · next p hp =>
      have hended : p.ended = true := by simpa [Prsd.ended] using fun hrun => hnone p ⟨hp, hrun⟩
      rw [if_pos hended]
    · rfl
  · obtain ⟨f, -, hexec⟩ := exec_bc0Op hi
    rw [hexec, onBc0d]
    split
    · next d hd =>
      have hdone : d.done = true := by simpa using fun hrun => hnone d ⟨hd, hrun⟩
      rw [if_pos hdone]
    · rfl

end Sys2Proof.Machine
end

section
/-!
PROOFS. Family 42_prs_decompressor: the steps of the decode loop (R99, R119, R148).
-/

namespace Sys2Proof.Machine

/-- The clean end's condition (R99, D4). -/
theorem atEnd_eq_true_iff {p : Prsd} : p.atEnd = true ↔ p.rd.pos = p.rd.input.length := by simp [Prsd.atEnd]

/-- At the end of the input, the step of a decoder in its loop is the clean end (R99). -/
theorem step_prsd_atEnd {s : State} {p : Prsd} (hp : RunningPrsd s p) (hsched : s.schedule = [])
    (hend : p.rd.pos = p.rd.input.length) : step s = .next { s with active := .prsd (p.setEnd .cleanEnd) } := by
  obtain ⟨hactive, hrunning⟩ := hp
  rw [step_of_schedule_nil hsched, fetchCurrent, hactive]
  simp [fetchPrsd, Prsd.ended, Prsd.atEnd, hrunning, hend]

/-- Settles O14: the clean end only sets `end`, and an instance out of its loop returns. -/
theorem cleanEndBetweenOpcodes : Obligations.CleanEndBetweenOpcodes := by
  intro s p hp hsched hend
  refine ⟨_, step_prsd_atEnd hp hsched hend, rfl, _, step_prsd_ended (by exact hsched) rfl rfl, ?_⟩
  rw [prsdReturn_eq rfl]
  exact ⟨rfl, rfl⟩

/-- A step executes the instruction that the thread which moves turns to (R148). -/
theorem step_of_fetchCurrent_run {s t u : State} {i : Instr} (ht : s.reschedule = t) (h : fetchCurrent t = .run i u) :
    step s = exec i u := by
  rw [step, fetch, ht, h]

theorem fetchPrsd_of_decodes {p : Prsd} {i : Instr} {r : Reader} (hrun : p.fin = .running)
    (hpos : p.rd.pos ≠ p.rd.input.length) (hd : decodePrs p.rd = .ok (i, r)) (t : State) :
    fetchPrsd p t = .run i { t with active := .prsd (p.fetched r) } := by
  simp [fetchPrsd, Prsd.ended, Prsd.atEnd, hrun, hpos, hd]

theorem fetchBc0d_of_decodes {d : Bc0d} {i : Instr} {r : Reader} (hrun : d.done = false)
    (hd : decodeBc0 d.rd = .op i r) (t : State) :
    fetchBc0d d t = .run i { t with active := .bc0d (d.fetched r) } := by
  simp [fetchBc0d, hrun, hd]

/-- Settles O16: a decoder in its loop turns to the opcode it reads, an idle thread to the command its host issues. -/
theorem stepRunsTheDecodedInstruction : Obligations.StepRunsTheDecodedInstruction := by
  refine fun s t ht => ⟨?_, ?_, ?_⟩
  · rintro p i r ⟨hactive, hrun⟩ hpos hd
    refine step_of_fetchCurrent_run ht ?_
    rw [fetchCurrent, hactive]
    exact fetchPrsd_of_decodes hrun hpos hd t
  · rintro d i r ⟨hactive, hrun⟩ hd
    refine step_of_fetchCurrent_run ht ?_
    rw [fetchCurrent, hactive]
    exact fetchBc0d_of_decodes hrun hd t
  · intro i rest hidle hhost
    refine step_of_fetchCurrent_run ht ?_
    simp only [fetchCurrent, hidle, fetchHost, hhost]

end Sys2Proof.Machine
end

section
/-!
PROOFS. Family 42_prs_decompressor: a whole decode answers, with a result or one of its errors (R99, R109, R127, R134,
R162).
-/

namespace Sys2Proof.Machine

/-! ## What the host gets of a whole decode (R99, R129, R141) -/

/-- A decode that returns: its records, its final count and its result. -/
theorem prsdDeliver_ok {s : State} (hidle : s.active = .idle) (p : Prsd) :
    prsdDeliver (.ok p) s = .next { s with
      responses := s.responses ++ [.ok p.returned]
      sink := s.sink ++ (p.trace.map SinkItem.prs ++ p.finalItems).map (fun x => (p.sink, x)) } := by
  rw [prsdDeliver, prsdReturn, writeSink_append, returnOk_of_idle (by exact hidle)]
  rfl

/-- A decode that raises: its records so far, and the error. -/
theorem prsdDeliver_raised {s : State} (hidle : s.active = .idle) (p : Prsd) (e : EngineError) :
    prsdDeliver (.raised p e) s = .next { s with
      responses := s.responses ++ [.error e]
      sink := s.sink ++ (p.trace.map SinkItem.prs).map (fun x => (p.sink, x)) } := by
  rw [prsdDeliver, raise_of_idle (by exact hidle)]
  rfl

/-! ## The operands stay (R23) -/

/-- `p'` is an instance of the same command as `p`, further on in the same input. -/
structure Prsd.Continues (p' p : Prsd) : Prop where
  input : p'.rd.input = p.rd.input
  mode : p'.mode = p.mode
  maxOut : p'.maxOut = p.maxOut
  sink : p'.sink = p.sink

theorem Prsd.Continues.refl (p : Prsd) : p.Continues p := ⟨rfl, rfl, rfl, rfl⟩

theorem Prsd.Continues.trans {p p' p'' : Prsd} (h : p''.Continues p') (h' : p'.Continues p) : p''.Continues p :=
  ⟨h.input.trans h'.input, h.mode.trans h'.mode, h.maxOut.trans h'.maxOut, h.sink.trans h'.sink⟩

theorem Prsd.Continues.of_fetched {p p' : Prsd} {i : Instr} {r : Reader} (hd : decodePrs p.rd = .ok (i, r))
    (h : p'.Continues (p.fetched r)) : p'.Continues p := h.trans ⟨(decodePrs_moved hd).1.input, rfl, rfl, rfl⟩

/-! ## The errors of a decode (R134, R136 to R138) -/

/-- The errors of a PRS decode of `len` bytes within the bound `maxOut`. -/
def PrsdError (maxOut len : Nat) (e : EngineError) : Prop :=
  (∃ n off, e = .malformedBackref n off ∧ (n : Int) + off < 0) ∨ e = .malformedTruncated len ∨
    ∃ n, e = .resourceLimit n ∧ maxOut ≠ 0 ∧ maxOut < n

/-- A decoded copy goes back from the end of the output (R64). -/
theorem wellFormed_isPrsCopy {i : Instr} {off : Int} {cnt : Nat} (h : IsPrsCopy i off cnt)
    (hwf : wellFormed i = true) : off < 0 := by
  obtain rfl | rfl | rfl := h <;> exact Int.lt_of_le_sub_one (of_decide_eq_true hwf).2.1

/-- The error of a well-formed opcode: a copy from before the output's start, or the bound. -/
theorem prsOpError_prsdError {i : Instr} {maxOut outLen : Nat} {e : EngineError} (hi : isPrsOp i = true)
    (hwf : wellFormed i = true) (h : prsOpError maxOut outLen i = some e) (len : Nat) : PrsdError maxOut len e := by
  obtain ⟨f, rfl⟩ | ⟨v, rfl⟩ | ⟨off, cnt, hcopy⟩ := isPrsOp_cases hi
  · cases h
  · exact .inr (.inr ⟨_, limitError_eq_some h⟩)
  · have hneg := wellFormed_isPrsCopy hcopy hwf
    rw [prsOpError_of_isPrsCopy hcopy] at h
    obtain hout | ⟨-, hsrc⟩ := copy_outside_or_inside outLen off
    · rw [copyError_of_outside hout] at h
      cases h
      exact .inl ⟨_, _, rfl, by omega⟩
    · rw [copyError_of_inside hneg hsrc] at h
      exact .inr (.inr ⟨_, limitError_eq_some h⟩)

/-! ## Every outcome of a decode -/

/-- The outcome is an answer of `p`'s command: an instance in order, or one of the decode's errors. -/
def PrsdOut.Answers (p : Prsd) : PrsdOut → Prop
  | .ok p' => Prsd.Inv p' ∧ p'.Continues p
  | .raised p' e => Prsd.Inv p' ∧ p'.Continues p ∧ PrsdError p.maxOut p.rd.input.length e
  | .fault _ => False

/-- An opcode that was decoded is executed, or it raises one of the decode's errors. -/
theorem prsdOp_answers {p : Prsd} {i : Instr} (hinv : Prsd.Inv p) (hi : isPrsOp i = true) (hwf : wellFormed i = true) :
    (prsdOp i p).Answers p := by
  cases he : prsOpError p.maxOut p.outLen i with
  | some e =>
    rw [prsdOp_of_error he]
    exact ⟨hinv.record i, by constructor <;> simp, prsOpError_prsdError hi hwf he _⟩
  | none =>
    have hop := prsdOp_of_no_error hi hinv.bytes_len he
    rw [hop]
    exact ⟨prsdOp_inv hinv hop, rfl, rfl, rfl, rfl⟩

theorem PrsdOut.Answers.of_continues {p p' : Prsd} {o : PrsdOut} (h : o.Answers p') (hc : p'.Continues p) :
    o.Answers p := by
  cases o with
  | ok q => exact ⟨h.1, h.2.trans hc⟩
  | raised q e =>
    obtain ⟨hinv, hq, herr⟩ := h
    rw [hc.maxOut, hc.input] at herr
    exact ⟨hinv, hq.trans hc, herr⟩
  | fault f => exact h

/-- An iteration answers (R99): a truncated opcode wants the byte at `len(IN)`. -/
theorem prsdIter_answers {p : Prsd} (hinv : Prsd.Inv p) : (prsdIter p).Answers p := by
  rw [prsdIter]
  split
  · exact ⟨hinv.setEnd _, rfl, rfl, rfl, rfl⟩
  · next hend =>
    have hpos : p.rd.pos < p.rd.input.length := by
      rw [atEnd_eq_true_iff] at hend
      exact Nat.lt_of_le_of_ne hinv.rd.pos_le hend
    cases hd : decodePrs p.rd with
    | error e =>
      obtain ⟨rfl, -⟩ := decodePrs_error hpos hd
      exact ⟨hinv, .refl p, .inr (.inl rfl)⟩
    | ok x =>
      obtain ⟨i, r⟩ := x
      exact (prsdOp_answers (hinv.fetched (decodePrs_readerInv hinv.rd hd)) (decodePrs_isPrsOp hd).1
        (decodePrs_wellFormed hd)).of_continues (.of_fetched hd (.refl _))

theorem prsdRun_of_ended {p : Prsd} (h : p.ended = true) (n : Nat) : prsdRun n p = .ok p := by
  cases n <;> rw [prsdRun, if_pos h]

/-- The iterations after one whose outcome is this. -/
def PrsdOut.andRun (n : Nat) : PrsdOut → PrsdOut
  | .ok p => prsdRun n p
  | .raised p e => .raised p e
  | .fault f => .fault f

theorem prsdRun_succ {p : Prsd} (h : p.ended = false) (n : Nat) : prsdRun (n + 1) p = (prsdIter p).andRun n := by
  rw [prsdRun, if_neg (by simp [h])]
  cases prsdIter p <;> rfl

/-- A decode with iterations enough for the input that is left answers (R162). -/
theorem prsdRun_answers {n : Nat} {p : Prsd} (hinv : Prsd.Inv p)
    (hn : p.ended = true ∨ p.rd.input.length < p.rd.pos + n) : (prsdRun n p).Answers p := by
  have hpos := hinv.rd.pos_le
  induction n generalizing p with
  | zero =>
    rw [prsdRun_of_ended (hn.resolve_right (by omega))]
    exact ⟨hinv, .refl p⟩
  | succ n ih =>
    cases hend : p.ended with
    | true =>
      rw [prsdRun_of_ended hend]
      exact ⟨hinv, .refl p⟩
    | false =>
      rw [hend] at hn
      have hfuel := hn.resolve_left nofun
      have hiter := prsdIter_answers hinv
      rw [prsdRun_succ hend]
      cases hi : prsdIter p with
      | ok p' =>
        rw [hi] at hiter
        obtain ⟨hinv', hc⟩ := hiter
        obtain ⟨hinput, hle, hprogress⟩ := prsdIter_progress hpos hi
        have hfuel' := hprogress.imp_right fun hmoved => show p'.rd.input.length < p'.rd.pos + n by rw [hinput]; omega
        exact PrsdOut.Answers.of_continues (ih hinv' hfuel' (by rwa [hinput])) hc
      | raised p' e => rwa [hi] at hiter
      | fault f => rwa [hi] at hiter

theorem prsdDecode_answers (input : Bytes) {mode : Mode} {maxOut : Nat} (sink : Nat)
    (hmax : mode = .trace → maxOut = 0) :
    (prsdDecode (Prsd.start input mode maxOut sink)).Answers (Prsd.start input mode maxOut sink) :=
  prsdRun_answers (start_prsdInv input sink hmax) (.inr (by simp))

/-! ## The commands (R127 to R129) -/

theorem exec_prsDecompress {s : State} (hidle : s.active = .idle) (bytes : Bytes) (maxOut : Nat) :
    exec (.prsDecompress bytes maxOut) s = prsdDeliver (prsDecompress bytes maxOut) s := whenIdle_of_idle s _ hidle

theorem exec_prsDecompressSize {s : State} (hidle : s.active = .idle) (bytes : Bytes) (maxOut : Nat) :
    exec (.prsDecompressSize bytes maxOut) s = prsdDeliver (prsDecompressSize bytes maxOut) s :=
  whenIdle_of_idle s _ hidle

theorem exec_prsDisassemble {s : State} (hidle : s.active = .idle) (k : Nat) (bytes : Bytes) :
    exec (.prsDisassemble k bytes) s = prsdDeliver (prsDisassemble k bytes) s := whenIdle_of_idle s _ hidle

/-- Outside TRACE mode nothing goes to the sink. -/
theorem prsdDeliver_ok_untraced {s : State} (hidle : s.active = .idle) {p : Prsd} (hinv : Prsd.Inv p)
    (hm : p.mode ≠ .trace) : prsdDeliver (.ok p) s = .next { s with responses := s.responses ++ [.ok p.returned] } := by
  rw [prsdDeliver_ok hidle, hinv.trace_nil hm, Prsd.finalItems, if_neg hm]
  simp

theorem prsdDeliver_raised_untraced {s : State} (hidle : s.active = .idle) {p : Prsd} (hinv : Prsd.Inv p)
    (hm : p.mode ≠ .trace) (e : EngineError) :
    prsdDeliver (.raised p e) s = .next { s with responses := s.responses ++ [.error e] } := by
  rw [prsdDeliver_raised hidle, hinv.trace_nil hm]
  simp

/-- Settles O20: every decode answers, and BYTES mode returns the bytes it has counted. -/
theorem prsDecompressAnswers : Obligations.PrsDecompressAnswers := by
  intro s bytes maxOut hidle
  have hanswers := prsdDecode_answers bytes (mode := .bytes) (maxOut := maxOut) 0 nofun
  rw [exec_prsDecompress hidle, prsDecompress]
  cases ho : prsdDecode (Prsd.start bytes .bytes maxOut 0) with
  | ok p =>
    rw [ho] at hanswers
    obtain ⟨hinv, -, hm, hmax, -⟩ := hanswers
    refine ⟨_, prsdDeliver_ok_untraced hidle hinv (by rw [hm]; nofun), .inl ⟨p.out, ?_, ?_⟩⟩
    · rw [Prsd.returned, hm]
      rfl
    · rw [hinv.bytes_len hm, ← show p.maxOut = maxOut from hmax]
      exact or_iff_not_imp_left.mpr hinv.bounded
  | raised p e =>
    rw [ho] at hanswers
    obtain ⟨hinv, ⟨-, hm, -, -⟩, herr⟩ := hanswers
    refine ⟨_, prsdDeliver_raised_untraced hidle hinv (by rw [hm]; nofun) e, .inr ?_⟩
    obtain ⟨n, off, rfl, hneg⟩ | rfl | ⟨n, rfl, hmax⟩ := herr
    · exact .inl ⟨n, off, rfl, hneg⟩
    · exact .inr (.inl rfl)
    · exact .inr (.inr ⟨n, rfl, hmax⟩)
  | fault f => rw [ho] at hanswers; exact hanswers.elim

end Sys2Proof.Machine
end

section
/-!
PROOFS. Family 42_prs_decompressor: the three modes make the same decode, and SIZE mode returns its length (R107, R108).
-/

namespace Sys2Proof.Machine

/-! ## A decode in BYTES mode and one that only counts (R107, R108) -/

/-- `q` stands where the BYTES-mode instance `p` stands in the same input, in a mode that only counts. -/
structure Prsd.CountedBy (p q : Prsd) : Prop where
  bytes : p.mode = .bytes
  counts : q.mode ≠ .bytes
  rd : q.rd = p.rd
  maxOut : q.maxOut = p.maxOut
  outLen : q.outLen = p.outLen
  fin : q.fin = p.fin
  len : p.out.length = p.outLen

/-- The two outcomes are alike, and their errors the same. -/
inductive PrsdOut.CountedBy : PrsdOut → PrsdOut → Prop
  | ok {p q : Prsd} : p.CountedBy q → PrsdOut.CountedBy (.ok p) (.ok q)
  | raised (p q : Prsd) (e : EngineError) : PrsdOut.CountedBy (.raised p e) (.raised q e)
  | fault (f : Fault) : PrsdOut.CountedBy (.fault f) (.fault f)

theorem start_countedBy (input : Bytes) {mode : Mode} (hm : mode ≠ .bytes) (maxOut sink : Nat) :
    (Prsd.start input .bytes maxOut 0).CountedBy (Prsd.start input mode maxOut sink) :=
  ⟨rfl, hm, rfl, rfl, rfl, rfl, rfl⟩

theorem Prsd.CountedBy.ended {p q : Prsd} (h : p.CountedBy q) : q.ended = p.ended := by
  rw [Prsd.ended, Prsd.ended, h.fin]

theorem Prsd.CountedBy.fetched {p q : Prsd} (h : p.CountedBy q) (r : Reader) : (p.fetched r).CountedBy (q.fetched r) :=
  ⟨h.bytes, h.counts, rfl, h.maxOut, h.outLen, h.fin, h.len⟩

theorem Prsd.CountedBy.setEnd {p q : Prsd} (h : p.CountedBy q) (e : PrsdEnd) : (p.setEnd e).CountedBy (q.setEnd e) :=
  ⟨h.bytes, h.counts, h.rd, h.maxOut, h.outLen, rfl, h.len⟩

theorem Prsd.CountedBy.after {p q : Prsd} (h : p.CountedBy q) {i : Instr} (hi : isPrsOp i = true) :
    (p.after i).CountedBy (q.after i) := by
  obtain ⟨hbytes, hcounts, hrd, hmax, hout, hfin, hlen⟩ := h
  refine ⟨hbytes, hcounts, hrd, hmax, congrArg (· + outBytes i) hout, congrArg (endAfter · i) hfin, ?_⟩
  simp [Prsd.after, hbytes, hlen, prsOpBytes_length hi]

/-- An opcode fails by the counts alone, so it does in both or in neither. -/
theorem prsdOp_countedBy {p q : Prsd} (h : p.CountedBy q) {i : Instr} (hi : isPrsOp i = true) :
    (prsdOp i p).CountedBy (prsdOp i q) := by
  have herr : prsOpError q.maxOut q.outLen i = prsOpError p.maxOut p.outLen i := by rw [h.maxOut, h.outLen]
  cases he : prsOpError p.maxOut p.outLen i with
  | some e =>
    rw [prsdOp_of_error he, prsdOp_of_error (herr.trans he)]
    exact .raised _ _ e
  | none =>
    rw [prsdOp_of_no_error hi (fun _ => h.len) he, prsdOp_of_no_error hi (fun hm => absurd hm h.counts) (herr.trans he)]
    exact .ok (h.after hi)

theorem prsdIter_countedBy {p q : Prsd} (h : p.CountedBy q) : (prsdIter p).CountedBy (prsdIter q) := by
  have hend : q.atEnd = p.atEnd := by rw [Prsd.atEnd, Prsd.atEnd, h.rd]
  rw [prsdIter, prsdIter, hend, h.rd]
  split
  · exact .ok (h.setEnd _)
  · cases hd : decodePrs p.rd with
    | error e => exact .raised _ _ _
    | ok x => exact prsdOp_countedBy (h.fetched x.2) (decodePrs_isPrsOp hd).1

theorem PrsdOut.CountedBy.andRun {n : Nat} (hrun : ∀ {p q : Prsd}, p.CountedBy q → (prsdRun n p).CountedBy (prsdRun n q))
    {o o' : PrsdOut} (h : o.CountedBy o') : (o.andRun n).CountedBy (o'.andRun n) := by
  cases h with
  | ok h => exact hrun h
  | raised p q e => exact .raised p q e
  | fault f => exact .fault f

theorem prsdRun_countedBy (n : Nat) {p q : Prsd} (h : p.CountedBy q) : (prsdRun n p).CountedBy (prsdRun n q) := by
  induction n generalizing p q with
  | zero =>
    rw [prsdRun, prsdRun, h.ended]
    split
    · exact .ok h
    · exact .fault _
  | succ n ih =>
    cases hend : p.ended with
    | true =>
      rw [prsdRun_of_ended hend, prsdRun_of_ended (h.ended.trans hend)]
      exact .ok h
    | false =>
      rw [prsdRun_succ hend, prsdRun_succ (h.ended.trans hend)]
      exact (prsdIter_countedBy h).andRun ih

/-! ## The answers (R107) -/

/-- The outcome of a decode that counts, where BYTES mode answers `r`. -/
def PrsdOut.CountsAnswer (r : Response) : PrsdOut → Prop
  | .ok q => ∃ z, r = .ok (.bytes z) ∧ q.outLen = z.length
  | .raised _ e => r = .error e
  | .fault _ => False

/-- BYTES mode answers, and a decode of the same input and bound that counts comes to the same. -/
theorem exec_prsDecompress_counted {s : State} (hidle : s.active = .idle) (bytes : Bytes) {mode : Mode}
    (hm : mode ≠ .bytes) (maxOut sink : Nat) :
    ∃ r, exec (.prsDecompress bytes maxOut) s = .next { s with responses := s.responses ++ [r] } ∧
      (prsdDecode (Prsd.start bytes mode maxOut sink)).CountsAnswer r := by
  have hanswers := prsdDecode_answers bytes (mode := .bytes) (maxOut := maxOut) 0 nofun
  have hcounted : (prsdDecode (Prsd.start bytes .bytes maxOut 0)).CountedBy
      (prsdDecode (Prsd.start bytes mode maxOut sink)) := prsdRun_countedBy _ (start_countedBy bytes hm maxOut sink)
  rw [exec_prsDecompress hidle, prsDecompress]
  generalize prsdDecode (Prsd.start bytes .bytes maxOut 0) = o, prsdDecode (Prsd.start bytes mode maxOut sink) = o'
    at hanswers hcounted
  cases hcounted with
  | @ok p q h =>
    refine ⟨_, prsdDeliver_ok_untraced hidle hanswers.1 (by rw [h.bytes]; nofun), p.out, ?_, h.outLen.trans h.len.symm⟩
    rw [Prsd.returned, h.bytes]
  | raised p q e =>
    obtain ⟨hinv, ⟨-, hmode, -, -⟩, -⟩ := hanswers
    exact ⟨_, prsdDeliver_raised_untraced hidle hinv (by rw [hmode]; nofun) e, rfl⟩
  | fault f => exact hanswers.elim

/-- Settles O21: SIZE mode is a decode that counts, and returns its count. -/
theorem sizeModeAgreesWithBytesMode : Obligations.SizeModeAgreesWithBytesMode := by
  intro s bytes maxOut hidle
  obtain ⟨r, hbytes, hcounts⟩ := exec_prsDecompress_counted hidle bytes (mode := .size) nofun maxOut 0
  have hanswers := prsdDecode_answers bytes (mode := .size) (maxOut := maxOut) 0 nofun
  refine ⟨r, hbytes, ?_⟩
  rw [exec_prsDecompressSize hidle, prsDecompressSize]
  cases ho : prsdDecode (Prsd.start bytes .size maxOut 0) with
  | ok q =>
    rw [ho] at hcounts hanswers
    obtain ⟨z, rfl, hlen⟩ := hcounts
    obtain ⟨hinv, -, hm, -, -⟩ := hanswers
    have hresult : q.returned = .int z.length := by rw [Prsd.returned, hm, ← hlen]; rfl
    rw [prsdDeliver_ok_untraced hidle hinv (by rw [hm]; nofun), hresult]
    exact ⟨rfl, .inl ⟨z, rfl⟩⟩
  | raised q e =>
    rw [ho] at hcounts hanswers
    obtain rfl : r = .error e := hcounts
    obtain ⟨hinv, ⟨-, hm, -, -⟩, -⟩ := hanswers
    exact ⟨prsdDeliver_raised_untraced hidle hinv (by rw [hm]; nofun) e, .inr ⟨e, rfl⟩⟩
  | fault f => rw [ho] at hcounts; exact hcounts.elim

end Sys2Proof.Machine
end

section
/-!
PROOFS. Family 42_prs_decompressor: TRACE mode records the run of the decode (R99, R100, R108, R129).
-/

namespace Sys2Proof.Machine

/-- A TRACE-mode instance that moves through its unbounded decode (R108). -/
structure Prsd.Tracing (q : Prsd) : Prop where
  inv : Prsd.Inv q
  mode : q.mode = .trace
  running : q.fin = .running

theorem Prsd.Tracing.maxOut {q : Prsd} (h : q.Tracing) : q.maxOut = 0 := h.inv.trace_max h.mode

/-- The record of the opcode read from `q`'s position (R108). -/
def Prsd.recordOf (q : Prsd) (i : Instr) : PrsRecord :=
  { inOff := q.rd.pos, bitOff := q.rd.bits, outOff := q.outLen, op := i }

/-- The outcome of a decode from `q` on: the records it adds are those of the run that ends so. -/
def PrsdOut.Records (q : Prsd) : PrsdOut → Prop
  | .ok q' => ∃ recs, q'.trace = q.trace ++ recs ∧ PrsRun q.rd q.outLen recs (.ok q'.outLen)
  | .raised q' e => ∃ recs, q'.trace = q.trace ++ recs ∧ PrsRun q.rd q.outLen recs (.error e)
  | .fault _ => True

/-- What the run does after an opcode that goes on, it does with that opcode's record before it. -/
theorem PrsdOut.Records.cons {q q' : Prsd} {o : PrsdOut} {x : PrsRecord} (htrace : q'.trace = q.trace ++ [x])
    (hrun : ∀ recs out, PrsRun q'.rd q'.outLen recs out → PrsRun q.rd q.outLen (x :: recs) out)
    (h : o.Records q') : o.Records q := by
  have happend (recs : List PrsRecord) : q'.trace ++ recs = q.trace ++ x :: recs := by rw [htrace]; simp
  cases o with
  | ok p =>
    obtain ⟨recs, ht, hr⟩ := h
    exact ⟨x :: recs, ht.trans (happend recs), hrun _ _ hr⟩
  | raised p e =>
    obtain ⟨recs, ht, hr⟩ := h
    exact ⟨x :: recs, ht.trans (happend recs), hrun _ _ hr⟩
  | fault f => trivial

/-- Without a bound only a copy from outside the output fails (R100, R106). -/
theorem prsOpError_unbounded {i : Instr} {n : Nat} {e : EngineError} (hi : isPrsOp i = true)
    (h : prsOpError 0 n i = some e) :
    ∃ off cnt, IsPrsCopy i off cnt ∧ ((n : Int) + off < 0 ∨ (n : Int) ≤ (n : Int) + off) ∧
      e = .malformedBackref n off := by
  obtain ⟨f, rfl⟩ | ⟨v, rfl⟩ | ⟨off, cnt, hcopy⟩ := isPrsOp_cases hi
  · cases h
  · cases h
  · rw [prsOpError_of_isPrsCopy hcopy] at h
    obtain hout | ⟨hneg, hsrc⟩ := copy_outside_or_inside n off
    · rw [copyError_of_outside hout] at h
      cases h
      exact ⟨off, cnt, hcopy, hout, rfl⟩
    · rw [copyError_of_inside hneg hsrc] at h
      cases h

/-- An opcode that does not fail is STOP, a literal, or a copy from inside the output. -/
theorem prsOp_of_no_error {i : Instr} {maxOut n : Nat} (hi : isPrsOp i = true) (h : prsOpError maxOut n i = none) :
    (∃ f, i = .stop f) ∨ (∃ v, i = .lit v) ∨ ∃ off cnt, IsPrsCopy i off cnt ∧ off < 0 ∧ 0 ≤ (n : Int) + off := by
  obtain hstop | hlit | ⟨off, cnt, hcopy⟩ := isPrsOp_cases hi
  · exact .inl hstop
  · exact .inr (.inl hlit)
  · rw [prsOpError_of_isPrsCopy hcopy] at h
    obtain hout | hin := copy_outside_or_inside n off
    · rw [copyError_of_outside hout] at h
      cases h
    · exact .inr (.inr ⟨off, cnt, hcopy, hin⟩)

/-- After a literal or a copy the instance is still in its loop (R105). -/
theorem endAfter_of_gives {i : Instr} {n : Nat}
    (h : (∃ v, i = .lit v) ∨ ∃ off cnt, IsPrsCopy i off cnt ∧ off < 0 ∧ 0 ≤ (n : Int) + off) (fin : PrsdEnd) :
    endAfter fin i = fin := by
  obtain ⟨v, rfl⟩ | ⟨off, cnt, hcopy, -⟩ := h
  · rfl
  · exact endAfter_of_isPrsCopy hcopy fin

/-- The opcode that is read, and the rest of the decode, where every rest records its run (`ih`). -/
theorem prsdOp_records {n : Nat} {q : Prsd} {i : Instr} {r : Reader} (h : q.Tracing)
    (hpos : q.rd.pos ≠ q.rd.input.length) (hd : decodePrs q.rd = .ok (i, r))
    (ih : ∀ {q' : Prsd}, q'.Tracing → (prsdRun n q').Records q') :
    ((prsdOp i (q.fetched r)).andRun n).Records q := by
  have hi := (decodePrs_isPrsOp hd).1
  have hinv := h.inv.fetched (decodePrs_readerInv h.inv.rd hd)
  have htraced : prsTraced (q.fetched r) i = [q.recordOf i] := if_pos h.mode
  have hmax : (q.fetched r).maxOut = 0 := h.maxOut
  cases he : prsOpError (q.fetched r).maxOut q.outLen i with
  | some e =>
    rw [prsdOp_of_error he, Prsd.record_eq, htraced]
    rw [hmax] at he
    obtain ⟨off, cnt, hcopy, hout, rfl⟩ := prsOpError_unbounded hi he
    exact ⟨[q.recordOf i], rfl, .badCopy _ r _ i off cnt hpos hd hcopy hout⟩
  | none =>
    have hop := prsdOp_of_no_error hi hinv.bytes_len he
    have htrace : ((q.fetched r).after i).trace = q.trace ++ [q.recordOf i] := congrArg (q.trace ++ ·) htraced
    rw [hop, PrsdOut.andRun]
    obtain ⟨f, rfl⟩ | hgives := prsOp_of_no_error hi he
    · rw [prsdRun_of_ended rfl]
      exact ⟨_, htrace, .stop _ r _ f hpos hd⟩
    · have hnext : ((q.fetched r).after i).Tracing :=
        ⟨prsdOp_inv hinv hop, h.mode, (endAfter_of_gives hgives q.fin).trans h.running⟩
      exact (ih hnext).cons htrace fun recs out => .op _ r _ i recs out hpos hd hgives

/-- One iteration, and the rest of the decode, where every rest records its run (`ih`). -/
theorem prsdIter_records {n : Nat} {q : Prsd} (h : q.Tracing)
    (ih : ∀ {q' : Prsd}, q'.Tracing → (prsdRun n q').Records q') : ((prsdIter q).andRun n).Records q := by
  have hnil : q.trace = q.trace ++ [] := (List.append_nil _).symm
  rw [prsdIter]
  split
  · next hend =>
    rw [PrsdOut.andRun, prsdRun_of_ended rfl]
    exact ⟨[], hnil, .cleanEnd _ _ (atEnd_eq_true_iff.mp hend)⟩
  · next hend =>
    have hpos := mt atEnd_eq_true_iff.mpr hend
    cases hd : decodePrs q.rd with
    | error e => exact ⟨[], hnil, .truncated _ _ _ hpos hd⟩
    | ok x => exact prsdOp_records h hpos hd ih

theorem prsdRun_records (n : Nat) {q : Prsd} (h : q.Tracing) : (prsdRun n q).Records q := by
  have hend : q.ended = false := by simp [Prsd.ended, h.running]
  induction n generalizing q with
  | zero => rw [prsdRun, if_neg (by simp [hend])]; trivial
  | succ n ih =>
    rw [prsdRun_succ hend]
    exact prsdIter_records h fun h' => ih h' (by simp [Prsd.ended, h'.running])

/-- Settles O22: TRACE mode is a decode that counts, and its records are those of its run. -/
theorem prsDisassemblerReportsTheDecode : Obligations.PrsDisassemblerReportsTheDecode := by
  intro s k bytes hidle
  obtain ⟨r, hbytes, hcounts⟩ := exec_prsDecompress_counted hidle bytes (mode := .trace) nofun 0 k
  have hanswers := prsdDecode_answers bytes (mode := .trace) (maxOut := 0) k (fun _ => rfl)
  have hrecords : (prsdDecode (Prsd.start bytes .trace 0 k)).Records (Prsd.start bytes .trace 0 k) :=
    prsdRun_records _ ⟨start_prsdInv bytes k (fun _ => rfl), rfl, rfl⟩
  rw [exec_prsDisassemble hidle, prsDisassemble]
  cases ho : prsdDecode (Prsd.start bytes .trace 0 k) with
  | ok q =>
    rw [ho] at hcounts hanswers hrecords
    obtain ⟨z, rfl, hlen⟩ := hcounts
    obtain ⟨-, -, hm, -, hsink⟩ := hanswers
    obtain ⟨recs, htrace, hrun⟩ := hrecords
    rw [hlen] at hrun
    refine ⟨_, recs, hbytes, hrun, ?_⟩
    rw [Prsd.start_mode] at hm
    rw [Prsd.start_sink] at hsink
    rw [Prsd.start_trace, List.nil_append] at htrace
    rw [prsdDeliver_ok hidle]
    simp [Prsd.returned, Prsd.finalItems, traceResponse, finalCountOf, hm, hsink, htrace, hlen]
  | raised q e =>
    rw [ho] at hcounts hanswers hrecords
    obtain rfl : r = .error e := hcounts
    obtain ⟨-, ⟨-, -, -, hsink⟩, -⟩ := hanswers
    obtain ⟨recs, htrace, hrun⟩ := hrecords
    refine ⟨_, recs, hbytes, hrun, ?_⟩
    rw [Prsd.start_sink] at hsink
    rw [Prsd.start_trace, List.nil_append] at htrace
    rw [prsdDeliver_raised hidle]
    simp [traceResponse, finalCountOf, hsink, htrace]
  | fault f => rw [ho] at hcounts; exact hcounts.elim

end Sys2Proof.Machine
end

section
/-!
PROOFS. Family 42_prs_decompressor: the bytes after a STOP have no part in the decode (R105, R161).
-/

namespace Sys2Proof.Machine

/-! ## Reading with more input behind (R54, R74, R75) -/

/-- The same reader with `tail` after its input. -/
def readerWithTail (r : Reader) (tail : Bytes) : Reader := { r with input := r.input ++ tail }

section
variable {r r' : Reader}

theorem get_readerWithTail {v : Byte} {k : Nat} (h : r.input[k]? = some v) (tail : Bytes) :
    (readerWithTail r tail).input[k]? = some v := by
  rw [readerWithTail, List.getElem?_append_left (pos_lt_of_get h), h]

theorem getByte_withTail {v : Byte} (h : r.getByte = .ok (v, r')) (tail : Bytes) :
    (readerWithTail r tail).getByte = .ok (v, readerWithTail r' tail) := by
  obtain ⟨hv, rfl⟩ := getByte_ok h
  exact getByte_of_get (get_readerWithTail hv tail)

theorem getBit_withTail {b : Bool} (h : r.getBit = .ok (b, r')) (tail : Bytes) :
    (readerWithTail r tail).getBit = .ok (b, readerWithTail r' tail) := by
  by_cases hleft : r.left = 0
  · cases hc : r.input[r.pos]? with
    | none => rw [getBit_end hleft hc] at h; cases h
    | some c =>
      rw [getBit_fetch hleft hc] at h
      cases h
      exact getBit_fetch (r := readerWithTail r tail) hleft (get_readerWithTail hc tail)
  · rw [getBit_of_left hleft] at h
    cases h
    exact getBit_of_left (r := readerWithTail r tail) hleft

theorem decodeLong_withTail {i : Instr} (h : decodeLong r = .ok (i, r')) (tail : Bytes) :
    decodeLong (readerWithTail r tail) = .ok (i, readerWithTail r' tail) := by
  obtain ⟨b0, r1, b1, r2, h1, h2, hi⟩ := decodeLong_ok h
  rw [decodeLong_of_field (getByte_withTail h1 tail) (getByte_withTail h2 tail)]
  obtain ⟨ho, rfl, rfl⟩ | ⟨ho, hl, rfl, rfl⟩ | ⟨ho, hl, n, h3, rfl⟩ := hi
  · rw [if_pos ho]
  · rw [if_neg ho, if_pos hl]
  · rw [if_neg ho, if_neg (not_not_intro hl), getByte_withTail h3 tail]
    rfl

theorem decodePrs_withTail {i : Instr} (h : decodePrs r = .ok (i, r')) (tail : Bytes) :
    decodePrs (readerWithTail r tail) = .ok (i, readerWithTail r' tail) := by
  obtain ⟨r1, v, h1, h2, rfl⟩ | ⟨r1, r2, h1, h2, h3⟩ | ⟨r1, r2, h1, h2, h3⟩ := decodePrs_ok h
  · exact decodePrs_of_lit (getBit_withTail h1 tail) (getByte_withTail h2 tail)
  · rw [decodePrs_of_long (getBit_withTail h1 tail) (getBit_withTail h2 tail)]
    exact decodeLong_withTail h3 tail
  · rw [decodePrs_of_short (getBit_withTail h1 tail) (getBit_withTail h2 tail)]
    obtain ⟨hb, r3, lb, r4, o, h4, h5, h6, rfl⟩ := decodeShort_ok h3
    exact decodeShort_of_fields (getBit_withTail h4 tail) (getBit_withTail h5 tail) (getByte_withTail h6 tail)

end

/-! ## A decode with more input behind -/

/-- The same instance with `tail` after its input. -/
def Prsd.withTail (p : Prsd) (tail : Bytes) : Prsd := { p with rd := readerWithTail p.rd tail }

/-- An opcode once it is read does not look at the input. -/
theorem prsdOp_withTail {p p' : Prsd} {i : Instr} (hinv : Prsd.Inv p) (hi : isPrsOp i = true)
    (h : prsdOp i p = .ok p') (tail : Bytes) : prsdOp i (p.withTail tail) = .ok (p'.withTail tail) := by
  cases he : prsOpError p.maxOut p.outLen i with
  | some e => rw [prsdOp_of_error he] at h; cases h
  | none =>
    rw [prsdOp_of_no_error hi hinv.bytes_len he] at h
    cases h
    exact prsdOp_of_no_error (p := p.withTail tail) hi hinv.bytes_len he

/-- An iteration that goes on: the clean end, or an opcode. -/
theorem prsdIter_ok {p p' : Prsd} (h : prsdIter p = .ok p') :
    p' = p.setEnd .cleanEnd ∨ ∃ i r, decodePrs p.rd = .ok (i, r) ∧ prsdOp i (p.fetched r) = .ok p' := by
  rw [prsdIter] at h
  split at h
  · cases h
    exact .inl rfl
  · cases hd : decodePrs p.rd with
    | error e => rw [hd] at h; cases h
    | ok x => rw [hd] at h; exact .inr ⟨x.1, x.2, rfl, h⟩

theorem prsdRun_withTail_of_ended {n : Nat} {p p' : Prsd} (hend : p.ended = true) (h : prsdRun n p = .ok p')
    (tail : Bytes) (m : Nat) : prsdRun m (p.withTail tail) = .ok (p'.withTail tail) := by
  rw [prsdRun_of_ended hend] at h
  obtain rfl : p = p' := PrsdOut.ok.inj h
  exact prsdRun_of_ended (p := p.withTail tail) hend m

/-- A decode that ends by STOP ends so with more input behind, whatever iterations are left over (R161). -/
theorem prsdRun_withTail {n : Nat} {p p' : Prsd} (hinv : Prsd.Inv p) (h : prsdRun n p = .ok p') (hstop : p'.fin = .stop)
    (tail : Bytes) (k : Nat) : prsdRun (n + k) (p.withTail tail) = .ok (p'.withTail tail) := by
  induction n generalizing p with
  | zero =>
    cases hend : p.ended with
    | true => exact prsdRun_withTail_of_ended hend h tail _
    | false => rw [prsdRun, if_neg (by simp [hend])] at h; cases h
  | succ n ih =>
    cases hend : p.ended with
    | true => exact prsdRun_withTail_of_ended hend h tail _
    | false =>
      rw [prsdRun_succ hend] at h
      cases hiter : prsdIter p with
      | ok p1 =>
        rw [hiter] at h
        obtain rfl | ⟨i, r, hd, hop⟩ := prsdIter_ok hiter
        · rw [PrsdOut.andRun, prsdRun_of_ended rfl] at h
          cases h
          cases hstop
        · have hinv' := hinv.fetched (decodePrs_readerInv hinv.rd hd)
          have hd' : decodePrs (p.withTail tail).rd = .ok (i, readerWithTail r tail) := decodePrs_withTail hd tail
          have hop' : prsdIter (p.withTail tail) = .ok (p1.withTail tail) :=
            (prsdIter_of_decodes hd').trans (prsdOp_withTail hinv' (decodePrs_isPrsOp hd).1 hop tail)
          rw [Nat.add_right_comm, prsdRun_succ (p := p.withTail tail) hend, hop']
          exact ih (prsdOp_inv hinv' hop) h
      | raised p1 e => rw [hiter] at h; cases h
      | fault f => rw [hiter] at h; cases h

/-- Settles O26: the decode comes to the same instance but for the input behind, which the result does not look at. -/
theorem bytesAfterStopAreIgnored : Obligations.BytesAfterStopAreIgnored := by
  intro s bytes tail maxOut p hidle hdecode hstop
  have htail : prsDecompress (bytes ++ tail) maxOut = .ok (p.withTail tail) := by
    have h := prsdRun_withTail (start_prsdInv bytes (mode := .bytes) 0 nofun) hdecode hstop tail tail.length
    rw [prsDecompress, prsdDecode, Prsd.start_rd, Reader.start_input, List.length_append, Nat.add_right_comm]
    exact h
  rw [exec_prsDecompress hidle, exec_prsDecompress hidle, htail, hdecode]
  rfl

end Sys2Proof.Machine
end

section
/-!
PROOFS. Family 43_bc0_compressor: the opcodes of an input, and the stream they make (R77, R111 to R116, R126, R132).
-/

namespace Sys2Proof.Machine

/-! ## The opcodes of an input (R111, R112) -/

/-- The opcode of the iteration at position `i`, whose index holds the 4096 positions before it (R25). -/
def bc0OpAt (data : Bytes) (i : Nat) : Instr :=
  match bc0Search data i (List.range' (i - 4096) (min i 4096)) with
  | some (q, len) => if 3 ≤ len then pseudoBrefq q len else .blit (data.getD i 0#8)
  | none => .blit (data.getD i 0#8)

/-- The opcodes of R111's loop from position `i`, in at most `n` iterations. -/
def bc0OpsFrom (data : Bytes) : Nat → Nat → List Instr
  | 0, _ => []
  | n + 1, i =>
    if i < data.length then bc0OpAt data i :: bc0OpsFrom data n (i + outBytes (bc0OpAt data i)) else []

/-- What an opcode stands for at position `i` of `data`: a literal for the byte there, a reference for bytes that stand at a
position `q` of the window before it (R112, R113). -/
def Bc0Yields (data : Bytes) (i : Nat) (op : Instr) : Prop :=
  (∃ v, op = .blit v ∧ data[i]? = some v) ∨
    ∃ q len, op = pseudoBrefq q len ∧ 3 ≤ len ∧ len ≤ 18 ∧ q < i ∧ i ≤ q + 4096 ∧ i + len ≤ data.length ∧
      ∀ j, j < len → data[q + j]? = data[i + j]?

/-- A search result is a position of the index whose bytes agree with those ahead (R112, R113). -/
theorem bc0Search_match {d : Bytes} {i q len : Nat} {x : List Nat} (h : bc0Search d i x = some (q, len)) :
    q ∈ x ∧ ∀ j, j < len → d[q + j]? = d[i + j]? := by
  obtain ⟨-, hpred, hsucc, hboth⟩ := bc0SearchTriesBothNeighbours d i x
  rw [h] at hboth
  obtain ⟨rfl, -, hq⟩ := hboth
  refine ⟨?_, fun j hj => matchLen_agree _ hj⟩
  rcases hq with ⟨hq, -⟩ | ⟨hq, -⟩
  · rw [hq] at hpred
    exact hpred.1
  · rw [hq] at hsucc
    exact hsucc.1

theorem bc0OpAt_of_ref {data : Bytes} {i q len : Nat}
    (h : bc0Search data i (List.range' (i - 4096) (min i 4096)) = some (q, len)) (hlen : 3 ≤ len) :
    bc0OpAt data i = pseudoBrefq q len := by
  simp [bc0OpAt, h, hlen]

theorem bc0OpAt_of_lit {data : Bytes} {i : Nat} {v : Byte} (hv : data[i]? = some v)
    (h : ∀ q len, bc0Search data i (List.range' (i - 4096) (min i 4096)) = some (q, len) → len < 3) :
    bc0OpAt data i = .blit v := by
  have hget : data.getD i 0#8 = v := by simp [hv]
  rw [bc0OpAt]
  split
  · next q len hs => rw [if_neg (Nat.not_le.mpr (h q len hs)), hget]
  · rw [hget]

/-- The opcode at a position inside the input stands for the bytes there. -/
theorem bc0OpAt_yields {data : Bytes} {i : Nat} (h : i < data.length) : Bc0Yields data i (bc0OpAt data i) := by
  have hv := List.getElem?_eq_getElem h
  by_cases hlit : ∀ q len, bc0Search data i (List.range' (i - 4096) (min i 4096)) = some (q, len) → len < 3
  · exact .inl ⟨_, bc0OpAt_of_lit hv hlit, hv⟩
  · push Not at hlit
    obtain ⟨q, len, hs, hlen⟩ := hlit
    obtain ⟨hq, hagree⟩ := bc0Search_match hs
    have hwindow := List.mem_range'_1.mp hq
    have hin := bc0Search_len_le hs
    exact .inr ⟨q, len, bc0OpAt_of_ref hs hlen, hlen, bc0Search_len_le_bc0F hs, by omega, by omega, by omega, hagree⟩

/-- The opcodes stand for the bytes of `data` from `i` to its end, one after the other. -/
def Bc0YieldsRest (data : Bytes) : Nat → List Instr → Prop
  | i, [] => i = data.length
  | i, op :: ops => Bc0Yields data i op ∧ Bc0YieldsRest data (i + outBytes op) ops

/-- An opcode covers at least one byte, and stays inside the input. -/
theorem Bc0Yields.covers {data : Bytes} {i : Nat} {op : Instr} (h : Bc0Yields data i op) :
    0 < outBytes op ∧ i + outBytes op ≤ data.length := by
  obtain ⟨v, rfl, hv⟩ | ⟨q, len, rfl, hlen, -, -, -, hin, -⟩ := h
  · exact ⟨Nat.one_pos, pos_lt_of_get hv⟩
  · exact ⟨Nat.lt_of_lt_of_le (by decide) hlen, hin⟩

/-- It is a well-formed BC0 opcode with a word. -/
theorem Bc0Yields.encodes {data : Bytes} {i : Nat} {op : Instr} (h : Bc0Yields data i op) :
    isBc0Op op = true ∧ wellFormed op = true ∧ ∃ c, encode op = some c := by
  obtain ⟨v, rfl, -⟩ | ⟨q, len, rfl, hlen, hlen', -⟩ := h
  · exact ⟨rfl, rfl, _, rfl⟩
  · exact ⟨rfl, decide_eq_true ⟨hlen, hlen'⟩, _, rfl⟩

/-- With iterations enough, the loop's opcodes stand for all the input that is left (R162). -/
theorem bc0OpsFrom_yieldsRest {data : Bytes} {n i : Nat} (hi : i ≤ data.length) (hn : data.length - i ≤ n) :
    Bc0YieldsRest data i (bc0OpsFrom data n i) := by
  induction n generalizing i with
  | zero => exact Nat.le_antisymm hi (by omega)
  | succ n ih =>
    rw [bc0OpsFrom]
    split
    · next hlt =>
      have hyields := bc0OpAt_yields hlt
      obtain ⟨hpos, hle⟩ := hyields.covers
      exact ⟨hyields, ih hle (by omega)⟩
    · next hge => exact Nat.le_antisymm hi (by omega)

/-! ## One iteration (R111) -/

/-- Inside the input, an iteration emits the word of the opcode there, and makes an index step for each byte it covers. -/
theorem bc0cIter_eq_emit_opAt {c : Bc0c} (hinv : Bc0c.Inv c) (h : c.i < c.d.length) :
    ∃ bit data, encode (bc0OpAt c.d c.i) = some ⟨[bit], data⟩ ∧
      bc0cIter c = (c.emit bit data).indexSteps (outBytes (bc0OpAt c.d c.i)) := by
  have hv := List.getElem?_eq_getElem h
  obtain ⟨i, code, n, bit, hop, -, hcode, hbits, hiter⟩ := bc0cIter_eq_emit hv
  have hat : bc0OpAt c.d c.i = i ∧ outBytes i = n := by
    rw [hinv.x_eq] at hop
    obtain ⟨q, len, hs, hlen, rfl, rfl, -⟩ | ⟨hs, rfl, rfl, -⟩ := hop
    · exact ⟨bc0OpAt_of_ref hs hlen, rfl⟩
    · exact ⟨bc0OpAt_of_lit hv hs, rfl⟩
  obtain ⟨rfl, rfl⟩ := hat
  exact ⟨bit, code.data, by rw [hcode, ← hbits], hiter⟩

section
variable {c : Bc0c}

theorem bc0cRun_of_lt (hinv : Bc0c.Inv c) (h : c.i < c.d.length) (n : Nat) :
    bc0cRun (n + 1) c = bc0cRun n (bc0cIter c) := by
  rw [bc0cRun, if_pos (by simp [Bc0c.more, hinv.n_eq, h])]

theorem bc0cRun_of_not_lt (hinv : Bc0c.Inv c) (h : ¬c.i < c.d.length) (n : Nat) : bc0cRun n c = c :=
  bc0cRun_of_not_more (by simp [Bc0c.more, hinv.n_eq, h]) n

end

/-- With iterations enough, the loop brings the position to the end of the input (R162). -/
theorem bc0cRun_i {n : Nat} {c : Bc0c} (hinv : Bc0c.Inv c) (hn : c.d.length - c.i ≤ n) :
    (bc0cRun n c).i = c.d.length := by
  have hle := hinv.n_eq ▸ hinv.i_le
  induction n generalizing c with
  | zero => exact Nat.le_antisymm hle (Nat.le_of_sub_eq_zero (Nat.le_zero.mp hn))
  | succ n ih =>
    by_cases hlt : c.i < c.d.length
    · obtain ⟨hd, -, -, -, hmoved⟩ := bc0cIter_frame c
      have hinv' := hinv.iter
      have := hmoved hlt
      rw [bc0cRun_of_lt hinv hlt, ← hd]
      exact ih hinv' (by rw [hd]; omega) (hinv'.n_eq ▸ hinv'.i_le)
    · rw [bc0cRun_of_not_lt hinv hlt]
      omega

/-! ## The writer against the canonical layout (R73, R77) -/

/-- The tokens of some opcodes' words. -/
def bc0Tokens (ops : List Instr) : List Token := (ops.filterMap encode).flatMap codeTokens

theorem bc0Tokens_cons {op : Instr} {c : Code} (h : encode op = some c) (ops : List Instr) :
    bc0Tokens (op :: ops) = codeTokens c ++ bc0Tokens ops := by
  simp [bc0Tokens, h]

theorem canonical_bytes (n : Nat) (data : Bytes) (ts : List Token) :
    canonical n (data.map .byte ++ ts) = data ++ canonical n ts := by
  induction data with
  | nil => rfl
  | cons v data ih => rw [List.map_cons, List.cons_append, canonical, ih, List.cons_append]

theorem tokenBits_bytes (data : Bytes) (ts : List Token) : tokenBits (data.map .byte ++ ts) = tokenBits ts := by
  induction data with
  | nil => rfl
  | cons v data ih => rw [List.map_cons, List.cons_append, tokenBits, ih]

/-- The layout of a word with one control bit, `n` bits into the stream. -/
theorem canonical_word (n : Nat) (bit : Bool) (data : Bytes) (ts : List Token) :
    canonical n (codeTokens ⟨[bit], data⟩ ++ ts) =
      if n % 8 = 0 then controlByte ((bit :: tokenBits ts).take 8) :: (data ++ canonical (n + 1) ts)
      else data ++ canonical (n + 1) ts := by
  simp only [codeTokens, List.map_cons, List.map_nil, List.cons_append, List.nil_append, canonical, canonical_bytes,
    tokenBits_bytes]

theorem tokenBits_word (bit : Bool) (data : Bytes) (ts : List Token) :
    tokenBits (codeTokens ⟨[bit], data⟩ ++ ts) = bit :: tokenBits ts := by
  simp only [codeTokens, List.map_cons, List.map_nil, List.cons_append, List.nil_append, tokenBits, tokenBits_bytes]

/-- The instance inside a group: `pre` is the output before the group's control byte, `suf` after it, and the group has the
bits `bs` so far, up to all 8 (R77). -/
structure Bc0c.InGroup (c : Bc0c) (pre : Bytes) (bs : List Bool) (suf : Bytes) : Prop where
  out : c.out = pre ++ controlByte bs :: suf
  gctl : c.gctl = some pre.length
  gbits : c.gbits = bs.length
  pos : 0 < bs.length
  le : bs.length ≤ 8

section
variable {c : Bc0c} {pre suf : Bytes} {bs : List Bool}

/-- With its group full, or with none open yet, an opcode opens the next group (R77). -/
theorem emit_inGroup_of_full (h : c.gbits = 8) (bit : Bool) (data : Bytes) :
    (c.emit bit data).InGroup c.out [bit] data := by
  rw [emit_of_full h]
  refine ⟨?_, rfl, rfl, Nat.one_pos, by simp⟩
  cases bit <;> rfl

/-- Into a group with room, an opcode's bit goes above the others. -/
theorem Bc0c.InGroup.emit_of_lt (h : c.InGroup pre bs suf) (hlt : bs.length < 8) (bit : Bool) (data : Bytes) :
    (c.emit bit data).InGroup pre (bs ++ [bit]) (suf ++ data) := by
  have hroom : c.gbits < 8 := h.gbits ▸ hlt
  refine ⟨?_, ?_, ?_, by simp, by simpa using hlt⟩
  · rw [emit_out_of_lt hroom h.gctl, h.out, h.gbits, List.modify_eq_set_getElem?]
    simp [controlByte_concat hlt]
  · rw [Bc0c.emit, openGroup_of_lt hroom]
    exact h.gctl
  · rw [Bc0c.emit, openGroup_of_lt hroom, List.length_append]
    exact congrArg (· + 1) h.gbits

/-- With no opcode to come, the group is as it stands. -/
theorem Bc0c.InGroup.out_eq_done (h : c.InGroup pre bs suf) :
    c.out = pre ++ controlByte ((bs ++ tokenBits (bc0Tokens [])).take 8) ::
      (suf ++ canonical bs.length (bc0Tokens [])) := by
  simp [bc0Tokens, tokenBits, canonical, h.out, List.take_of_length_le h.le]

/-- Index steps write nothing (R114). -/
theorem Bc0c.InGroup.indexSteps (h : c.InGroup pre bs suf) (n : Nat) : (c.indexSteps n).InGroup pre bs suf := by
  obtain ⟨-, -, -, hout, hgctl, hgbits, -⟩ := indexSteps_frame n c
  exact ⟨hout ▸ h.out, hgctl ▸ h.gctl, hgbits ▸ h.gbits, h.pos, h.le⟩

end

/-- Everything an iteration inside the input does: it writes the word of the opcode there, into the next group or the open
one, and goes on behind the bytes covered (R77, R111). -/
theorem bc0cIter_writes_opAt {c : Bc0c} (hinv : Bc0c.Inv c) (h : c.i < c.d.length) :
    ∃ bit data, encode (bc0OpAt c.d c.i) = some ⟨[bit], data⟩ ∧
      (bc0cIter c).d = c.d ∧ (bc0cIter c).i = c.i + outBytes (bc0OpAt c.d c.i) ∧
      (c.gbits = 8 → (bc0cIter c).InGroup c.out [bit] data) ∧
      ∀ {pre bs suf}, c.InGroup pre bs suf → bs.length < 8 →
        (bc0cIter c).InGroup pre (bs ++ [bit]) (suf ++ data) := by
  obtain ⟨bit, data, hcode, hiter⟩ := bc0cIter_eq_emit_opAt hinv h
  obtain ⟨hd, -, hi, -⟩ := indexSteps_frame (outBytes (bc0OpAt c.d c.i)) (c.emit bit data)
  rw [Bc0c.emit_d] at hd
  rw [Bc0c.emit_i] at hi
  rw [hiter]
  exact ⟨bit, data, hcode, hd, hi, fun hfull => (emit_inGroup_of_full hfull bit data).indexSteps _,
    fun hgroup hroom => (hgroup.emit_of_lt hroom bit data).indexSteps _⟩

/-- From inside a group, the loop completes the group and goes on with the canonical layout (R73, R77). -/
theorem Bc0c.InGroup.run_out {c : Bc0c} {pre suf : Bytes} {bs : List Bool} (hinv : Bc0c.Inv c)
    (h : c.InGroup pre bs suf) (n : Nat) :
    (bc0cRun n c).out = pre ++ controlByte ((bs ++ tokenBits (bc0Tokens (bc0OpsFrom c.d n c.i))).take 8) ::
      (suf ++ canonical bs.length (bc0Tokens (bc0OpsFrom c.d n c.i))) := by
  induction n generalizing c pre suf bs with
  | zero => exact h.out_eq_done
  | succ n ih =>
    by_cases hlt : c.i < c.d.length
    · obtain ⟨bit, data, hcode, hd, hi, hopens, hgoes⟩ := bc0cIter_writes_opAt hinv hlt
      rw [bc0cRun_of_lt hinv hlt, bc0OpsFrom, if_pos hlt, bc0Tokens_cons hcode, tokenBits_word, canonical_word]
      rcases Nat.lt_or_eq_of_le h.le with hroom | hfull
      · have hpos := h.pos
        rw [ih hinv.iter (hgoes h hroom), hd, hi, if_neg (by omega)]
        simp
      · have hnext : ∀ ts, canonical (8 + 1) ts = canonical 1 ts := canonical_add_eight 1
        rw [ih hinv.iter (hopens (h.gbits.trans hfull)), hd, hi, hfull, if_pos rfl, hnext, h.out,
          List.take_left' hfull]
        simp
    · rw [bc0cRun_of_not_lt hinv hlt, bc0OpsFrom, if_neg hlt]
      exact h.out_eq_done

/-! ## The stream and the notifications of a whole run (R111, R114, R126) -/

/-- The opcodes of a whole stream. -/
def bc0StreamOps (bytes : Bytes) : List Instr := bc0OpsFrom bytes bytes.length 0

/-- The stream of an input: the canonical layout of its opcodes' words. -/
def bc0Stream (bytes : Bytes) : Bytes := canonical 0 (bc0Tokens (bc0StreamOps bytes))

/-- `bc0_compress` returns the stream of its opcodes, whatever its callback (R132). -/
theorem bc0Compress_out (bytes : Bytes) (progress : Progress) : (bc0Compress bytes progress).out = bc0Stream bytes := by
  have hinv := start_bc0cInv bytes progress
  rw [bc0Compress, bc0Stream, bc0StreamOps]
  cases hlen : bytes.length with
  | zero => rfl
  | succ n =>
    have hlt : 0 < bytes.length := by omega
    obtain ⟨bit, data, hcode, hd, hi, hopens, -⟩ := bc0cIter_writes_opAt hinv hlt
    rw [Bc0c.start_d, Bc0c.start_i] at hcode hi
    rw [bc0cRun_of_lt hinv hlt, (hopens rfl).run_out hinv.iter, hd, hi, bc0OpsFrom, if_pos hlt, bc0Tokens_cons hcode,
      canonical_word]
    rfl

theorem bc0Compress_i (bytes : Bytes) (progress : Progress) : (bc0Compress bytes progress).i = bytes.length :=
  bc0cRun_i (start_bc0cInv bytes progress) (Nat.sub_le _ _)

/-- `bc0_compress` on an idle thread with a callback that returns (R126, R132). -/
theorem exec_bc0Compress_passive {s : State} (hidle : s.active = .idle) (bytes : Bytes) {pr : Progress}
    (hpr : callbackPassive pr = true) :
    exec (.bc0Compress bytes pr) s = .next { s with
      responses := s.responses ++ [.ok (.bytes (bc0Stream bytes))]
      notes := s.notes ++ progressNotes pr .bc0c bytes.length } := by
  rw [exec, execBc0Compress, whenIdle_of_idle s _ hidle, unlessActing_passive hpr]
  simp only [bc0cNotify, Bc0c.start_progress, Bc0c.start_i, bc0Compress_i, bc0Compress_out, notify_returns hpr,
    andThen_next, notifyPoints_zero, progressNotes, List.map_map]
  rfl

/-- Without a callback there is no notification. -/
theorem exec_bc0Compress_absent {s : State} (hidle : s.active = .idle) (bytes : Bytes) :
    exec (.bc0Compress bytes .absent) s = .next { s with
      responses := s.responses ++ [.ok (.bytes (bc0Stream bytes))] } := by
  rw [exec_bc0Compress_passive hidle bytes rfl, progressNotes, if_pos rfl, List.append_nil]

/-- Settles O28: the one byte sequence is the stream of the input's opcodes, in which the callback has no part; the empty
input has no opcode. -/
theorem bc0CompressCompletes : Obligations.Bc0CompressCompletes :=
  fun _ bytes hidle =>
    ⟨bc0Stream bytes, fun hnil => congrArg bc0Stream hnil, fun _ hpr => exec_bc0Compress_passive hidle bytes hpr⟩

end Sys2Proof.Machine
end

section
/-!
PROOFS. Family 43_bc0_compressor: the BC0 decoder on the compressor's stream, and the round trip (R117, R119 to R121).
-/

namespace Sys2Proof.Machine

/-! ## Decoding an opcode's word wherever it stands (R59) -/

section
variable {r : Reader} {ts : List Token}

/-- `decodeBc0` reads `i` and stands before `ts` then. -/
def ReaderDecodesBc0 (r : Reader) (i : Instr) (ts : List Token) : Prop :=
  ∃ r', decodeBc0 r = .op i r' ∧ r'.input = r.input ∧ ReaderBefore r' ts

theorem ReaderBefore.decodes_blit {v : Byte} (h : ReaderBefore r (codeTokens (blitCode v) ++ ts)) :
    ReaderDecodesBc0 r (.blit v) ts := by
  obtain ⟨r1, h1, hi1, hb1⟩ := ReaderBefore.getBit h
  obtain ⟨r2, h2, hi2, hb2⟩ := hb1.getByte
  obtain ⟨hv, rfl⟩ := getByte_ok h2
  exact ⟨_, decodeBc0_of_blit h1 hv, hi1, hb2⟩

theorem ReaderBefore.decodes_bref {m : BitVec 12} {cnt : Nat} (hcnt : 3 ≤ cnt ∧ cnt ≤ 18)
    (h : ReaderBefore r (codeTokens (brefCode m cnt) ++ ts)) : ReaderDecodesBc0 r (.bref m cnt) ts := by
  obtain ⟨r1, h1, hi1, hb1⟩ := ReaderBefore.getBit h
  obtain ⟨r2, h2, hi2, hb2⟩ := hb1.getByte
  obtain ⟨r3, h3, hi3, hb3⟩ := hb2.getByte
  obtain ⟨hv0, rfl⟩ := getByte_ok h2
  obtain ⟨hv1, rfl⟩ := getByte_ok h3
  have hdec := decodeBc0_of_bref h1 hv0 hv1
  rw [memoOffset_brefCode m (by omega), refCount_brefCode m hcnt.1 hcnt.2] at hdec
  exact ⟨_, hdec, hi1, hb3⟩

/-- Every well-formed BC0 opcode is decoded from its word, at any place of a stream (R59, R60, R73). -/
theorem ReaderBefore.decodesBc0 {i : Instr} {c : Code} (hi : isBc0Op i = true) (hw : wellFormed i = true)
    (hc : encode i = some c) (h : ReaderBefore r (codeTokens c ++ ts)) : ReaderDecodesBc0 r i ts := by
  cases i with
  | blit v => cases hc; exact h.decodes_blit
  | bref m cnt => cases hc; exact h.decodes_bref (of_decide_eq_true hw)
  | _ => cases hi

/-- Before nothing, there is no data byte for a control bit that may be left: the loop ends (R119). -/
theorem ReaderBefore.decodeBc0_ended (h : ReaderBefore r []) : ∃ r', decodeBc0 r = .ended r' := by
  cases hd : decodeBc0 r with
  | ended r' => exact ⟨r', rfl⟩
  | op i r' =>
    obtain ⟨-, -, hle, hlt⟩ := decodeBc0_isBc0Op hd
    have := h.pos_ge
    omega

end

/-! ## The memo as a window on the output (R27, R60) -/

/-- The memo slot of an output position of the last 4096 mirrors the byte there (R27). -/
theorem mirrorByte_of_recent {out : Bytes} {q : Nat} {v : Byte} (hv : out[q]? = some v) (hq : out.length ≤ q + 4096) :
    mirrorByte out ((q + 0xFEE) % 4096) = v := by
  induction out using List.reverseRecOn with
  | nil => cases hv
  | append_singleton out c ih =>
    have hlt := pos_lt_of_get hv
    rw [List.length_append, List.length_singleton] at hq hlt
    rw [mirrorByte_append]
    by_cases hlast : q = out.length
    · rw [hlast, List.getElem?_concat_length] at hv
      rw [hlast, Nat.add_comm, if_pos rfl]
      exact Option.some_inj.mp hv
    · rw [if_neg (by omega)]
      exact ih (by rwa [List.getElem?_append_left (by omega)] at hv) (by omega)

theorem memoOf_succ (q : Nat) : memoOf q + 1#12 = memoOf (q + 1) := by
  apply BitVec.eq_of_toNat_eq
  rw [BitVec.toNat_add, memoOf_toNat, memoOf_toNat, BitVec.toNat_ofNat]
  omega

/-! ## The decode of a stream (R119) -/

/-- A decode in BYTES mode, in its loop, that has given the first `b` bytes of `data`. -/
structure Bc0d.HasGiven (d : Bc0d) (data : Bytes) (b : Nat) : Prop where
  running : d.done = false
  mode : d.mode = .bytes
  inv : Bc0d.Inv d
  mirror : Bc0d.Mirror d
  out : d.out = data.take b

section
variable {d : Bc0d} {data : Bytes} {b : Nat}

theorem start_bc0dHasGiven (input data : Bytes) : (Bc0d.start input .bytes 0).HasGiven data 0 :=
  ⟨rfl, rfl, start_bc0dInv input _ _, start_mirror input _ _, rfl⟩

theorem Bc0d.HasGiven.not_trace (h : d.HasGiven data b) : d.mode ≠ .trace := by simp [h.mode]

theorem Bc0d.HasGiven.fetched (h : d.HasGiven data b) {r : Reader} (hr : ReaderInv r) :
    (d.fetched r).HasGiven data b :=
  ⟨h.running, h.mode, h.inv.fetched hr, h.mirror, h.out⟩

/-- The next byte of `data`, put into the output (R120). -/
theorem Bc0d.HasGiven.put (h : d.HasGiven data b) {v : Byte} (hv : data[b]? = some v) :
    (d.put v).HasGiven data (b + 1) := by
  refine ⟨by simpa using h.running, by simpa using h.mode, h.inv.put v, h.mirror.put h.inv v, ?_⟩
  rw [Bc0d.put_out d v h.not_trace, h.out, List.take_add_one, hv]
  rfl

/-- The memo holds the byte of `data` at any of the last 4096 positions given (R27, R60). -/
theorem Bc0d.HasGiven.memoRead_window (h : d.HasGiven data b) {q : Nat} {v : Byte} (hv : data[q]? = some v) (hq : q < b)
    (hrecent : b ≤ q + 4096) : memoRead d.memo (memoOf q) = v := by
  rw [memoRead, h.mirror h.not_trace _ (memoOf q).isLt, memoOf_toNat, h.out]
  exact mirrorByte_of_recent (by rwa [List.getElem?_take_of_lt hq]) ((List.length_take_le _ _).trans hrecent)

/-- A copy from a position of the window whose bytes agree with those ahead gives those ahead, byte by byte (R45, R121). -/
theorem Bc0d.HasGiven.copy (h : d.HasGiven data b) {q n : Nat} (hq : q < b) (hrecent : b ≤ q + 4096)
    (hin : b + n ≤ data.length) (hagree : ∀ j, j < n → data[q + j]? = data[b + j]?) :
    (bc0dCopy n (memoOf q) d).HasGiven data (b + n) := by
  induction n generalizing d b q with
  | zero => exact h
  | succ n ih =>
    have hnext := List.getElem?_eq_getElem (l := data) (i := b) (by omega)
    have hread : memoRead d.memo (memoOf q) = _ :=
      h.memoRead_window ((hagree 0 n.succ_pos).trans hnext) hq hrecent
    rw [bc0dCopy, memoOf_succ, hread, Nat.add_comm n 1, ← Nat.add_assoc]
    refine ih (h.put hnext) (by omega) (by omega) (by omega) fun j hj => ?_
    have := hagree (1 + j) (by omega)
    rwa [← Nat.add_assoc, ← Nat.add_assoc] at this

/-- One opcode of the stream, once it is read (R120, R121). -/
theorem bc0dOp_of_yields (h : d.HasGiven data b) {i : Instr} (hi : Bc0Yields data b i) :
    ∃ d', bc0dOp i d = some d' ∧ d'.HasGiven data (b + outBytes i) := by
  obtain ⟨v, rfl, hv⟩ | ⟨q, len, rfl, -, -, hq, hrecent, hin, hagree⟩ := hi
  · refine ⟨_, rfl, ?_⟩
    rw [bc0dLit, d.record_of_not_trace _ h.not_trace]
    exact h.put hv
  · refine ⟨_, rfl, ?_⟩
    rw [bc0dRef, d.record_of_not_trace _ h.not_trace]
    exact h.copy hq hrecent hin hagree

theorem bc0dRun_succ_of_running (hrun : d.done = false) (n : Nat) :
    bc0dRun (n + 1) d = (bc0dIter d).bind (bc0dRun n) := by
  rw [bc0dRun, if_neg (by simp [hrun])]

theorem bc0dIter_of_decodes {i : Instr} {r : Reader} (h : decodeBc0 d.rd = .op i r) :
    bc0dIter d = bc0dOp i (d.fetched r) := by
  rw [bc0dIter, h]

theorem bc0dIter_of_ended {r : Reader} (h : decodeBc0 d.rd = .ended r) : bc0dIter d = some (d.leave r) := by
  rw [bc0dIter, h]

theorem bc0dRun_of_done (h : d.done = true) (n : Nat) : bc0dRun n d = some d := by
  cases n <;> rw [bc0dRun, if_pos h]

end

/-- The decode of a stream's opcodes leaves its loop at the end of the input, and has given the bytes they stand for. -/
theorem bc0dRun_stream {data : Bytes} {ops : List Instr} {n b : Nat} {d : Bc0d} (h : d.HasGiven data b)
    (hops : Bc0YieldsRest data b ops) (hrd : ReaderBefore d.rd (bc0Tokens ops))
    (hn : d.rd.input.length < d.rd.pos + n) :
    ∃ q r, bc0dRun n d = some (Bc0d.leave q r) ∧ q.HasGiven data data.length := by
  induction ops generalizing n b d with
  | nil =>
    obtain ⟨r, hd⟩ := hrd.decodeBc0_ended
    obtain rfl : b = data.length := hops
    have hpos := h.inv.rd.pos_le
    obtain ⟨n, rfl⟩ := Nat.exists_eq_add_one.mpr (show 0 < n by omega)
    refine ⟨d, r, ?_, h⟩
    rw [bc0dRun_succ_of_running h.running, bc0dIter_of_ended hd]
    exact bc0dRun_of_done rfl n
  | cons i ops ih =>
    obtain ⟨hi, hrest⟩ := hops
    obtain ⟨hop, hwf, c, hcode⟩ := hi.encodes
    rw [bc0Tokens_cons hcode] at hrd
    obtain ⟨r, hd, hinput, hrd'⟩ := hrd.decodesBc0 hop hwf hcode
    obtain ⟨-, -, hle, hlt⟩ := decodeBc0_isBc0Op hd
    obtain ⟨n, rfl⟩ := Nat.exists_eq_add_one.mpr (show 0 < n by omega)
    have hfetched := h.fetched (decodeBc0_readerInv h.inv.rd (.inr ⟨i, hd⟩))
    obtain ⟨d', hd', hgiven⟩ := bc0dOp_of_yields hfetched hi
    obtain rfl : d'.rd = r := (bc0dOp_frame hd').1
    rw [bc0dRun_succ_of_running h.running, bc0dIter_of_decodes hd, hd']
    exact ih hgiven hrest hrd' (by rw [hinput]; omega)

/-- Decoding the stream that `bc0_compress` returns gives the input back (R117). -/
theorem bc0Decompress_stream (bytes : Bytes) :
    ∃ q r, bc0Decompress (bc0Stream bytes) = some (Bc0d.leave q r) ∧ q.HasGiven bytes bytes.length :=
  bc0dRun_stream (start_bc0dHasGiven _ bytes) (bc0OpsFrom_yieldsRest (Nat.zero_le _) (Nat.sub_le _ _))
    (start_before (bc0Tokens (bc0StreamOps bytes))) (by simp)

/-- What the command returns: the bytes given (R119, R130). -/
theorem Bc0d.HasGiven.deliver {q : Bc0d} {data : Bytes} (h : q.HasGiven data data.length) (r : Reader) {s : State}
    (hidle : s.active = .idle) :
    bc0dDeliver (some (q.leave r)) s = .next { s with responses := s.responses ++ [.ok (.bytes data)] } := by
  have hmode : (q.leave r).mode ≠ .trace := h.not_trace
  have htrace := (h.inv.bytes_len h.not_trace).2
  rw [bc0dDeliver, bc0dReturn, Bc0d.finalItems, Bc0d.returned, if_neg hmode, if_neg hmode, Bc0d.leave_trace, htrace,
    Bc0d.leave_out, h.out, List.take_length, List.map_nil, writeSink_nil, writeSink_nil, returnOk_of_idle hidle]
  rfl

theorem exec_bc0Decompress {s : State} (hidle : s.active = .idle) (bytes : Bytes) :
    exec (.bc0Decompress bytes) s = bc0dDeliver (bc0Decompress bytes) s := whenIdle_of_idle s _ hidle

/-- Settles O30: the decoder reads the opcodes back from the canonical layout, and the memo slot of each reference still
holds the window's byte when it is read. -/
theorem bc0RoundTrip : Obligations.Bc0RoundTrip := by
  intro s bytes hidle
  obtain ⟨q, r, hrun, hq⟩ := bc0Decompress_stream bytes
  refine ⟨bc0Stream bytes, exec_bc0Compress_absent hidle bytes, ?_⟩
  rw [exec_bc0Decompress hidle, hrun, hq.deliver r hidle]

end Sys2Proof.Machine
end

section
/-!
PROOFS. Family 44_bc0_decompressor: what BLIT does to its instance (R28, R120, R122).
-/

namespace Sys2Proof.Machine

/-- TRACE mode only counts; BYTES mode keeps the byte and mirrors it at the cursor (R28, R120). -/
theorem Bc0d.put_eq (d : Bc0d) (c : Byte) :
    d.put c = { d with
      out := if d.mode = .trace then d.out else d.out ++ [c]
      memo := if d.mode = .trace then d.memo else memoWrite d.memo d.cur c
      outLen := d.outLen + 1
      cur := d.cur + 1#12 } := by
  by_cases hm : d.mode = .trace
  · rw [Bc0d.put_trace_mode d c hm, if_pos hm, if_pos hm]
  · rw [Bc0d.put, if_neg hm, if_neg hm, if_neg hm]

theorem bc0dLit_eq (v : Byte) (d : Bc0d) :
    bc0dLit v d = { d with
      out := if d.mode = .trace then d.out else d.out ++ [v]
      memo := if d.mode = .trace then d.memo else memoWrite d.memo d.cur v
      outLen := d.outLen + 1
      cur := d.cur + 1#12
      trace := d.trace ++ bc0Traced d (.blit v) } := by
  rw [bc0dLit, Bc0d.record_eq, Bc0d.put_eq]

/-- Settles O17: BLIT is `bc0dLit` on the instance in flight, and what TRACE mode records goes to the sink. -/
theorem blitMirrorsIntoTheMemo : Obligations.BlitMirrorsIntoTheMemo := by
  intro s d v ⟨hactive, hrunning⟩
  have hexec : exec (.blit v) s = onBc0d (bc0dLit v) s := rfl
  have hitems : bc0NewItems d (bc0dLit v d) = (bc0Traced d (.blit v)).map .bc0 :=
    bc0NewItems_of_trace_append (congrArg Bc0d.trace (bc0dLit_eq v d))
  rw [hexec, onBc0d_running hactive hrunning, hitems, bc0dLit_eq, State.writeSink, List.map_map]
  rfl

end Sys2Proof.Machine
end

section
/-!
PROOFS. Family 44_bc0_decompressor: every input has a run, whose output is bounded, and the decoder makes it in both modes
(R119, R122, R123).
-/

namespace Sys2Proof.Machine

/-! ## The run of an input (R119, R123) -/

/-- More data bytes, all at once. -/
theorem ReaderMoved.skip {r r' : Reader} {n k : Nat} (h : ReaderMoved r r' n k) (j : Nat) :
    ReaderMoved r { r' with pos := r'.pos + j } n (k + j) :=
  ⟨h.input, h.bits, by simp only [h.pos]; omega, h.left⟩

/-- A BC0 opcode reads its control bit and its data bytes, the last of them a data byte (R59, R63). -/
theorem decodeBc0_moved {r r' : Reader} {i : Instr} (h : decodeBc0 r = .op i r') :
    ReaderMoved r r' (ctlBits i) (dataBytes i) ∧ r'.pos ≤ r.input.length := by
  have hle := (decodeBc0_isBc0Op h).2.2.1
  obtain ⟨r1, v, hbit, -, rfl, rfl⟩ | ⟨r1, b0, b1, hbit, -, -, rfl, rfl⟩ := decodeBc0_op h
  · exact ⟨((ReaderMoved.refl r).getBit (by omega) hbit).skip 1, hle⟩
  · exact ⟨((ReaderMoved.refl r).getBit (by omega) hbit).skip 2, hle⟩

/-- Every control byte that the reader has moved over has left it 8 control bits. -/
theorem ReaderMoved.left_eq {r r' : Reader} {n k : Nat} (h : ReaderMoved r r' n k) :
    r'.left + n + 8 * (r.pos + k) = r.left + 8 * r'.pos := by
  obtain ⟨-, -, hpos, hleft⟩ := h
  by_cases hfetch : r.left < n
  · rw [if_pos hfetch] at hpos hleft
    omega
  · rw [if_neg hfetch] at hpos hleft
    omega

/-- A BC0 opcode gives at most 18 / 17 bytes for its control bit and 144 / 17 for each data byte: a reference of 18 bytes
gives just that (R123). -/
theorem outBytes_bc0Op_le {i : Instr} (hi : isBc0Op i = true) (hwf : wellFormed i = true) :
    17 * outBytes i ≤ 18 * ctlBits i + 144 * dataBytes i := by
  cases i with
  | blit v =>
    simp only [outBytes, ctlBits, dataBytes]
    omega
  | bref m cnt =>
    have hcnt := (of_decide_eq_true hwf).2
    simp only [outBytes, ctlBits, dataBytes]
    omega
  | _ => cases hi

/-- Every input has a run: each opcode moves the reader inside the input (R123). -/
theorem exists_bc0Run (r : Reader) (n : Nat) : ∃ recs m, Bc0Run r n recs m := by
  cases hd : decodeBc0 r with
  | ended r' => exact ⟨[], n, .ended r r' n hd⟩
  | op i r' =>
    obtain ⟨-, hinput, hle, hlt⟩ := decodeBc0_isBc0Op hd
    obtain ⟨recs, m, hrun⟩ := exists_bc0Run r' (n + outBytes i)
    exact ⟨_, m, .op r r' n m i recs hd hrun⟩
termination_by r.input.length - r.pos
decreasing_by rw [hinput]; omega

/-- A run gives at most 144 / 17 bytes for each byte of input that is left, and 18 / 17 for each unread control bit, since
a control byte has 8 of them (R123). -/
theorem Bc0Run.outLen_le {r : Reader} {n m : Nat} {recs : List Bc0Record} (h : Bc0Run r n recs m)
    (hpos : r.pos ≤ r.input.length) : 17 * m + 144 * r.pos ≤ 17 * n + 144 * r.input.length + 18 * r.left := by
  induction h with
  | ended r r' n hd => omega
  | op r r' n m i recs hd _ ih =>
    obtain ⟨hi, hinput, hle, -⟩ := decodeBc0_isBc0Op hd
    rw [hinput] at ih
    have := ih hle
    have := (decodeBc0_moved hd).1.left_eq
    have := outBytes_bc0Op_le hi (decodeBc0_wellFormed hd)
    omega

/-! ## The decoder makes the run (R119, R122) -/

/-- Every BC0 opcode counts its bytes, in both modes, and stays in the loop. -/
theorem bc0dOp_counts {i : Instr} {d d' : Bc0d} (h : bc0dOp i d = some d') :
    d'.mode = d.mode ∧ d'.done = d.done ∧ d'.outLen = d.outLen + outBytes i := by
  cases i with
  | blit v => cases h; simp [bc0dLit, outBytes]
  | bref m cnt => cases h; simp [bc0dRef, bc0dCopy_frame, bc0dCopy_outLen, outBytes]
  | _ => cases h

theorem bc0dOp_inv {i : Instr} {d d' : Bc0d} (hinv : Bc0d.Inv d) (h : bc0dOp i d = some d') : Bc0d.Inv d' := by
  cases i with
  | blit v => cases h; exact (bc0dLit_keeps bc0dKept_true v d hinv trivial).1
  | bref m cnt => cases h; exact (bc0dRef_keeps bc0dKept_true m cnt d hinv trivial).1
  | _ => cases h

/-- `q` is what `d` has become by the run with the records `recs` and `m` bytes of output at its end. -/
structure Bc0d.RunTo (d q : Bc0d) (recs : List Bc0Record) (m : Nat) : Prop where
  inv : Bc0d.Inv q
  mode : q.mode = d.mode
  sink : q.sink = d.sink
  outLen : q.outLen = m
  trace : q.trace = d.trace ++ if d.mode = .trace then recs else []

theorem Bc0d.RunTo.trans {d d' q : Bc0d} {recs recs' : List Bc0Record} {k m : Nat} (h : d.RunTo d' recs k)
    (h' : d'.RunTo q recs' m) : d.RunTo q (recs ++ recs') m := by
  refine ⟨h'.inv, h'.mode.trans h.mode, h'.sink.trans h.sink, h'.outLen, ?_⟩
  rw [h'.trace, h.trace, h.mode, List.append_assoc]
  split <;> rfl

theorem Bc0d.RunTo.leave {d : Bc0d} {r : Reader} (hinv : Bc0d.Inv d) (hr : ReaderInv r) :
    d.RunTo (d.leave r) [] d.outLen :=
  ⟨hinv.leave hr, rfl, rfl, rfl, by rw [ite_self, List.append_nil]; rfl⟩

/-- An iteration that reads an opcode makes it and stays in the loop, its record being that of the opcode's start (R122). -/
theorem bc0dIter_runTo {d : Bc0d} {i : Instr} {r : Reader} (hinv : Bc0d.Inv d) (hd : decodeBc0 d.rd = .op i r) :
    ∃ d', bc0dIter d = some d' ∧ d'.rd = r ∧ d'.done = d.done ∧
      d.RunTo d' [{ inOff := d.rd.pos, outOff := d.outLen, op := i }] (d.outLen + outBytes i) := by
  obtain ⟨f, hop, -⟩ := exec_bc0Op (decodeBc0_isBc0Op hd).1
  have hop := hop (d.fetched r)
  obtain ⟨hrd, hsink, htrace⟩ := bc0dOp_frame hop
  obtain ⟨hmode, hdone, hlen⟩ := bc0dOp_counts hop
  have hinv' := bc0dOp_inv (hinv.fetched (decodeBc0_readerInv hinv.rd (.inr ⟨i, hd⟩))) hop
  exact ⟨f (d.fetched r), (bc0dIter_of_decodes hd).trans hop, hrd, hdone, hinv', hmode, hsink, hlen, htrace⟩

/-- Where a run starts, the decoder in its loop makes it, with iterations enough for the input that is left (R162). -/
theorem bc0dRun_of_run {d : Bc0d} {recs : List Bc0Record} {n m : Nat} (hrun : Bc0Run d.rd d.outLen recs m)
    (hinv : Bc0d.Inv d) (hdone : d.done = false) (hfuel : d.rd.input.length < d.rd.pos + n) :
    ∃ q, bc0dRun n d = some q ∧ d.RunTo q recs m := by
  generalize hr : d.rd = r, hk : d.outLen = k at hrun
  induction hrun generalizing d n with
  | ended r r' k hd =>
    subst hr hk
    have hpos := hinv.rd.pos_le
    obtain ⟨n, rfl⟩ := Nat.exists_eq_add_one.mpr (show 0 < n by omega)
    refine ⟨d.leave r', ?_, .leave hinv (decodeBc0_readerInv hinv.rd (.inl hd))⟩
    rw [bc0dRun_succ_of_running hdone, bc0dIter_of_ended hd]
    exact bc0dRun_of_done rfl n
  | op r r' k m i recs hd _ ih =>
    subst hr hk
    obtain ⟨-, hinput, hle, hlt⟩ := decodeBc0_isBc0Op hd
    obtain ⟨n, rfl⟩ := Nat.exists_eq_add_one.mpr (show 0 < n by omega)
    obtain ⟨d', hiter, hrd, hdone', hto⟩ := bc0dIter_runTo hinv hd
    have hfuel' : d'.rd.input.length < d'.rd.pos + n := by rw [hrd, hinput]; omega
    obtain ⟨q, hq, hto'⟩ := ih hto.inv (hdone'.trans hdone) hfuel' hrd hto.outLen
    refine ⟨q, ?_, hto.trans hto'⟩
    rw [bc0dRun_succ_of_running hdone, hiter]
    exact hq

/-- A whole decode makes the run of its input (R123). -/
theorem bc0dDecode_of_run {input : Bytes} {recs : List Bc0Record} {m : Nat}
    (hrun : Bc0Run (Reader.start input) 0 recs m) (mode : Mode) (sink : Nat) :
    ∃ q, bc0dDecode (Bc0d.start input mode sink) = some q ∧ (Bc0d.start input mode sink).RunTo q recs m :=
  bc0dRun_of_run hrun (start_bc0dInv input mode sink) rfl (by simp)

/-! ## What the host gets of a whole decode (R130, R131) -/

/-- A decode hands back its records, its final count and its result. -/
theorem bc0dDeliver_some {s : State} (hidle : s.active = .idle) (d : Bc0d) :
    bc0dDeliver (some d) s = .next { s with
      responses := s.responses ++ [.ok d.returned]
      sink := s.sink ++ (d.trace.map SinkItem.bc0 ++ d.finalItems).map (fun x => (d.sink, x)) } := by
  rw [bc0dDeliver, bc0dReturn, writeSink_append, returnOk_of_idle (by exact hidle)]
  rfl

/-- In BYTES mode a decode hands back its bytes, and nothing goes to the sink. -/
theorem bc0dDeliver_untraced {s : State} (hidle : s.active = .idle) {d : Bc0d} (hinv : Bc0d.Inv d)
    (hm : d.mode ≠ .trace) :
    bc0dDeliver (some d) s = .next { s with responses := s.responses ++ [.ok (.bytes d.out)] } := by
  rw [bc0dDeliver_some hidle, (hinv.bytes_len hm).2, Bc0d.returned, Bc0d.finalItems, if_neg hm, if_neg hm]
  simp

theorem exec_bc0Disassemble {s : State} (hidle : s.active = .idle) (k : Nat) (bytes : Bytes) :
    exec (.bc0Disassemble k bytes) s = bc0dDeliver (bc0Disassemble k bytes) s := whenIdle_of_idle s _ hidle

/-- `bc0_decompress` makes the run of its input, and answers with the bytes it counts (R119, R130). -/
theorem exec_bc0Decompress_of_run {s : State} (hidle : s.active = .idle) {bytes : Bytes} {recs : List Bc0Record}
    {m : Nat} (hrun : Bc0Run (Reader.start bytes) 0 recs m) :
    ∃ q, bc0Decompress bytes = some q ∧ q.out.length = m ∧
      exec (.bc0Decompress bytes) s = .next { s with responses := s.responses ++ [.ok (.bytes q.out)] } := by
  obtain ⟨q, hq, hto⟩ := bc0dDecode_of_run hrun .bytes 0
  have hm : q.mode ≠ .trace := by rw [hto.mode]; nofun
  refine ⟨q, hq, (hto.inv.bytes_len hm).1.trans hto.outLen, ?_⟩
  rw [exec_bc0Decompress hidle, bc0Decompress, hq, bc0dDeliver_untraced hidle hto.inv hm]

/-- Settles O23: the input has a run, and from the start of the input its bound is 144 bytes for each 17 of input. -/
theorem bc0DecompressNeverFails : Obligations.Bc0DecompressNeverFails := by
  intro s bytes hidle
  obtain ⟨recs, m, hrun⟩ := exists_bc0Run (Reader.start bytes) 0
  obtain ⟨q, -, hlen, hexec⟩ := exec_bc0Decompress_of_run hidle hrun
  have hbound : 17 * m ≤ 144 * bytes.length := by simpa using hrun.outLen_le (Nat.zero_le _)
  exact ⟨q.out, hexec, by omega⟩

/-- Settles O24: both commands make the one run of the input, which BYTES mode counts and TRACE mode records. -/
theorem bc0DisassemblerReportsTheDecode : Obligations.Bc0DisassemblerReportsTheDecode := by
  intro s k bytes hidle
  obtain ⟨recs, m, hrun⟩ := exists_bc0Run (Reader.start bytes) 0
  obtain ⟨p, -, rfl, hexec⟩ := exec_bc0Decompress_of_run hidle hrun
  obtain ⟨q, hq, -, hmode, hsink, hlen, htrace⟩ := bc0dDecode_of_run hrun .trace k
  refine ⟨p.out, recs, hexec, hrun, ?_⟩
  rw [Bc0d.start_mode] at hmode
  rw [Bc0d.start_sink] at hsink
  rw [Bc0d.start_trace, List.nil_append, Bc0d.start_mode, if_pos rfl] at htrace
  rw [exec_bc0Disassemble hidle, bc0Disassemble, hq, bc0dDeliver_some hidle]
  simp [Bc0d.returned, Bc0d.finalItems, hmode, hsink, hlen, htrace]

end Sys2Proof.Machine
end

section
/-!
PROOFS. Family 44_bc0_decompressor: a stream cut at any byte decodes to a prefix (R119, R160).
-/

namespace Sys2Proof.Machine

/-! ## A decode with more input behind -/

/-- A whole opcode is read the same with more input behind (R59). -/
theorem decodeBc0_withTail {r r' : Reader} {i : Instr} (h : decodeBc0 r = .op i r') (tail : Bytes) :
    decodeBc0 (readerWithTail r tail) = .op i (readerWithTail r' tail) := by
  obtain ⟨r1, v, hbit, hv, rfl, rfl⟩ | ⟨r1, b0, b1, hbit, hb0, hb1, rfl, rfl⟩ := decodeBc0_op h
  · exact decodeBc0_of_blit (getBit_withTail hbit tail) (get_readerWithTail hv tail)
  · exact decodeBc0_of_bref (getBit_withTail hbit tail) (get_readerWithTail hb0 tail) (get_readerWithTail hb1 tail)

/-- The same instance with `tail` after its input. -/
def Bc0d.withTail (d : Bc0d) (tail : Bytes) : Bc0d := { d with rd := readerWithTail d.rd tail }

theorem Bc0d.withTail_record (d : Bc0d) (tail : Bytes) (i : Instr) :
    (d.withTail tail).record i = (d.record i).withTail tail := by
  rw [Bc0d.record_eq, Bc0d.record_eq]
  rfl

theorem Bc0d.withTail_put (d : Bc0d) (tail : Bytes) (c : Byte) :
    (d.withTail tail).put c = (d.put c).withTail tail := by
  rw [Bc0d.put_eq, Bc0d.put_eq]
  rfl

theorem bc0dCopy_withTail (n : Nat) (m : BitVec 12) (d : Bc0d) (tail : Bytes) :
    bc0dCopy n m (d.withTail tail) = (bc0dCopy n m d).withTail tail := by
  induction n generalizing m d with
  | zero => rfl
  | succ n ih =>
    rw [bc0dCopy, Bc0d.withTail_put, ih]
    rfl

/-- An opcode once it is read does not look at the input. -/
theorem bc0dOp_withTail {i : Instr} {d d' : Bc0d} (h : bc0dOp i d = some d') (tail : Bytes) :
    bc0dOp i (d.withTail tail) = some (d'.withTail tail) := by
  cases i with
  | blit v => cases h; rw [bc0dOp, bc0dLit, Bc0d.withTail_record, Bc0d.withTail_put]; rfl
  | bref m cnt => cases h; rw [bc0dOp, bc0dRef, Bc0d.withTail_record, bc0dCopy_withTail]; rfl
  | _ => cases h

/-! ## The output only grows -/

theorem Bc0d.out_prefix_put (d : Bc0d) (c : Byte) : d.out <+: (d.put c).out := by
  by_cases hm : d.mode = .trace
  · rw [Bc0d.put_trace_mode d c hm]
  · rw [Bc0d.put_out d c hm]
    exact List.prefix_append _ _

theorem bc0dCopy_out_prefix (n : Nat) (m : BitVec 12) (d : Bc0d) : d.out <+: (bc0dCopy n m d).out := by
  induction n generalizing m d with
  | zero => exact List.prefix_refl _
  | succ n ih => exact (d.out_prefix_put _).trans (ih _ _)

theorem bc0dOp_out_prefix {i : Instr} {d d' : Bc0d} (h : bc0dOp i d = some d') : d.out <+: d'.out := by
  cases i with
  | blit v => cases h; exact d.record_out (.blit v) ▸ (d.record (.blit v)).out_prefix_put v
  | bref m cnt => cases h; exact d.record_out (.bref m cnt) ▸ bc0dCopy_out_prefix cnt m (d.record (.bref m cnt))
  | _ => cases h

/-- An iteration leaves the loop or makes an opcode (R119). -/
theorem bc0dIter_some {d d' : Bc0d} (h : bc0dIter d = some d') :
    (∃ r, d' = d.leave r) ∨ ∃ i r, decodeBc0 d.rd = .op i r ∧ bc0dOp i (d.fetched r) = some d' := by
  cases hd : decodeBc0 d.rd with
  | ended r =>
    rw [bc0dIter_of_ended hd] at h
    exact .inl ⟨r, (Option.some.inj h).symm⟩
  | op i r => exact .inr ⟨i, r, rfl, by rwa [bc0dIter_of_decodes hd] at h⟩

theorem bc0dIter_out_prefix {d d' : Bc0d} (h : bc0dIter d = some d') : d.out <+: d'.out := by
  obtain ⟨r, rfl⟩ | ⟨i, r, -, hop⟩ := bc0dIter_some h
  · exact List.prefix_refl _
  · exact bc0dOp_out_prefix (d := d.fetched r) hop

/-- A decode in its loop that comes to an end makes an iteration first. -/
theorem bc0dRun_running {n : Nat} {d q : Bc0d} (hrun : d.done = false) (h : bc0dRun n d = some q) :
    ∃ n' d', n = n' + 1 ∧ bc0dIter d = some d' ∧ bc0dRun n' d' = some q := by
  cases n with
  | zero => rw [bc0dRun, if_neg (by simp [hrun])] at h; cases h
  | succ n =>
    rw [bc0dRun_succ_of_running hrun] at h
    obtain ⟨d', hiter, hrest⟩ := Option.bind_eq_some_iff.mp h
    exact ⟨n, d', rfl, hiter, hrest⟩

/-- What holds at the end `q` of a decode, and before an iteration if it holds after it, holds where the decode starts. -/
theorem bc0dRun_induction {motive : Bc0d → Prop} {n : Nat} {d q : Bc0d} (h : bc0dRun n d = some q) (hend : motive q)
    (hiter : ∀ {n d d'}, d.done = false → bc0dIter d = some d' → bc0dRun n d' = some q → motive d' → motive d) :
    motive d := by
  cases hdone : d.done with
  | true =>
    rw [bc0dRun_of_done hdone] at h
    exact Option.some.inj h ▸ hend
  | false =>
    obtain ⟨n', d', rfl, hi, hrest⟩ := bc0dRun_running hdone h
    exact hiter hdone hi hrest (bc0dRun_induction hrest hend hiter)
termination_by n

theorem bc0dRun_out_prefix {n : Nat} {d q : Bc0d} (h : bc0dRun n d = some q) : d.out <+: q.out :=
  bc0dRun_induction (motive := fun d => d.out <+: q.out) h (List.prefix_refl _)
    fun _ hiter _ ih => (bc0dIter_out_prefix hiter).trans ih

/-- With more input behind, the decode goes through the same opcodes, and may go on where the shorter input ends (R160). -/
theorem bc0dRun_withTail_prefix {n k : Nat} {d q q' : Bc0d} {tail : Bytes} (h : bc0dRun n d = some q)
    (h' : bc0dRun k (d.withTail tail) = some q') : q.out <+: q'.out := by
  have hgrows {k : Nat} {d : Bc0d} (h : bc0dRun k (d.withTail tail) = some q') : d.out <+: q'.out :=
    bc0dRun_out_prefix (d := d.withTail tail) h
  refine bc0dRun_induction (motive := fun d => ∀ {k}, bc0dRun k (d.withTail tail) = some q' → q.out <+: q'.out)
    h hgrows ?_ h'
  intro n d d₁ hrun hiter hrest ih k h'
  obtain ⟨r, rfl⟩ | ⟨i, r, hd, hop⟩ := bc0dIter_some hiter
  · obtain rfl : d.leave r = q := Option.some.inj ((bc0dRun_of_done rfl n).symm.trans hrest)
    exact hgrows (d := d) h'
  · obtain ⟨k', d₂, -, hiter', hrest'⟩ := bc0dRun_running (d := d.withTail tail) hrun h'
    have hd' : decodeBc0 (d.withTail tail).rd = .op i (readerWithTail r tail) := decodeBc0_withTail hd tail
    rw [bc0dIter_of_decodes hd'] at hiter'
    obtain rfl : d₁.withTail tail = d₂ := Option.some.inj ((bc0dOp_withTail hop tail).symm.trans hiter')
    exact ih hrest'

/-- Settles O25: the whole input is the cut one with the rest behind it. -/
theorem bc0TruncationGivesAPrefix : Obligations.Bc0TruncationGivesAPrefix := by
  intro s bytes k hidle
  obtain ⟨recs, m, hrun⟩ := exists_bc0Run (Reader.start bytes) 0
  obtain ⟨recs', m', hrun'⟩ := exists_bc0Run (Reader.start (bytes.take k)) 0
  obtain ⟨q, hq, -, hexec⟩ := exec_bc0Decompress_of_run hidle hrun
  obtain ⟨q', hq', -, hexec'⟩ := exec_bc0Decompress_of_run hidle hrun'
  have hstart : (Bc0d.start (bytes.take k) .bytes 0).withTail (bytes.drop k) = Bc0d.start bytes .bytes 0 := by
    simp [Bc0d.withTail, readerWithTail, Bc0d.start, Reader.start]
  have htail : bc0dRun (bytes.length + 1) ((Bc0d.start (bytes.take k) .bytes 0).withTail (bytes.drop k)) = some q :=
    hstart ▸ hq
  exact ⟨q.out, q'.out, hexec, hexec', bc0dRun_withTail_prefix hq' htail⟩

end Sys2Proof.Machine
end

section
/-!
PROOFS. Family 45_host_interface: what a host action or a PRSC command in flight steps to, and the refusals and discards of
PRSC instances (R125, R133, R154, R159).
-/

namespace Sys2Proof.Machine

/-! ## One step of the current thread (R148) -/

section
variable {s : State} {rest : List HostAction}

theorem fetchCurrent_of_idle (hidle : s.active = .idle) : fetchCurrent s = fetchHost s := by
  simp only [fetchCurrent, hidle]

theorem step_issue (hsched : s.schedule = []) (hidle : s.active = .idle) {i : Instr} (hhost : s.host = .issue i :: rest) :
    step s = exec i { s with host := rest } := by
  simp only [step_of_schedule_nil hsched, fetchCurrent_of_idle hidle, fetchHost, hhost]

theorem step_discard (hsched : s.schedule = []) (hidle : s.active = .idle) {h : Nat} (hhost : s.host = .discard h :: rest) :
    step s = discard h { s with host := rest } := by
  simp only [step_of_schedule_nil hsched, fetchCurrent_of_idle hidle, fetchHost, hhost]

theorem step_callbackReturn (hsched : s.schedule = []) (hidle : s.active = .idle) (hhost : s.host = .callbackReturn :: rest) :
    step s = returnCallback { s with host := rest } := by
  simp only [step_of_schedule_nil hsched, fetchCurrent_of_idle hidle, fetchHost, hhost]

theorem step_of_bc0c (hsched : s.schedule = []) {c : Bc0c} (hact : s.active = .bc0c c) : step s = bc0cStep c s := by
  simp only [step_of_schedule_nil hsched, fetchCurrent, hact]

theorem step_of_prsc (hsched : s.schedule = []) {slot : Option Nat} {p : Prsc} {job : PrscJob}
    (hact : s.active = .prsc slot p job) : step s = prscStep slot p job s := by
  simp only [step_of_schedule_nil hsched, fetchCurrent, hact]

/-! ## Instances that are not there (R125, R133, R154) -/

theorem withPrsc_missing {h : Nat} (hp : s.prscs[h]? = none ∨ s.prscs[h]? = some .discarded) (f : Prsc → Out) :
    withPrsc s h f = .refused (.noPrscInstance h) := by
  obtain hp | hp := hp <;> simp only [withPrsc, hp]

theorem withPrsc_inFlight {h : Nat} (hp : s.prscs[h]? = some .inFlight) (f : Prsc → Out) :
    withPrsc s h f = .refused (.sharedPrscInstance h) := by
  simp only [withPrsc, hp]

theorem discard_of_instance {h : Nat} (hp : (∃ p, s.prscs[h]? = some (.live p)) ∨ s.prscs[h]? = some .inFlight) :
    discard h s = .next (s.setSlot h .discarded) := by
  obtain ⟨p, hp⟩ | hp := hp <;> simp only [discard, hp]

/-- ADD and CLOSE on an idle thread are refused as their instance is. -/
theorem exec_prsc_refused (hidle : s.active = .idle) {h : Nat} {r : Refusal} (hp : ∀ f, withPrsc s h f = .refused r)
    (bytes : Bytes) : exec (.prscAdd h bytes) s = .refused r ∧ exec (.prscClose h) s = .refused r :=
  ⟨(whenIdle_of_idle s _ hidle).trans (hp _), (whenIdle_of_idle s _ hidle).trans (hp _)⟩

/-! ## The end of a command in flight on the host's instance (R153, R159) -/

/-- The end of a command on instance `h`: its slot is given the instance back where it still waits for it. -/
theorem returnOk_of_slot {h : Nat} {p : Prsc} {job : PrscJob} (hact : s.active = .prsc (some h) p job) (r : Result) :
    s.returnOk r = { s with
      active := .idle
      prscs := putBack s.prscs h p
      responses := s.responses ++ [.ok r] } := by
  simp only [State.returnOk, State.release, hact, State.respond]

theorem step_adding_end (hsched : s.schedule = []) {h : Nat} {p : Prsc} (hact : s.active = .prsc (some h) p .adding)
    (hend : p.data.length - p.b < 256 + p.level) :
    step s = .next { s with
      active := .idle
      prscs := putBack s.prscs h p
      responses := s.responses ++ [.ok .unit] } := by
  have hgo : p.enough = false := decide_eq_false (Nat.not_le_of_lt hend)
  rw [step_of_prsc hsched hact, prscStep, if_neg (by simp [hgo]), returnOk_of_slot hact]

theorem step_closing_end (hsched : s.schedule = []) {h : Nat} {p : Prsc} (hact : s.active = .prsc (some h) p .closing)
    (hend : p.data.length ≤ p.b) :
    step s = .next { s with
      active := .idle
      prscs := putBack s.prscs h p.terminate
      responses := s.responses ++ [.ok (.bytes p.terminate.result)] } := by
  have hgo : p.more = false := decide_eq_false (Nat.not_lt_of_le hend)
  rw [step_of_prsc hsched hact, prscStep, if_neg (by simp [hgo]), returnOk_of_slot rfl]

end

/-- Settles O55: the guard of ADD and CLOSE, the discard, and `putBack` on a slot that waits and on a discarded one. -/
theorem missingInstanceIsRefused : Obligations.MissingInstanceIsRefused := by
  intro s h bytes
  refine ⟨fun hidle => ⟨fun hp => ?_, fun hp => ?_, fun rest hsched hp hhost => ?_⟩, fun p hsched hact hend => ?_,
    fun p w hsched hact hend hw => ?_⟩
  · exact exec_prsc_refused hidle (withPrsc_missing hp) bytes
  · exact exec_prsc_refused hidle (withPrsc_inFlight hp) bytes
  · rw [step_discard hsched hidle hhost, discard_of_instance (s := { s with host := rest }) hp]
    rfl
  · rw [step_adding_end hsched hact hend]
    exact ⟨fun hp => by rw [putBack_inFlight p hp], fun hp => by rw [putBack_discarded p hp]⟩
  · rw [step_closing_end hsched hact hend, hw]
    exact ⟨fun hp => by rw [putBack_inFlight _ hp]; rfl, fun hp => by rw [putBack_discarded _ hp]; rfl⟩

end Sys2Proof.Machine
end

section
/-!
PROOFS. Family 45_host_interface: a callback that never returns from a notification, and one that unwinds (R132, R142, R158).
-/

namespace Sys2Proof.Machine

/-- A callback that does not return from its notification at `x`, with how its command stops there: stuck, or refused. -/
inductive StopsAt (x : Nat) : Progress → Out → Prop
  | hangs : StopsAt x (.hangsAt x) (.fault (.callbackHangs x))
  | unwinds : StopsAt x (.unwindsAt x) (.refused (.callbackUnwinds x))

section
variable {x : Nat} {pr : Progress} {o : Out}

theorem StopsAt.ne_acting (h : StopsAt x pr o) : pr ≠ .acting := by
  cases h <;> nofun

/-- Nothing comes after a notification that does not return. -/
theorem StopsAt.andThen_notify (h : StopsAt x pr o) {pts : List Nat} (hx : x ∈ pts) (mk : Nat → Note) (s : State)
    (f : State → Out) : andThen (notify pr mk pts s) f = o := by
  cases h <;> simp only [notify, hx, if_true, andThen]

variable {s : State} (hidle : s.active = .idle)
include hidle

theorem exec_prsCompress_stops (h : StopsAt x pr o) {bytes : Bytes} (hx : x ∈ notifyPoints 0 bytes.length) (level : Nat) :
    exec (.prsCompress bytes level pr) s = o := by
  rw [exec, execPrsCompress, whenIdle_of_idle s _ hidle, withLevel_nat, unlessActing_of_ne h.ne_acting]
  rw [← prsCompress_b bytes level pr] at hx
  exact h.andThen_notify hx _ _ _

theorem exec_bc0Compress_stops (h : StopsAt x pr o) {bytes : Bytes} (hx : x ∈ notifyPoints 0 bytes.length) :
    exec (.bc0Compress bytes pr) s = o := by
  rw [exec, execBc0Compress, whenIdle_of_idle s _ hidle, unlessActing_of_ne h.ne_acting]
  exact h.andThen_notify (by rwa [bc0Compress_i]) _ _ _

section
variable {k : Nat} {p : Prsc} (hp : s.prscs[k]? = some (.live p)) (hopen : p.closed = false) (hinv : Prsc.Inv p)
include hp hopen hinv

/-- CLOSE passes every point up to the end of its data. -/
theorem exec_prscClose_stops (h : StopsAt x p.progress o) (hx : x ∈ notifyPoints p.b p.data.length) :
    exec (.prscClose k) s = o := by
  have hx' : x ∈ notifyPoints p.b (prscClose p).1.b := by
    rwa [prscClose_of_open hinv hopen, Prsc.terminate_b, closeLoop_b hinv hopen]
  rw [exec, execPrscClose, whenIdle_of_idle s _ hidle, withPrsc_live hp, unlessActing_of_ne h.ne_acting]
  exact h.andThen_notify hx' _ _ _

/-- ADD passes every point with at least `256 + level` bytes after it. -/
theorem exec_prscAdd_stops (h : StopsAt x p.progress o) {bytes : Bytes} (hx : x ∈ notifyPoints p.b x)
    (hlen : x + 256 + p.level ≤ (p.data ++ bytes).length) : exec (.prscAdd k bytes) s = o := by
  obtain ⟨q, hq, -, -, hend⟩ := addLoop_ready (hinv.append hopen bytes) hopen
  obtain ⟨hdata, hlevel, -⟩ := advanceWhile_frame Prsc.enough _ (p.append bytes)
  rw [← addLoop, hq] at hdata hlevel
  have hfew : q.data.length - q.b < 256 + q.level := Nat.lt_of_not_le (of_decide_eq_false hend)
  rw [hdata, hlevel, Prsc.append_data, Prsc.append_level] at hfew
  have hx' : x ∈ notifyPoints p.b (prscAdd bytes p).1.b := by
    rw [prscAdd_of_open hopen hinv.not_failed, hq]
    simp only [mem_notifyPoints] at hx ⊢
    omega
  rw [exec, execPrscAdd, whenIdle_of_idle s _ hidle, withPrsc_live hp, unlessActing_of_ne h.ne_acting]
  exact h.andThen_notify hx' _ _ _

end

end

/-- Settles O33: each of the four commands passes the point `4096 * j`. -/
theorem callbackThatNeverReturnsStalls : Obligations.CallbackThatNeverReturnsStalls := by
  intro s bytes level j hidle hj
  have hmem : ∀ {a b}, a < 4096 * j → 4096 * j ≤ b → 4096 * j ∈ notifyPoints a b := fun ha hb =>
    mem_notifyPoints.mpr ⟨ha, hb, Nat.mul_mod_right 4096 j⟩
  refine ⟨fun hlen => ?_, fun h p hp hopen hinv hb => ⟨fun hlen => ?_, fun hlen => ?_⟩⟩
  · have hx := hmem (Nat.mul_pos (by decide) hj) hlen
    exact ⟨exec_prsCompress_stops hidle .hangs hx level, exec_bc0Compress_stops hidle .hangs hx,
      exec_prsCompress_stops hidle .unwinds hx level, exec_bc0Compress_stops hidle .unwinds hx⟩
  · have hstop := fun o hpr => exec_prscClose_stops (o := o) hidle hp hopen hinv hpr (hmem hb hlen)
    exact ⟨fun hpr => hstop _ (hpr ▸ .hangs), fun hpr => hstop _ (hpr ▸ .unwinds)⟩
  · have hstop := fun o hpr => exec_prscAdd_stops (o := o) hidle hp hopen hinv hpr (hmem hb (Nat.le_refl _)) hlen
    exact ⟨fun hpr => hstop _ (hpr ▸ .hangs), fun hpr => hstop _ (hpr ▸ .unwinds)⟩

end Sys2Proof.Machine
end

section
/-!
PROOFS. Family 45_host_interface: only a notification and a return from it change the callbacks a thread is in (R132, R133,
R144).
-/

namespace Sys2Proof.Machine

/-! ## Outcomes that leave the callbacks alone -/

/-- Where there is a next state, the thread is in the same callbacks as in `s`. -/
def KeepsCalls (s : State) (o : Out) : Prop := ∀ t, o = .next t → t.calls = s.calls

section
variable {s : State}

theorem keepsCalls_next {t : State} (h : t.calls = s.calls) : KeepsCalls s (.next t) := fun _ he => by cases he; exact h

theorem keepsCalls_fault (r : Fault) : KeepsCalls s (.fault r) := fun _ he => nomatch he

theorem keepsCalls_refused (r : Refusal) : KeepsCalls s (.refused r) := fun _ he => nomatch he

theorem whenIdle_keepsCalls {u : State} {o : Out} (h : KeepsCalls s o) : KeepsCalls s (whenIdle u o) :=
  fun t he => h t (whenIdle_next he).2

theorem withPrsc_keepsCalls {u : State} {k : Nat} {f : Prsc → Out} (h : ∀ p, KeepsCalls s (f p)) :
    KeepsCalls s (withPrsc u k f) := fun t he => by
  obtain ⟨p, -, he⟩ := withPrsc_next he
  exact h p t he

theorem withLevel_keepsCalls {level : Int} {f : Nat → Out} (h : ∀ n, KeepsCalls s (f n)) :
    KeepsCalls s (withLevel level f) := fun t he => by
  obtain ⟨n, -, he⟩ := withLevel_next he
  exact h n t he

theorem unlessActing_keepsCalls {pr : Progress} {launched atomic : Out} (hl : KeepsCalls s launched)
    (ha : KeepsCalls s atomic) : KeepsCalls s (unlessActing pr launched atomic) := by
  unfold unlessActing
  split
  · exact hl
  · exact ha

theorem andThen_notify_keepsCalls {pr : Progress} {mk : Nat → Note} {pts : List Nat} {f : State → Out}
    (h : ∀ ns, KeepsCalls s (f { s with notes := ns })) : KeepsCalls s (andThen (notify pr mk pts s) f) := fun t he => by
  obtain ⟨u, hu, he⟩ := andThen_next_iff.mp he
  obtain ⟨ns, rfl⟩ := notify_next hu
  exact h _ t he

end

/-! ## Instructions, launches and discards -/

theorem onPrsd_keepsCalls (f : Prsd → PrsdOut) (s : State) : KeepsCalls s (onPrsd f s) := fun t he => by
  obtain ⟨p, -, -, ⟨p', -, rfl⟩ | ⟨p', e, -, rfl⟩⟩ := onPrsd_next he
  · rfl
  · simp

theorem onBc0d_keepsCalls (f : Bc0d → Bc0d) (s : State) : KeepsCalls s (onBc0d f s) := fun t he => by
  obtain ⟨d, -, -, rfl⟩ := onBc0d_next he
  rfl

theorem prsdDeliver_keepsCalls (o : PrsdOut) (s : State) : KeepsCalls s (prsdDeliver o s) := by
  cases o with
  | ok p => exact keepsCalls_next (by simp [prsdReturn])
  | raised p e => exact keepsCalls_next (by simp)
  | fault r => exact keepsCalls_fault r

theorem bc0dDeliver_keepsCalls (o : Option Bc0d) (s : State) : KeepsCalls s (bc0dDeliver o s) := by
  cases o with
  | some d => exact keepsCalls_next (by simp [bc0dReturn])
  | none => exact keepsCalls_fault _

theorem launchAdd_keepsCalls (k : Nat) (bytes : Bytes) (p : Prsc) (s : State) : KeepsCalls s (launchAdd k bytes p s) := by
  unfold launchAdd
  split
  · exact keepsCalls_next (by simp)
  · exact keepsCalls_next rfl

theorem launchClose_keepsCalls (k : Nat) (p : Prsc) (s : State) : KeepsCalls s (launchClose k p s) := by
  unfold launchClose
  split
  · exact keepsCalls_next (by simp)
  · split
    · exact keepsCalls_next (by simp)
    · exact keepsCalls_next rfl

theorem execPrscNew_keepsCalls (level : Int) (pr : Progress) (s : State) : KeepsCalls s (execPrscNew level pr s) :=
  whenIdle_keepsCalls (withLevel_keepsCalls fun _ => keepsCalls_next rfl)

/-- No instruction calls back or returns from a callback by itself. -/
theorem exec_keepsCalls (i : Instr) (s : State) : KeepsCalls s (exec i s) := by
  cases i with
  | lit | scopy | lcopy | ecopy | stop =>
    rw [exec_prsOp rfl]
    exact onPrsd_keepsCalls _ s
  | blit | bref => exact onBc0d_keepsCalls _ s
  | prsCompress =>
    exact whenIdle_keepsCalls (withLevel_keepsCalls fun _ =>
      unlessActing_keepsCalls (keepsCalls_next rfl) (andThen_notify_keepsCalls fun _ => keepsCalls_next rfl))
  | prscNew level pr => exact execPrscNew_keepsCalls level pr s
  | prscAdd k bytes =>
    exact whenIdle_keepsCalls (withPrsc_keepsCalls fun p =>
      unlessActing_keepsCalls (launchAdd_keepsCalls k bytes p s) (andThen_notify_keepsCalls fun _ => keepsCalls_next rfl))
  | prscClose k =>
    exact whenIdle_keepsCalls (withPrsc_keepsCalls fun p =>
      unlessActing_keepsCalls (launchClose_keepsCalls k p s) (andThen_notify_keepsCalls fun _ => keepsCalls_next rfl))
  | bc0Compress =>
    exact whenIdle_keepsCalls
      (unlessActing_keepsCalls (keepsCalls_next rfl) (andThen_notify_keepsCalls fun _ => keepsCalls_next rfl))
  | prsDecompress | prsDecompressSize | prsDisassemble => exact whenIdle_keepsCalls (prsdDeliver_keepsCalls _ s)
  | bc0Decompress | bc0Disassemble => exact whenIdle_keepsCalls (bc0dDeliver_keepsCalls _ s)

theorem launch_keepsCalls (i : Instr) (s : State) : KeepsCalls s (launch i s) := by
  refine whenIdle_keepsCalls ?_
  cases i with
  | prsCompress => exact withLevel_keepsCalls fun _ => keepsCalls_next rfl
  | prscNew level pr => exact execPrscNew_keepsCalls level pr s
  | prscAdd k bytes => exact withPrsc_keepsCalls fun p => launchAdd_keepsCalls k bytes p s
  | prscClose k => exact withPrsc_keepsCalls fun p => launchClose_keepsCalls k p s
  | lit | scopy | lcopy | ecopy | stop | blit | bref => exact keepsCalls_refused _
  | _ => exact keepsCalls_next rfl

theorem discard_keepsCalls (k : Nat) (s : State) : KeepsCalls s (discard k s) := fun t he => by
  obtain ⟨-, rfl⟩ := discard_next he
  rfl

/-! ## A compressor in flight: it calls back, or leaves the callbacks alone (R88, R114, R132) -/

/-- A next state in the same callbacks, or in one more with its command waiting in it. -/
def MayCall (s t : State) : Prop := t.calls = s.calls ∨ t.active = .idle ∧ ∃ c, t.calls = c :: s.calls

theorem resumeBc0c_mayCall (c : Bc0c) (n : Nat) (s : State) : MayCall s (resumeBc0c c n s) := by
  obtain ⟨he, -⟩ | ⟨k, left, -, -, he, -⟩ := resumeBc0c_cases c n s <;> rw [he]
  · exact .inl rfl
  · exact .inr ⟨rfl, _, rfl⟩

theorem resumePrsc_mayCall (slot : Option Nat) (p : Prsc) (job : PrscJob) (ms : List PrscMove) (s : State) :
    MayCall s (resumePrsc slot p job ms s) := by
  obtain ⟨q, he, -⟩ | ⟨q, e, he, -⟩ | ⟨q, left, he, -⟩ := resumePrsc_cases slot p job ms s <;> rw [he]
  · exact .inl rfl
  · exact .inl (by simp)
  · exact .inr ⟨rfl, _, rfl⟩

theorem bc0cStep_mayCall {c : Bc0c} {s t : State} (h : bc0cStep c s = .next t) : MayCall s t := by
  unfold bc0cStep at h
  split at h
  · split at h
    · split at h
      · cases h; exact .inl rfl
      · cases h; exact resumeBc0c_mayCall _ _ s
    · refine .inl ((?_ : KeepsCalls s _) t h)
      exact andThen_notify_keepsCalls fun _ => keepsCalls_next rfl
  · cases h; exact .inl (by simp)

theorem settle_calls (s : State) (e : Option EngineError) : (s.settle e).calls = s.calls := by
  cases e <;> simp

theorem prscAdvance_mayCall {slot : Option Nat} {p : Prsc} {job : PrscJob} {s t : State}
    (h : prscAdvance slot p job s = .next t) : MayCall s t := by
  unfold prscAdvance at h
  split at h
  · cases h; exact resumePrsc_mayCall slot p job _ s
  · refine .inl ((?_ : KeepsCalls s _) t h)
    exact andThen_notify_keepsCalls fun _ => keepsCalls_next (settle_calls _ _)

theorem prscStep_mayCall {slot : Option Nat} {p : Prsc} {job : PrscJob} {s t : State}
    (h : prscStep slot p job s = .next t) : MayCall s t := by
  cases job <;> simp only [prscStep] at h <;> split at h
  case adding.isFalse => cases h; exact .inl (by simp)
  case closing.isFalse => cases h; exact .inl (by simp)
  case oneShot.isFalse => cases h; exact .inl rfl
  all_goals exact prscAdvance_mayCall h

/-! ## What a thread turns to -/

/-- What the thread turns to leaves the callbacks alone: the state an instruction executes in, or the outcome. -/
def Fetched.KeepsCalls (s : State) : Fetched → Prop
  | .run _ t => t.calls = s.calls
  | .outcome o => Machine.KeepsCalls s o

theorem fetchPrsd_keepsCalls (p : Prsd) (s : State) : (fetchPrsd p s).KeepsCalls s := by
  unfold fetchPrsd
  split
  · exact keepsCalls_next (by simp [prsdReturn])
  · split
    · exact keepsCalls_next rfl
    · split
      · exact keepsCalls_next (by simp)
      · rfl

theorem fetchBc0d_keepsCalls (d : Bc0d) (s : State) : (fetchBc0d d s).KeepsCalls s := by
  unfold fetchBc0d
  split
  · exact keepsCalls_next (by simp [bc0dReturn])
  · split
    · exact keepsCalls_next rfl
    · rfl

/-- The host's actions leave the callbacks alone, but for a return. -/
theorem fetchHost_keepsCalls {s : State} (hhost : ∀ rest, s.host ≠ .callbackReturn :: rest) :
    (fetchHost s).KeepsCalls s := by
  unfold fetchHost
  split
  · exact keepsCalls_next rfl
  · rfl
  · exact launch_keepsCalls _ { s with host := _ }
  · exact discard_keepsCalls _ { s with host := _ }
  · next rest he => exact absurd he (hhost rest)

theorem step_calls_of_fetched {s t : State} (hsched : s.schedule = []) (hfetch : (fetchCurrent s).KeepsCalls s)
    (h : step s = .next t) : t.calls = s.calls := by
  rw [step_of_schedule_nil hsched] at h
  cases hf : fetchCurrent s with
  | run i u => rw [hf] at h hfetch; exact (exec_keepsCalls i u t h).trans hfetch
  | outcome o => rw [hf] at h hfetch; exact hfetch t h

/-- Everything a step can do to the callbacks a thread is in: leave them, call one more, or return from the innermost. -/
theorem step_calls_cases {s t : State} (hsched : s.schedule = []) (h : step s = .next t) :
    t.calls = s.calls ∨ (s.active ≠ .idle ∧ t.active = .idle ∧ ∃ c, t.calls = c :: s.calls) ∨
      (s.active = .idle ∧ ∃ rest, s.host = .callbackReturn :: rest) := by
  have hkeeps := step_calls_of_fetched hsched (h := h)
  have hmay : s.active ≠ .idle → MayCall s t →
      t.calls = s.calls ∨ (s.active ≠ .idle ∧ t.active = .idle ∧ ∃ c, t.calls = c :: s.calls) :=
    fun hbusy hm => hm.imp id fun hcall => ⟨hbusy, hcall⟩
  cases hact : s.active with
  | idle =>
    by_cases hhost : ∃ rest, s.host = .callbackReturn :: rest
    · exact .inr (.inr ⟨rfl, hhost⟩)
    · refine .inl (hkeeps ?_)
      rw [fetchCurrent_of_idle hact]
      exact fetchHost_keepsCalls fun rest he => hhost ⟨rest, he⟩
  | prsd p =>
    refine .inl (hkeeps ?_)
    simp only [fetchCurrent, hact]
    exact fetchPrsd_keepsCalls p s
  | bc0d d =>
    refine .inl (hkeeps ?_)
    simp only [fetchCurrent, hact]
    exact fetchBc0d_keepsCalls d s
  | bc0c c =>
    rw [step_of_bc0c hsched hact] at h
    exact (hact ▸ hmay (by simp [hact]) (bc0cStep_mayCall h)).imp_right .inl
  | prsc slot p job =>
    rw [step_of_prsc hsched hact] at h
    exact (hact ▸ hmay (by simp [hact]) (prscStep_mayCall h)).imp_right .inl

/-! ## A return from a callback (R132) -/

section
variable {s : State} {rest : List HostAction} {cs : List Call} (hsched : s.schedule = []) (hidle : s.active = .idle)
  (hhost : s.host = .callbackReturn :: rest)

/-- A waiting command that calls back once more takes the place of the one before. -/
theorem callBack_of_idle (hidle : s.active = .idle) (host : List HostAction) (cs : List Call) (call : Call) (n : Note) :
    State.callBack { s with host := host, calls := cs } call n =
      { s with host := host, calls := call :: cs, notes := s.notes ++ [n] } := by
  simp only [State.callBack, hidle]

include hsched hidle hhost

/-- BC0C goes on with its index steps (R114): to their end, or to the next point. -/
theorem step_return_bc0c {c : Bc0c} {left : Nat} (hcalls : s.calls = .bc0c c left :: cs) :
    (step s = .next { s with host := rest, calls := cs, active := .bc0c (c.indexSteps left) } ∧
        notifyPoints c.i (c.i + left) = []) ∨
      ∃ k left', left = k + left' ∧ 0 < k ∧
        step s = .next { s with
          host := rest
          calls := .bc0c (c.indexSteps k) left' :: cs
          notes := s.notes ++ [.bc0c (c.i + k)] } ∧
        notifyPoints c.i (c.i + left) = (c.i + k) :: notifyPoints (c.i + k) (c.i + left) := by
  rw [step_callbackReturn hsched hidle hhost]
  simp only [returnCallback, hcalls]
  obtain ⟨he, hpts⟩ | ⟨k, left', hk, hpos, he, hpts⟩ := resumeBc0c_cases c left { s with host := rest, calls := cs }
  · exact .inl ⟨congrArg _ he, hpts⟩
  · exact .inr ⟨k, left', hk, hpos, congrArg _ (he.trans (callBack_of_idle hidle rest cs _ _)), hpts⟩

/-- PRSC goes on with its moves (R87, R88): to their end, to an error, or to the next point. -/
theorem step_return_prsc {slot : Option Nat} {p : Prsc} {job : PrscJob} {left : List PrscMove}
    (hcalls : s.calls = .prsc slot p job left :: cs) :
    (∃ q, step s = .next { s with host := rest, calls := cs, active := .prsc slot q job } ∧
        p.perform left = (q, none) ∧ notifyPoints p.b q.b = []) ∨
      (∃ q e, step s = .next (State.raise { s with host := rest, calls := cs, active := .prsc slot q job } e) ∧
        p.perform left = (q, some e)) ∨
      ∃ q left', step s = .next { s with
          host := rest
          calls := .prsc slot q job left' :: cs
          notes := s.notes ++ [.prsc q.b] } ∧
        PrscAt p left q.b q left' ∧ q.perform left' = p.perform left ∧ p.b < q.b ∧
        notifyPoints p.b (p.perform left).1.b = q.b :: notifyPoints q.b (p.perform left).1.b := by
  rw [step_callbackReturn hsched hidle hhost]
  simp only [returnCallback, hcalls]
  obtain ⟨q, he, hq⟩ | ⟨q, e, he, hq, -⟩ | ⟨q, left', he, hq⟩ :=
    resumePrsc_cases slot p job left { s with host := rest, calls := cs }
  · exact .inl ⟨q, congrArg _ he, hq⟩
  · exact .inr (.inl ⟨q, e, congrArg _ he, hq⟩)
  · exact .inr (.inr ⟨q, left', congrArg _ (he.trans (callBack_of_idle hidle rest cs _ _)), hq⟩)

end

/-- A return outside a callback is refused. -/
theorem returnCallback_calls_ne {s t : State} (h : returnCallback s = .next t) : s.calls ≠ [] := by
  intro hnil
  simp [returnCallback, hnil] at h

/-- Settles O57: `step_calls_cases`, and in its third case the return, by what waits. -/
theorem callbacksLeaveTheWaitingCommandAlone : Obligations.CallbacksLeaveTheWaitingCommandAlone := by
  intro s t hsched hstep
  obtain hsame | hcall | ⟨hidle, rest, hhost⟩ := step_calls_cases hsched hstep
  · exact .inl hsame
  · exact .inr (.inl hcall)
  refine .inr (.inr ⟨hidle, ?_⟩)
  cases hcalls : s.calls with
  | nil =>
    rw [step_callbackReturn hsched hidle hhost] at hstep
    exact (returnCallback_calls_ne hstep hcalls).elim
  | cons call cs =>
    refine ⟨call, cs, rest, rfl, hhost, ?_⟩
    cases call with
    | bc0c c left =>
      obtain ⟨he, -⟩ | ⟨k, left', rfl, hpos, he, -⟩ := step_return_bc0c hsched hidle hhost hcalls <;>
        rw [hstep] at he <;> cases he
      · exact .inl rfl
      · obtain ⟨-, -, hi, hout, -⟩ := indexSteps_frame k c
        exact .inr ⟨c.indexSteps k, left', by omega, hout, indexSteps_add k left' c, by rw [hi]⟩
    | prsc slot p job left =>
      obtain ⟨q, he, hq, -⟩ | ⟨q, e, he, hq⟩ | ⟨q, left', he, -, hq, hlt, -⟩ :=
          step_return_prsc hsched hidle hhost hcalls <;>
        rw [hstep] at he <;> cases he
      · exact .inl ⟨congrArg Prod.snd hq, by rw [hq]⟩
      · exact .inr (.inr ⟨e, congrArg Prod.snd hq, by simp, by simp, by simp⟩)
      · exact .inr (.inl ⟨q, left', hlt, hq, rfl⟩)

end Sys2Proof.Machine
end

section
/-!
PROOFS. Family 45_host_interface: a command with an acting callback, from where it is issued to where it waits (R18, R48, R88,
R114, R132, R133).
-/

namespace Sys2Proof.Machine

/-! ## Issued commands that go in flight (R18, R81, R82) -/

section
variable {s : State} (hidle : s.active = .idle)
include hidle

theorem exec_prsCompress_acting (bytes : Bytes) (level : Nat) :
    exec (.prsCompress bytes level .acting) s =
      .next { s with active := .prsc none (Prsc.loaded bytes level .acting) .oneShot } := by
  rw [exec, execPrsCompress, whenIdle_of_idle s _ hidle, withLevel_nat, unlessActing_acting]
  rfl

theorem exec_bc0Compress_acting (bytes : Bytes) :
    exec (.bc0Compress bytes .acting) s = .next { s with active := .bc0c (Bc0c.start bytes .acting) } := by
  rw [exec, execBc0Compress, whenIdle_of_idle s _ hidle, unlessActing_acting]
  rfl

variable {h : Nat} {p : Prsc} (hp : s.prscs[h]? = some (.live p)) (hpr : p.progress = .acting) (hopen : p.closed = false)
  (hfailed : p.failed = false)
include hp hpr hopen hfailed

theorem exec_prscAdd_acting (bytes : Bytes) :
    exec (.prscAdd h bytes) s =
      .next { s.setSlot h .inFlight with active := .prsc (some h) (p.append bytes) .adding } := by
  have he : addError p = none := by simp [addError, hopen, hfailed]
  rw [exec, execPrscAdd, whenIdle_of_idle s _ hidle, withPrsc_live hp, hpr, unlessActing_acting, launchAdd, he]

theorem exec_prscClose_acting :
    exec (.prscClose h) s = .next { s.setSlot h .inFlight with active := .prsc (some h) p .closing } := by
  rw [exec, execPrscClose, whenIdle_of_idle s _ hidle, withPrsc_live hp, hpr, unlessActing_acting, launchClose,
    if_neg (by simp [hopen]), if_neg (by simp [hfailed])]

end

/-! ## BC0C: one iteration, to its end or to the first point (R111, R114) -/

/-- An iteration is its emission, which moves no position, and the index steps after it. -/
theorem bc0cEmit_frame {c c₀ : Bc0c} {n : Nat} (h : bc0cEmit c = some (c₀, n)) :
    c₀.i = c.i ∧ c₀.x = c.x ∧ bc0cIter c = c₀.indexSteps n := by
  have hiter : bc0cIter c = c₀.indexSteps n := by simp only [bc0cIter, h]
  obtain ⟨-, he⟩ | ⟨v, -, ⟨q, len, -, -, he⟩ | ⟨-, he⟩⟩ := bc0cEmit_cases c <;> rw [he] at h <;> cases h
  · exact ⟨Bc0c.emitRef_i c q n, Bc0c.emitRef_x c q n, hiter⟩
  · exact ⟨Bc0c.emitLit_i c v, Bc0c.emitLit_x c v, hiter⟩

theorem bc0cIter_of_emit_none {c : Bc0c} (h : bc0cEmit c = none) : bc0cIter c = c := by simp only [bc0cIter, h]

section
variable {c : Bc0c} (hpr : c.progress = .acting) (hlt : c.i < c.n)
include hpr hlt

theorem bc0cStep_acting {c₀ : Bc0c} {n : Nat} (h : bc0cEmit c = some (c₀, n)) (s : State) :
    bc0cStep c s = .next (resumeBc0c c₀ n s) := by
  rw [bc0cStep, if_pos (by simpa [Bc0c.more] using hlt), if_pos hpr, h]

theorem bc0cStep_acting_of_none (h : bc0cEmit c = none) (s : State) : bc0cStep c s = .next s := by
  rw [bc0cStep, if_pos (by simpa [Bc0c.more] using hlt), if_pos hpr, h]

/-- The step of BC0C in flight: to the end of its iteration, or to the first point `b`, with exactly the positions before `b`
indexed. -/
theorem step_bc0c_acting {s : State} (hsched : s.schedule = []) (hact : s.active = .bc0c c) :
    match notifyPoints c.i (bc0cIter c).i with
    | [] => step s = .next { s with active := .bc0c (bc0cIter c) }
    | b :: _ => ∃ c₀ n, bc0cEmit c = some (c₀, n) ∧ c₀.i = c.i ∧ c₀.x = c.x ∧ c.i < b ∧ b ≤ c.i + n ∧
        (c₀.indexSteps (b - c.i)).i = b ∧ (c₀.indexSteps (b - c.i)).out = (bc0cIter c).out ∧
        (c₀.indexSteps (b - c.i)).indexSteps (c.i + n - b) = bc0cIter c ∧
        step s = .next { s with
          active := .idle
          calls := .bc0c (c₀.indexSteps (b - c.i)) (c.i + n - b) :: s.calls
          notes := s.notes ++ [.bc0c b] } := by
  rw [step_of_bc0c hsched hact]
  cases hemit : bc0cEmit c with
  | none =>
    rw [bc0cIter_of_emit_none hemit, notifyPoints_self, bc0cStep_acting_of_none hpr hlt hemit, ← hact]
  | some e =>
    obtain ⟨c₀, n⟩ := e
    obtain ⟨hi, hx, hiter⟩ := bc0cEmit_frame hemit
    obtain ⟨-, -, hni, hnout, -⟩ := indexSteps_frame n c₀
    rw [bc0cStep_acting hpr hlt hemit, hiter, hni, hnout, ← hi]
    obtain ⟨he, hpts⟩ | ⟨k, left, rfl, hpos, he, hpts⟩ := resumeBc0c_cases c₀ n s
    · rw [hpts, he]
    · obtain ⟨-, -, hki, hkout, -⟩ := indexSteps_frame k c₀
      have hdone : c₀.i + k - c₀.i = k := by omega
      have hleft : c₀.i + (k + left) - (c₀.i + k) = left := by omega
      rw [hpts, he]
      refine ⟨c₀, k + left, rfl, rfl, hx, by omega, by omega, ?_⟩
      rw [hdone, hleft]
      exact ⟨hki, hkout, indexSteps_add k left c₀, rfl⟩

end

/-! ## PRSC: the opcodes emitted before a notified byte (R87, R88) -/

theorem perform_cons {p : Prsc} {m : PrscMove} (hm : m.Inv) (ms : List PrscMove) :
    p.perform (m :: ms) = (p.perform [m]).1.perform ms := by
  cases m with
  | fail e => exact hm.elim
  | _ => rfl

section
variable {p q : Prsc} {ms left : List PrscMove} {b : Nat}

theorem PrscAt.b_eq (h : PrscAt p ms b q left) : q.b = b := by
  obtain ⟨_, _, _, _, _, _, _, hb, _⟩ := h
  exact hb

theorem not_prscAt_nil : ¬PrscAt p [] b q left := by
  rintro ⟨before, n₁, n₂, after, h, -⟩
  simp at h

/-- Moves are interrupted in their first one, which is a commit then, or after it. -/
theorem PrscAt.cons {m : PrscMove} (hm : m.Inv) (h : PrscAt p (m :: ms) b q left) :
    (∃ n₁ n₂, m = .commit (n₁ + n₂) ∧ 0 < n₁ ∧ q = p.commit n₁) ∨ PrscAt (p.perform [m]).1 ms b q left := by
  obtain ⟨before, n₁, n₂, after, hms, hpos, hq, hb, hleft⟩ := h
  cases before with
  | nil =>
    obtain ⟨rfl, -⟩ := List.cons.inj hms
    exact .inl ⟨n₁, n₂, rfl, hpos, hq⟩
  | cons m' before =>
    obtain ⟨rfl, rfl⟩ := List.cons.inj hms
    exact .inr ⟨before, n₁, n₂, after, rfl, hpos, by rw [hq, List.cons_append, perform_cons hm], hb, hleft⟩

/-- Interrupted among prefix literals, exactly those up to the notified byte are emitted (R89). -/
theorem PrscAt.litMoves_append {k : Nat} (hin : p.b + k ≤ p.data.length) (h : PrscAt p (litMoves k ++ ms) b q left) :
    (p.b < b ∧ b ≤ p.b + k ∧ q = p.write (litOps p.data p.b (b - p.b))) ∨
      PrscAt (p.write (litOps p.data p.b k)) ms b q left := by
  induction k generalizing p with
  | zero => exact .inr (by simpa [litMoves, litOps] using h)
  | succ k ih =>
    have hv := List.getElem?_eq_getElem (l := p.data) (i := p.b) (by omega)
    have hlit : p.emitNext.commit 1 = p.write [.lit p.data[p.b]] :=
      congrArg Prod.fst (perform_lit_commit hv [])
    obtain ⟨_, _, hcommit, -⟩ | h := PrscAt.cons (m := .lit) trivial h
    · cases hcommit
    obtain ⟨n₁, n₂, hcommit, hpos, hq⟩ | h := PrscAt.cons (m := .commit 1) trivial h
    · obtain rfl : n₁ = 1 := by injection hcommit; omega
      have hqb : q.b = p.b + 1 := by rw [hq]; simp
      have hb := h.b_eq
      refine .inl ⟨by omega, by omega, ?_⟩
      rw [show b - p.b = 0 + 1 by omega, litOps_succ hv]
      exact hq.trans hlit
    · have hnext : PrscAt (p.write [.lit p.data[p.b]]) (litMoves k ++ ms) b q left := hlit ▸ h
      have hwrite : ∀ n, (p.write [.lit p.data[p.b]]).write (litOps p.data (p.b + 1) n) =
          p.write (litOps p.data p.b (n + 1)) := fun n => by rw [← Prsc.write_append, litOps_succ hv]; rfl
      have hin' : p.b + 1 + k ≤ p.data.length := by omega
      obtain ⟨hlt, hle, hq⟩ | hrest := ih hin' hnext
      · have hlt' : p.b + 1 < b := hlt
        have hle' : b ≤ p.b + 1 + k := hle
        refine .inl ⟨by omega, by omega, hq.trans ?_⟩
        rw [show b - p.b = b - (p.b + 1) + 1 by omega, ← hwrite]
        rfl
      · exact .inr (hwrite k ▸ hrest)

/-- Interrupted in the bytes of a match, its opcode is emitted (R90 to R92). -/
theorem PrscAt.emit_commit {c : Code} (hc : c.bits ≠ []) {len : Nat} (h : PrscAt p [.emit c, .commit len] b q left) :
    p.b < b ∧ q = { p with b := b, w := p.w.emit c } := by
  obtain ⟨_, _, he, -⟩ | h' := PrscAt.cons (m := .emit c) hc h
  · cases he
  obtain ⟨n₁, n₂, -, hpos, hq⟩ | h' := PrscAt.cons (m := .commit len) trivial h'
  · have hqb : q.b = p.b + n₁ := by rw [hq]; simp
    have hb : b = p.b + n₁ := h.b_eq.symm.trans hqb
    exact ⟨by omega, by rw [hq, hb, Prsc.commit_eq]; rfl⟩
  · exact (not_prscAt_nil h').elim

/-- The writer once the literals of the bytes up to `b` are emitted (R89). -/
def literalsTo (p : Prsc) (b : Nat) : PbsWriter :=
  (((p.data.drop p.b).take (b - p.b)).map litCode).foldl PbsWriter.emit p.w

theorem write_litOps {n : Nat} (h : p.b + n ≤ p.data.length) :
    p.write (litOps p.data p.b n) = { p with b := p.b + n, w := literalsTo p (p.b + n) } := by
  rw [Prsc.write, filterMap_encode_litOps, outCount_litOps h, literalsTo, Nat.add_sub_cancel_left]

/-- Interrupted where an Advance has only literals. -/
theorem PrscAt.eq_literalsTo {k : Nat} (hin : p.b + k ≤ p.data.length) (h : PrscAt p (litMoves k) b q left) :
    p.b < b ∧ b ≤ p.b + k ∧ q = { p with b := b, w := literalsTo p b } := by
  obtain ⟨hlt, hle, hq⟩ | h := PrscAt.litMoves_append (ms := []) hin (by rwa [List.append_nil])
  · have hb : p.b + (b - p.b) = b := by omega
    rw [write_litOps (by omega), hb] at hq
    exact ⟨hlt, hle, hq⟩
  · exact (not_prscAt_nil h).elim

/-- The writer where an Advance is interrupted at `b`: the literals up to `b`, or every opcode of the Advance (R87, R88). -/
def notifiedWriter (p : Prsc) (b : Nat) : PbsWriter :=
  match search p.data p.b p.level with
  | none => (advance p).1.w
  | some m => if b ≤ p.b + m.k then literalsTo p b else (advance p).1.w

theorem advance_w_of_literals {k : Nat} (hin : p.b + k ≤ p.data.length) (hplan : advancePlan p = litMoves k) :
    (advance p).1.w = literalsTo p (p.b + k) := by
  rw [advance, hplan, perform_litMoves hin, write_litOps hin]

theorem advance_w_of_match {k len : Nat} {c : Code} (hin : p.b + k ≤ p.data.length)
    (hplan : advancePlan p = litMoves k ++ [.emit c, .commit len]) :
    (advance p).1.w = (literalsTo p (p.b + k)).emit c := by
  rw [advance, hplan, perform_append (perform_litMoves hin), write_litOps hin, perform_emit, perform_commit, perform_nil,
    Prsc.commit_w, Prsc.emit_w]

theorem advancePlan_of_none (hs : search p.data p.b p.level = none) : advancePlan p = litMoves 1 := by
  rw [advancePlan, hs]

/-- With a match, an Advance is one literal more, or the match's opcode after the prefix literals (R86). -/
theorem advancePlan_of_match {m : Match} (hs : search p.data p.b p.level = some m) :
    advancePlan p = litMoves (m.k + 1) ∨
      ∃ c, c.bits ≠ [] ∧ advancePlan p = litMoves m.k ++ [.emit c, .commit m.len] := by
  have hm := search_isCandidateMatch hs
  have hlen := hm.len_le.1
  obtain ⟨⟨-, -, -, -, hd⟩, -, hlen2⟩ := hm
  simp only [advancePlan, hs]
  obtain hsel | ⟨c, hsel, hc⟩ := selectCode_cases hd hlen2 hlen <;> simp only [hsel]
  · exact .inl (litMoves_append_one m.k)
  · exact .inr ⟨c, hc, rfl⟩

/-- The waiting instance is the one before the Advance, with the boundary at the notified byte and the opcodes emitted before
that byte. -/
theorem PrscAt.eq_notified (hlt : p.b < p.data.length) (h : PrscAt p (advancePlan p) b q left) :
    q = { p with b := b, w := notifiedWriter p b } := by
  unfold notifiedWriter
  cases hs : search p.data p.b p.level with
  | none =>
    have hplan := advancePlan_of_none hs
    obtain ⟨hgt, hle, hq⟩ := (hplan ▸ h).eq_literalsTo hlt
    obtain rfl : b = p.b + 1 := by omega
    rw [hq, advance_w_of_literals hlt hplan]
  | some m =>
    have hm := search_isCandidateMatch hs
    have hin := hm.len_le.2
    have hlen2 := hm.2.2
    simp only
    obtain hplan | ⟨c, hc, hplan⟩ := advancePlan_of_match hs
    · have hin' : p.b + (m.k + 1) ≤ p.data.length := by omega
      obtain ⟨-, hle, hq⟩ := (hplan ▸ h).eq_literalsTo hin'
      rw [hq, advance_w_of_literals hin' hplan]
      split
      · rfl
      · rw [show b = p.b + (m.k + 1) by omega]
    · have hin' : p.b + m.k ≤ p.data.length := by omega
      obtain ⟨hgt, hle, hq⟩ | hrest := PrscAt.litMoves_append hin' (hplan ▸ h)
      · rw [if_pos hle, hq, write_litOps (by omega), show p.b + (b - p.b) = b by omega]
      · rw [write_litOps hin'] at hrest
        obtain ⟨hgt, hq⟩ := hrest.emit_commit hc
        rw [if_neg (Nat.not_le_of_lt hgt), hq, advance_w_of_match hin' hplan]

end

/-! ## PRSC: one Advance, to its end or to the first point (R87, R88) -/

/-- While the loop of a job goes on, a byte is ahead and its step is one Advance (R81, R82). -/
theorem loop_condition {slot : Option Nat} {p : Prsc} {job : PrscJob} (hclosing : job = .closing → p.b < p.data.length)
    (hadding : job ≠ .closing → 256 + p.level ≤ p.data.length - p.b) (s : State) :
    p.b < p.data.length ∧ prscStep slot p job s = prscAdvance slot p job s := by
  cases job with
  | closing => exact ⟨hclosing rfl, loopOf_closing.step (more_of_lt (hclosing rfl))⟩
  | adding =>
    have h : p.enough = true := decide_eq_true (hadding nofun)
    exact ⟨enough_lt h, loopOf_adding.step h⟩
  | oneShot =>
    have h : p.enough = true := decide_eq_true (hadding nofun)
    exact ⟨enough_lt h, loopOf_oneShot.step h⟩

/-- The step of PRSC in flight with a byte ahead and its loop going on: to the end of its Advance, or to the first point. -/
theorem step_prsc_acting {s : State} (hsched : s.schedule = []) {slot : Option Nat} {p : Prsc} {job : PrscJob}
    (hact : s.active = .prsc slot p job) (hpr : p.progress = .acting) (hlt : p.b < p.data.length)
    (hgo : prscStep slot p job s = prscAdvance slot p job s) :
    match notifyPoints p.b (advance p).1.b with
    | [] => step s = .next { s with active := .prsc slot (advance p).1 job }
    | b :: _ => ∃ p' left, PrscAt p (advancePlan p) b p' left ∧ p'.perform left = advance p ∧
        p' = { p with b := b, w := notifiedWriter p b } ∧
        step s = .next { s with
          active := .idle
          calls := .prsc slot p' job left :: s.calls
          notes := s.notes ++ [.prsc b] } := by
  obtain ⟨q₀, hq₀, -⟩ := advance_of_lt hlt
  have hstep : step s = .next (resumePrsc slot p job (advancePlan p) s) := by
    rw [step_of_prsc hsched hact, hgo, prscAdvance, if_pos hpr]
  rw [hstep]
  obtain ⟨q, he, hq, hpts⟩ | ⟨q, e, -, hq, -⟩ | ⟨q, left, he, hat, hq, -, hpts⟩ :=
    resumePrsc_cases slot p job (advancePlan p) s
  · rw [advance, hq, hpts, he]
  · rw [advance, hq] at hq₀
    cases hq₀
  · rw [← advance] at hpts hq
    rw [hpts, he]
    exact ⟨q, left, hat, hq, hat.eq_notified hlt, rfl⟩

/-- Settles O56: the commands as they are issued, then one step of each compressor in flight and of each that returns from its
callback, to its end or to the first point. -/
theorem actingCallbackRunsInsideItsCommand : Obligations.ActingCallbackRunsInsideItsCommand := by
  refine ⟨fun s bytes level hidle => ?_, fun s c hsched hact hpr hlt => step_bc0c_acting hpr hlt hsched hact, ?_, ?_⟩
  · exact ⟨exec_prsCompress_acting hidle bytes level, exec_bc0Compress_acting hidle bytes,
      fun h p hp hpr hopen hfailed =>
        ⟨exec_prscAdd_acting hidle hp hpr hopen hfailed bytes, exec_prscClose_acting hidle hp hpr hopen hfailed⟩⟩
  · intro s slot p job hsched hact hpr hclosing hadding
    obtain ⟨hlt, hgo⟩ := loop_condition (slot := slot) hclosing hadding s
    exact step_prsc_acting hsched hact hpr hlt hgo
  · intro s cs rest hsched hidle hhost
    refine ⟨fun c left hcalls => ?_, fun slot p job left hcalls hms => ?_⟩
    · obtain ⟨he, hpts⟩ | ⟨k, left', rfl, -, he, hpts⟩ := step_return_bc0c hsched hidle hhost hcalls
      · rw [hpts]
        exact he
      · have hdone : c.i + k - c.i = k := by omega
        have hleft : c.i + (k + left') - (c.i + k) = left' := by omega
        rw [hpts]
        simpa only [hdone, hleft] using he
    · obtain ⟨q₀, hq₀, -⟩ := perform_of_inv hms p
      obtain ⟨q, he, hq, hpts⟩ | ⟨q, e, -, hq⟩ | ⟨q, left', he, hat, hq, -, hpts⟩ :=
        step_return_prsc hsched hidle hhost hcalls
      · rw [hq, hpts]
        exact he
      · rw [hq] at hq₀
        cases hq₀
      · rw [hpts]
        exact ⟨q, left', hat, hq, he⟩

end Sys2Proof.Machine
end

section
/-!
PROOFS. Family 45_host_interface: a command with an acting callback whose host only returns ends as with a callback that
returns at once (R88, R114, R124, R126, R132).
-/

namespace Sys2Proof.Machine

theorem bc0cRun_n (n : Nat) (c : Bc0c) : (bc0cRun n c).n = c.n := by
  induction n generalizing c with
  | zero => rfl
  | succ n ih =>
    rw [bc0cRun]
    split
    · exact (ih _).trans (bc0cIter_frame c).2.1
    · rfl

/-! ## A command on its way, each of its callbacks returned from -/

/-- Where `n` steps come to `t`, the steps after them are those of `t`. -/
theorem run_add {n : Nat} {s t : State} (h : Host.Core.run Sys2Proof.core n s = .next t) (m : Nat) :
    Host.Core.run Sys2Proof.core (n + m) s = Host.Core.run Sys2Proof.core m t := by
  induction n generalizing s with
  | zero => cases h; rw [Nat.zero_add]
  | succ n ih =>
    rw [run_succ] at h
    rw [Nat.add_right_comm, run_succ]
    cases hs : step s with
    | next u => rw [hs] at h; exact ih h
    | fault r => rw [hs] at h; cases h
    | refused r => rw [hs] at h; cases h

theorem LeadsTo.trans {o : Out} {t : State} {o' : Out} (h : LeadsTo o (.next t)) (h' : LeadsTo (.next t) o') :
    LeadsTo o o' := by
  obtain ⟨n, hn⟩ := h
  obtain ⟨m, hm⟩ := h'
  refine ⟨n + m, ?_⟩
  rw [← hm]
  cases o with
  | next s => exact run_add hn m
  | fault r => cases hn
  | refused r => cases hn

/-- The thread of `s` with `f` in flight, `acts` to come, and `ns` as its notifications so far. -/
def State.onWay (s : State) (f : Flight) (acts : List HostAction) (ns : List Note) : State :=
  { s with host := acts, active := f, notes := ns }

/-- The host returns from `n` callbacks, and then goes on with `rest`. -/
def returnsThen (n : Nat) (rest : List HostAction) : List HostAction := List.replicate n .callbackReturn ++ rest

theorem returnsThen_zero (rest : List HostAction) : returnsThen 0 rest = rest := rfl

theorem returnsThen_succ (n : Nat) (rest : List HostAction) :
    returnsThen (n + 1) rest = .callbackReturn :: returnsThen n rest := rfl

theorem returnsThen_add (n m : Nat) (rest : List HostAction) :
    returnsThen (n + m) rest = returnsThen n (returnsThen m rest) := by
  rw [returnsThen, List.replicate_add, List.append_assoc]
  rfl

/-- From `f` in flight, with a return to come for each of the notifications `new`, some steps come to `g` in flight, those
notifications made and the returns taken. -/
def Answered (s : State) (f g : Flight) (new : List Note) : Prop :=
  ∀ rest ns, LeadsTo (.next (s.onWay f (returnsThen new.length rest) ns)) (.next (s.onWay g rest (ns ++ new)))

section
variable {s : State} {f g k : Flight} {a b : List Note}

theorem Answered.refl : Answered s f f [] := fun rest ns => by
  rw [List.append_nil]
  exact .refl _

theorem Answered.trans (h : Answered s f g a) (h' : Answered s g k b) : Answered s f k (a ++ b) := fun rest ns => by
  rw [List.length_append, returnsThen_add, ← List.append_assoc]
  exact (h _ ns).trans (h' rest _)

/-- A step without a notification. -/
theorem Answered.of_step (h : ∀ rest ns, step (s.onWay f rest ns) = .next (s.onWay g rest ns)) : Answered s f g [] :=
  fun rest ns => .step (by rw [List.append_nil, List.length_nil]; exact h rest ns ▸ .refl _)

variable (hsched : s.schedule = [])
include hsched

theorem step_onWay_prsc (slot : Option Nat) (p : Prsc) (job : PrscJob) (acts : List HostAction) (ns : List Note) :
    step (s.onWay (.prsc slot p job) acts ns) = prscStep slot p job (s.onWay (.prsc slot p job) acts ns) :=
  step_of_prsc (s := s.onWay (.prsc slot p job) acts ns) hsched rfl

theorem step_onWay_bc0c (c : Bc0c) (acts : List HostAction) (ns : List Note) :
    step (s.onWay (.bc0c c) acts ns) = bc0cStep c (s.onWay (.bc0c c) acts ns) :=
  step_of_bc0c (s := s.onWay (.bc0c c) acts ns) hsched rfl

/-- Where a callback is called and the host returns from it, its command goes on. -/
theorem step_return_of_callBack (call : Call) (n : Note) (acts : List HostAction) (ns : List Note) :
    step ((s.onWay f (.callbackReturn :: acts) ns).callBack call n) =
      returnCallback { s.onWay .idle acts (ns ++ [n]) with calls := call :: s.calls } :=
  step_callbackReturn (s := (s.onWay f (.callbackReturn :: acts) ns).callBack call n) hsched rfl rfl

/-! ## BC0C (R111, R114, R126) -/

/-- The index steps of an iteration, to their end. -/
theorem resumeBc0c_answered {c : Bc0c} {n : Nat} {pts : List Nat} (hpts : notifyPoints c.i (c.i + n) = pts) (f : Flight)
    (rest : List HostAction) (ns : List Note) :
    LeadsTo (.next (resumeBc0c c n (s.onWay f (returnsThen pts.length rest) ns)))
      (.next (s.onWay (.bc0c (c.indexSteps n)) rest (ns ++ pts.map .bc0c))) := by
  induction pts generalizing c n f ns with
  | nil =>
    obtain ⟨he, -⟩ | ⟨k, left, -, -, -, hpts'⟩ := resumeBc0c_cases c n (s.onWay f rest ns)
    · rw [List.length_nil, returnsThen_zero, he, List.map_nil, List.append_nil]
      exact .refl _
    · rw [hpts] at hpts'
      cases hpts'
  | cons b pts ih =>
    obtain ⟨-, hpts'⟩ | ⟨k, left, rfl, -, he, hpts'⟩ := resumeBc0c_cases c n
      (s.onWay f (.callbackReturn :: returnsThen pts.length rest) ns)
    · rw [hpts] at hpts'
      cases hpts'
    · rw [hpts] at hpts'
      obtain ⟨rfl, rfl⟩ := List.cons.inj hpts'
      have hi : (c.indexSteps k).i = c.i + k := (indexSteps_frame k c).2.2.1
      have hrest := ih (c := c.indexSteps k) (n := left) (by rw [hi, Nat.add_assoc]) .idle (ns ++ [.bc0c (c.i + k)])
      rw [indexSteps_add, List.append_assoc] at hrest
      rw [List.length_cons, returnsThen_succ, he]
      refine .step ?_
      rw [step_return_of_callBack hsched]
      exact hrest

/-- One iteration. -/
theorem bc0cIter_answered {c : Bc0c} (hpr : c.progress = .acting) (hmore : c.more = true) :
    Answered s (.bc0c c) (.bc0c (bc0cIter c)) ((notifyPoints c.i (bc0cIter c).i).map .bc0c) := by
  have hlt : c.i < c.n := of_decide_eq_true hmore
  cases hemit : bc0cEmit c with
  | none =>
    rw [bc0cIter_of_emit_none hemit, notifyPoints_self]
    exact .of_step fun rest ns => by rw [step_onWay_bc0c hsched, bc0cStep_acting_of_none hpr hlt hemit]
  | some e =>
    obtain ⟨c₀, n⟩ := e
    obtain ⟨hi, -, hiter⟩ := bc0cEmit_frame hemit
    rw [hiter, (indexSteps_frame n c₀).2.2.1, ← hi]
    intro rest ns
    refine .step ?_
    rw [step_onWay_bc0c hsched, bc0cStep_acting hpr hlt hemit, List.length_map]
    exact resumeBc0c_answered hsched rfl _ rest ns

theorem bc0cRun_answered {c : Bc0c} (hpr : c.progress = .acting) (n : Nat) :
    Answered s (.bc0c c) (.bc0c (bc0cRun n c)) ((notifyPoints c.i (bc0cRun n c).i).map .bc0c) := by
  induction n generalizing c with
  | zero => rw [bc0cRun, notifyPoints_self]; exact .refl
  | succ n ih =>
    cases hmore : c.more with
    | false => rw [bc0cRun_of_not_more hmore, notifyPoints_self]; exact .refl
    | true =>
      obtain ⟨-, -, hpr', hle, -⟩ := bc0cIter_frame c
      rw [bc0cRun, if_pos hmore, notifyPoints_append hle (bc0cRun_i_le n _), List.map_append]
      exact (bc0cIter_answered hsched hpr hmore).trans (ih (hpr'.trans hpr))

/-! ## PRSC (R81, R82, R87, R88) -/

/-- The moves of an Advance, to their end. -/
theorem resumePrsc_answered {slot : Option Nat} {job : PrscJob} {p q : Prsc} {ms : List PrscMove} {pts : List Nat}
    (hq : p.perform ms = (q, none)) (hpts : notifyPoints p.b q.b = pts) (f : Flight) (rest : List HostAction)
    (ns : List Note) :
    LeadsTo (.next (resumePrsc slot p job ms (s.onWay f (returnsThen pts.length rest) ns)))
      (.next (s.onWay (.prsc slot q job) rest (ns ++ pts.map .prsc))) := by
  induction pts generalizing p ms f ns with
  | nil =>
    obtain ⟨q', he, hq', -⟩ | ⟨q', e, -, hq', -⟩ | ⟨q', left, -, -, -, -, hpts'⟩ :=
      resumePrsc_cases slot p job ms (s.onWay f rest ns)
    · rw [hq] at hq'
      cases hq'
      rw [List.length_nil, returnsThen_zero, he, List.map_nil, List.append_nil]
      exact .refl _
    · rw [hq] at hq'
      cases hq'
    · rw [hq, hpts] at hpts'
      cases hpts'
  | cons b pts ih =>
    obtain ⟨q', -, hq', hpts'⟩ | ⟨q', e, -, hq', -⟩ | ⟨q', left, he, -, hq', -, hpts'⟩ :=
      resumePrsc_cases slot p job ms (s.onWay f (.callbackReturn :: returnsThen pts.length rest) ns)
    · rw [hq] at hq'
      cases hq'
      rw [hpts] at hpts'
      cases hpts'
    · rw [hq] at hq'
      cases hq'
    · rw [hq, hpts] at hpts'
      obtain ⟨rfl, rfl⟩ := List.cons.inj hpts'
      have hrest := ih (hq'.trans hq) rfl .idle (ns ++ [.prsc q'.b])
      rw [List.append_assoc] at hrest
      rw [List.length_cons, returnsThen_succ, he]
      refine .step ?_
      rw [step_return_of_callBack hsched]
      exact hrest

/-- One Advance. -/
theorem advance_answered {slot : Option Nat} {job : PrscJob} {p : Prsc} (hpr : p.progress = .acting)
    (hlt : p.b < p.data.length) (hgo : ∀ t, prscStep slot p job t = prscAdvance slot p job t) :
    Answered s (.prsc slot p job) (.prsc slot (advance p).1 job)
      ((notifyPoints p.b (advance p).1.b).map .prsc) := by
  obtain ⟨q, hq, -⟩ := advance_of_lt hlt
  rw [hq]
  intro rest ns
  refine .step ?_
  rw [step_onWay_prsc hsched, hgo, prscAdvance, if_pos hpr, List.length_map]
  exact resumePrsc_answered hsched hq rfl _ rest ns

/-- A job's loop, to its end. -/
theorem advanceWhile_answered {go : Prsc → Bool} {slot : Option Nat} {job : PrscJob} (hgo : LoopOf go job) (p : Prsc)
    (hpr : p.progress = .acting) :
    Answered s (.prsc slot p job) (.prsc slot (advanceWhile go (p.data.length - p.b) p).1 job)
      ((notifyPoints p.b (advanceWhile go (p.data.length - p.b) p).1.b).map .prsc) := by
  induction p using advance_induction with
  | h p ih =>
    cases h : go p with
    | false => rw [advanceWhile_of_not_go h, notifyPoints_self]; exact .refl
    | true =>
      have hlt := hgo.ahead h
      obtain ⟨-, -, hpr', -, -, hle⟩ := advance_frame p
      have hle' := (advanceWhile_frame go ((advance p).1.data.length - (advance p).1.b) (advance p).1).2.2.2.2.2
      rw [advanceWhile_succ_of_go (fun _ => hgo.ahead) h, notifyPoints_append hle hle', List.map_append]
      exact (advance_answered hsched hpr hlt fun _ => hgo.step h).trans (ih hlt (hpr'.trans hpr))

theorem toClosing_answered {slot : Option Nat} {p : Prsc} (h : p.enough = false) :
    Answered s (.prsc slot p .oneShot) (.prsc slot p .closing) [] :=
  .of_step fun rest ns => by
    rw [step_onWay_prsc hsched, prscStep, if_neg (by simp [h])]
    rfl

end

/-! ## From the first step to the last -/

/-- A command that goes in flight at its first step comes to the step from the end of its way. -/
theorem run_of_answered {u v : State} {f g : Flight} {new : List Note} {rest : List HostAction}
    (hfirst : step u = .next (v.onWay f (returnsThen new.length rest) v.notes)) (hway : Answered v f g new) :
    ∃ n, Host.Core.run Sys2Proof.core n u = step (v.onWay g rest (v.notes ++ new)) := by
  have hlast : LeadsTo (.next (v.onWay g rest (v.notes ++ new))) (step (v.onWay g rest (v.notes ++ new))) :=
    .step (.refl _)
  have hall : LeadsTo (.next u) (step (v.onWay g rest (v.notes ++ new))) :=
    .step (hfirst ▸ (hway rest v.notes).trans hlast)
  exact hall

theorem notifyPoints_zero_length (n : Nat) : (notifyPoints 0 n).length = n / 4096 := by
  simp only [notifyPoints_zero, List.length_map, List.length_range]

theorem progressNotes_returning (mk : Nat → Note) (n : Nat) :
    progressNotes .returning mk n = (notifyPoints 0 n).map mk := by
  rw [progressNotes, if_neg nofun, notifyPoints_zero, List.map_map]
  rfl

/-! ## The commands of no instance (R124, R126) -/

section
variable {s : State} (hsched : s.schedule = [])
include hsched

/-- `prs_compress` goes through both loops, with every notification of its input. -/
theorem prsCompress_answered (bytes : Bytes) (level : Nat) :
    Answered s (.prsc none (Prsc.loaded bytes level .acting) .oneShot)
      (.prsc none (closeLoop (Prsc.loaded bytes level .acting)).1 .closing)
      ((notifyPoints 0 bytes.length).map .prsc) := by
  have hinv := loaded_inv bytes level .acting
  obtain ⟨q, hq, -, -, hend⟩ := addLoop_ready hinv rfl
  obtain ⟨-, -, hpr, -, -, hle⟩ := advanceWhile_frame Prsc.enough _ (Prsc.loaded bytes level .acting)
  have hadd := advanceWhile_answered hsched (slot := none) loopOf_oneShot (Prsc.loaded bytes level .acting) rfl
  rw [← addLoop, hq] at hpr hle hadd
  have hclose := advanceWhile_answered hsched (slot := none) loopOf_closing q hpr
  have hle' := (advanceWhile_frame Prsc.more (q.data.length - q.b) q).2.2.2.2.2
  have hsame : closeLoop q = closeLoop (Prsc.loaded bytes level .acting) :=
    (congrArg (fun e => closeLoop e.1) hq).symm.trans (closeLoop_addLoop _)
  rw [← closeLoop, hsame, closeLoop_b hinv rfl] at hclose hle'
  have hway := hadd.trans ((toClosing_answered hsched hend).trans hclose)
  rw [List.nil_append, ← List.map_append, ← notifyPoints_append hle hle'] at hway
  exact hway

variable (hidle : s.active = .idle)
include hidle

theorem step_launch_prsCompress (bytes : Bytes) (level : Nat) (acts : List HostAction) :
    step { s with host := .launch (.prsCompress bytes level .acting) :: acts } =
      .next (s.onWay (.prsc none (Prsc.loaded bytes level .acting) .oneShot) acts s.notes) := by
  rw [step_launch hsched hidle, launch, whenIdle_of_idle _ _ (by exact hidle)]
  rfl

theorem step_launch_bc0Compress (bytes : Bytes) (acts : List HostAction) :
    step { s with host := .launch (.bc0Compress bytes .acting) :: acts } =
      .next (s.onWay (.bc0c (Bc0c.start bytes .acting)) acts s.notes) := by
  rw [step_launch hsched hidle, launch, whenIdle_of_idle _ _ (by exact hidle)]
  rfl

/-- The last step of `prs_compress` returns the stream. -/
theorem step_onWay_closing (bytes : Bytes) (level : Nat) (rest : List HostAction) (ns : List Note) :
    step (s.onWay (.prsc none (closeLoop (Prsc.loaded bytes level .acting)).1 .closing) rest ns) = .next { s with
      host := rest
      responses := s.responses ++ [.ok (.bytes (stoppedStream (streamOps bytes level)))]
      notes := ns } := by
  obtain ⟨q, hq, -, -, hend⟩ := closeLoop_ready (loaded_inv bytes level .acting) rfl
  have hresult := prsCompress_result bytes level .acting
  rw [prsCompress_eq, hq] at hresult
  rw [hq, step_onWay_prsc hsched, prscStep, if_neg (by simp [hend]), ← hresult]
  exact congrArg Host.Outcome.next
    (returnOk_fly (s := { s with host := rest, notes := ns }) hidle (f := .prsc none q.terminate .closing) nofun _)

/-- The last step of `bc0_compress` returns the stream. -/
theorem step_onWay_bc0Compress (bytes : Bytes) (rest : List HostAction) (ns : List Note) :
    step (s.onWay (.bc0c (bc0Compress bytes .acting)) rest ns) = .next { s with
      host := rest
      responses := s.responses ++ [.ok (.bytes (bc0Stream bytes))]
      notes := ns } := by
  have hend : (bc0Compress bytes .acting).more = false := by
    rw [Bc0c.more, bc0Compress_i, bc0Compress, bc0cRun_n]
    exact decide_eq_false (Nat.lt_irrefl _)
  rw [step_onWay_bc0c hsched, bc0cStep, if_neg (by simp [hend]), bc0Compress_out]
  exact congrArg Host.Outcome.next
    (returnOk_fly (s := { s with host := rest, notes := ns }) hidle (f := .bc0c (bc0Compress bytes .acting)) nofun _)

theorem prsCompress_acting_agrees (bytes : Bytes) (level : Nat) (rest : List HostAction) :
    ∃ n, Host.Core.run Sys2Proof.core n { s with
        host := .launch (.prsCompress bytes level .acting) :: returnsThen (bytes.length / 4096) rest } =
      exec (.prsCompress bytes level .returning) { s with host := rest } := by
  obtain ⟨n, hn⟩ := run_of_answered (rest := rest) (step_launch_prsCompress hsched hidle bytes level _)
    (prsCompress_answered hsched bytes level)
  rw [List.length_map, notifyPoints_zero_length] at hn
  refine ⟨n, hn.trans ?_⟩
  rw [step_onWay_closing hsched hidle, exec_prsCompress_passive (s := { s with host := rest }) hidle bytes level rfl,
    progressNotes_returning]

theorem bc0Compress_acting_agrees (bytes : Bytes) (rest : List HostAction) :
    ∃ n, Host.Core.run Sys2Proof.core n { s with
        host := .launch (.bc0Compress bytes .acting) :: returnsThen (bytes.length / 4096) rest } =
      exec (.bc0Compress bytes .returning) { s with host := rest } := by
  have hway := bc0cRun_answered hsched (c := Bc0c.start bytes .acting) rfl bytes.length
  rw [← bc0Compress, bc0Compress_i, Bc0c.start_i] at hway
  obtain ⟨n, hn⟩ := run_of_answered (rest := rest) (step_launch_bc0Compress hsched hidle bytes _) hway
  rw [List.length_map, notifyPoints_zero_length] at hn
  refine ⟨n, hn.trans ?_⟩
  rw [step_onWay_bc0Compress hsched hidle, exec_bc0Compress_passive (s := { s with host := rest }) hidle bytes rfl,
    progressNotes_returning]

end

/-! ## The callback has no part in what PRSC's loops do (R132) -/

/-- The same instance with another callback. -/
def Prsc.withCallback (p : Prsc) (pr : Progress) : Prsc := { p with progress := pr }

section
variable {p : Prsc} {pr : Progress}

theorem Prsc.withCallback_self (h : p.progress = pr) : p.withCallback pr = p := by
  rw [Prsc.withCallback, ← h]

theorem Prsc.Inv.withCallback (h : Prsc.Inv p) (pr : Progress) : Prsc.Inv (p.withCallback pr) :=
  ⟨h.b_le, h.not_failed, h.open_writer, h.closed_result⟩

theorem advance_withCallback (hlt : p.b < p.data.length) :
    (advance (p.withCallback pr)).1 = (advance p).1.withCallback pr := by
  rw [advance_eq_write hlt, advance_eq_write (p := p.withCallback pr) hlt]
  rfl

/-- Advances while a condition holds that the callback has no part in. -/
theorem advanceWhile_withCallback {go : Prsc → Bool} (hahead : ∀ q, go q = true → q.b < q.data.length)
    (hgo : ∀ q, go (q.withCallback pr) = go q) (n : Nat) (p : Prsc) :
    (advanceWhile go n (p.withCallback pr)).1 = (advanceWhile go n p).1.withCallback pr := by
  induction n generalizing p with
  | zero => rfl
  | succ n ih =>
    cases h : go p with
    | false => rw [advanceWhile_of_not_go h, advanceWhile_of_not_go ((hgo p).trans h)]
    | true =>
      have hlt := hahead p h
      rw [advanceWhile_of_go h hlt, advanceWhile_of_go ((hgo p).trans h) hlt, advance_withCallback hlt, ih]

theorem addLoop_withCallback (p : Prsc) : (addLoop (p.withCallback pr)).1 = (addLoop p).1.withCallback pr :=
  advanceWhile_withCallback (fun _ => enough_lt) (fun _ => rfl) _ p

theorem closeLoop_withCallback (p : Prsc) : (closeLoop (p.withCallback pr)).1 = (closeLoop p).1.withCallback pr :=
  advanceWhile_withCallback (fun _ => more_lt) (fun _ => rfl) _ p

end

/-! ## ADD and CLOSE on the host's instance (R81, R82) -/

section
variable {s : State} (hsched : s.schedule = []) (hidle : s.active = .idle) {h : Nat} {p : Prsc}
  (hp : s.prscs[h]? = some (.live p))
include hsched hidle hp

/-- An issued command that goes in flight on instance `h`, and after its way gives the instance back with a response. -/
theorem run_issued {i : Instr} {p₀ q q' : Prsc} {job : PrscJob} {new : List Note} {r : Result} (rest : List HostAction)
    (hissue : ∀ t : State, t.active = .idle → t.prscs[h]? = some (.live p) →
      exec i t = .next { t.setSlot h .inFlight with active := .prsc (some h) p₀ job })
    (hway : Answered (s.setSlot h .inFlight) (.prsc (some h) p₀ job) (.prsc (some h) q job) new)
    (hlast : ∀ t : State, t.active = .prsc (some h) q job →
      prscStep (some h) q job t = .next (State.returnOk { t with active := .prsc (some h) q' job } r)) :
    ∃ n, Host.Core.run Sys2Proof.core n { s with host := .issue i :: returnsThen new.length rest } = .next { s with
      host := rest
      prscs := s.prscs.set h (.live q')
      responses := s.responses ++ [.ok r]
      notes := s.notes ++ new } := by
  have hfirst : step { s with host := .issue i :: returnsThen new.length rest } =
      .next ((s.setSlot h .inFlight).onWay (.prsc (some h) p₀ job) (returnsThen new.length rest) s.notes) := by
    rw [step_issue (s := { s with host := .issue i :: returnsThen new.length rest }) hsched hidle rfl]
    exact hissue { s with host := returnsThen new.length rest } hidle hp
  obtain ⟨n, hn⟩ := run_of_answered hfirst hway
  refine ⟨n, hn.trans ?_⟩
  have hh := (List.getElem?_eq_some_iff.mp hp).1
  rw [step_onWay_prsc (s := s.setSlot h .inFlight) hsched, hlast _ rfl]
  exact congrArg Host.Outcome.next
    (returnOk_inFlight (s := { s with host := rest, notes := s.notes ++ new }) hidle hh q' job r)

variable (hpr : p.progress = .acting) (hopen : p.closed = false) (hinv : Prsc.Inv p)
include hpr hopen hinv

theorem run_prscAdd_acting (bytes : Bytes) (rest : List HostAction) :
    ∃ n, Host.Core.run Sys2Proof.core n { s with
        host := .issue (.prscAdd h bytes) ::
          returnsThen ((notifyPoints p.b (addLoop (p.append bytes)).1.b).map Note.prsc).length rest } =
      .next { s with
        host := rest
        prscs := s.prscs.set h (.live (addLoop (p.append bytes)).1)
        responses := s.responses ++ [.ok .unit]
        notes := s.notes ++ (notifyPoints p.b (addLoop (p.append bytes)).1.b).map .prsc } := by
  obtain ⟨q, hq, -, -, hend⟩ := addLoop_ready (hinv.append hopen bytes) hopen
  refine run_issued hsched hidle hp rest
    (fun t hidle' hp' => exec_prscAdd_acting hidle' hp' hpr hopen hinv.not_failed bytes)
    (advanceWhile_answered (s := s.setSlot h .inFlight) hsched loopOf_adding (p.append bytes) hpr) fun t ht => ?_
  rw [← addLoop, hq] at ht
  rw [← addLoop, hq, prscStep, if_neg (by simp [hend]), ← ht]

theorem run_prscClose_acting (rest : List HostAction) :
    ∃ n, Host.Core.run Sys2Proof.core n { s with
        host := .issue (.prscClose h) ::
          returnsThen ((notifyPoints p.b (closeLoop p).1.b).map Note.prsc).length rest } =
      .next { s with
        host := rest
        prscs := s.prscs.set h (.live (closeLoop p).1.terminate)
        responses := s.responses ++ [.ok (.bytes (closeLoop p).1.terminate.result)]
        notes := s.notes ++ (notifyPoints p.b (closeLoop p).1.b).map .prsc } := by
  obtain ⟨q, hq, -, -, hend⟩ := closeLoop_ready hinv hopen
  refine run_issued hsched hidle hp rest
    (fun t hidle' hp' => exec_prscClose_acting hidle' hp' hpr hopen hinv.not_failed)
    (advanceWhile_answered (s := s.setSlot h .inFlight) hsched loopOf_closing p hpr) fun t _ => ?_
  rw [← closeLoop, hq, prscStep, if_neg (by simp [hend])]

end

section
variable {s : State} (hidle : s.active = .idle) {h : Nat} {p : Prsc} (hp : s.prscs[h]? = some (.live p))
  (hopen : p.closed = false) (hinv : Prsc.Inv p)
include hidle hp hopen hinv

/-- ADD on the instance with a callback that returns at once. -/
theorem exec_prscAdd_returning (bytes : Bytes) :
    exec (.prscAdd h bytes) { s with prscs := s.prscs.set h (.live (p.withCallback .returning)) } = .next { s with
      prscs := s.prscs.set h (.live ((addLoop (p.append bytes)).1.withCallback .returning))
      responses := s.responses ++ [.ok .unit]
      notes := s.notes ++ (notifyPoints p.b (addLoop (p.append bytes)).1.b).map .prsc } := by
  have hh := (List.getElem?_eq_some_iff.mp hp).1
  have hadd : prscAdd bytes (p.withCallback .returning) =
      ((addLoop (p.append bytes)).1.withCallback .returning, none) := by
    obtain ⟨q, hq, -⟩ := addLoop_ready ((hinv.withCallback .returning).append hopen bytes) hopen
    have hsame : (addLoop ((p.withCallback .returning).append bytes)).1 =
        (addLoop (p.append bytes)).1.withCallback .returning := addLoop_withCallback (p.append bytes)
    rw [prscAdd_of_open (p := p.withCallback .returning) hopen hinv.not_failed, ← hsame, hq]
  rw [exec_prscAdd_passive (s := { s with prscs := s.prscs.set h (.live (p.withCallback .returning)) }) hidle
    (List.getElem?_set_self hh) rfl hadd]
  simp only [List.set_set]
  rfl

/-- CLOSE on the instance with a callback that returns at once. -/
theorem exec_prscClose_returning :
    exec (.prscClose h) { s with prscs := s.prscs.set h (.live (p.withCallback .returning)) } = .next { s with
      prscs := s.prscs.set h (.live ((closeLoop p).1.terminate.withCallback .returning))
      responses := s.responses ++ [.ok (.bytes (closeLoop p).1.terminate.result)]
      notes := s.notes ++ (notifyPoints p.b (closeLoop p).1.b).map .prsc } := by
  have hh := (List.getElem?_eq_some_iff.mp hp).1
  have hclose : prscClose (p.withCallback .returning) = ((closeLoop p).1.terminate.withCallback .returning, none) := by
    rw [prscClose_of_open (hinv.withCallback .returning) hopen, closeLoop_withCallback]
    rfl
  rw [exec_prscClose_passive (s := { s with prscs := s.prscs.set h (.live (p.withCallback .returning)) }) hidle
    (List.getElem?_set_self hh) rfl hclose]
  simp only [List.set_set]
  rfl

end

/-- Settles O58: the way of each command with its callbacks returned from, against the same command in one step. -/
theorem callbacksChangeNoResult : Obligations.CallbacksChangeNoResult := by
  intro s rest bytes hsched hidle
  refine ⟨fun level => prsCompress_acting_agrees hsched hidle bytes level rest,
    bc0Compress_acting_agrees hsched hidle bytes rest, ?_⟩
  rintro h p i hp hpr hopen hinv (rfl | rfl)
  · have hself : (addLoop (p.append bytes)).1.withCallback .acting = (addLoop (p.append bytes)).1 :=
      Prsc.withCallback_self ((advanceWhile_frame _ _ _).2.2.1.trans hpr)
    have hrun := run_prscAdd_acting hsched hidle hp hpr hopen hinv bytes rest
    rw [← hself] at hrun
    exact ⟨_, _, _, exec_prscAdd_returning hidle hp hopen hinv bytes, hrun⟩
  · have hself : (closeLoop p).1.terminate.withCallback .acting = (closeLoop p).1.terminate :=
      Prsc.withCallback_self ((advanceWhile_frame _ _ _).2.2.1.trans hpr)
    have hrun := run_prscClose_acting hsched hidle hp hpr hopen hinv rest
    rw [← hself] at hrun
    exact ⟨_, _, _, exec_prscClose_returning hidle hp hopen hinv, hrun⟩

end Sys2Proof.Machine
end

section
/-!
PROOFS. Family 60_exceptions: the output bound, the closed instance, and how far ADD and CLOSE reach (R125, R132, R135,
R138, R148).
-/

namespace Sys2Proof.Machine

/-! ## The output bound (R106, R138) -/

theorem limitError_of_lt {maxOut n : Nat} (hbounded : maxOut ≠ 0) (hlt : maxOut < n) :
    limitError maxOut n = some (.resourceLimit n) := by
  simp [limitError, overLimit, hbounded, hlt]

/-- Settles O12: for a literal, and for a copy from inside the output, the bound is the only check there is. -/
theorem outputBoundRaisesResourceLimit : Obligations.OutputBoundRaisesResourceLimit := by
  intro s p i n hp hop hbounded hlt
  have hlimit := limitError_of_lt hbounded hlt
  obtain ⟨v, rfl, rfl⟩ | ⟨off, cnt, hcopy, hneg, hsrc, rfl⟩ := hop
  · exact exec_prsOp_raised hp rfl (prsdOp_of_error hlimit)
  · have herr := (prsOpError_of_isPrsCopy hcopy p.maxOut p.outLen).trans (copyError_of_inside hneg hsrc _ cnt)
    exact exec_prsOp_raised hp (isPrsOp_of_isPrsCopy hcopy) (prsdOp_of_error (herr.trans hlimit))

/-! ## The closed instance (R135) -/

theorem addError_of_closed {p : Prsc} (hclosed : p.closed = true) : addError p = some addAfterClose := if_pos hclosed

/-- Settles O37: ADD is over at its check of `closed`, and CLOSE has its result. -/
theorem closedInstanceRefusesAddAndKeepsItsResult : Obligations.ClosedInstanceRefusesAddAndKeepsItsResult :=
  fun _ _ _ bytes hidle hp hclosed =>
    ⟨exec_prscAdd_of_addError hidle hp (addError_of_closed hclosed) bytes, exec_prscClose_of_closed hidle hp hclosed⟩

/-! ## What ADD and CLOSE can do (R125, R132, R148) -/

/-- The states in which a command on instance `h` can leave `s`: it has ended, its notifications made, the instance back
in its slot and its response given; or it is in flight for an acting callback (log entries 1 and 4). -/
inductive PrscCommandNext (s : State) (h : Nat) : State → Prop where
  | ended (q : Prsc) (r : Response) (ns : List Note) :
      PrscCommandNext s h (prscDone h q r { s with notes := s.notes ++ ns })
  | inFlight (q : Prsc) (job : PrscJob) : q.progress = .acting →
      PrscCommandNext s h { s.setSlot h .inFlight with active := .prsc (some h) q job }

section
variable {s t : State} {h : Nat} {p : Prsc}

/-- A command that ends where it is checked is over, with its instance as it was. -/
theorem PrscCommandNext.respond (hp : s.prscs[h]? = some (.live p)) (r : Response) :
    PrscCommandNext s h (s.respond r) := by
  have hended := PrscCommandNext.ended (s := s) (h := h) p r []
  rwa [List.append_nil, prscDone_self hp] at hended

/-- A command done in one step is over after its notifications. -/
theorem andThen_prscDone_next {q : Prsc} {r : Response}
    (hn : andThen (prscNotify p q s) (fun s => .next (prscDone h q r s)) = .next t) : PrscCommandNext s h t := by
  obtain ⟨u, hnotify, hdone⟩ := andThen_next_iff.mp hn
  obtain ⟨ns, rfl⟩ := notify_next hnotify
  cases hdone
  exact .ended q r ns

/-- Everything ADD can do: be over at its checks, go in flight for an acting callback, or end in one step (R81). -/
theorem exec_prscAdd_next {bytes : Bytes} (hn : exec (.prscAdd h bytes) s = .next t) : PrscCommandNext s h t := by
  obtain ⟨hidle, hlive⟩ := whenIdle_next hn
  obtain ⟨p, hp, hrun⟩ := withPrsc_next hlive
  by_cases hpr : p.progress = .acting
  · cases he : addError p with
    | some e =>
      rw [exec_prscAdd_of_addError hidle hp he] at hn
      cases hn
      exact .respond hp _
    | none =>
      obtain ⟨hopen, hfailed⟩ := addError_eq_none he
      rw [exec_prscAdd_acting hidle hp hpr hopen hfailed] at hn
      cases hn
      exact .inFlight _ _ hpr
  · rw [unlessActing_of_ne hpr] at hrun
    exact andThen_prscDone_next hrun

/-- Everything CLOSE can do: be over at its checks, go in flight for an acting callback, or end in one step (R82). -/
theorem exec_prscClose_next (hn : exec (.prscClose h) s = .next t) : PrscCommandNext s h t := by
  obtain ⟨hidle, hlive⟩ := whenIdle_next hn
  obtain ⟨p, hp, hrun⟩ := withPrsc_next hlive
  by_cases hpr : p.progress = .acting
  · cases hclosed : p.closed with
    | true =>
      rw [exec_prscClose_of_closed hidle hp hclosed] at hn
      cases hn
      exact .respond hp _
    | false =>
      cases hfailed : p.failed with
      | true =>
        rw [exec_prscClose_of_failed hidle hp hclosed hfailed] at hn
        cases hn
        exact .respond hp _
      | false =>
        rw [exec_prscClose_acting hidle hp hpr hclosed hfailed] at hn
        cases hn
        exact .inFlight _ _ hpr
  · rw [unlessActing_of_ne hpr] at hrun
    exact andThen_prscDone_next hrun

end

/-- Settles O52: both commands leave one of the two states of `PrscCommandNext`, in which one slot is written. -/
theorem prscCommandsTouchTheirOwnInstanceOnly : Obligations.PrscCommandsTouchTheirOwnInstanceOnly := by
  intro s t h bytes hn
  have hnext : PrscCommandNext s h t := hn.elim exec_prscAdd_next exec_prscClose_next
  have hothers (x : PrscSlot) (k : Nat) (hk : k ≠ h) : (s.prscs.set h x)[k]? = s.prscs[k]? :=
    List.getElem?_set_ne hk.symm
  cases hnext with
  | ended q r ns =>
    exact ⟨hothers _, List.length_set, rfl, rfl, rfl, rfl, rfl, .inl ⟨rfl, ⟨r, rfl⟩, ns, rfl⟩⟩
  | inFlight q job hpr =>
    exact ⟨hothers _, List.length_set, rfl, rfl, rfl, rfl, rfl, .inr ⟨q, job, rfl, hpr, rfl, rfl⟩⟩

end Sys2Proof.Machine
end

section
/-!
PROOFS. Family 70_reset_and_hazards: a command of no instance answers by its operands alone and leaves nothing behind
(R47, R148, R153).
-/

namespace Sys2Proof.Machine

/-! ## Runs that are the same from every idle state (R153) -/

/-- `run` completes from every idle state, and adds the same response, sink entries and notifications to each. -/
def AnswersAlike (run : State → Out) : Prop :=
  ∃ r items ns, ∀ s : State, s.active = .idle → run s = .next { s with
    responses := s.responses ++ [r]
    sink := s.sink ++ items
    notes := s.notes ++ ns }

theorem AnswersAlike.congr {run run' : State → Out} (h : AnswersAlike run')
    (hrun : ∀ {s : State}, s.active = .idle → run s = run' s) : AnswersAlike run := by
  obtain ⟨r, items, ns, halike⟩ := h
  exact ⟨r, items, ns, fun s hidle => (hrun hidle).trans (halike s hidle)⟩

/-- A compression command writes to no sink. -/
theorem AnswersAlike.of_notes {run : State → Out} (r : Response) (ns : List Note)
    (h : ∀ {s : State}, s.active = .idle → run s = .next { s with
      responses := s.responses ++ [r]
      notes := s.notes ++ ns }) : AnswersAlike run :=
  ⟨r, [], ns, fun s hidle => by rw [h hidle, List.append_nil]⟩

/-- A decoder command notifies nobody. -/
theorem AnswersAlike.of_sink {run : State → Out} (r : Response) (items : List (Nat × SinkItem))
    (h : ∀ {s : State}, s.active = .idle → run s = .next { s with
      responses := s.responses ++ [r]
      sink := s.sink ++ items }) : AnswersAlike run :=
  ⟨r, items, [], fun s hidle => by rw [h hidle, List.append_nil]⟩

/-! ## The decoder commands (R127 to R131) -/

/-- A PRS decode returns or raises, before the machine is looked at. -/
theorem prsdDecode_answersAlike (input : Bytes) {mode : Mode} {maxOut : Nat} (sink : Nat)
    (hmax : mode = .trace → maxOut = 0) :
    AnswersAlike (prsdDeliver (prsdDecode (Prsd.start input mode maxOut sink))) := by
  have hanswers := prsdDecode_answers input sink hmax
  cases ho : prsdDecode (Prsd.start input mode maxOut sink) with
  | ok p => exact .of_sink _ _ fun hidle => prsdDeliver_ok hidle p
  | raised p e => exact .of_sink _ _ fun hidle => prsdDeliver_raised hidle p e
  | fault f => rw [ho] at hanswers; exact hanswers.elim

/-- A BC0 decode returns, before the machine is looked at. -/
theorem bc0dDecode_answersAlike (input : Bytes) (mode : Mode) (sink : Nat) :
    AnswersAlike (bc0dDeliver (bc0dDecode (Bc0d.start input mode sink))) := by
  obtain ⟨recs, m, hrun⟩ := exists_bc0Run (Reader.start input) 0
  obtain ⟨d, hd, -⟩ := bc0dDecode_of_run hrun mode sink
  rw [hd]
  exact .of_sink _ _ fun hidle => bc0dDeliver_some hidle d

/-- Settles O50: a compression command returns its input's stream, and a decoder command delivers its input's decode. -/
theorem commandsNeverInfluenceEachOther : Obligations.CommandsNeverInfluenceEachOther := by
  intro i hi
  change AnswersAlike (exec i)
  obtain ⟨bytes, level, pr, rfl, hpr⟩ | ⟨bytes, pr, rfl, hpr⟩ | ⟨bytes, maxOut, rfl⟩ | ⟨bytes, maxOut, rfl⟩ |
    ⟨k, bytes, rfl⟩ | ⟨bytes, rfl⟩ | ⟨k, bytes, rfl⟩ := hi
  · exact .of_notes _ _ fun hidle => exec_prsCompress_passive hidle bytes level hpr
  · exact .of_notes _ _ fun hidle => exec_bc0Compress_passive hidle bytes hpr
  · exact (prsdDecode_answersAlike bytes (mode := .bytes) 0 nofun).congr fun hidle => exec_prsDecompress hidle bytes maxOut
  · exact (prsdDecode_answersAlike bytes (mode := .size) 0 nofun).congr fun hidle =>
      exec_prsDecompressSize hidle bytes maxOut
  · exact (prsdDecode_answersAlike bytes k fun _ => rfl).congr fun hidle => exec_prsDisassemble hidle k bytes
  · exact (bc0dDecode_answersAlike bytes .bytes 0).congr fun hidle => exec_bc0Decompress hidle bytes
  · exact (bc0dDecode_answersAlike bytes .trace k).congr fun hidle => exec_bc0Disassemble hidle k bytes

end Sys2Proof.Machine
end
